-- ==== Sys2Proof/Word.lean ====
section
/-! DEFINITION. The words the part's ports and chains carry, and the numbers that name its slots, lines and levels. -/

namespace Sys2Proof

/-- A word of the management port (spec chapter 9: every word is 16 bits). -/
abbrev Word16 := BitVec 16

/-- A byte of the traffic link. -/
abbrev Byte := BitVec 8

/-- A service tag, 20 bits (section 6.3). -/
abbrev Tag := BitVec 20

/-- An image of a serial chain: bit n belongs to line n (R176). -/
abbrev Image := BitVec 24

/-- A set of events: bit n stands for event n of Table 64 (R174). -/
abbrev EventSet := BitVec 9

/-- A record slot, set × 4 + way (section 6.3). -/
abbrev Slot := Fin 128

/-- A line number. -/
abbrev LineNo := Fin 24

/-- A level of the power ladder. -/
abbrev Level := Fin 4

end Sys2Proof
end

