-- ==== Sys2Proof/Syntax.lean ====
section
/-! DEFINITION. The commands and events of the part: one constructor for each row of spec/opcode_table.json. -/

namespace Sys2Proof

/-- The class of a service (Table 5). -/
inductive Class where
  | standard
  | essential
deriving DecidableEq, Repr

/-- What the controller shifts in during a command transaction, less the command code: the fields of the
command word (Table 71), the complete argument words after it, and whether chip select rose inside a word. -/
structure Frame where
  /-- Bits 7 to 5 of the command word, which the port ignores. -/
  unused : BitVec 3
  /-- The argument count field. -/
  count : BitVec 5
  /-- The complete argument words received. -/
  args : List Word16
  /-- The transaction ended with a partial word. -/
  partialWord : Bool
deriving DecidableEq, Repr

/-- The covered fields of a record as a disturbance of the record memory leaves them (R5): every covered
field but the state, each at the width of its largest value. -/
structure Alteration where
  slot : Slot
  tag : Tag
  line : BitVec 5
  cls : Class
  upCir : Word16
  upPir : Word16
  dcu : BitVec 12
  dpu : BitVec 12
  weight : BitVec 4
  downCir : Word16
  downPir : Word16
  dcd : BitVec 12
  dpd : BitVec 12
deriving DecidableEq, Repr

/-- The steps of the part, in the order of the opcode table. An operand is what the step takes from outside:
a transaction's frame, a message's fields, a pin's level or a converter's code. -/
inductive Instr where
  | admitService (f : Frame)
  | amendService (f : Frame)
  | retireService (f : Frame)
  | retireSlot (f : Frame)
  | barService (f : Frame)
  | unbarService (f : Frame)
  | lookUpService (f : Frame)
  | probeSlot (f : Frame)
  | clearCounters (f : Frame)
  | forceCheckError (f : Frame)
  | readFault (f : Frame)
  | lightLine (f : Frame)
  | serveLine (f : Frame)
  | suspendLine (f : Frame)
  | darkenLine (f : Frame)
  | clearFault (f : Frame)
  | readLine (f : Frame)
  | requestTest (f : Frame)
  | cancelTest (f : Frame)
  | readTestQueue (f : Frame)
  | readLadder (f : Frame)
  | readStatus (f : Frame)
  | acknowledgeEvents (f : Frame)
  | setEventMask (f : Frame)
  | readSetting (f : Frame)
  | writeSetting (f : Frame)
  | storeSettings (f : Frame)
  | restart (f : Frame)
  /-- A command transaction whose code is in no row of Table 61. -/
  | undefinedCommandCode (code : Byte) (f : Frame)
  | transactionBegin
  /-- The end of slot 1 with code 0; `rest` is the word's other fields, which R151 ignores. -/
  | fetch (rest : Byte)
  /-- The rise of chip select that ends a fetch; `slots` is how many slots had ended before it. -/
  | fetchComplete (slots : Nat)
  | managementRequestTake
  | managementRequestCompletion
  /-- `held` is whether the cells hold the values written (R170). -/
  | storeCompletion (held : Bool)
  | resolve (query : Byte) (tag : Tag) (length : Word16)
  | backlog (tag : Tag) (credits : Word16)
  | capacity (up down : Word16)
  | unknownInboundTypeDiscard (kind : Byte)
  | lookupEvent
  | resolveCompletion
  | verdictEmission
  | transmissionCompletion
  | cycleExpiry
  | rosterSnapshot
  | grantEmission
  | roundEndEmission
  | powerChainLatch
  | relayLatchCompletion
  | relaySettleExpiry
  /-- `capin` is the level of CAPIN at the event (R111). -/
  | pathSettleExpiry (capin : Bool)
  | converterSample (code : BitVec 10)
  | referenceGateExpiry
  | pairGateExpiry
  /-- `ticks` is what the capture timer has counted at the edge (R111). -/
  | capinEdge (ticks : Word16)
  | captureTimeout
  | dischargeExpiry
  | cadenceExpiry
  | toneDurationExpiry
  | testCompletion
  | minuteTickExpiry
  | oneSecondTickExpiry
  /-- `bsense` is the voltage at BSENSE in microvolts (R137). -/
  | comparisonSettleExpiry (bsense : Nat)
  /-- `bsense` as above; `mains` is the MAINS input (R138). -/
  | sampleEnd (bsense : Nat) (mains : Bool)
  | recordDisturbance (a : Alteration)
  | powerOnReset
  | pinReset
  | supplyReturn
  | resetnRise
  | settingsLoadCompletion
  /-- `start` is the level of the start line with the byte (R175). -/
  | inboundByteTaken (start : Bool) (byte : Byte)
  | oscillatorEdge
  | nonvolatileValueLoss
deriving DecidableEq, Repr

end Sys2Proof
end

