-- ==== Sys2Proof/Decode.lean ====
section
/-! DEFINITION. Reading a command: from a table word (the opcode table gives no row any bits, so none is spelled), and from the words of a management transaction, whose first word is the command word. -/

namespace Sys2Proof

/-- The command that a word spells by the opcode table's bits: none, since no row of the table has bits
(log entry 22). -/
def decodeTableWord (_nbits _w : Nat) : Option Instr := none

/-- The row of a command code (Table 61): the code of each command is its row number there, from 01h, and any other code
is no command. -/
def commandRow (code : Byte) (f : Frame) : Instr :=
  match code.toNat with
  | 0x01 => .admitService f
  | 0x02 => .amendService f
  | 0x03 => .retireService f
  | 0x04 => .retireSlot f
  | 0x05 => .barService f
  | 0x06 => .unbarService f
  | 0x07 => .lookUpService f
  | 0x08 => .probeSlot f
  | 0x09 => .clearCounters f
  | 0x0A => .forceCheckError f
  | 0x0B => .readFault f
  | 0x0C => .lightLine f
  | 0x0D => .serveLine f
  | 0x0E => .suspendLine f
  | 0x0F => .darkenLine f
  | 0x10 => .clearFault f
  | 0x11 => .readLine f
  | 0x12 => .requestTest f
  | 0x13 => .cancelTest f
  | 0x14 => .readTestQueue f
  | 0x15 => .readLadder f
  | 0x16 => .readStatus f
  | 0x17 => .acknowledgeEvents f
  | 0x18 => .setEventMask f
  | 0x19 => .readSetting f
  | 0x1A => .writeSetting f
  | 0x1B => .storeSettings f
  | 0x1C => .restart f
  | _ => .undefinedCommandCode code f

/-- The row that a management transaction is, from its complete word slots and whether it ended with a partial word: the
word of slot 1 is a fetch when its code is 0, whatever its other fields hold, and otherwise the command word, whose code
names the row and whose count field and argument words make its frame. A transaction whose slot 1 never completed has no
kind (R151, Table 71). -/
def transactionRow (words : List Word16) (partialWord : Bool) : Option Instr :=
  match words with
  | [] => none
  | w :: args =>
    if w.extractLsb' 8 8 = 0#8 then some (.fetch (w.extractLsb' 0 8))
    else some (commandRow (w.extractLsb' 8 8) ⟨w.extractLsb' 5 3, w.extractLsb' 0 5, args, partialWord⟩)

end Sys2Proof
end

