-- ==== Sys2Proof/Machine/Settings.lean ====
section
/-! DEFINITION. The settings of Table 67: their values, identifiers, ranges, defaults, and the clamp of R168. -/

namespace Sys2Proof.Machine

/-- The seven measurements, in the fixed order of R123 and the measurement numbers of Table 74. -/
inductive Meas where
  | vdcTg
  | vdcRg
  | vac
  | risTg
  | risRg
  | rloop
  | cap
deriving DecidableEq, Repr

/-- The measurement number (Table 74). -/
def Meas.number : Meas → Fin 7
  | .vdcTg => 0
  | .vdcRg => 1
  | .vac => 2
  | .risTg => 3
  | .risRg => 4
  | .rloop => 5
  | .cap => 6

/-- The seven measurements in their fixed order. -/
def Meas.all : List Meas := [.vdcTg, .vdcRg, .vac, .risTg, .risRg, .rloop, .cap]

/-- The mode of a limit window (Table 52), in the order of its codes. -/
inductive WindowMode where
  | passInside
  | passOutside
  | ignore
deriving DecidableEq, Repr

/-- The severity of a limit window (Table 52), in the order of its codes. -/
inductive Severity where
  | marginal
  | faulty
deriving DecidableEq, Repr

/-- A limit window (Table 52). -/
structure Window where
  low : Int
  high : Int
  mode : WindowMode
  severity : Severity
deriving DecidableEq, Repr

/-- One value for every setting of Table 67. -/
structure Settings where
  cyclePeriod : Nat
  budget : Vector Nat 4
  bandMap : Vector Level 8
  thresholds : Vector Nat 7
  riseCount : Nat
  fallCount : Nat
  samplePeriod : Nat
  relaySettle : Nat
  gateTime : Nat
  rref : Nat
  kc : Nat
  headCost : Nat
  shedClass : Vector Nat 24
  cost : Vector Nat 24
  /-- Four limit sets of seven windows, by measurement number (R127). -/
  limits : Vector (Vector Window 7) 4
deriving DecidableEq, Repr

/-- The default window: mode IGNORE, low 0, high 0, severity MARGINAL (R127). -/
def defaultWindow : Window := ⟨0, 0, .ignore, .marginal⟩

/-- The defaults of Table 67. -/
def defaultSettings : Settings where
  cyclePeriod := 4
  budget := #v[4095, 1200, 600, 200]
  bandMap := #v[3, 3, 2, 2, 1, 1, 0, 0]
  thresholds := #v[80, 84, 88, 92, 96, 100, 104]
  riseCount := 2
  fallCount := 6
  samplePeriod := 10
  relaySettle := 10
  gateTime := 100
  rref := 100000
  kc := 64
  headCost := 15
  shedClass := Vector.replicate 24 2
  cost := Vector.replicate 24 40
  limits := Vector.replicate 4 (Vector.replicate 7 defaultWindow)

/-- The four fields of a limit window, by field number (section 11.1). -/
inductive WindowField where
  | low
  | high
  | mode
  | severity
deriving DecidableEq, Repr

/-- What a setting identifier names (Table 67). -/
inductive SettingId where
  | cyclePeriod
  | budget (level : Fin 4)
  | bandMap (band : Fin 8)
  | threshold (k : Fin 7)
  | riseCount
  | fallCount
  | samplePeriod
  | relaySettle
  | gateTime
  | rref
  | kc
  | headCost
  | shedClass (line : LineNo)
  | cost (line : LineNo)
  | window (set : Fin 4) (meas : Fin 7) (field : WindowField)
deriving DecidableEq, Repr

/-- The window field of a field number 0 to 3. -/
def windowFieldOf (k : Nat) : WindowField :=
  if k = 0 then .low else if k = 1 then .high else if k = 2 then .mode else .severity

/-- The setting that an identifier of Table 67 names, or none. Identifiers 256 + 32 × set + 28 to 31 name no
field. -/
def settingOf (id : Nat) : Option SettingId :=
  if id = 0 then some .cyclePeriod
  else if h : 1 ≤ id ∧ id ≤ 4 then some (.budget ⟨id - 1, by omega⟩)
  else if h : 5 ≤ id ∧ id ≤ 12 then some (.bandMap ⟨id - 5, by omega⟩)
  else if h : 13 ≤ id ∧ id ≤ 19 then some (.threshold ⟨id - 13, by omega⟩)
  else if id = 20 then some .riseCount
  else if id = 21 then some .fallCount
  else if id = 22 then some .samplePeriod
  else if id = 23 then some .relaySettle
  else if id = 24 then some .gateTime
  else if id = 25 then some .rref
  else if id = 26 then some .kc
  else if id = 27 then some .headCost
  else if h : 32 ≤ id ∧ id ≤ 55 then some (.shedClass ⟨id - 32, by omega⟩)
  else if h : 64 ≤ id ∧ id ≤ 87 then some (.cost ⟨id - 64, by omega⟩)
  else if h : 256 ≤ id ∧ id ≤ 383 then
    if hm : (id - 256) % 32 / 4 < 7 then
      some (.window ⟨(id - 256) / 32, by omega⟩ ⟨(id - 256) % 32 / 4, hm⟩ (windowFieldOf ((id - 256) % 4)))
    else none
  else none

/-- A number clamped to a range (section 6.2). -/
def clampNat (lo hi v : Nat) : Nat := max lo (min hi v)

/-- A signed number clamped to a range (section 6.2). -/
def clampInt (lo hi v : Int) : Int := max lo (min hi v)

/-- The mode of a code; a code above 2 becomes IGNORE (R168). -/
def modeOf (v : Nat) : WindowMode := if v = 0 then .passInside else if v = 1 then .passOutside else .ignore

/-- The severity of a code; a code above 1 becomes FAULTY (R168). -/
def severityOf (v : Nat) : Severity := if v = 0 then .marginal else .faulty

/-- The code of a mode (section 11.1). -/
def modeCode : WindowMode → Nat
  | .passInside => 0
  | .passOutside => 1
  | .ignore => 2

/-- The code of a severity (section 11.1). -/
def severityCode : Severity → Nat
  | .marginal => 0
  | .faulty => 1

/-- The level of a number clamped to 0..3. -/
def levelOf (v : Nat) : Level := ⟨min 3 v, by omega⟩

/-- The range of the low and high fields (Table 52). -/
def clampLimit (v : Int) : Int := clampInt (-16777216) 16777215 v

/-- A window field written from a 32-bit value: low and high take it as signed, mode and severity as unsigned
codes (R168). -/
def Window.writeField (w : Window) (f : WindowField) (v : BitVec 32) : Window :=
  match f with
  | .low => { w with low := clampLimit v.toInt }
  | .high => { w with high := clampLimit v.toInt }
  | .mode => { w with mode := modeOf v.toNat }
  | .severity => { w with severity := severityOf v.toNat }

/-- A setting written from a 32-bit value, clamped to its range (R168, Table 67). -/
def Settings.write (g : Settings) (id : SettingId) (v : BitVec 32) : Settings :=
  match id with
  | .cyclePeriod => { g with cyclePeriod := clampNat 1 16 v.toNat }
  | .budget l => { g with budget := g.budget.set l (clampNat 0 4095 v.toNat) }
  | .bandMap b => { g with bandMap := g.bandMap.set b (levelOf v.toNat) }
  | .threshold k => { g with thresholds := g.thresholds.set k (clampNat 0 255 v.toNat) }
  | .riseCount => { g with riseCount := clampNat 1 15 v.toNat }
  | .fallCount => { g with fallCount := clampNat 1 15 v.toNat }
  | .samplePeriod => { g with samplePeriod := clampNat 1 255 v.toNat }
  | .relaySettle => { g with relaySettle := clampNat 1 50 v.toNat }
  | .gateTime => { g with gateTime := clampNat 10 250 v.toNat }
  | .rref => { g with rref := clampNat 1 1000000 v.toNat }
  | .kc => { g with kc := clampNat 1 65535 v.toNat }
  | .headCost => { g with headCost := clampNat 0 255 v.toNat }
  | .shedClass n => { g with shedClass := g.shedClass.set n (clampNat 1 4 v.toNat) }
  | .cost n => { g with cost := g.cost.set n (clampNat 0 255 v.toNat) }
  | .window k m f => { g with limits := g.limits.set k (g.limits[k].set m (g.limits[k][m].writeField f v)) }

/-- The value of a window field as a number. -/
def Window.readField (w : Window) : WindowField → Int
  | .low => w.low
  | .high => w.high
  | .mode => modeCode w.mode
  | .severity => severityCode w.severity

/-- The value the working copy holds for a setting (R169). -/
def Settings.read (g : Settings) : SettingId → Int
  | .cyclePeriod => g.cyclePeriod
  | .budget l => g.budget[l]
  | .bandMap b => (g.bandMap[b]).val
  | .threshold k => g.thresholds[k]
  | .riseCount => g.riseCount
  | .fallCount => g.fallCount
  | .samplePeriod => g.samplePeriod
  | .relaySettle => g.relaySettle
  | .gateTime => g.gateTime
  | .rref => g.rref
  | .kc => g.kc
  | .headCost => g.headCost
  | .shedClass n => g.shedClass[n]
  | .cost n => g.cost[n]
  | .window k m f => g.limits[k][m].readField f

/-- A window whose limits are clamped to their range. -/
def Window.clamp (w : Window) : Window := { w with low := clampLimit w.low, high := clampLimit w.high }

/-- Every value clamped to its range, as a settings load does (R171). -/
def Settings.clamp (g : Settings) : Settings where
  cyclePeriod := clampNat 1 16 g.cyclePeriod
  budget := g.budget.map (clampNat 0 4095)
  bandMap := g.bandMap
  thresholds := g.thresholds.map (clampNat 0 255)
  riseCount := clampNat 1 15 g.riseCount
  fallCount := clampNat 1 15 g.fallCount
  samplePeriod := clampNat 1 255 g.samplePeriod
  relaySettle := clampNat 1 50 g.relaySettle
  gateTime := clampNat 10 250 g.gateTime
  rref := clampNat 1 1000000 g.rref
  kc := clampNat 1 65535 g.kc
  headCost := clampNat 0 255 g.headCost
  shedClass := g.shedClass.map (clampNat 1 4)
  cost := g.cost.map (clampNat 0 255)
  limits := g.limits.map fun set => set.map Window.clamp

end Sys2Proof.Machine
end

