-- ==== Sys2Proof/Machine/State.lean ====
section
/-! DEFINITION. The state of the part, block by block (Table 1), and the state after reset. -/

namespace Sys2Proof.Machine

/-! ### Service records (chapter 1) -/

/-- The state of a record (R3), in the order of the codes of Table 74. -/
inductive RecordState where
  | free
  | standby
  | active
  | barred
  | damaged
deriving DecidableEq, Repr

/-- The fields a check code covers (R5). -/
structure Covered where
  tag : Tag
  line : Nat
  cls : Class
  state : RecordState
  upCir : Nat
  upPir : Nat
  dcu : Nat
  dpu : Nat
  weight : Nat
  downCir : Nat
  downPir : Nat
  dcd : Nat
  dpd : Nat
deriving DecidableEq, Repr

/-- A check code, held symbolically: the covered fields it was computed over, and whether it was stored inverted
(R5, R10). DEDUCED, log entry 5: two different contents never share a code. -/
structure CheckCode where
  covers : Covered
  inverted : Bool
deriving DecidableEq, Repr

/-- A service record (Table 5). -/
structure Record where
  cov : Covered
  kcu : Nat
  kpu : Nat
  kcd : Nat
  kpd : Nat
  demand : Nat
  upGranted : Nat
  downPassed : Nat
  downExcess : Nat
  downDropped : Nat
  code : CheckCode
deriving DecidableEq, Repr

/-- The covered fields of a cleared slot (Table 6). -/
def clearedCovered : Covered where
  tag := 0
  line := 0
  cls := .standard
  state := .free
  upCir := 0
  upPir := 0
  dcu := 1
  dpu := 1
  weight := 1
  downCir := 0
  downPir := 0
  dcd := 1
  dpd := 1

/-- The cleared slot contents (Table 6), with a check code that matches them. -/
def clearedRecord : Record where
  cov := clearedCovered
  kcu := 0
  kpu := 0
  kcd := 0
  kpd := 0
  demand := 0
  upGranted := 0
  downPassed := 0
  downExcess := 0
  downDropped := 0
  code := ⟨clearedCovered, false⟩

/-- The operation a fault capture names (R8), in the order of the codes of Table 74. -/
inductive FaultOp where
  | resolve
  | lookup
  | amend
  | bar
  | roster
deriving DecidableEq, Repr

/-- The entry of the fault capture (R8). -/
structure Capture where
  slot : Slot
  tag : Tag
  op : FaultOp
deriving DecidableEq, Repr

/-- A verdict (Table 28), in the order of its codes (section 12.3). -/
inductive Verdict where
  | pass
  | excess
  | drop
  | held
  | barred
  | unknown
  | fault
  | refused
deriving DecidableEq, Repr

/-- The contents of a VERDICT (R71). -/
structure VerdictMsg where
  query : Byte
  verdict : Verdict
  line : Nat
  cls : Class
deriving DecidableEq, Repr

/-- The request in service at the table engine (R11). A roster request completes at its snapshot (R82), so it is
never found in service between events. -/
inductive Service where
  | free
  /-- A decided resolve that waits for the held verdict (R62). -/
  | resolve (v : VerdictMsg)
  /-- A management request taken and not yet completed, with the response it will deliver (R11). -/
  | management (response : List Word16)
deriving DecidableEq, Repr

/-- The table engine and the fault capture. -/
structure Engine where
  service : Service
  capture : Option Capture
  overflow : Bool
deriving DecidableEq, Repr

/-! ### Lines (chapter 2) -/

/-- A line state other than UNDER_TEST; also the values of a return state (Table 13). -/
inductive RestState where
  | dark
  | suspended
  | inService
  | faulted
deriving DecidableEq, Repr

/-- The state of a line. A return state is present exactly while the line is UNDER_TEST (R27). -/
inductive LineState where
  | rest (r : RestState)
  | underTest (ret : RestState)
deriving DecidableEq, Repr

/-- The values of a pre-shed state (Table 13). -/
inductive PreShed where
  | suspended
  | inService
deriving DecidableEq, Repr

/-- A test verdict (Table 53), in the order of the codes of Table 74. -/
inductive TestVerdict where
  | good
  | marginal
  | faulty
  | inconclusive
  | aborted
deriving DecidableEq, Repr

/-- The cause of an abort (R125). -/
inductive Cause where
  | host
  | power
deriving DecidableEq, Repr

/-- The result record of a measurement (R105); the value is absent on a head fault. -/
structure Result where
  value : Option Int
  saturated : Bool
  headFault : Bool
deriving DecidableEq, Repr

/-- The judgement of a result (R128); a FAIL carries its window's severity. -/
inductive Judgement where
  | notJudged
  | pass
  | fail (sev : Severity)
deriving DecidableEq, Repr

/-- A kept result with its judgement (R130). -/
structure Judged where
  result : Result
  judgement : Judgement
deriving DecidableEq, Repr

/-- A line's condition record (R130). -/
structure Condition where
  verdict : TestVerdict
  cause : Option Cause
  limitSet : Fin 4
  results : Vector (Option Judged) 7
  tonePlayed : Bool
  age : Nat
deriving DecidableEq, Repr

/-- A line record (Table 13). The shed class and the cost are the working copy's (R25). The shed mark and the
pre-shed state are set and removed together (R28): `shed` is the pre-shed state of a marked line. -/
structure Line where
  state : LineState
  shed : Option PreShed
  attached : List Slot
  condition : Option Condition
deriving DecidableEq, Repr

/-- A line record after reset (R42). -/
def resetLine : Line := ⟨.rest .dark, none, [], none⟩

/-- A serial chain: the power chain (R33) or the relay chain (R99). -/
structure Chain where
  commanded : Image
  latched : Image
  /-- The image being shifted, while the chain is shifting; `Chain.signals` gives its bits in order. -/
  shifting : Option Image
  /-- The image that waits behind the shift in progress. -/
  pending : Option Image
deriving DecidableEq, Repr

/-! ### Metering (chapter 3) -/

/-- The metering unit's own registers (R45, R49); the buckets are in the records. -/
structure Meter where
  countedUp : Vector Nat 128
  countedDown : Vector Nat 128
  sumUp : Nat
  sumDown : Nat
  f : Nat
deriving DecidableEq, Repr

/-- The metering unit after reset (R56). -/
def resetMeter : Meter := ⟨Vector.replicate 128 0, Vector.replicate 128 0, 0, 0, 4096⟩

/-! ### The traffic link (chapter 4) -/

/-- A resolve request (R58). -/
structure Request where
  query : Byte
  tag : Tag
  length : Nat
deriving DecidableEq, Repr

/-- The traffic link interface. -/
structure Link where
  /-- The resolve queue, oldest first. -/
  queue : List Request
  held : Option VerdictMsg
  /-- The query numbers of the refusal list, oldest first. -/
  refusals : List Byte
  /-- The bytes of the message being sent; none while the transmitter is idle. `Link.outbound` gives them with the level of
  the start line. -/
  sending : Option (List Byte)
  capUp : Nat
  capDown : Nat
  stale : Bool
  staleCount : Nat
  unmatched : Nat
  /-- The bytes received of a message whose eighth byte has not come. -/
  receiving : List Byte
deriving DecidableEq, Repr

/-- The traffic link interface after reset (R73). -/
def resetLink : Link := ⟨[], none, [], none, 0, 0, false, 0, 0, []⟩

/-! ### Grant rounds (chapter 5) -/

/-- A roster entry (Table 33). -/
structure RosterEntry where
  slot : Slot
  tag : Tag
  cls : Class
  weight : Nat
  demand : Nat
  kc : Nat
  kp : Nat
deriving DecidableEq, Repr

/-- A roster entry with its grant. -/
structure Share where
  entry : RosterEntry
  grant : Nat
deriving DecidableEq, Repr

/-- What the round engine holds while EMITTING (Table 31, R80). -/
structure Emission where
  capacity : Nat
  pUsed : Slot
  /-- The roster with the computed grants. -/
  shares : List Share
  /-- The grants still to be offered; its head is on offer, and ROUND END is on offer when it is empty. -/
  offers : List Share
  sentCount : Nat
  sentTotal : Nat
  withheld : Nat
deriving DecidableEq, Repr

/-- The state of the round engine (Table 31). -/
inductive RoundPhase where
  | idle
  | snapshotWait
  | emitting (e : Emission)
deriving DecidableEq, Repr

/-- The round engine and the cycle timer. -/
structure Round where
  phase : RoundPhase
  number : Byte
  pointer : Slot
  deferred : Bool
  slips : Nat
  /-- The length of the cycle period in progress, in steps of 250 µs (R74). -/
  period : Nat
deriving DecidableEq, Repr

/-- The round engine at the end of a reset, with the loaded cycle period (R98). -/
def resetRound (period : Nat) : Round := ⟨.idle, 0, 0, false, 0, period⟩

/-! ### Tests (chapters 6 and 7) -/

/-- The tone values of a test (R113). -/
structure ToneVals where
  reload : Nat
  on : Nat
  off : Nat
  duration : Nat
deriving DecidableEq, Repr

/-- A test queue entry (Table 50); bit k of the measurement set stands for measurement k. -/
structure TestEntry where
  line : LineNo
  items : BitVec 7
  tone : Option ToneVals
  limitSet : Fin 4
  autoHold : Bool
deriving DecidableEq, Repr

/-- The stage of a test in flight (Table 51); NONE is the absence of a test. -/
inductive Stage where
  | connect
  | measure (m : Meas)
  | tone
  | disconnect
  | evaluate
deriving DecidableEq, Repr

/-- The judgements and the verdict formed at the entry to EVALUATE (R124). -/
structure Evaluation where
  verdict : TestVerdict
  judged : Vector (Option Judged) 7
deriving DecidableEq, Repr

/-- The test in flight (R122). -/
structure Test where
  entry : TestEntry
  stage : Stage
  results : Vector (Option Result) 7
  tonePlayed : Bool
  abort : Option Cause
  /-- The length in milliseconds of the relay settle wait in progress (R101). -/
  settle : Option Nat
  evaluation : Option Evaluation
deriving DecidableEq, Repr

/-- The test controller. -/
structure Tests where
  queue : List TestEntry
  current : Option Test
deriving DecidableEq, Repr

/-- The paths of Table 83, in the order of their codes. -/
inductive Path where
  | none
  | tgDc
  | rgDc
  | trAc
  | reference
  | tgRes
  | rgRes
  | trRes
  | charge
  | drive
deriving DecidableEq, Repr

/-- The three measurements made by the converter. -/
inductive VoltItem where
  | vdcTg
  | vdcRg
  | vac
deriving DecidableEq, Repr

/-- The three measurements made by the oscillator count. -/
inductive ResItem where
  | risTg
  | risRg
  | rloop
deriving DecidableEq, Repr

/-- A resistance measurement with the settings read at its start (R109, R110). -/
structure ResWork where
  item : ResItem
  gate : Nat
  rref : Nat
deriving DecidableEq, Repr

/-- What the samples of a voltage measurement have given so far (R107, R108). -/
structure Samples where
  count : Nat
  sum : Nat
  least : Nat
  most : Nat
deriving DecidableEq, Repr

/-- How the charge of CAP ended (Table 45), with the ticks counted. -/
inductive ChargeEnd where
  | alreadyHigh
  | edge (ticks : Nat)
  | timeout
deriving DecidableEq, Repr

/-- What the head does after a path settle (R104). -/
inductive Work where
  | volt (i : VoltItem)
  | resReference (w : ResWork)
  | resPair (w : ResWork) (nref : Nat)
  | cap (kc : Nat)
  | tone (t : ToneVals)
deriving DecidableEq, Repr

/-- The states of the head (Table 43) with what each holds. -/
inductive HeadPhase where
  | idle
  | pathSettle (w : Work)
  | sampling (i : VoltItem) (a : Samples)
  | refGate (w : ResWork)
  | pairGate (w : ResWork) (nref : Nat)
  | charge (kc : Nat)
  | discharge (kc : Nat) (e : ChargeEnd)
  | toneOn (t : ToneVals)
  | toneOff (t : ToneVals)
deriving DecidableEq, Repr

/-- The test head and its pins. -/
structure Head where
  headen : Bool
  phase : HeadPhase
  path : Path
  tchg : Bool
  /-- The tone output carries the square wave, of the frequency `Head.toneHertz` gives; low otherwise. -/
  tone : Bool
  osc : Nat
  timer : Nat
deriving DecidableEq, Repr

/-- The test head after reset (R117). -/
def resetHead : Head := ⟨false, .idle, .none, false, false, 0, 0⟩

/-! ### The power ladder (chapter 8) -/

/-- The sampler (R137): in a comparison it holds the comparator's threshold code and the bits found before. -/
inductive Sampler where
  | idle
  | compare1 (code : Nat)
  | compare2 (b2 : Bool) (code : Nat)
  | compare3 (b2 b1 : Bool) (code : Nat)
deriving DecidableEq, Repr

/-- The power ladder. The sampled flag is 0 from a reset to the end of the initial sample (R149). -/
structure Ladder where
  level : Level
  band : Fin 8
  mains : Bool
  target : Level
  sampled : Bool
  rise : Nat
  fall : Nat
  count : Nat
  sampler : Sampler
deriving DecidableEq, Repr

/-- The power ladder after reset (R150), with the sampler as given. -/
def resetLadder (sampler : Sampler) : Ladder := ⟨3, 0, false, 3, false, 0, 0, 0, sampler⟩

/-! ### The management port (chapter 9) -/

/-- The provisioned values of ADMIT SERVICE and AMEND SERVICE (Table 75). -/
structure Provision where
  cls : Class
  weight : Nat
  upCir : Nat
  upPir : Nat
  dcu : Nat
  dpu : Nat
  downCir : Nat
  downPir : Nat
  dcd : Nat
  dpd : Nat
deriving DecidableEq, Repr

/-- The timed record commands with their arguments (R12). -/
inductive RecordCommand where
  | admission (tag : Tag) (line : Nat) (p : Provision)
  | amend (tag : Tag) (p : Provision)
  | retire (tag : Tag)
  | retireSlot (slot : Nat)
  | bar (tag : Tag)
  | unbar (tag : Tag)
  | lookUp (tag : Tag)
deriving DecidableEq, Repr

/-- The command in flight (R157). -/
inductive InFlight where
  /-- A record command that waits for the table engine. -/
  | record (c : RecordCommand)
  /-- A record command that the table engine has taken. -/
  | taken
  /-- A store in progress (R170). -/
  | store
deriving DecidableEq, Repr

/-- The port state with the response buffer and the command in flight (Table 60). -/
inductive PortState where
  | none
  | wait (c : InFlight)
  | ready (response : List Word16)
deriving DecidableEq, Repr

/-- A transaction in progress: the status word latched at its beginning, and whether slot 1 made it a fetch. -/
structure Txn where
  status : Word16
  fetch : Bool
deriving DecidableEq, Repr

/-- The management port. -/
structure Port where
  state : PortState
  /-- The refused-busy flag. -/
  busy : Bool
  /-- Chip select is low. -/
  csLow : Bool
  txn : Option Txn
  /-- The words shifted out in the present or last transaction, by slot; later slots shift out 0000h. -/
  out : List Word16
deriving DecidableEq, Repr

/-- The management port after reset (R161), chip select as it stands. -/
def resetPort (csLow : Bool) : Port := ⟨.none, false, csLow, none, []⟩

/-! ### Events, settings store and resets (chapters 10 and 11) -/

/-- The reset cause (R166), in the order of the codes of Table 74. -/
inductive ResetCause where
  | powerOn
  | pin
  | command
deriving DecidableEq, Repr

/-- The event block. -/
structure Events where
  pending : EventSet
  mask : EventSet
  cause : ResetCause
deriving DecidableEq, Repr

/-- The stored block: its values, and whether its check word matches them (R167). -/
structure Stored where
  values : Settings
  passes : Bool
deriving DecidableEq, Repr

/-- A reset in progress (R172): which conditions stand, whether the settings load runs, and the kind whose
condition cleared last. -/
structure Hold where
  supplyLow : Bool
  resetnLow : Bool
  loading : Bool
  cause : ResetCause
deriving DecidableEq, Repr

/-! ### The whole -/

/-- The state of the part, and the queue of the commands that wait for it. -/
structure State where
  slots : Vector Record 128
  /-- Force-check-error is armed (R10). -/
  armed : Bool
  engine : Engine
  meter : Meter
  lines : Vector Line 24
  power : Chain
  link : Link
  round : Round
  tests : Tests
  relay : Chain
  head : Head
  ladder : Ladder
  port : Port
  events : Events
  settings : Settings
  stored : Stored
  hold : Option Hold
  /-- The MODEL's own: how many free values have been drawn (log entry 6). -/
  draws : Nat
  /-- The MODEL's own: the commands that wait, the next one first (log entry 1). -/
  pending : List Instr
deriving DecidableEq, Repr

/-- What stops the part: nothing. No rule of the spec ends the part's run, so there is no fault to name. -/
inductive Fault where
deriving DecidableEq, Repr

/-- Why a command would be given no meaning. -/
inductive Refusal where
  /-- An arm of exec that has no meaning yet. No arm raises it: every command is modelled. Safe. -/
  | notModelled (mnemonic : String)
deriving DecidableEq, Repr

/-- A chain at the end of a reset: the all-off image is commanded and its shift begins at once (R33, R116). -/
def resetChain (latched : Image) : Chain := ⟨0, latched, some 0, none⟩

/-- The part right after the power-on reset of a part that has made no store since the factory (log entry 8): the
stored block fails its check, so the working copy holds the defaults and SETTINGS_DEFAULTED is pending (R171);
both chains shift the all-off image, and the initial sample has begun with T4 (R140). The relay chain's
latched image is all off (DESIGN CHOICE, log entry 7), and so is the power chain's (DEDUCED, log entry 28). -/
def State.reset : State where
  slots := Vector.replicate 128 clearedRecord
  armed := false
  engine := ⟨.free, none, false⟩
  meter := resetMeter
  lines := Vector.replicate 24 resetLine
  power := resetChain 0
  link := resetLink
  round := resetRound 4
  tests := ⟨[], none⟩
  relay := resetChain 0
  head := resetHead
  ladder := resetLadder (.compare1 92)
  port := resetPort false
  events := ⟨0x100, 0x1FF, .powerOn⟩
  settings := defaultSettings
  stored := ⟨defaultSettings, false⟩
  hold := none
  draws := 0
  pending := []

end Sys2Proof.Machine
end

