-- ==== Sys2Proof/Machine/Ops.lean ====
section
/-! DEFINITION. Named updates of the state, and the operations that every block shares: the blocks' one-field updates, slots and lines by number, events, and the two serial chains. -/

namespace Sys2Proof.Machine

/-! ### One update for each block -/

/-- The state with `slots` replaced. -/
def State.withSlots (s : State) (x : Vector Record 128) : State := { s with slots := x }

/-- The state with `armed` replaced. -/
def State.withArmed (s : State) (x : Bool) : State := { s with armed := x }

/-- The state with `engine` replaced. -/
def State.withEngine (s : State) (x : Engine) : State := { s with engine := x }

/-- The state with `meter` replaced. -/
def State.withMeter (s : State) (x : Meter) : State := { s with meter := x }

/-- The state with `lines` replaced. -/
def State.withLines (s : State) (x : Vector Line 24) : State := { s with lines := x }

/-- The state with `power` replaced. -/
def State.withPower (s : State) (x : Chain) : State := { s with power := x }

/-- The state with `link` replaced. -/
def State.withLink (s : State) (x : Link) : State := { s with link := x }

/-- The state with `round` replaced. -/
def State.withRound (s : State) (x : Round) : State := { s with round := x }

/-- The state with `tests` replaced. -/
def State.withTests (s : State) (x : Tests) : State := { s with tests := x }

/-- The state with `relay` replaced. -/
def State.withRelay (s : State) (x : Chain) : State := { s with relay := x }

/-- The state with `head` replaced. -/
def State.withHead (s : State) (x : Head) : State := { s with head := x }

/-- The state with `ladder` replaced. -/
def State.withLadder (s : State) (x : Ladder) : State := { s with ladder := x }

/-- The state with `port` replaced. -/
def State.withPort (s : State) (x : Port) : State := { s with port := x }

/-- The state with `events` replaced. -/
def State.withEvents (s : State) (x : Events) : State := { s with events := x }

/-- The state with `settings` replaced. -/
def State.withSettings (s : State) (x : Settings) : State := { s with settings := x }

/-- The state with `stored` replaced. -/
def State.withStored (s : State) (x : Stored) : State := { s with stored := x }

/-- The state with `hold` replaced. -/
def State.withHold (s : State) (x : Option Hold) : State := { s with hold := x }

/-- The state with `draws` replaced. -/
def State.withDraws (s : State) (x : Nat) : State := { s with draws := x }

/-- The state with `pending` replaced. -/
def State.withPending (s : State) (x : List Instr) : State := { s with pending := x }

/-! ### Slots and lines by number -/

/-- The record in a slot. -/
def State.slot (s : State) (i : Slot) : Record := s.slots[i]

/-- The state with one slot's record replaced. -/
def State.setSlot (s : State) (i : Slot) (r : Record) : State := s.withSlots (s.slots.set i r)

/-- A line's record. -/
def State.line (s : State) (n : LineNo) : Line := s.lines[n]

/-- The state with one line's record replaced. -/
def State.setLine (s : State) (n : LineNo) (l : Line) : State := s.withLines (s.lines.set n l)

/-! ### Resets hold every block -/

/-- While a reset lasts no event of any block occurs (R172): the state as it stands while held, and `f` of it
otherwise. -/
def State.unlessHeld (s : State) (f : State → State) : State :=
  if s.hold.isSome then s else f s

/-- The state is free to go on with an event whose own conditions hold: outside them the event cannot occur and
nothing changes (log entry 4). -/
def State.whenDue (s : State) (due : Bool) (f : State → State) : State :=
  if due then f s else s

/-! ### Serial chains -/

/-- An image commanded (R33, R99): an idle chain begins its shift at once; otherwise it becomes the pending image
and replaces one already held. -/
def Chain.command (c : Chain) (i : Image) : Chain :=
  match c.shifting with
  | none => { c with commanded := i, shifting := some i }
  | some _ => { c with commanded := i, pending := some i }

/-- The latch strobe of the shift in progress (R33, R99): the latched image becomes the shifted image and the shift
of the pending image begins. -/
def Chain.strobe (c : Chain) : Chain :=
  match c.shifting with
  | none => c
  | some i => { c with latched := i, shifting := c.pending, pending := none }

/-- What a chain shows on its outputs, in the order of time: the level of the data output at a shift clock, or the latch
strobe (R176). -/
inductive ChainSignal where
  | bit (level : Bool)
  | strobe
deriving DecidableEq, Repr

/-- The signals of one shift: bit 23, line 23, first and bit 0 last, one bit for each shift clock, and the latch strobe
after the 24th bit (R99, R176). -/
def shiftSignals (i : Image) : List ChainSignal :=
  (List.range 24).map (fun k => .bit (i.getLsbD (23 - k))) ++ [.strobe]

/-- The signals of the shift in progress; an idle chain shows none. -/
def Chain.signals (c : Chain) : List ChainSignal :=
  match c.shifting with
  | none => []
  | some i => shiftSignals i

/-- External drivers that have shifted in `reg` and latched `latched`, after one signal: a bit is shifted in behind the
bits before it, and the strobe latches what was shifted (R176). -/
def driveSignal (d : Image × Image) : ChainSignal → Image × Image
  | .bit b => ((d.1 <<< 1) ||| (if b then 1 else 0), d.2)
  | .strobe => (d.1, d.1)

/-- A chain while a reset holds the part: the shift abandoned, the pending image discarded, the all-off image
commanded (R42, R116). -/
def Chain.abandoned (c : Chain) : Chain := ⟨0, c.latched, none, none⟩

/-- The image with the bits of the lines that `p` names. -/
def imageOf (p : LineNo → Bool) : Image :=
  (List.finRange 24).foldl (fun a n => if p n then a ||| BitVec.twoPow 24 n.val else a) 0

/-- The image with one line's bit on (R100). -/
def lineBit (n : LineNo) : Image := BitVec.twoPow 24 n.val

/-! ### Saturating counters -/

/-- The largest value of a 32-bit counter (Table 5). -/
def counterMax : Nat := 4294967295

/-- A 32-bit counter increased, staying at its upper end (R54). -/
def addCounter (c n : Nat) : Nat := min counterMax (c + n)

/-- A 16-bit counter counting one, staying at its upper end (R65, R76, R131). -/
def countUp16 (c : Nat) : Nat := min 65535 (c + 1)

end Sys2Proof.Machine
end

