-- ==== Sys2Proof/Machine/Flags.lean ====
section
/-! DEFINITION. The event flags and the views of the state that its pins and status words show: ATTN, QRDY, the lit set, the load, the port's status word. -/

namespace Sys2Proof.Machine

/-! ### Events (Table 64) -/

/-- The events, in the order of their numbers. -/
inductive Event where
  | testDone
  | lineFaulted
  | levelChanged
  | lineShed
  | recordDamaged
  | capacityStale
  | queryOverrun
  | roundSlip
  | settingsDefaulted
deriving DecidableEq, Repr

/-- The number of an event (Table 64). -/
def Event.number : Event → Nat
  | .testDone => 0
  | .lineFaulted => 1
  | .levelChanged => 2
  | .lineShed => 3
  | .recordDamaged => 4
  | .capacityStale => 5
  | .queryOverrun => 6
  | .roundSlip => 7
  | .settingsDefaulted => 8

/-- The event set of one event. -/
def Event.bit (e : Event) : EventSet := BitVec.twoPow 9 e.number

/-- An event raised: its pending flag is set, enabled or not (R162). -/
def State.raise (s : State) (e : Event) : State :=
  s.withEvents { s.events with pending := s.events.pending ||| e.bit }

/-- The ATTN output: high while an event has both its pending flag and its enable set (R163). -/
def State.attn (s : State) : Bool := s.events.pending &&& s.events.mask != 0

/-! ### Lines, the lit set and the load -/

/-- A rest state that is lit (R26). -/
def RestState.lit : RestState → Bool
  | .suspended => true
  | .inService => true
  | .dark => false
  | .faulted => false

/-- A line is lit by its state, or under test by its return state (R26). -/
def LineState.lit : LineState → Bool
  | .rest r => r.lit
  | .underTest r => r.lit

/-- Whether a line is lit (R26). -/
def State.lit (s : State) (n : LineNo) : Bool := (s.line n).state.lit

/-- The lit set as a chain image (R33). -/
def State.litSet (s : State) : Image := imageOf s.lit

/-- The set of lines that carry the shed mark (R149). -/
def State.markedSet (s : State) : Image := imageOf fun n => (s.line n).shed.isSome

/-- The load: the costs of the lit lines, plus the head cost while HEADEN is high (R141). -/
def State.load (s : State) : Nat :=
  ((List.finRange 24).map fun n => if s.lit n then s.settings.cost[n] else 0).sum
    + (if s.head.headen then s.settings.headCost else 0)

/-- The budget of the current level. -/
def State.budgetNow (s : State) : Nat := s.settings.budget[s.ladder.level]

/-- The QRDY output: high while the resolve queue holds fewer than 4 requests (R58). -/
def State.qrdy (s : State) : Bool := decide (s.link.queue.length < 4)

/-! ### The port's status word (Table 72) -/

/-- The code of the port state. -/
def PortState.code : PortState → Nat
  | .none => 0
  | .wait _ => 1
  | .ready _ => 2

/-- The response word count: the words in the buffer in READY, 0 otherwise (R152). -/
def PortState.words : PortState → Nat
  | .ready response => response.length
  | .none => 0
  | .wait _ => 0

/-- The status word that a falling edge of chip select latches (R152). -/
def State.statusWord (s : State) : Word16 :=
  BitVec.ofNat 16 (s.port.state.code * 16384 + (if s.port.busy then 8192 else 0) + (if s.attn then 4096 else 0)
    + s.port.state.words)

/-- A latched status word shows the refused-busy flag set. -/
def statusBusy (w : Word16) : Bool := w.getLsbD 13

/-- A latched status word shows READY. -/
def statusReady (w : Word16) : Bool := w.extractLsb' 14 2 == 2#2

/-- The response word count of a latched status word. -/
def statusWords (w : Word16) : Nat := (w.extractLsb' 0 5).toNat

end Sys2Proof.Machine
end

