-- ==== Sys2Proof/Machine/Formats.lean ====
section
/-! DEFINITION. The codes and layouts of chapter 12: response words and outbound messages. -/

namespace Sys2Proof.Machine

/-! ### Codes -/

/-- The result codes (Table 62), in the order of their codes (Table 73). -/
inductive ResultCode where
  | ok
  | unknown
  | duplicate
  | setFull
  | lineFull
  | badArgument
  | wrongState
  | budget
  | shed
  | queueFull
  | damaged
  | illegal
deriving DecidableEq, Repr

/-- The code of a result (Table 73). -/
def ResultCode.code : ResultCode → Nat
  | .ok => 0
  | .unknown => 1
  | .duplicate => 2
  | .setFull => 3
  | .lineFull => 4
  | .badArgument => 5
  | .wrongState => 6
  | .budget => 7
  | .shed => 8
  | .queueFull => 9
  | .damaged => 10
  | .illegal => 11

/-- The code of a record state (Table 74). -/
def RecordState.code : RecordState → Nat
  | .free => 0
  | .standby => 1
  | .active => 2
  | .barred => 3
  | .damaged => 4

/-- The code of a class (Table 74). -/
def classCode : Class → Nat
  | .standard => 0
  | .essential => 1

/-- The code of a state other than UNDER_TEST (Table 74). -/
def RestState.code : RestState → Nat
  | .dark => 0
  | .suspended => 1
  | .inService => 2
  | .faulted => 4

/-- The code of a line state (Table 74). -/
def LineState.code : LineState → Nat
  | .rest r => r.code
  | .underTest _ => 3

/-- The code of the return state, 0 when absent (R34). -/
def LineState.returnCode : LineState → Nat
  | .rest _ => 0
  | .underTest r => r.code

/-- The code of the pre-shed state, 0 when absent (R34). -/
def preShedCode : Option PreShed → Nat
  | none => 0
  | some .suspended => 1
  | some .inService => 2

/-- The code of a test verdict (Table 74). -/
def TestVerdict.code : TestVerdict → Nat
  | .good => 0
  | .marginal => 1
  | .faulty => 2
  | .inconclusive => 3
  | .aborted => 4

/-- The code of an abort cause (Table 74). -/
def causeCode : Option Cause → Nat
  | none => 0
  | some .host => 1
  | some .power => 2

/-- The code of a judgement (Table 74). -/
def Judgement.code : Judgement → Nat
  | .notJudged => 0
  | .pass => 1
  | .fail _ => 2

/-- The code of a test stage (Table 74). -/
def Stage.code : Stage → Nat
  | .connect => 1
  | .measure m => 2 + m.number.val
  | .tone => 9
  | .disconnect => 10
  | .evaluate => 11

/-- The code of the test controller's stage, 0 for NONE (Table 74). -/
def stageCode : Option Test → Nat
  | none => 0
  | some t => t.stage.code

/-- The code of a reset cause (Table 74). -/
def ResetCause.code : ResetCause → Nat
  | .powerOn => 0
  | .pin => 1
  | .command => 2

/-- The code of a fault-capture operation (Table 74). -/
def FaultOp.code : FaultOp → Nat
  | .resolve => 0
  | .lookup => 1
  | .amend => 2
  | .bar => 3
  | .roster => 4

/-- The code of a verdict (section 12.3). -/
def Verdict.code : Verdict → Nat
  | .pass => 0
  | .excess => 1
  | .drop => 2
  | .held => 3
  | .barred => 4
  | .unknown => 5
  | .fault => 6
  | .refused => 7

/-- The code on PSEL3 to PSEL0 (Table 83). -/
def Path.code : Path → BitVec 4
  | .none => 0
  | .tgDc => 1
  | .rgDc => 2
  | .trAc => 3
  | .reference => 4
  | .tgRes => 5
  | .rgRes => 6
  | .trRes => 7
  | .charge => 8
  | .drive => 9

/-! ### Response words -/

/-- A response word from the number its fields form. -/
def w16 (n : Nat) : Word16 := BitVec.ofNat 16 n

/-- A one-bit field at bit `k`. -/
def flag (k : Nat) (b : Bool) : Nat := if b then 2 ^ k else 0

/-- A 32-bit number in two words, the more significant first (R174). -/
def words32 (n : Nat) : List Word16 := [w16 (n / 65536), w16 n]

/-- A tag in two words (R174). -/
def tagWords (t : Tag) : List Word16 := [w16 (t.toNat / 65536), w16 t.toNat]

/-- A set of lines in two words (R174). -/
def imageWords (i : Image) : List Word16 := [w16 (i.toNat / 65536), w16 i.toNat]

/-- A signed 32-bit value in two words (R169). -/
def valueWords (v : Int) : List Word16 := words32 (BitVec.ofInt 32 v).toNat

/-- The result word (Table 73). -/
def resultWord (code : Byte) (r : ResultCode) : Word16 := w16 (code.toNat * 256 + r.code)

/-- The stored provisioned values in the layout of words 3 to 11 of Table 75. -/
def provisionWords (c : Covered) : List Word16 :=
  w16 (classCode c.cls * 32768 + c.line * 256 + c.weight)
    :: [c.upCir, c.upPir, c.dcu, c.dpu, c.downCir, c.downPir, c.dcd, c.dpd].map w16

/-- The data words of LOOK UP SERVICE on a hit (Table 76). -/
def lookUpWords (i : Slot) (r : Record) : List Word16 :=
  [ w16 (32768 + i.val * 256 + r.cov.line),
    w16 (r.cov.tag.toNat / 65536 * 4096 + r.demand),
    w16 r.cov.tag.toNat,
    w16 r.cov.upCir, w16 r.cov.upPir, w16 r.cov.downCir, w16 r.cov.downPir,
    w16 (r.cov.weight * 4096 + r.cov.dcu),
    w16 (classCode r.cov.cls * 32768 + r.cov.state.code * 4096 + r.cov.dpu),
    w16 r.cov.dcd, w16 r.cov.dpd,
    w16 r.kcu, w16 r.kpu, w16 r.kcd, w16 r.kpd ]
    ++ words32 r.upGranted ++ words32 r.downPassed ++ words32 r.downExcess ++ words32 r.downDropped

/-- The data words of PROBE SLOT (Table 86). -/
def probeWords (r : Record) (passes : Bool) : List Word16 :=
  w16 (flag 15 (r.cov.state == .free) + flag 14 passes + r.cov.state.code * 256 + r.cov.line) :: tagWords r.cov.tag

/-- The data words of READ FAULT (Table 86, R9). -/
def faultWords (c : Option Capture) (overflow : Bool) : List Word16 :=
  match c with
  | none => w16 (flag 14 overflow) :: tagWords 0
  | some e => w16 (32768 + flag 14 overflow + e.op.code * 256 + e.slot.val) :: tagWords e.tag

/-- Word 2 of Table 78, which the line commands also answer (log entry 16). -/
def lineWord (n : LineNo) (l : Line) : Word16 :=
  w16 (flag 14 l.state.lit + preShedCode l.shed * 4096 + flag 11 l.shed.isSome + l.state.returnCode * 256
    + l.state.code * 32 + n.val)

/-- The slot at a place of an attached list, 0 where the place is unused (Table 78). -/
def attachedAt (l : List Slot) (k : Nat) : Nat := ((l[k]?).map Fin.val).getD 0

/-- The two words of a measurement in a condition record (Table 78); an absent value reads 0. DESIGN CHOICE, log entry 27:
with no kept result the table gives bit 15 alone, and the model answers both words 0000h. -/
def judgedWords : Option Judged → List Word16
  | none => [0, 0]
  | some j =>
    let v := (BitVec.ofInt 25 (j.result.value.getD 0)).toNat
    [ w16 (32768 + flag 14 j.result.saturated + flag 13 j.result.headFault + j.judgement.code * 2048 + v / 65536),
      w16 v ]

/-- Words 8 to 23 of READ LINE (Table 78). -/
def conditionWords : Option Condition → List Word16
  | none => List.replicate 16 0
  | some c =>
    [ w16 (32768 + c.verdict.code * 4096 + causeCode c.cause * 1024 + c.limitSet.val * 256 + flag 7 c.tonePlayed),
      w16 c.age ] ++ c.results.toList.flatMap judgedWords

/-- The data words of READ LINE (Table 78). -/
def readLineWords (n : LineNo) (l : Line) (shedClass cost : Nat) : List Word16 :=
  [ lineWord n l,
    w16 (l.attached.length * 4096 + shedClass * 256 + cost),
    w16 (attachedAt l.attached 0 * 256 + attachedAt l.attached 1),
    w16 (attachedAt l.attached 2 * 256 + attachedAt l.attached 3),
    w16 (attachedAt l.attached 4 * 256 + attachedAt l.attached 5),
    w16 (attachedAt l.attached 6 * 256 + attachedAt l.attached 7) ] ++ conditionWords l.condition

/-- Tone values in the layout of words 2 to 4 of Table 77, 0000h when there are none (Table 86). -/
def toneWords : Option ToneVals → List Word16
  | none => [0, 0, 0]
  | some t => [w16 t.reload, w16 (t.on * 256 + t.off), w16 t.duration]

/-- A test entry in the layout of Table 77. -/
def entryWords (e : TestEntry) : List Word16 :=
  w16 (e.items.toNat * 512 + flag 8 e.tone.isSome + flag 7 e.autoHold + e.limitSet.val * 32 + e.line.val)
    :: toneWords e.tone

/-- The set of measurements with kept results, measurement k in bit k. -/
def keptItems (t : Test) : Nat :=
  (Meas.all.map fun m => flag m.number.val (t.results[m.number]).isSome).sum

/-- Word 7 of READ TEST QUEUE for position 0 (Table 86). -/
def inFlightWord (t : Test) : Word16 :=
  w16 (keptItems t * 512 + t.stage.code * 16 + causeCode t.abort * 4)

/-- The data words of READ TEST QUEUE at a position (R134, Table 86). -/
def testQueueWords (t : Tests) (position : Nat) : List Word16 :=
  let entry : Option TestEntry := if position = 0 then t.current.map Test.entry else t.queue[position - 1]?
  let line := (t.current.map fun c => c.entry.line.val).getD 0
  w16 (flag 15 entry.isSome + flag 14 t.current.isSome + t.queue.length * 256 + line)
    :: (match entry with
        | none => [0, 0, 0, 0]
        | some e => entryWords e)
    ++ [if position = 0 then (t.current.map inFlightWord).getD 0 else 0]

/-- The data words of READ STATUS (Table 79). -/
def statusWords13 (s : State) : List Word16 :=
  [ w16 s.events.pending.toNat, w16 s.events.mask.toNat,
    w16 (s.tests.queue.length * 4096 + stageCode s.tests.current * 256 + s.ladder.level.val * 16 + flag 3 s.armed
      + flag 2 s.link.stale + s.events.cause.code),
    w16 s.link.capUp, w16 s.link.capDown ]
    ++ words32 s.meter.sumUp ++ words32 s.meter.sumDown
    ++ [w16 s.round.number.toNat, w16 s.round.slips, w16 s.link.unmatched]

/-- The data words of READ LADDER (Table 80). -/
def ladderWords (s : State) : List Word16 :=
  [ w16 (s.ladder.target.val * 128 + flag 6 s.ladder.mains + s.ladder.band.val * 8 + flag 2 s.ladder.sampled
      + s.ladder.level.val),
    w16 (flag 8 s.head.headen + s.ladder.rise * 16 + s.ladder.fall),
    w16 s.load, w16 s.budgetNow ] ++ imageWords s.litSet ++ imageWords s.markedSet

/-! ### Outbound messages (Table 81) -/

/-- The bytes of a message as the KL24 sends them, each with the level of its start line TXSTART: high with byte 0, low
with the bytes after it (R175). -/
def framed : List Byte → List (Bool × Byte)
  | [] => []
  | b :: rest => (true, b) :: rest.map fun x => (false, x)

/-- What the outbound link carries for the message being sent: TXSTART and TXD7 to TXD0 at each byte clock; nothing while
the transmitter is idle (R175, Table 82). -/
def Link.outbound (l : Link) : List (Bool × Byte) :=
  match l.sending with
  | none => []
  | some bytes => framed bytes

/-- The low byte of a number. -/
def byte (n : Nat) : Byte := BitVec.ofNat 8 n

/-- A VERDICT's bytes. -/
def verdictBytes (v : VerdictMsg) : List Byte :=
  [0x81, v.query, byte v.verdict.code, byte v.line, byte (classCode v.cls), 0, 0, 0]

/-- A REFUSED verdict carries line 0 and class 0 (R71). -/
def refusedMsg (query : Byte) : VerdictMsg := ⟨query, .refused, 0, .standard⟩

/-- A GRANT's bytes; the upper 4 bits of the tag field are sent as 0 (R175). -/
def grantBytes (number : Byte) (tag : Tag) (credits : Nat) : List Byte :=
  [0x82, number, byte (tag.toNat / 65536), byte (tag.toNat / 256), byte tag.toNat, byte (credits / 256), byte credits, 0]

/-- A ROUND END's bytes. -/
def roundEndBytes (number : Byte) (count sent withheld : Nat) : List Byte :=
  [0x83, number, byte count, byte (sent / 256), byte sent, byte (withheld / 256), byte withheld, 0]

end Sys2Proof.Machine
end

