-- ==== Sys2Proof/Machine/Metering.lean ====
section
/-! DEFINITION. The metering unit (chapter 3): committed sums, the scale factor, the refill, resolve metering and the emission debit. -/

namespace Sys2Proof.Machine

/-! ### Committed sums (R49 to R51) -/

/-- An entry of a slot's record into ACTIVE: its stored CIRs become the counted values and are added to the sums
(R50). -/
def State.enterActive (s : State) (i : Slot) : State :=
  let c := (s.slot i).cov
  s.withMeter { s.meter with
    countedUp := s.meter.countedUp.set i c.upCir
    countedDown := s.meter.countedDown.set i c.downCir
    sumUp := s.meter.sumUp + c.upCir
    sumDown := s.meter.sumDown + c.downCir }

/-- An exit of a slot's record from ACTIVE: its counted values leave the sums and become 0 (R50). -/
def State.exitActive (s : State) (i : Slot) : State :=
  s.withMeter { s.meter with
    countedUp := s.meter.countedUp.set i 0
    countedDown := s.meter.countedDown.set i 0
    sumUp := s.meter.sumUp - s.meter.countedUp[i]
    sumDown := s.meter.sumDown - s.meter.countedDown[i] }

/-! ### The cycle expiry (R44 to R47) -/

/-- The downstream scale factor (R45). -/
def scaleFactor (sumDown capDown : Nat) : Nat :=
  if sumDown = 0 then 4096 else min 4096 (4096 * 16 * capDown / sumDown)

/-- A bucket refilled, clamped at its depth × 16. -/
def refillBucket (bucket rate depth : Nat) : Nat := min (depth * 16) (bucket + rate)

/-- The refill of a record in STANDBY, ACTIVE or BARRED, up as R46 and down as R47 state; FREE and DAMAGED records
are not refilled (R44). -/
def Record.refill (r : Record) (f : Nat) : Record :=
  match r.cov.state with
  | .free => r
  | .damaged => r
  | .standby | .active | .barred =>
    { r with
      kcu := refillBucket r.kcu r.cov.upCir r.cov.dcu
      kpu := refillBucket r.kpu r.cov.upPir r.cov.dpu
      kcd := refillBucket r.kcd (r.cov.downCir * f / 4096) r.cov.dcd
      kpd := refillBucket r.kpd (r.cov.downPir * f / 4096) r.cov.dpd }

/-- The metering unit's part of a cycle expiry: f first, then every refill with that f (R44). -/
def State.meterExpiry (s : State) : State :=
  let f := scaleFactor s.meter.sumDown s.link.capDown
  (s.withMeter { s.meter with f := f }).withSlots (s.slots.map fun r => r.refill f)

/-! ### Resolve metering (R52 to R54) -/

/-- The credit count of a frame length (R52). -/
def creditsOf (length : Nat) : Nat := max 1 ((length + 63) / 64)

/-- The decision of Table 22 with its debit and its counter update, as one change of the record (R53, R54). -/
def Record.meterResolve (r : Record) (n : Nat) : Verdict × Record :=
  if r.kpd < 16 * n then (.drop, { r with downDropped := addCounter r.downDropped 1 })
  else if r.kcd < 16 * n then
    (.excess, { r with kpd := r.kpd - 16 * n, downExcess := addCounter r.downExcess n })
  else
    (.pass, { r with kcd := r.kcd - 16 * n, kpd := r.kpd - 16 * n, downPassed := addCounter r.downPassed n })

/-! ### Emission debit (R55, R92) -/

/-- The record of a sent grant of `g` credits with claim `c`: up buckets debited and floored at 0, the demand latch
reduced, the granted credits counted (R55, R92). -/
def Record.payGrant (r : Record) (g c : Nat) : Record :=
  { r with
    kcu := r.kcu - 16 * min g c
    kpu := r.kpu - 16 * g
    demand := r.demand - g
    upGranted := addCounter r.upGranted g }

end Sys2Proof.Machine
end

