-- ==== Sys2Proof/Machine/Operands.lean ====
section
/-! DEFINITION. The operand fields of the management commands, read from the bit positions of Tables 75, 77 and 85 (R174). -/

namespace Sys2Proof.Machine

/-- Argument word `k`, counted from 1 as the tables count them. -/
def argWord (args : List Word16) (k : Nat) : Word16 := (args[k - 1]?).getD 0

/-- Argument word `k` as a number. -/
def argNat (args : List Word16) (k : Nat) : Nat := (argWord args k).toNat

/-- A tag in two words: bits 3 to 0 of the first over the second (R174). -/
def argTag (args : List Word16) (k : Nat) : Tag :=
  (argWord args k).extractLsb' 0 4 ++ argWord args (k + 1)

/-- The line field in bits 4 to 0 of the only argument word (Table 85). -/
def argLine (args : List Word16) : Nat := ((argWord args 1).extractLsb' 0 5).toNat

/-- The line field of word 3 of ADMIT SERVICE (Table 75). -/
def argAdmitLine (args : List Word16) : Nat := ((argWord args 3).extractLsb' 8 5).toNat

/-- A class bit (Table 74). -/
def classOf (b : Bool) : Class := if b then .essential else .standard

/-- The provisioned values of ADMIT SERVICE and AMEND SERVICE (Table 75). -/
def argProvision (args : List Word16) : Provision where
  cls := classOf ((argWord args 3).getLsbD 15)
  weight := ((argWord args 3).extractLsb' 0 5).toNat
  upCir := argNat args 4
  upPir := argNat args 5
  dcu := argNat args 6
  dpu := argNat args 7
  downCir := argNat args 8
  downPir := argNat args 9
  dcd := argNat args 10
  dpd := argNat args 11

/-- The set field of PROBE SLOT, bits 15 to 8 (Table 85). -/
def argProbeSet (args : List Word16) : Nat := ((argWord args 1).extractLsb' 8 8).toNat

/-- The way field of PROBE SLOT, bits 7 to 0 (Table 85). -/
def argProbeWay (args : List Word16) : Nat := ((argWord args 1).extractLsb' 0 8).toNat

/-- The position of READ TEST QUEUE, bits 3 to 0 (Table 85). -/
def argPosition (args : List Word16) : Nat := ((argWord args 1).extractLsb' 0 4).toNat

/-- An event set: bits 8 to 0, the rest ignored (R174). -/
def argEvents (args : List Word16) : EventSet := (argWord args 1).extractLsb' 0 9

/-- The 32-bit value of WRITE SETTING, words 2 and 3 (Table 85). -/
def argValue (args : List Word16) : BitVec 32 := argWord args 2 ++ argWord args 3

/-- The measurement set of REQUEST TEST, bits 15 to 9 (Table 77). -/
def argItems (args : List Word16) : BitVec 7 := (argWord args 1).extractLsb' 9 7

/-- The tone flag of REQUEST TEST (Table 77). -/
def argToneFlag (args : List Word16) : Bool := (argWord args 1).getLsbD 8

/-- The auto-hold flag of REQUEST TEST (Table 77). -/
def argAutoHold (args : List Word16) : Bool := (argWord args 1).getLsbD 7

/-- The limit set of REQUEST TEST: two bits, which cannot name a set above 3 (Table 77, R174). -/
def argLimitSet (args : List Word16) : Fin 4 := ((argWord args 1).extractLsb' 5 2).toFin

/-- The tone values of REQUEST TEST, clamped to their ranges (Table 77, R113). -/
def argTone (args : List Word16) : ToneVals where
  reload := clampNat 24 4999 (argNat args 2)
  on := clampNat 1 50 ((argWord args 3).extractLsb' 8 8).toNat
  off := clampNat 1 50 ((argWord args 3).extractLsb' 0 8).toNat
  duration := clampNat 1 600 (argNat args 4)

/-- A line number below 24, or none. -/
def lineNoOf (n : Nat) : Option LineNo := if h : n < 24 then some ⟨n, h⟩ else none

/-- A slot number below 128, or none. -/
def slotNoOf (n : Nat) : Option Slot := if h : n < 128 then some ⟨n, h⟩ else none

end Sys2Proof.Machine
end

