-- ==== Sys2Proof/Machine/Records.lean ====
section
/-! DEFINITION. The record table (chapter 1): tag hash and search, check codes, line-driven moves, damage discovery, provisioning values, and the effect of each timed record command at its take. -/

namespace Sys2Proof.Machine

/-! ### Sets, ways and tags (R2) -/

/-- The set of a tag: the exclusive-OR of its four 5-bit groups (R2). -/
def tagSet (t : Tag) : Fin 32 :=
  (t.extractLsb' 0 5 ^^^ t.extractLsb' 5 5 ^^^ t.extractLsb' 10 5 ^^^ t.extractLsb' 15 5).toFin

/-- Slot set × 4 + way (section 1.2). -/
def slotOf (set : Fin 32) (way : Fin 4) : Slot := ⟨set.val * 4 + way.val, by omega⟩

/-- The four ways of a tag's set, lowest first. -/
def waysOf (t : Tag) : List Slot := [0, 1, 2, 3].map (slotOf (tagSet t))

/-- A valid tag is neither 0 nor 1,048,575 (section 6.3). -/
def validTag (t : Tag) : Bool := t != 0 && t != 0xFFFFF

/-- A slot holds a tag in a state other than FREE (R2). -/
def State.holds (s : State) (t : Tag) (i : Slot) : Bool :=
  (s.slot i).cov.state != .free && (s.slot i).cov.tag == t

/-- The slot in which a tag is found: the lowest way of its set that holds it (R2). -/
def State.find (s : State) (t : Tag) : Option Slot := (waysOf t).find? (s.holds t)

/-- The lowest FREE way of a tag's set (R15). -/
def State.freeWay (s : State) (t : Tag) : Option Slot :=
  (waysOf t).find? fun i => (s.slot i).cov.state == .free

/-! ### Check codes (R5, R6) -/

/-- The check of a record passes when the stored code matches the covered fields as they stand (R5). -/
def Record.passes (r : Record) : Bool := r.code == ⟨r.cov, false⟩

/-- A record with its check code written in full, inverted or not (R5, R10). -/
def Record.seal (r : Record) (inverted : Bool) : Record := { r with code := ⟨r.cov, inverted⟩ }

/-- A record with its state replaced and its check code left as it is (R6). -/
def Record.withState (r : Record) (st : RecordState) : Record := { r with cov := { r.cov with state := st } }

/-- A line-driven move: the state is rewritten and the code adjusted by the contribution of the state alone, so a
code that matched still matches and one that failed still fails (R4). -/
def Record.moveState (r : Record) (st : RecordState) : Record :=
  { r with
    cov := { r.cov with state := st }
    code := { r.code with covers := { r.code.covers with state := st } } }

/-! ### Line-driven moves (R4, R31) -/

/-- A line's entry into IN_SERVICE reaches one of its slots: STANDBY becomes ACTIVE. -/
def State.moveIn (s : State) (i : Slot) : State :=
  if (s.slot i).cov.state = .standby then (s.setSlot i ((s.slot i).moveState .active)).enterActive i else s

/-- A line's exit from IN_SERVICE reaches one of its slots: ACTIVE becomes STANDBY. -/
def State.moveOut (s : State) (i : Slot) : State :=
  if (s.slot i).cov.state = .active then (s.setSlot i ((s.slot i).moveState .standby)).exitActive i else s

/-- A line enters IN_SERVICE: its attached list is walked in order (R4). -/
def State.enterService (s : State) (n : LineNo) : State := (s.line n).attached.foldl State.moveIn s

/-- A line leaves IN_SERVICE: its attached list is walked in order (R4). -/
def State.leaveService (s : State) (n : LineNo) : State := (s.line n).attached.foldl State.moveOut s

/-! ### Damage discovery and the fault capture (R7, R8) -/

/-- A capture offered: stored in an empty fault capture, otherwise discarded with the overflow flag set (R8). -/
def State.offerCapture (s : State) (c : Capture) : State :=
  match s.engine.capture with
  | none => s.withEngine { s.engine with capture := some c }
  | some _ => s.withEngine { s.engine with overflow := true }

/-- A damage discovery: DAMAGED, the exit from ACTIVE reported, the capture offered, RECORD_DAMAGED raised (R7). -/
def State.discover (s : State) (i : Slot) (op : FaultOp) : State :=
  let r := s.slot i
  let marked := s.setSlot i (r.withState .damaged)
  let reported := if r.cov.state = .active then marked.exitActive i else marked
  (reported.offerCapture ⟨i, r.cov.tag, op⟩).raise .recordDamaged

/-! ### Provisioning values (R14) -/

/-- A depth raised to one refill of its bucket, as far as 4095 (R14 step 4). -/
def raiseDepth (depth rate : Nat) : Nat := max depth (min 4095 ((rate + 15) / 16))

/-- The corrections of R14, in its order: weight and depths clamped, PIRs raised to CIRs, depths raised to one
refill. -/
def Provision.correct (p : Provision) : Provision :=
  let upPir := max p.upPir p.upCir
  let downPir := max p.downPir p.downCir
  { p with
    weight := clampNat 1 15 p.weight
    upPir := upPir
    downPir := downPir
    dcu := raiseDepth (clampNat 1 4095 p.dcu) p.upCir
    dpu := raiseDepth (clampNat 1 4095 p.dpu) upPir
    dcd := raiseDepth (clampNat 1 4095 p.dcd) p.downCir
    dpd := raiseDepth (clampNat 1 4095 p.dpd) downPir }

/-- Covered fields made of a tag, a line, a state and corrected values. -/
def Provision.covered (p : Provision) (tag : Tag) (line : Nat) (st : RecordState) : Covered where
  tag := tag
  line := line
  cls := p.cls
  state := st
  upCir := p.upCir
  upPir := p.upPir
  dcu := p.dcu
  dpu := p.dpu
  weight := p.weight
  downCir := p.downCir
  downPir := p.downPir
  dcd := p.dcd
  dpd := p.dpd

/-- The new record of an admission: every bucket full, latch and counters 0 (R15). -/
def admittedRecord (c : Covered) (inverted : Bool) : Record where
  cov := c
  kcu := c.dcu * 16
  kpu := c.dpu * 16
  kcd := c.dcd * 16
  kpd := c.dpd * 16
  demand := 0
  upGranted := 0
  downPassed := 0
  downExcess := 0
  downDropped := 0
  code := ⟨c, inverted⟩

/-- A record amended: the provisioned values replaced, each bucket clamped down to its new depth, latch and counters
kept (R16). -/
def Record.amended (r : Record) (p : Provision) (inverted : Bool) : Record :=
  let c := p.covered r.cov.tag r.cov.line r.cov.state
  { r with
    cov := c
    kcu := min r.kcu (c.dcu * 16)
    kpu := min r.kpu (c.dpu * 16)
    kcd := min r.kcd (c.dcd * 16)
    kpd := min r.kpd (c.dpd * 16)
    code := ⟨c, inverted⟩ }

/-! ### The timed record commands at their take (R15 to R21) -/

/-- What a record command leaves: the state, the result code and the data words. -/
structure Answered where
  state : State
  result : ResultCode
  data : List Word16

/-- A refusal with the result word alone, nothing changed. -/
def State.refuse (s : State) (r : ResultCode) : Answered := ⟨s, r, []⟩

/-- The slot in bits 6 to 0 of a data word (Table 86). -/
def slotWord (i : Slot) : Word16 := w16 i.val

/-- The state of a healthy record of a line: ACTIVE while the line is IN_SERVICE, STANDBY otherwise (R3). -/
def State.healthyState (s : State) (line : Nat) : RecordState :=
  match lineNoOf line with
  | none => .standby
  | some n => if (s.line n).state = .rest .inService then .active else .standby

/-- The state with a slot's record reported as entered into ACTIVE when it is ACTIVE (R3). -/
def State.reportEntry (s : State) (i : Slot) : State :=
  if (s.slot i).cov.state = .active then s.enterActive i else s

/-- An admission into a slot of a line (R15, R30). -/
def State.admitAt (s : State) (i : Slot) (n : LineNo) (tag : Tag) (p : Provision) : State :=
  let c := p.covered tag n.val (s.healthyState n.val)
  let written := (s.setSlot i (admittedRecord c s.armed)).withArmed false
  let attached := written.setLine n { s.line n with attached := (s.line n).attached ++ [i] }
  attached.reportEntry i

/-- ADMIT SERVICE at its take (R15). -/
def State.takeAdmit (s : State) (tag : Tag) (line : Nat) (p : Provision) : Answered :=
  match lineNoOf line with
  | none => s.refuse .badArgument
  | some n =>
    if !validTag tag then s.refuse .badArgument
    else if (s.find tag).isSome then s.refuse .duplicate
    else if 8 ≤ (s.line n).attached.length then s.refuse .lineFull
    else
      match s.freeWay tag with
      | none => s.refuse .setFull
      | some i =>
        let t := s.admitAt i n tag p.correct
        ⟨t, .ok, slotWord i :: provisionWords (t.slot i).cov⟩

/-- The committed sums follow an amendment of an ACTIVE record: the counted values leave, the new CIRs enter
(R51). -/
def State.recount (s : State) (i : Slot) : State :=
  if (s.slot i).cov.state = .active then (s.exitActive i).enterActive i else s

/-- AMEND SERVICE at its take (R16). -/
def State.takeAmend (s : State) (tag : Tag) (p : Provision) : Answered :=
  if !validTag tag then s.refuse .badArgument
  else
    match s.find tag with
    | none => s.refuse .unknown
    | some i =>
      let r := s.slot i
      if r.cov.state = .damaged then s.refuse .damaged
      else if !r.passes then ⟨s.discover i .amend, .damaged, []⟩
      else
        let t := ((s.setSlot i (r.amended p.correct s.armed)).withArmed false).recount i
        ⟨t, .ok, slotWord i :: provisionWords (t.slot i).cov⟩

/-- A retirement of the record in a slot: an exit from ACTIVE reported, the slot removed from the attached list that
holds it, the cleared contents written (R17). -/
def State.retireAt (s : State) (i : Slot) : State :=
  let reported := if (s.slot i).cov.state = .active then s.exitActive i else s
  let detached := reported.withLines (s.lines.map fun l => { l with attached := l.attached.filter (· != i) })
  detached.setSlot i clearedRecord

/-- RETIRE SERVICE at its take (R17). -/
def State.takeRetire (s : State) (tag : Tag) : Answered :=
  if !validTag tag then s.refuse .badArgument
  else
    match s.find tag with
    | none => s.refuse .unknown
    | some i => ⟨s.retireAt i, .ok, [slotWord i]⟩

/-- RETIRE SLOT at its take (R18). -/
def State.takeRetireSlot (s : State) (slot : Nat) : Answered :=
  match slotNoOf slot with
  | none => s.refuse .badArgument
  | some i =>
    if (s.slot i).cov.state = .free then s.refuse .unknown
    else ⟨s.retireAt i, .ok, tagWords (s.slot i).cov.tag⟩

/-- BAR SERVICE at its take (R19). -/
def State.takeBar (s : State) (tag : Tag) : Answered :=
  if !validTag tag then s.refuse .badArgument
  else
    match s.find tag with
    | none => s.refuse .unknown
    | some i =>
      let r := s.slot i
      if r.cov.state = .damaged then s.refuse .damaged
      else if !r.passes then ⟨s.discover i .bar, .damaged, []⟩
      else if r.cov.state = .barred then s.refuse .wrongState
      else
        let barred := s.setSlot i ((r.withState .barred).seal false)
        ⟨if r.cov.state = .active then barred.exitActive i else barred, .ok, [slotWord i]⟩

/-- UNBAR SERVICE at its take (R20); its discovery is captured with operation BAR. -/
def State.takeUnbar (s : State) (tag : Tag) : Answered :=
  if !validTag tag then s.refuse .badArgument
  else
    match s.find tag with
    | none => s.refuse .unknown
    | some i =>
      let r := s.slot i
      if r.cov.state = .damaged then s.refuse .damaged
      else if !r.passes then ⟨s.discover i .bar, .damaged, []⟩
      else if r.cov.state != .barred then s.refuse .wrongState
      else
        let freed := s.setSlot i ((r.withState (s.healthyState r.cov.line)).seal false)
        ⟨freed.reportEntry i, .ok, [slotWord i]⟩

/-- LOOK UP SERVICE at its take (R21): a miss answers UNKNOWN in 2 words (Table 76). -/
def State.takeLookUp (s : State) (tag : Tag) : Answered :=
  if !validTag tag then s.refuse .badArgument
  else
    match s.find tag with
    | none => ⟨s, .unknown, [0]⟩
    | some i =>
      let r := s.slot i
      if r.cov.state = .damaged then ⟨s, .damaged, lookUpWords i r⟩
      else if !r.passes then
        let t := s.discover i .lookup
        ⟨t, .damaged, lookUpWords i (t.slot i)⟩
      else ⟨s, .ok, lookUpWords i r⟩

/-- The command code of a record command (Table 61). -/
def RecordCommand.code : RecordCommand → Byte
  | .admission _ _ _ => 0x01
  | .amend _ _ => 0x02
  | .retire _ => 0x03
  | .retireSlot _ => 0x04
  | .bar _ => 0x05
  | .unbar _ => 0x06
  | .lookUp _ => 0x07

/-- The whole effect of a record command at its take (R11). -/
def State.takeCommand (s : State) : RecordCommand → Answered
  | .admission tag line p => s.takeAdmit tag line p
  | .amend tag p => s.takeAmend tag p
  | .retire tag => s.takeRetire tag
  | .retireSlot slot => s.takeRetireSlot slot
  | .bar tag => s.takeBar tag
  | .unbar tag => s.takeUnbar tag
  | .lookUp tag => s.takeLookUp tag

end Sys2Proof.Machine
end

