-- ==== Sys2Proof/Machine/Head.lean ====
section
/-! DEFINITION. The test head (chapter 6): measurement starts, the arithmetic of each result, head power. -/

namespace Sys2Proof.Machine

/-! ### Starts (R103, R104, R109, R115) -/

/-- The path of a voltage measurement (Table 42). -/
def VoltItem.path : VoltItem → Path
  | .vdcTg => .tgDc
  | .vdcRg => .rgDc
  | .vac => .trAc

/-- The pair path of a resistance measurement (Table 42). -/
def ResItem.path : ResItem → Path
  | .risTg => .tgRes
  | .risRg => .rgRes
  | .rloop => .trRes

/-- The measurement that a voltage item is. -/
def VoltItem.meas : VoltItem → Meas
  | .vdcTg => .vdcTg
  | .vdcRg => .vdcRg
  | .vac => .vac

/-- The measurement that a resistance item is. -/
def ResItem.meas : ResItem → Meas
  | .risTg => .risTg
  | .risRg => .risRg
  | .rloop => .rloop

/-- A voltage measurement begins with its path. -/
def voltStart (i : VoltItem) : Work × Path := (.volt i, i.path)

/-- A resistance measurement begins with the reference path and reads the gate time and Rref at its start. -/
def resStart (g : Settings) (i : ResItem) : Work × Path := (.resReference ⟨i, g.gateTime, g.rref⟩, .reference)

/-- The work and the first path of a measurement started with the settings as they stand (R115). -/
def startOf (g : Settings) : Meas → Work × Path
  | .vdcTg => voltStart .vdcTg
  | .vdcRg => voltStart .vdcRg
  | .vac => voltStart .vac
  | .risTg => resStart g .risTg
  | .risRg => resStart g .risRg
  | .rloop => resStart g .rloop
  | .cap => (.cap g.kc, .charge)

/-- The head sets the item's path and enters PATH_SETTLE (R104). -/
def Head.start (h : Head) (w : Work × Path) : Head := { h with phase := .pathSettle w.1, path := w.2 }

/-- A measurement or the tone is over: the head is IDLE, the path is NONE, TCHG and the tone output are low
(R104, R106). -/
def Head.toIdle (h : Head) : Head := { h with phase := .idle, path := .none, tchg := false, tone := false }

/-- HEADEN goes low: the head abandons its work at that event (R102, R106). -/
def Head.powerOff (h : Head) : Head := { h.toIdle with headen := false }

/-! ### The tone output (R113) -/

/-- The frequency of the square wave of a tone, in hertz: the exact quotient 500,000 / (reload + 1) (R113). -/
def ToneVals.hertz (t : ToneVals) : Rat := 500000 / (t.reload + 1)

/-- The frequency on the tone output, in hertz; none while the output is low (R113, R114). -/
def Head.toneHertz (h : Head) : Option Rat :=
  match h.phase with
  | .toneOn t => if h.tone then some t.hertz else none
  | .idle | .pathSettle _ | .sampling _ _ | .refGate _ | .pairGate _ _ | .charge _ | .discharge _ _ | .toneOff _ => none

/-! ### The end of a path settle (R107 to R114) -/

/-- No sample taken yet. -/
def noSamples : Samples := ⟨0, 0, 1023, 0⟩

/-- The path settle expiry: the head begins the method of the item (R104). CAP with CAPIN already high ends its
charge at once with a head fault (R111). -/
def Head.pathSettled (h : Head) (capin : Bool) : Head :=
  match h.phase with
  | .pathSettle (.volt i) => { h with phase := .sampling i noSamples }
  | .pathSettle (.resReference w) => { h with phase := .refGate w, osc := 0 }
  | .pathSettle (.resPair w nref) => { h with phase := .pairGate w nref, osc := 0 }
  | .pathSettle (.cap kc) =>
    if capin then { h with phase := .discharge kc .alreadyHigh, timer := 0, tchg := false }
    else { h with phase := .charge kc, timer := 0, tchg := true }
  | .pathSettle (.tone t) => { h with phase := .toneOn t, tone := true }
  | .idle | .sampling _ _ | .refGate _ | .pairGate _ _ | .charge _ | .discharge _ _ | .toneOn _ | .toneOff _ => h

/-! ### Results (R105 to R112) -/

/-- A result with a value. -/
def resultOf (v : Int) (saturated : Bool) : Result := ⟨some v, saturated, false⟩

/-- A head fault: the value absent, the saturation flag clear (R105). -/
def headFaultResult : Result := ⟨none, false, true⟩

/-- The result of VDC_TG or VDC_RG from the sum of its eight codes (R107). -/
def vdcResult (sum : Nat) : Result :=
  let avg := sum / 8
  resultOf ((((avg : Int) - 512) * 2500).tdiv 512) (avg == 0 || avg == 1023)

/-- The result of VAC from the smallest and largest of its 64 codes (R108). -/
def vacResult (least most : Nat) : Result :=
  let v := (most - least) * 1250 / 512
  if 2495 < v then resultOf 2495 true else resultOf v false

/-- A sample taken into account. -/
def Samples.add (a : Samples) (code : Nat) : Samples :=
  ⟨a.count + 1, a.sum + code, min a.least code, max a.most code⟩

/-- How many samples a voltage measurement takes (R107, R108). -/
def VoltItem.samples : VoltItem → Nat
  | .vdcTg => 8
  | .vdcRg => 8
  | .vac => 64

/-- The result of a voltage measurement from its samples. -/
def VoltItem.result (i : VoltItem) (a : Samples) : Result :=
  match i with
  | .vdcTg => vdcResult a.sum
  | .vdcRg => vdcResult a.sum
  | .vac => vacResult a.least a.most

/-- The largest count of the oscillator counter (R109). -/
def oscMax : Nat := 1048575

/-- The largest resistance (Table 44). -/
def resMax : Nat := 10000000

/-- The result of a resistance measurement, from the first case of Table 44 that applies (R110). -/
def resResult (rref nref nx : Nat) : Result :=
  if nref = 0 then headFaultResult
  else if nx = 0 then resultOf resMax true
  else if resMax < rref * nref / nx then resultOf resMax true
  else resultOf (rref * nref / nx : Nat) (nref == oscMax || nx == oscMax)

/-- The result of CAP, from the first case of Table 45 that applies (R112). -/
def capResult (kc : Nat) : ChargeEnd → Result
  | .alreadyHigh => headFaultResult
  | .timeout => resultOf (65535 * kc / 256 : Nat) true
  | .edge t => resultOf (t * kc / 256 : Nat) false

end Sys2Proof.Machine
end

