-- ==== Sys2Proof/Machine/Lines.lean ====
section
/-! DEFINITION. Tests in flight and changes of the lit set (chapters 2, 6 and 7): dispatch, the run of the requested items, aborts, evaluation, and a line's entry into and exit from the lit set. -/

namespace Sys2Proof.Machine

/-! ### Dispatch (R121, R122) -/

/-- The return state that a line saves at dispatch (R27). -/
def LineState.saved : LineState → RestState
  | .rest r => r
  | .underTest r => r

/-- A test as it stands at dispatch: no results, the tone-played flag clear, no abort cause (R122). -/
def dispatchedTest (e : TestEntry) : Test :=
  ⟨e, .connect, Vector.replicate 7 none, false, none, none, none⟩

/-- The head entry becomes the test in flight, as one change (R122). -/
def State.dispatch (s : State) (e : TestEntry) (rest : List TestEntry) : State :=
  let l := s.line e.line
  let begun := s.withTests ⟨rest, some (dispatchedTest e)⟩
  let under := begun.setLine e.line { l with state := .underTest l.state.saved }
  let moved := if l.state = .rest .inService then under.leaveService e.line else under
  let powered := moved.withHead { moved.head with headen := true }
  powered.withRelay (powered.relay.command (lineBit e.line))

/-- The dispatch conditions of R121, less the presence of an entry. -/
def State.canDispatch (s : State) : Bool :=
  s.tests.current.isNone && s.ladder.level == 0 && decide (s.load + s.settings.headCost ≤ s.settings.budget[0])

/-- A dispatch retry (R121). -/
def State.dispatchRetry (s : State) : State :=
  match s.tests.queue with
  | [] => s
  | e :: rest => if s.canDispatch then s.dispatch e rest else s

/-! ### The run of a test (R123 to R125) -/

/-- The stage of the test in flight replaced. -/
def Test.atStage (t : Test) (g : Stage) : Test := { t with stage := g, settle := none }

/-- The test in flight replaced. -/
def State.withTest (s : State) (t : Test) : State := s.withTests { s.tests with current := some t }

/-- HEADEN goes low and the all-off relay image is commanded (R100, R102). -/
def State.releasePair (s : State) : State :=
  (s.withHead s.head.powerOff).withRelay (s.relay.command 0)

/-- The entry to DISCONNECT after the last requested item (R123). -/
def State.enterDisconnect (s : State) (t : Test) : State := s.releasePair.withTest (t.atStage .disconnect)

/-- An abort: marked with its cause, HEADEN low, the wait and the head's work abandoned, the all-off image
commanded, the stage DISCONNECT (R125). -/
def State.abort (s : State) (c : Cause) : State :=
  match s.tests.current with
  | none => s.releasePair
  | some t => s.releasePair.withTest { t.atStage .disconnect with abort := some c }

/-- The first requested measurement whose number is at least `k` (R123). -/
def TestEntry.itemFrom (e : TestEntry) (k : Nat) : Option Meas :=
  Meas.all.find? fun m => decide (k ≤ m.number.val) && e.items.getLsbD m.number.val

/-- The test goes on with the first requested measurement from number `k` on, else with its tone, else with
DISCONNECT (R123). -/
def State.proceed (s : State) (t : Test) (k : Nat) : State :=
  match t.entry.itemFrom k with
  | some m => (s.withHead (s.head.start (startOf s.settings m))).withTest (t.atStage (.measure m))
  | none =>
    match t.entry.tone with
    | some v => (s.withHead (s.head.start (.tone v, .drive))).withTest (t.atStage .tone)
    | none => s.enterDisconnect t

/-- A measurement completes: the head is IDLE, its result is kept, and the next item starts (R103, R123). -/
def State.completeMeasure (s : State) (m : Meas) (r : Result) : State :=
  let idle := s.withHead s.head.toIdle
  match s.tests.current with
  | none => idle
  | some t => idle.proceed { t with results := t.results.set m.number (some r) } (m.number.val + 1)

/-- The tone completes: it is reported as played, and the test enters DISCONNECT (R114, R123). -/
def State.completeTone (s : State) : State :=
  let idle := s.withHead s.head.toIdle
  match s.tests.current with
  | none => idle
  | some t => idle.enterDisconnect { t with tonePlayed := true }

/-! ### Evaluation (R127 to R129) -/

/-- The judgement of a value (R128): NOT_JUDGED by an IGNORE window or for an absent value. -/
def judgeValue (w : Window) (v : Option Int) : Judgement :=
  match v with
  | none => .notJudged
  | some x =>
    let inside := decide (w.low ≤ x) && decide (x ≤ w.high)
    match w.mode with
    | .ignore => .notJudged
    | .passInside => if inside then .pass else .fail w.severity
    | .passOutside => if inside then .fail w.severity else .pass

/-- The kept results judged against a limit set (R128). -/
def judgeResults (set : Vector Window 7) (results : Vector (Option Result) 7) : Vector (Option Judged) 7 :=
  Vector.ofFn fun k : Fin 7 => (results[k]).map fun r => ⟨r, judgeValue set[k] r.value⟩

/-- Some judged result has a property. -/
def anyJudged (p : Judged → Bool) (j : Vector (Option Judged) 7) : Bool :=
  j.toList.any fun o => (o.map p).getD false

/-- The verdict, from the first case of Table 53 that applies (R129). -/
def verdictOf (abort : Option Cause) (j : Vector (Option Judged) 7) : TestVerdict :=
  if abort.isSome then .aborted
  else if anyJudged (fun x => x.result.headFault) j then .inconclusive
  else if anyJudged (fun x => x.judgement == .fail .faulty) j then .faulty
  else if anyJudged (fun x => x.judgement == .fail .marginal) j then .marginal
  else .good

/-- The evaluation of a test against the windows as they stand at the entry to EVALUATE (R124, R127). -/
def Test.evaluate (t : Test) (g : Settings) : Evaluation :=
  let j := judgeResults g.limits[t.entry.limitSet] t.results
  ⟨verdictOf t.abort j, j⟩

/-! ### The lit set (R32, R33) -/

/-- The power-chain image of the lit set commanded (R33). -/
def State.commandPower (s : State) : State := s.withPower (s.power.command s.litSet)

/-- The hand-ons of a line that has left the lit set: a new power-chain image, a dispatch retry; the load is a view
of the state (R32). -/
def State.leftLit (s : State) : State := s.commandPower.dispatchRetry

/-- The line record's state and shed mark replaced. -/
def State.setLineState (s : State) (n : LineNo) (st : LineState) (shed : Option PreShed) : State :=
  s.setLine n { s.line n with state := st, shed := shed }

end Sys2Proof.Machine
end

