-- ==== Sys2Proof/Machine/Ladder.lean ====
section
/-! DEFINITION. The power ladder (chapter 8): samples, hysteresis, sheds, the overload check, the relight pass, level changes. -/

namespace Sys2Proof.Machine

/-! ### Sheds and relights (R29, R142, R145) -/

/-- The pre-shed state of a lit rest state, none for an unlit one. -/
def RestState.preShed : RestState → Option PreShed
  | .suspended => some .suspended
  | .inService => some .inService
  | .dark => none
  | .faulted => none

/-- The rest state that a pre-shed state names. -/
def PreShed.rest : PreShed → RestState
  | .suspended => .suspended
  | .inService => .inService

/-- A lit line darkened and marked (R29): the state of a line not under test, the return state of one under test.
An unlit line is not shed. -/
def State.darkenMarked (s : State) (n : LineNo) : State :=
  match (s.line n).state with
  | .rest r =>
    match r.preShed with
    | none => s
    | some p =>
      let dark := s.setLineState n (.rest .dark) (some p)
      if r = .inService then dark.leaveService n else dark
  | .underTest r =>
    match r.preShed with
    | none => s
    | some p => s.setLineState n (.underTest .dark) (some p)

/-- A ladder shed with its hand-ons and LINE_SHED (R142). -/
def State.shedLine (s : State) (n : LineNo) : State := (s.darkenMarked n).leftLit.raise .lineShed

/-- A marked DARK line relit to its pre-shed state (R29, R145). -/
def State.relight (s : State) (n : LineNo) (p : PreShed) : State :=
  let lit := (s.setLineState n (.rest p.rest) none).commandPower
  if p = .inService then lit.enterService n else lit

/-- The lines of one shed class, in ascending order. -/
def State.linesOfClass (s : State) (c : Nat) : List LineNo :=
  (List.finRange 24).filter fun n => s.settings.shedClass[n] == c

/-- The order of the overload check: ascending shed class, descending line number within a class (R143). -/
def State.shedOrder (s : State) : List LineNo := [1, 2, 3, 4].flatMap fun c => (s.linesOfClass c).reverse

/-- The order of the relight pass: descending shed class, ascending line number within a class (R145). -/
def State.relightOrder (s : State) : List LineNo := [4, 3, 2, 1].flatMap s.linesOfClass

/-! ### The overload check (R143) -/

/-- While the load exceeds the budget of the current level, a powered test is aborted, or else the first lit line of
the order is shed; at most `k` times. -/
def State.overloadFor : Nat → State → State
  | 0, s => s
  | k + 1, s =>
    if s.load ≤ s.budgetNow then s
    else if s.head.headen then (s.abort .power).overloadFor k
    else
      match s.shedOrder.find? s.lit with
      | none => s
      | some n => (s.shedLine n).overloadFor k

/-- The overload check: one abort and 24 sheds are the most it can need (R143). -/
def State.overloadCheck (s : State) : State := s.overloadFor 25

/-! ### The relight pass (R145) -/

/-- A candidate of the relight pass judged: relit when the budget holds its cost, skipped otherwise (R145). -/
def State.tryRelight (s : State) (n : LineNo) : State :=
  match (s.line n).state, (s.line n).shed with
  | .rest .dark, some p =>
    if s.ladder.level.val < s.settings.shedClass[n] ∧ s.load + s.settings.cost[n] ≤ s.budgetNow then s.relight n p
    else s
  | _, _ => s

/-- The relight pass (R145). -/
def State.relightPass (s : State) : State := s.relightOrder.foldl State.tryRelight s

/-! ### Level changes (R146, R147) -/

/-- The level becomes L and both counters 0. -/
def State.atLevel (s : State) (l : Level) : State := s.withLadder { s.ladder with level := l, rise := 0, fall := 0 }

/-- A line shed by a rise to the current level: lit, and of a shed class at or below it (R146). -/
def State.riseShed (s : State) (n : LineNo) : State :=
  if s.lit n ∧ s.settings.shedClass[n] ≤ s.ladder.level.val then s.shedLine n else s

/-- A level rise, in the order of R146. -/
def State.levelRise (s : State) (l : Level) : State :=
  let unpowered := if s.head.headen then (s.atLevel l).abort .power else s.atLevel l
  (((List.finRange 24).foldl State.riseShed unpowered).overloadCheck.raise .levelChanged).dispatchRetry

/-- A level fall, in the order of R147. -/
def State.levelFall (s : State) (l : Level) : State :=
  ((s.atLevel l).overloadCheck.relightPass.raise .levelChanged).dispatchRetry

/-! ### Samples (R137 to R140) -/

/-- The comparator's result: the BSENSE voltage exceeds the threshold's, code × 25 mV, both in microvolts (R137). -/
def senseAbove (bsense code : Nat) : Bool := decide (code * 25000 < bsense)

/-- The threshold code of T1 to T7 as the working copy holds it. -/
def Settings.threshold (g : Settings) (k : Fin 7) : Nat := g.thresholds[k]

/-- A sample begins: COMPARE_1 with T4 (Table 57). -/
def State.beginSample (s : State) : State :=
  s.withLadder { s.ladder with sampler := .compare1 (s.settings.threshold 3) }

/-- COMPARE_2's threshold: T2 when b2 is 0, T6 when it is 1 (Table 57). -/
def secondThreshold (b2 : Bool) : Fin 7 := if b2 then 5 else 1

/-- COMPARE_3's threshold: T1, T3, T5 or T7 (Table 57). -/
def thirdThreshold (b2 b1 : Bool) : Fin 7 :=
  match b2, b1 with
  | false, false => 0
  | false, true => 2
  | true, false => 4
  | true, true => 6

/-- The band of the three result bits (R137). -/
def bandOf (b2 b1 b0 : Bool) : Fin 8 := ⟨4 * b2.toNat + 2 * b1.toNat + b0.toNat, by
  cases b2 <;> cases b1 <;> cases b0 <;> decide⟩

/-- The target of a sample: 0 with mains present, the band map's entry otherwise (R138). -/
def targetOf (g : Settings) (band : Fin 8) (mains : Bool) : Level := if mains then 0 else g.bandMap[band]

/-- The counters and the level after a sample that is not the initial one (R139); a sample that leaves the level
unchanged runs the relight pass (R138). -/
def State.hysteresis (s : State) (target : Level) : State :=
  let d := s.ladder
  if d.level < target then
    if s.settings.riseCount ≤ d.rise + 1 then s.levelRise target
    else (s.withLadder { d with rise := d.rise + 1, fall := 0 }).relightPass
  else if target < d.level then
    if s.settings.fallCount ≤ d.fall + 1 then s.levelFall target
    else (s.withLadder { d with fall := d.fall + 1, rise := 0 }).relightPass
  else (s.withLadder { d with rise := 0, fall := 0 }).relightPass

/-- The initial sample: a target below 3 is a level fall at once, and the counters are not used (R140). -/
def State.initialSample (s : State) (target : Level) : State :=
  if target < 3 then s.levelFall target else s.relightPass

/-- The sample end (R138): the band, MAINS and the target are kept, and the level follows. -/
def State.endSample (s : State) (band : Fin 8) (mains : Bool) : State :=
  let target := targetOf s.settings band mains
  let kept := s.withLadder { s.ladder with
    band := band, mains := mains, target := target, sampled := true, sampler := .idle }
  if s.ladder.sampled then kept.hysteresis target else kept.initialSample target

end Sys2Proof.Machine
end

