-- ==== Sys2Proof/Machine/Rounds.lean ====
section
/-! DEFINITION. Grant rounds (chapter 5): the roster, the three grant stages in rotating order, round start, the cycle expiry's part, the snapshot, and the emission of grants and ROUND END. -/

namespace Sys2Proof.Machine

/-! ### Claims and headroom (R83, R88) -/

/-- The claim of a roster entry: its demand, committed credits and peak credits at most (R83). -/
def RosterEntry.claim (e : RosterEntry) : Nat := min e.demand (min e.kc e.kp)

/-- The headroom of an entry above its grant (R88). -/
def Share.headroom (x : Share) : Nat := min (x.entry.demand - x.grant) (x.entry.kp - x.grant)

/-- The sum of a quantity over shares. -/
def sumShares (q : Share → Nat) (l : List Share) : Nat := (l.map q).sum

/-! ### Rotating order (R84, R85) -/

/-- One pass over the entries that `visit` names: each takes what `room` allows of what is left. The entries keep
their order; the answer holds what is left after the pass. -/
def handPass (visit : Share → Bool) (room : Share → Nat) : Nat → List Share → List Share × Nat
  | left, [] => ([], left)
  | left, x :: xs =>
    let take := if visit x then min (room x) left else 0
    let rest := handPass visit room (left - take) xs
    ({ x with grant := x.grant + take } :: rest.1, rest.2)

/-- Credits handed out in rotating order: first the entries at or above P_used, then those below it (R84). -/
def handRotating (p : Slot) (room : Share → Nat) (left : Nat) (l : List Share) : List Share :=
  let first := handPass (fun x => decide (p ≤ x.entry.slot)) room left l
  (handPass (fun x => decide (x.entry.slot < p)) room first.2 first.1).1

/-- The start pointer after a round: one past the slot at which rotating order began, 128 becoming 0; unchanged by
an empty roster (R85). -/
def nextPointer (p : Slot) (roster : List RosterEntry) : Slot :=
  match (roster.find? fun e => decide (p ≤ e.slot)).or roster.head? with
  | none => p
  | some e => e.slot + 1

/-! ### The three stages (R86 to R88) -/

/-- An entry is of a class. -/
def Share.ofClass (c : Class) (x : Share) : Bool := x.entry.cls == c

/-- The claim of an entry of a class, 0 for the other class. -/
def Share.claimIn (c : Class) (x : Share) : Nat := if x.ofClass c then x.entry.claim else 0

/-- Every entry of a class granted its claim. -/
def grantClaims (c : Class) (l : List Share) : List Share :=
  l.map fun x => if x.ofClass c then { x with grant := x.entry.claim } else x

/-- Every entry of a class granted the floor of its scaled claim, then the leftover handed out in rotating order,
one credit to each entry below its claim (R86, R87). -/
def grantScaled (c : Class) (capacity total : Nat) (p : Slot) (l : List Share) : List Share :=
  let scaled := l.map fun x => if x.ofClass c then { x with grant := x.entry.claim * capacity / total } else x
  let given := sumShares (fun x => if x.ofClass c then x.grant else 0) scaled
  handRotating p (fun x => if x.ofClass c && decide (x.grant < x.entry.claim) then 1 else 0) (capacity - given) scaled

/-- The excess stage over a remainder R (R88). -/
def grantExcess (r : Nat) (p : Slot) (l : List Share) : List Share :=
  let weights := sumShares (fun x => if 0 < x.headroom then x.entry.weight else 0) l
  if weights = 0 then l
  else
    let share (x : Share) : Nat := if 0 < x.headroom then min x.headroom (r * x.entry.weight / weights) else 0
    let left := r - sumShares share l
    handRotating p Share.headroom left (l.map fun x => { x with grant := x.grant + share x })

/-- The standard stage over C1, and the excess stage over what it leaves (R87, R88). -/
def grantStandard (c1 : Nat) (p : Slot) (l : List Share) : List Share :=
  let ss := sumShares (Share.claimIn .standard) l
  if ss ≤ c1 then grantExcess (c1 - ss) p (grantClaims .standard l) else grantScaled .standard c1 ss p l

/-- The grants of a roster: the essential stage, and the later stages over what it leaves (R86 to R88). -/
def computeGrants (c : Nat) (p : Slot) (roster : List RosterEntry) : List Share :=
  let l := roster.map fun e => (⟨e, 0⟩ : Share)
  let se := sumShares (Share.claimIn .essential) l
  if se ≤ c then grantStandard (c - se) p (grantClaims .essential l) else grantScaled .essential c se p l

/-! ### Round start and the cycle expiry (R75 to R77) -/

/-- A round starts: the round number counts up, wrapping, and the roster request is raised (R77). -/
def State.startRound (s : State) : State :=
  s.withRound { s.round with phase := .snapshotWait, number := s.round.number + 1 }

/-- The round engine's part of a cycle expiry (Table 32, R76). -/
def State.roundExpiry (s : State) : State :=
  match s.round.phase with
  | .idle => s.startRound
  | .snapshotWait | .emitting _ =>
    if s.round.deferred then
      (s.withRound { s.round with slips := countUp16 s.round.slips }).raise .roundSlip
    else s.withRound { s.round with deferred := true }

/-- The link's part of a cycle expiry: the stale counter counts to 64 (R67). -/
def State.staleExpiry (s : State) : State :=
  if 64 ≤ s.link.staleCount then s
  else if s.link.staleCount + 1 = 64 then
    (s.withLink { s.link with staleCount := 64, stale := true }).raise .capacityStale
  else s.withLink { s.link with staleCount := s.link.staleCount + 1 }

/-! ### The roster snapshot and its completion (R80 to R82) -/

/-- The roster entry of a slot's record (Table 33). -/
def State.rosterEntry (s : State) (i : Slot) : RosterEntry :=
  let r := s.slot i
  ⟨i, r.cov.tag, r.cov.cls, r.cov.weight, r.demand, r.kcu / 16, r.kpu / 16⟩

/-- A slot's stored state is ACTIVE. -/
def State.isActive (s : State) (i : Slot) : Bool := (s.slot i).cov.state == .active

/-- The slots whose ACTIVE record passes its check, in ascending order. -/
def State.sound (s : State) : List Slot := (List.finRange 128).filter fun i => s.isActive i && (s.slot i).passes

/-- The slots whose ACTIVE record fails its check, in ascending order. -/
def State.unsound (s : State) : List Slot := (List.finRange 128).filter fun i => s.isActive i && !(s.slot i).passes

/-- The roster request taken and completed: failing ACTIVE records are discovered in ascending order, the passing
ones make the roster, C and P_used are taken (R80); then the grants are computed, the start pointer moves, the
counts are zeroed, and the first message is on offer (R82). -/
def State.snapshot (s : State) : State :=
  let roster := s.sound.map s.rosterEntry
  let shares := computeGrants s.link.capUp s.round.pointer roster
  let t := s.unsound.foldl (fun s i => s.discover i .roster) s
  t.withRound { s.round with
    pointer := nextPointer s.round.pointer roster
    phase := .emitting ⟨s.link.capUp, s.round.pointer, shares, shares.filter fun x => decide (0 < x.grant), 0, 0, 0⟩ }

/-! ### Emission (R91 to R94) -/

/-- The check at emission: the slot's stored tag is the entry's and its stored state is ACTIVE (R92). -/
def State.grantPasses (s : State) (x : Share) : Bool :=
  (s.slot x.entry.slot).cov.tag == x.entry.tag && (s.slot x.entry.slot).cov.state == .active

/-- A GRANT sent: debits, demand, counter and the round's counts at the same event (R92); the next message is then
on offer (R70). -/
def State.sendGrant (s : State) (x : Share) (rest : List Share) (e : Emission) : State :=
  let i := x.entry.slot
  let paid := s.setSlot i ((s.slot i).payGrant x.grant x.entry.claim)
  let sent := paid.withLink { s.link with sending := some (grantBytes s.round.number x.entry.tag x.grant) }
  sent.withRound { s.round with
    phase := .emitting { e with
      offers := rest
      sentCount := e.sentCount + 1
      sentTotal := e.sentTotal + x.grant } }

/-- What the round engine holds after a grant is withheld (R93). -/
def withholdGrant (x : Share) (rest : List Share) (e : Emission) : Emission :=
  { e with offers := rest, withheld := e.withheld + x.grant }

/-- ROUND END sent: the round completes, and an owed round starts at the same event (R78, R94). -/
def State.sendRoundEnd (s : State) (e : Emission) : State :=
  let sent := s.withLink { s.link with
    sending := some (roundEndBytes s.round.number e.sentCount e.sentTotal e.withheld) }
  let done := sent.withRound { s.round with phase := .idle }
  if s.round.deferred then (done.withRound { s.round with phase := .idle, deferred := false }).startRound else done

/-- The round message on offer handed the transmitter: a withheld GRANT leaves it idle and the next message is on
offer at the same event (R70, R93). -/
def State.emitRound (s : State) : List Share → Emission → State
  | [], e => s.sendRoundEnd e
  | x :: xs, e => if s.grantPasses x then s.sendGrant x xs e else s.emitRound xs (withholdGrant x xs e)

end Sys2Proof.Machine
end

