-- ==== Sys2Proof/Machine/Link.lean ====
section
/-! DEFINITION. The traffic link (chapter 4) and what acts at once inside a step: the lookup event, the completion of a decided resolve, the outbound arbiter, the table engine's takes, and `settle`, which makes all that is due. -/

namespace Sys2Proof.Machine

/-! ### The lookup event (R60) -/

/-- The verdict for a found slot, with the effect on its record (Table 27). -/
def State.decideFound (s : State) (q : Request) (i : Slot) : State × VerdictMsg :=
  let r := s.slot i
  let msg (v : Verdict) : VerdictMsg := ⟨q.query, v, r.cov.line, r.cov.cls⟩
  if r.cov.state = .damaged then (s, msg .fault)
  else if !r.passes then (s.discover i .resolve, msg .fault)
  else if r.cov.state = .barred then (s, msg .barred)
  else if r.cov.state = .standby then (s, msg .held)
  else
    let d := r.meterResolve (creditsOf q.length)
    (s.setSlot i d.2, msg d.1)

/-- The verdict of a resolve request, from the first case of Table 27 that applies, with its effect (R60). -/
def State.decide (s : State) (q : Request) : State × VerdictMsg :=
  if !validTag q.tag then (s, ⟨q.query, .unknown, 0, .standard⟩)
  else
    match s.find q.tag with
    | none => (s, ⟨q.query, .unknown, 0, .standard⟩)
    | some i => s.decideFound q i

/-- The lookup event of the queue's head: the request leaves the queue and stays in service, decided (R58, R62). -/
def State.lookup (s : State) (q : Request) (rest : List Request) : State :=
  let d := (s.withLink { s.link with queue := rest }).decide q
  d.1.withEngine { d.1.engine with service := .resolve d.2 }

/-! ### Management requests (R11) -/

/-- The take of the management request: its whole effect, with the response it will deliver at its completion. -/
def State.takeManagement (s : State) (c : RecordCommand) : State :=
  let a := s.takeCommand c
  let taken := a.state.withPort { a.state.port with state := .wait .taken }
  taken.withEngine { taken.engine with service := .management (resultWord c.code a.result :: a.data) }

/-! ### What is due -/

/-- The round engine has a message on offer (R91). -/
def RoundPhase.offering : RoundPhase → Bool
  | .idle => false
  | .snapshotWait => false
  | .emitting _ => true

/-- The transmitter is idle. -/
def State.txIdle (s : State) : Bool := s.link.sending.isNone

/-- The table engine is free. -/
def State.engineFree (s : State) : Bool := s.engine.service == .free

/-- A refusal or a held verdict can be handed the idle transmitter (R69). -/
def State.verdictDue (s : State) : Bool := s.txIdle && (!s.link.refusals.isEmpty || s.link.held.isSome)

/-- A round message can be handed the idle transmitter: no verdict waits (R69). -/
def State.roundDue (s : State) : Bool :=
  s.txIdle && s.link.refusals.isEmpty && s.link.held.isNone && s.round.phase.offering

/-- A decided resolve can complete: the held verdict is empty (R62). -/
def State.completionDue (s : State) : Bool :=
  match s.engine.service with
  | .resolve _ => s.link.held.isNone
  | .free => false
  | .management _ => false

/-- The roster request can be taken (R12). -/
def State.rosterDue (s : State) : Bool := s.engineFree && s.round.phase == .snapshotWait

/-- The resolve request at the queue's head can be taken: no roster request waits (R12). -/
def State.lookupDue (s : State) : Bool :=
  s.engineFree && s.round.phase != .snapshotWait && !s.link.queue.isEmpty

/-- The management request that waits for the engine. -/
def PortState.waiting : PortState → Option RecordCommand
  | .wait (.record c) => Option.some c
  | .wait .taken => Option.none
  | .wait .store => Option.none
  | .none => Option.none
  | .ready _ => Option.none

/-- The management request can be taken: neither a roster request nor a resolve waits (R12). -/
def State.managementDue (s : State) : Bool :=
  s.engineFree && s.round.phase != .snapshotWait && s.link.queue.isEmpty && s.port.state.waiting.isSome

/-! ### The internal events -/

/-- The transmitter handed to the head of the refusal list, or else to the held verdict (R69). -/
def State.sendVerdict (s : State) : State :=
  match s.link.refusals with
  | q :: rest => s.withLink { s.link with refusals := rest, sending := some (verdictBytes (refusedMsg q)) }
  | [] =>
    match s.link.held with
    | some v => s.withLink { s.link with held := none, sending := some (verdictBytes v) }
    | none => s

/-- The transmitter handed to the round message on offer (R69, R70). -/
def State.sendRound (s : State) : State :=
  match s.round.phase with
  | .emitting e => s.emitRound e.offers e
  | .idle => s
  | .snapshotWait => s

/-- The decided resolve's VERDICT enters the held verdict, and the engine is free (R62). -/
def State.completeResolve (s : State) : State :=
  match s.engine.service with
  | .resolve v => (s.withLink { s.link with held := some v }).withEngine { s.engine with service := .free }
  | .free => s
  | .management _ => s

/-- The lookup event of the request at the queue's head (R60). -/
def State.lookupHead (s : State) : State :=
  match s.link.queue with
  | q :: rest => s.lookup q rest
  | [] => s

/-- The take of the management request that waits (R11). -/
def State.takeWaiting (s : State) : State :=
  match s.port.state.waiting with
  | some c => s.takeManagement c
  | none => s

/-- The next internal event that is due, or none: first the transmitter is handed over, then a decided resolve
completes, then the engine takes the waiting request of highest rank (R12, R62, R69; the order among the three is
log entry 3). -/
def State.internal (s : State) : Option State :=
  if s.verdictDue then some s.sendVerdict
  else if s.roundDue then some s.sendRound
  else if s.completionDue then some s.completeResolve
  else if s.rosterDue then some s.snapshot
  else if s.lookupDue then some s.lookupHead
  else if s.managementDue then some s.takeWaiting
  else none

/-- At most `k` internal events. -/
def State.settleFor : Nat → State → State
  | 0, s => s
  | k + 1, s =>
    match s.internal with
    | none => s
    | some t => t.settleFor k

/-- Everything that is due happens at the event that made it due (R12, R62, R69, log entry 2). One hand-over, two
completions, three lookups, two snapshots and one management take are the most that can be due together. -/
def State.settle (s : State) : State := s.settleFor 10

/-! ### Arrivals on the inbound link (R59, R63, R66) -/

/-- A RESOLVE joins the queue's tail, or overruns a full queue (R59). -/
def State.arriveResolve (s : State) (query : Byte) (tag : Tag) (length : Nat) : State :=
  if s.link.queue.length < 4 then
    s.withLink { s.link with queue := s.link.queue ++ [⟨query, tag, length⟩] }
  else
    let refusals := if s.link.refusals.length < 4 then s.link.refusals ++ [query] else s.link.refusals
    (s.withLink { s.link with refusals := refusals }).raise .queryOverrun

/-- A BACKLOG overwrites the demand latch of the record found, or counts as unmatched (R63, R65). -/
def State.arriveBacklog (s : State) (tag : Tag) (credits : Nat) : State :=
  match if validTag tag then s.find tag else none with
  | some i => s.setSlot i { s.slot i with demand := min 4095 credits }
  | none => s.withLink { s.link with unmatched := countUp16 s.link.unmatched }

/-- A CAPACITY loads both registers, clamped, and ends staleness (R66). -/
def State.arriveCapacity (s : State) (up down : Nat) : State :=
  s.withLink { s.link with capUp := min 4095 up, capDown := min 4095 down, stale := false, staleCount := 0 }

/-- The receiver after a message has arrived: no message is being received. -/
def State.receiverIdle (s : State) : State := s.withLink { s.link with receiving := [] }

/-- Byte `k` of a received message. -/
def byteAt (l : List Byte) (k : Nat) : Byte := (l[k]?).getD 0

/-- A received tag field: the upper 4 bits of its first byte are ignored (R175). -/
def tagAt (l : List Byte) (k : Nat) : Tag := (byteAt l k).extractLsb' 0 4 ++ byteAt l (k + 1) ++ byteAt l (k + 2)

/-- A 16-bit field, most significant byte first. -/
def pairAt (l : List Byte) (k : Nat) : Nat := (byteAt l k).toNat * 256 + (byteAt l (k + 1)).toNat

/-- A message of eight bytes acts whole according to its type byte; another type is discarded (R57, Table 81). -/
def State.arriveMessage (s : State) (l : List Byte) : State :=
  if byteAt l 0 = 0x01 then (s.arriveResolve (byteAt l 1) (tagAt l 2) (pairAt l 5)).settle
  else if byteAt l 0 = 0x02 then s.arriveBacklog (tagAt l 1) (pairAt l 4)
  else if byteAt l 0 = 0x03 then s.arriveCapacity (pairAt l 1) (pairAt l 3)
  else s

/-- A byte taken on the inbound link (R175). -/
def State.takeByte (s : State) (start : Bool) (b : Byte) : State :=
  let bytes := if start then [b] else if s.link.receiving.isEmpty then [] else s.link.receiving ++ [b]
  if bytes.length = 8 then s.receiverIdle.arriveMessage bytes
  else s.withLink { s.link with receiving := bytes }

end Sys2Proof.Machine
end

