-- ==== Sys2Proof/Machine/Port.lean ====
section
/-! DEFINITION. The management port (chapter 9): the arrival of a command, its judgement in the order of R154, answers, and the acceptance of timed commands. -/

namespace Sys2Proof.Machine

/-- The outcome type of exec. -/
abbrev StepOutcome := Host.Outcome State Fault Refusal

/-! ### Chip select and the words shifted out (R151, R152, R160) -/

/-- Chip select rises with no transaction taken: during a reset, or at the end of a transaction that a reset has
abandoned (R160, R172). -/
def State.csRise (s : State) : State := s.withPort { s.port with csLow := false, txn := none }

/-- A command transaction ends: its slot 1 shifted out the status word latched at its falling edge (R152). Where no
falling edge has been met, it is taken to stand at the same place in the order of events (log entry 12). -/
def State.endCommand (s : State) : State :=
  let status := match s.port.txn with
    | some t => t.status
    | none => s.statusWord
  s.withPort { s.port with csLow := false, txn := none, out := [status] }

/-- A response placed in the buffer, replacing what it held; the port enters READY (R153, R154). -/
def State.answer (s : State) (code : Byte) (r : ResultCode) (data : List Word16) : State :=
  s.withPort { s.port with state := .ready (resultWord code r :: data) }

/-! ### Command arrival (R154) -/

/-- How the port judges a command at its arrival. -/
inductive Arrival where
  /-- The part is held in reset: no transaction is taken (R172). -/
  | held
  /-- A reset abandoned the transaction: its end is not an arrival (R160). -/
  | ignored
  /-- The transaction in progress is a fetch, and two transactions never overlap, so no command can end here (R151): nothing
  changes (log entry 4). -/
  | overlapped
  | busy
  | illegal
  | badCount
  | accepted
deriving DecidableEq, Repr

/-- A transaction is well formed: no partial word, at most 16 arguments, as many as the count field says (R154). -/
def frameOk (f : Frame) : Bool := !f.partialWord && decide (f.count.toNat ≤ 16) && f.args.length == f.count.toNat

/-- A command is in flight. -/
def PortState.waits : PortState → Bool
  | .wait _ => true
  | .none => false
  | .ready _ => false

/-- The transaction in progress is a fetch: its slot 1 has ended with code 0 (R151). -/
def Port.fetching (p : Port) : Bool :=
  match p.txn with
  | some t => t.fetch
  | none => false

/-- The judgement of R154, in its order; `argc` is the count of Table 61, none for a code that is no command. -/
def State.arrival (s : State) (f : Frame) (argc : Option Nat) : Arrival :=
  if s.hold.isSome then .held
  else if s.port.csLow && s.port.txn.isNone then .ignored
  else if s.port.fetching then .overlapped
  else if s.port.state.waits then .busy
  else if !frameOk f then .illegal
  else
    match argc with
    | none => .illegal
    | some n => if f.count.toNat = n then .accepted else .badCount

/-- A command refused busy: discarded whole, the refused-busy flag set (R155). -/
def State.refuseBusy (s : State) : State := s.endCommand.withPort { s.endCommand.port with busy := true }

/-- What an immediate command leaves and answers. -/
abbrev Immediate := List Word16 → State → Answered

/-- The arrival of an immediate command of Table 61: carried out at this event, its answer placed in the buffer
(R154, R158). -/
def State.immediate (s : State) (code : Byte) (argc : Nat) (f : Frame) (act : Immediate) : State :=
  match s.arrival f (some argc) with
  | .held => s.csRise
  | .ignored => s.csRise
  | .overlapped => s
  | .busy => s.refuseBusy
  | .illegal => s.endCommand.answer code .illegal []
  | .badCount => s.endCommand.answer code .badArgument []
  | .accepted =>
    let a := act f.args s.endCommand
    a.state.answer code a.result a.data

/-- The arrival of a timed command of Table 61: the buffer is emptied, the port enters WAIT, and `begun` hands the
command to its owner (R154, R157). -/
def State.timed (s : State) (code : Byte) (argc : Nat) (f : Frame) (c : InFlight) (begun : State → State) : State :=
  match s.arrival f (some argc) with
  | .held => s.csRise
  | .ignored => s.csRise
  | .overlapped => s
  | .busy => s.refuseBusy
  | .illegal => s.endCommand.answer code .illegal []
  | .badCount => s.endCommand.answer code .badArgument []
  | .accepted => begun (s.endCommand.withPort { s.endCommand.port with state := .wait c })

/-- A timed record command: it is the table engine's management request from its acceptance on, and it is taken at
once when the engine is free and nothing else waits (R12, R157). -/
def State.timedRecord (s : State) (argc : Nat) (f : Frame) (c : RecordCommand) : State :=
  s.timed c.code argc f (.record c) State.settle

/-- A command whose code is no command: refused busy in WAIT, ILLEGAL otherwise (R154). -/
def State.undefinedCode (s : State) (code : Byte) (f : Frame) : State :=
  match s.arrival f none with
  | .held => s.csRise
  | .ignored => s.csRise
  | .overlapped => s
  | .busy => s.refuseBusy
  | .illegal | .badCount | .accepted => s.endCommand.answer code .illegal []

end Sys2Proof.Machine
end

