-- ==== Sys2Proof/Machine/LadderEvents.lean ====
section
/-! DEFINITION. Meanings of the power chain's and the power ladder's events, and of READ LADDER (chapters 2 and 8). -/

namespace Sys2Proof.Machine

/-- POWER CHAIN LATCH: the shift in progress ends with its strobe (R33); nothing while the chain is idle. -/
def execPowerChainLatch (s : State) : StepOutcome :=
  .next (s.unlessHeld fun s => s.withPower s.power.strobe)

/-- ONE SECOND TICK EXPIRY: the sample count increments, and at the sample period it returns to 0 and a sample begins
(R136). -/
def execOneSecondTickExpiry (s : State) : StepOutcome :=
  .next (s.unlessHeld fun s =>
    if s.settings.samplePeriod ≤ s.ladder.count + 1 then
      (s.withLadder { s.ladder with count := 0 }).beginSample
    else s.withLadder { s.ladder with count := s.ladder.count + 1 })

/-- COMPARISON SETTLE EXPIRY: the result of COMPARE_1 or COMPARE_2 is taken and the next comparison begins with its
threshold (R137); nothing in the sampler's other states. -/
def execComparisonSettleExpiry (bsense : Nat) (s : State) : StepOutcome :=
  .next (s.unlessHeld fun s =>
    match s.ladder.sampler with
    | .compare1 code =>
      let b2 := senseAbove bsense code
      s.withLadder { s.ladder with sampler := .compare2 b2 (s.settings.threshold (secondThreshold b2)) }
    | .compare2 b2 code =>
      let b1 := senseAbove bsense code
      s.withLadder { s.ladder with sampler := .compare3 b2 b1 (s.settings.threshold (thirdThreshold b2 b1)) }
    | .idle | .compare3 _ _ _ => s)

/-- SAMPLE END, the settle expiry of COMPARE_3 (R138): nothing outside COMPARE_3. -/
def execSampleEnd (bsense : Nat) (mains : Bool) (s : State) : StepOutcome :=
  .next (s.unlessHeld fun s =>
    match s.ladder.sampler with
    | .compare3 b2 b1 code => s.endSample (bandOf b2 b1 (senseAbove bsense code)) mains
    | .idle | .compare1 _ | .compare2 _ _ => s)

/-- READ LADDER's act (R149). -/
def actReadLadder : Immediate := fun _ s => ⟨s, .ok, ladderWords s⟩

/-- READ LADDER (R149). -/
def execReadLadder (f : Frame) (s : State) : StepOutcome := .next (s.immediate 0x15 0 f actReadLadder)

end Sys2Proof.Machine
end

