-- ==== Sys2Proof/Machine/LineCommands.lean ====
section
/-! DEFINITION. Meanings of the line commands (chapter 2, Table 17). -/

namespace Sys2Proof.Machine

/-- The state that a line command leaves with its result code. -/
abbrev LineAct := LineNo → State → State × ResultCode

/-- A line command: BAD_ARGUMENT for a line of 24 or more; otherwise the answer carries word 2 of Table 78 as it
stands after the command, a refusal changing nothing (R34, Table 86). -/
def lineCommand (act : LineAct) : Immediate := fun args s =>
  match lineNoOf (argLine args) with
  | none => ⟨s, .badArgument, [0]⟩
  | some n =>
    let a := act n s
    ⟨a.1, a.2, [lineWord n (a.1.line n)]⟩

/-- LIGHT LINE on a line (R35). -/
def lightLine : LineAct := fun n s =>
  if (s.line n).state = .rest .dark then
    if (s.line n).shed.isSome ∧ s.settings.shedClass[n] ≤ s.ladder.level.val then (s, .shed)
    else if s.budgetNow < s.load + s.settings.cost[n] then (s, .budget)
    else ((s.setLineState n (.rest .suspended) none).commandPower, .ok)
  else (s, .wrongState)

/-- LIGHT LINE (R35). -/
def execLightLine (f : Frame) (s : State) : StepOutcome := .next (s.immediate 0x0C 1 f (lineCommand lightLine))

/-- SERVE LINE on a line (R36). -/
def serveLine : LineAct := fun n s =>
  if (s.line n).state = .rest .suspended then
    ((s.setLineState n (.rest .inService) (s.line n).shed).enterService n, .ok)
  else (s, .wrongState)

/-- SERVE LINE (R36). -/
def execServeLine (f : Frame) (s : State) : StepOutcome := .next (s.immediate 0x0D 1 f (lineCommand serveLine))

/-- SUSPEND LINE on a line (R37). -/
def suspendLine : LineAct := fun n s =>
  match (s.line n).state with
  | .rest .inService => ((s.setLineState n (.rest .suspended) (s.line n).shed).leaveService n, .ok)
  | .underTest .inService => (s.setLineState n (.underTest .suspended) (s.line n).shed, .ok)
  | .rest .dark | .rest .suspended | .rest .faulted => (s, .wrongState)
  | .underTest .dark | .underTest .suspended | .underTest .faulted => (s, .wrongState)

/-- SUSPEND LINE (R37). -/
def execSuspendLine (f : Frame) (s : State) : StepOutcome := .next (s.immediate 0x0E 1 f (lineCommand suspendLine))

/-- DARKEN LINE on a line (R38). -/
def darkenLine : LineAct := fun n s =>
  match (s.line n).state with
  | .rest .suspended => ((s.setLineState n (.rest .dark) none).leftLit, .ok)
  | .rest .inService => (((s.setLineState n (.rest .dark) none).leaveService n).leftLit, .ok)
  | .rest .dark =>
    if (s.line n).shed.isSome then (s.setLineState n (.rest .dark) none, .ok) else (s, .wrongState)
  | .underTest .suspended | .underTest .inService => ((s.setLineState n (.underTest .dark) none).leftLit, .ok)
  | .underTest .dark =>
    if (s.line n).shed.isSome then (s.setLineState n (.underTest .dark) none, .ok) else (s, .wrongState)
  | .rest .faulted | .underTest .faulted => (s, .wrongState)

/-- DARKEN LINE (R38). -/
def execDarkenLine (f : Frame) (s : State) : StepOutcome := .next (s.immediate 0x0F 1 f (lineCommand darkenLine))

/-- CLEAR FAULT on a line (R39). -/
def clearFault : LineAct := fun n s =>
  if (s.line n).state = .rest .faulted then (s.setLineState n (.rest .dark) none, .ok) else (s, .wrongState)

/-- CLEAR FAULT (R39). -/
def execClearFault (f : Frame) (s : State) : StepOutcome := .next (s.immediate 0x10 1 f (lineCommand clearFault))

/-- READ LINE's act (R40). -/
def actReadLine : Immediate := fun args s =>
  match lineNoOf (argLine args) with
  | none => s.refuse .badArgument
  | some n => ⟨s, .ok, readLineWords n (s.line n) s.settings.shedClass[n] s.settings.cost[n]⟩

/-- READ LINE (R40). -/
def execReadLine (f : Frame) (s : State) : StepOutcome := .next (s.immediate 0x11 1 f actReadLine)

end Sys2Proof.Machine
end

