-- ==== Sys2Proof/Machine/LinkEvents.lean ====
section
/-! DEFINITION. Meanings of the traffic link's and the round engine's events (chapters 3, 4 and 5). -/

namespace Sys2Proof.Machine

/-- RESOLVE arrives: it joins the queue and is taken at once by a free engine, or overruns (R59). -/
def execResolve (query : Byte) (tag : Tag) (length : Word16) (s : State) : StepOutcome :=
  .next (s.unlessHeld fun s => (s.receiverIdle.arriveResolve query tag length.toNat).settle)

/-- BACKLOG arrives (R63). -/
def execBacklog (tag : Tag) (credits : Word16) (s : State) : StepOutcome :=
  .next (s.unlessHeld fun s => s.receiverIdle.arriveBacklog tag credits.toNat)

/-- CAPACITY arrives (R66). -/
def execCapacity (up down : Word16) (s : State) : StepOutcome :=
  .next (s.unlessHeld fun s => s.receiverIdle.arriveCapacity up.toNat down.toNat)

/-- A message of another type arrives and is discarded (R57, R175). -/
def execUnknownInboundTypeDiscard (_kind : Byte) (s : State) : StepOutcome :=
  .next (s.unlessHeld fun s => s.receiverIdle)

/-- INBOUND BYTE TAKEN: a message begins, goes on, or arrives with its eighth byte; a byte outside a message is
discarded (R57, R175). -/
def execInboundByteTaken (start : Bool) (b : Byte) (s : State) : StepOutcome :=
  .next (s.unlessHeld fun s => s.takeByte start b)

/-- VERDICT EMISSION (R69): nothing unless the transmitter is idle and a refusal or a held verdict waits. -/
def execVerdictEmission (s : State) : StepOutcome :=
  .next (s.unlessHeld fun s => s.whenDue s.verdictDue fun s => s.sendVerdict.settle)

/-- TRANSMISSION COMPLETION: the transmitter is idle and the arbiter chooses (R68, R69); nothing while it is idle. -/
def execTransmissionCompletion (s : State) : StepOutcome :=
  .next (s.unlessHeld fun s =>
    s.whenDue (!s.txIdle) fun s => (s.withLink { s.link with sending := none }).settle)

/-- CYCLE EXPIRY: f and the refill, the stale count, the round, and the period that begins (R44, R67, R74, R75). -/
def execCycleExpiry (s : State) : StepOutcome :=
  .next (s.unlessHeld fun s =>
    let t := s.meterExpiry.staleExpiry.roundExpiry
    (t.withRound { t.round with period := t.settings.cyclePeriod }).settle)

/-- One GRANT on offer at its emission event: sent when its check passes, withheld otherwise (R92, R93). -/
def State.emitGrant (s : State) (x : Share) (rest : List Share) (e : Emission) : State :=
  if s.grantPasses x then s.sendGrant x rest e
  else s.withRound { s.round with phase := .emitting (withholdGrant x rest e) }

/-- GRANT EMISSION (R92): nothing unless a GRANT on offer can be handed the idle transmitter. -/
def execGrantEmission (s : State) : StepOutcome :=
  .next (s.unlessHeld fun s =>
    s.whenDue s.roundDue fun s =>
      match s.round.phase with
      | .emitting e =>
        match e.offers with
        | x :: rest => (s.emitGrant x rest e).settle
        | [] => s
      | .idle => s
      | .snapshotWait => s)

/-- ROUND END EMISSION (R78, R94): nothing unless ROUND END is on offer and can be handed the idle transmitter. -/
def execRoundEndEmission (s : State) : StepOutcome :=
  .next (s.unlessHeld fun s =>
    s.whenDue s.roundDue fun s =>
      match s.round.phase with
      | .emitting e =>
        match e.offers with
        | [] => (s.sendRoundEnd e).settle
        | _ :: _ => s
      | .idle => s
      | .snapshotWait => s)

end Sys2Proof.Machine
end

