-- ==== Sys2Proof/Machine/PortEvents.lean ====
section
/-! DEFINITION. Meanings of the port's edges and of the table engine's own events (chapters 1, 4 and 9). -/

namespace Sys2Proof.Machine

/-- A command transaction whose code is no command (R154). -/
def execUndefinedCommandCode (code : Byte) (f : Frame) (s : State) : StepOutcome := .next (s.undefinedCode code f)

/-- TRANSACTION BEGIN: chip select falls; outside a reset the port latches the status word that slot 1 shifts out
(R152). A transaction that a reset meets, or that begins during one, is not taken (R160, R172). -/
def execTransactionBegin (s : State) : StepOutcome :=
  .next (if s.hold.isSome then s.withPort { s.port with csLow := true }
    else s.withPort { s.port with csLow := true, txn := some ⟨s.statusWord, false⟩, out := [s.statusWord] })

/-- The response words in the buffer. -/
def PortState.response : PortState → List Word16
  | .ready r => r
  | .none => []
  | .wait _ => []

/-- The end of slot 1 of a fetch: a reported refused-busy flag is cleared, and a latched READY shifts the response
out (R155, R156). -/
def State.fetchSlot1 (s : State) (t : Txn) : State :=
  s.withPort { s.port with
    txn := some { t with fetch := true }
    busy := s.port.busy && !statusBusy t.status
    out := t.status :: (if statusReady t.status then s.port.state.response else []) }

/-- FETCH: nothing unless a transaction is in its slot 1. -/
def execFetch (_rest : Byte) (s : State) : StepOutcome :=
  .next (s.unlessHeld fun s =>
    match s.port.txn with
    | none => s
    | some t => s.whenDue (!t.fetch) fun s => s.fetchSlot1 t)

/-- A fetch is complete when it latched READY and slot n + 1 ended before chip select rose (R156). -/
def Txn.complete (t : Txn) (slots : Nat) : Bool :=
  t.fetch && statusReady t.status && decide (statusWords t.status + 1 ≤ slots)

/-- FETCH COMPLETE: chip select rises. A complete fetch empties the buffer and takes the port to NONE; any other
leaves them as they were (R151, R156, log entry 13). -/
def execFetchComplete (slots : Nat) (s : State) : StepOutcome :=
  .next (match s.port.txn with
    | none => s.csRise
    | some t => if t.complete slots then s.csRise.withPort { s.csRise.port with state := .none } else s.csRise)

/-! ### The table engine's events -/

/-- MANAGEMENT REQUEST TAKE (R11, R12): nothing unless the engine is free, no roster and no resolve request waits,
and a record command is in flight. -/
def execManagementRequestTake (s : State) : StepOutcome :=
  .next (s.unlessHeld fun s => s.whenDue s.managementDue fun s => s.takeWaiting.settle)

/-- MANAGEMENT REQUEST COMPLETION: the result goes to the response buffer, the port enters READY, and the engine, free
again, takes what waits (R11, R12); nothing while no management request is in service. -/
def execManagementRequestCompletion (s : State) : StepOutcome :=
  .next (s.unlessHeld fun s =>
    match s.engine.service with
    | .management response =>
      ((s.withEngine { s.engine with service := .free }).withPort { s.port with state := .ready response }).settle
    | .free => s
    | .resolve _ => s)

/-- LOOKUP EVENT (R60): nothing unless the engine is free, no roster request waits and a resolve is queued. -/
def execLookupEvent (s : State) : StepOutcome :=
  .next (s.unlessHeld fun s => s.whenDue s.lookupDue fun s => s.lookupHead.settle)

/-- RESOLVE COMPLETION (R62): nothing unless a decided resolve is in service and the held verdict is empty. -/
def execResolveCompletion (s : State) : StepOutcome :=
  .next (s.unlessHeld fun s => s.whenDue s.completionDue fun s => s.completeResolve.settle)

/-- ROSTER SNAPSHOT (R80, R82): nothing unless the engine is free and a roster request waits. -/
def execRosterSnapshot (s : State) : StepOutcome :=
  .next (s.unlessHeld fun s => s.whenDue s.rosterDue fun s => s.snapshot.settle)

/-- RECORD DISTURBANCE: covered fields of a non-FREE record other than its state are altered; the check code, the
state field and FREE slots are not reached (R5). -/
def execRecordDisturbance (a : Alteration) (s : State) : StepOutcome :=
  let r := s.slot a.slot
  .next (if r.cov.state = .free then s
    else s.setSlot a.slot { r with cov := {
      tag := a.tag
      line := a.line.toNat
      cls := a.cls
      state := r.cov.state
      upCir := a.upCir.toNat
      upPir := a.upPir.toNat
      dcu := a.dcu.toNat
      dpu := a.dpu.toNat
      weight := a.weight.toNat
      downCir := a.downCir.toNat
      downPir := a.downPir.toNat
      dcd := a.dcd.toNat
      dpd := a.dpd.toNat } })

end Sys2Proof.Machine
end

