-- ==== Sys2Proof/Machine/RecordCommands.lean ====
section
/-! DEFINITION. Meanings of the record commands (chapter 1, Table 9). -/

namespace Sys2Proof.Machine

/-! ### Timed record commands (R15 to R21): accepted into WAIT, taken by the table engine -/

/-- ADMIT SERVICE (R15). -/
def execAdmitService (f : Frame) (s : State) : StepOutcome :=
  .next (s.timedRecord 11 f (.admission (argTag f.args 1) (argAdmitLine f.args) (argProvision f.args)))

/-- AMEND SERVICE (R16); its line bits are ignored (Table 75). -/
def execAmendService (f : Frame) (s : State) : StepOutcome :=
  .next (s.timedRecord 11 f (.amend (argTag f.args 1) (argProvision f.args)))

/-- RETIRE SERVICE (R17). -/
def execRetireService (f : Frame) (s : State) : StepOutcome := .next (s.timedRecord 2 f (.retire (argTag f.args 1)))

/-- RETIRE SLOT (R18). -/
def execRetireSlot (f : Frame) (s : State) : StepOutcome := .next (s.timedRecord 1 f (.retireSlot (argNat f.args 1)))

/-- BAR SERVICE (R19). -/
def execBarService (f : Frame) (s : State) : StepOutcome := .next (s.timedRecord 2 f (.bar (argTag f.args 1)))

/-- UNBAR SERVICE (R20). -/
def execUnbarService (f : Frame) (s : State) : StepOutcome := .next (s.timedRecord 2 f (.unbar (argTag f.args 1)))

/-- LOOK UP SERVICE (R21). -/
def execLookUpService (f : Frame) (s : State) : StepOutcome := .next (s.timedRecord 2 f (.lookUp (argTag f.args 1)))

/-! ### Immediate record commands (R9, R10, R22, R23) -/

/-- PROBE SLOT's act (R22). -/
def actProbeSlot : Immediate := fun args s =>
  if h : argProbeSet args < 32 ∧ argProbeWay args < 4 then
    let r := s.slot (slotOf ⟨argProbeSet args, h.1⟩ ⟨argProbeWay args, h.2⟩)
    ⟨s, .ok, probeWords r r.passes⟩
  else s.refuse .badArgument

/-- PROBE SLOT (R22). -/
def execProbeSlot (f : Frame) (s : State) : StepOutcome := .next (s.immediate 0x08 1 f actProbeSlot)

/-- A record with its four counters 0 (R23). -/
def Record.cleared (r : Record) : Record :=
  { r with upGranted := 0, downPassed := 0, downExcess := 0, downDropped := 0 }

/-- CLEAR COUNTERS' act (R23). -/
def actClearCounters : Immediate := fun args s =>
  if !validTag (argTag args 1) then s.refuse .badArgument
  else
    match s.find (argTag args 1) with
    | none => s.refuse .unknown
    | some i => ⟨s.setSlot i (s.slot i).cleared, .ok, [slotWord i]⟩

/-- CLEAR COUNTERS (R23). -/
def execClearCounters (f : Frame) (s : State) : StepOutcome := .next (s.immediate 0x09 2 f actClearCounters)

/-- FORCE CHECK ERROR's act (R10). -/
def actForceCheckError : Immediate := fun _ s => ⟨s.withArmed true, .ok, []⟩

/-- FORCE CHECK ERROR (R10). -/
def execForceCheckError (f : Frame) (s : State) : StepOutcome := .next (s.immediate 0x0A 0 f actForceCheckError)

/-- READ FAULT's act: the capture and the overflow flag are returned, then emptied and cleared (R9). -/
def actReadFault : Immediate := fun _ s =>
  ⟨s.withEngine { s.engine with capture := none, overflow := false }, .ok,
    faultWords s.engine.capture s.engine.overflow⟩

/-- READ FAULT (R9). -/
def execReadFault (f : Frame) (s : State) : StepOutcome := .next (s.immediate 0x0B 0 f actReadFault)

end Sys2Proof.Machine
end

