-- ==== Sys2Proof/Config.lean ====
section
/-! DEFINITION. What the spec leaves to the world outside the part: free values. -/

namespace Sys2Proof

/-- The image that the external relay drivers hold at their own power-up (R116): a free value, one for each draw
(log entry 6). It has no body, so nothing can be proved of it. -/
opaque Config.powerUpImage : Nat → Image

end Sys2Proof
end

