-- ==== Sys2Proof/Machine/ResetEvents.lean ====
section
/-! DEFINITION. Meanings of the reset events and of RESTART (chapter 11). -/

namespace Sys2Proof.Machine

/-- A reset holds the part: every block is in its reset state, no shift, sample or transaction runs, ATTN is low; the
latched images stay with the external drivers, the settings store keeps the stored block (R24, R42, R56, R73, R98,
R116, R117, R135, R150, R161, R166, R173). -/
def State.held (s : State) (h : Hold) : State where
  slots := Vector.replicate 128 clearedRecord
  armed := false
  engine := ⟨.free, none, false⟩
  meter := resetMeter
  lines := Vector.replicate 24 resetLine
  power := s.power.abandoned
  link := resetLink
  round := resetRound s.round.period
  tests := ⟨[], none⟩
  relay := s.relay.abandoned
  head := resetHead
  ladder := resetLadder .idle
  port := resetPort s.port.csLow
  events := ⟨0, 0x1FF, s.events.cause⟩
  settings := s.settings
  stored := s.stored
  hold := some h
  draws := s.draws
  pending := s.pending

/-- The conditions that stand, with none standing before a first reset (R172). -/
def State.conditions (s : State) : Hold := s.hold.getD ⟨false, false, false, s.events.cause⟩

/-- The settings load runs when every condition has cleared; the kind is that of the condition cleared last
(R172). -/
def Hold.cleared (h : Hold) (cause : ResetCause) : Hold :=
  { h with loading := !h.supplyLow && !h.resetnLow, cause := cause }

/-- The relay chain's latched image is what the external drivers hold at their own power-up, a free value (R116, log entry 6).
The power chain's is not touched: it changes at a latch alone (R33, log entry 28). -/
def State.drawRelayImage (s : State) : State :=
  (s.withRelay { s.relay with latched := Config.powerUpImage s.draws }).withDraws (s.draws + 1)

/-- POWER ON RESET begins, or joins a reset in progress whose load is abandoned (R172). -/
def execPowerOnReset (s : State) : StepOutcome :=
  .next (s.drawRelayImage.held { s.conditions with supplyLow := true, loading := false })

/-- PIN RESET begins with RESETn falling, or joins a reset in progress (R172). -/
def execPinReset (s : State) : StepOutcome :=
  .next (s.held { s.conditions with resetnLow := true, loading := false })

/-- SUPPLY RETURN: the power-on reset's condition clears (R172); nothing while it does not stand. -/
def execSupplyReturn (s : State) : StepOutcome :=
  .next (s.whenDue s.conditions.supplyLow fun s =>
    s.withHold (some ({ s.conditions with supplyLow := false }.cleared .powerOn)))

/-- RESETN RISE: the pin reset's condition clears (R172); nothing while it does not stand. -/
def execResetnRise (s : State) : StepOutcome :=
  .next (s.whenDue s.conditions.resetnLow fun s =>
    s.withHold (some ({ s.conditions with resetnLow := false }.cleared .pin)))

/-- RESTART (R159): a reset with cause COMMAND at its arrival, whose load begins at once; refused busy in WAIT, and
ILLEGAL or BAD_ARGUMENT like any other command. It places no answer. -/
def execRestart (f : Frame) (s : State) : StepOutcome :=
  .next (match s.arrival f (some 0) with
    | .held => s.csRise
    | .ignored => s.csRise
    | .overlapped => s
    | .busy => s.refuseBusy
    | .illegal => s.endCommand.answer 0x1C .illegal []
    | .badCount => s.endCommand.answer 0x1C .badArgument []
    | .accepted => s.endCommand.held ⟨false, false, true, .command⟩)

/-- The working copy that a settings load gives: the stored values clamped, or the defaults (R171). -/
def Stored.load (b : Stored) : Settings := if b.passes then b.values.clamp else defaultSettings

/-- The end of a reset: the working copy loaded, SETTINGS_DEFAULTED raised for a failing block, the reset cause
written, the chains shifting the all-off image, the cycle period and the initial sample begun, and the overload check
made (R33, R74, R116, R136, R143, R166, R171). -/
def State.endReset (s : State) (h : Hold) : State :=
  let g := s.stored.load
  let t := s.held h
  let cleared := ((t.withSettings g).withHold none).withEvents ⟨0, 0x1FF, h.cause⟩
  let told := if s.stored.passes then cleared else cleared.raise .settingsDefaulted
  let begun := ((told.withPower (s.power.abandoned.command 0)).withRelay (s.relay.abandoned.command 0)).withRound
    (resetRound g.cyclePeriod)
  begun.overloadCheck.beginSample

/-- SETTINGS LOAD COMPLETION (R171): nothing while no settings load runs. -/
def execSettingsLoadCompletion (s : State) : StepOutcome :=
  .next (match s.hold with
    | none => s
    | some h => s.whenDue h.loading fun s => s.endReset h)

end Sys2Proof.Machine
end

