-- ==== Sys2Proof/Machine/StatusCommands.lean ====
section
/-! DEFINITION. Meanings of the event and settings commands (chapters 10 and 11). -/

namespace Sys2Proof.Machine

/-- READ STATUS' act (R165). -/
def actReadStatus : Immediate := fun _ s => ⟨s, .ok, statusWords13 s⟩

/-- READ STATUS (R165). -/
def execReadStatus (f : Frame) (s : State) : StepOutcome := .next (s.immediate 0x16 0 f actReadStatus)

/-- ACKNOWLEDGE EVENTS' act: the named flags are cleared (R164). -/
def actAcknowledgeEvents : Immediate := fun args s =>
  let left := s.events.pending &&& ~~~ argEvents args
  ⟨s.withEvents { s.events with pending := left }, .ok, [w16 left.toNat]⟩

/-- ACKNOWLEDGE EVENTS (R164). -/
def execAcknowledgeEvents (f : Frame) (s : State) : StepOutcome := .next (s.immediate 0x17 1 f actAcknowledgeEvents)

/-- SET EVENT MASK's act: the mask is replaced whole (R164). -/
def actSetEventMask : Immediate := fun args s =>
  ⟨s.withEvents { s.events with mask := argEvents args }, .ok, [w16 (argEvents args).toNat]⟩

/-- SET EVENT MASK (R164). -/
def execSetEventMask (f : Frame) (s : State) : StepOutcome := .next (s.immediate 0x18 1 f actSetEventMask)

/-- READ SETTING's act (R169). -/
def actReadSetting : Immediate := fun args s =>
  match settingOf (argNat args 1) with
  | none => s.refuse .badArgument
  | some id => ⟨s, .ok, argWord args 1 :: valueWords (s.settings.read id)⟩

/-- READ SETTING (R169). -/
def execReadSetting (f : Frame) (s : State) : StepOutcome := .next (s.immediate 0x19 1 f actReadSetting)

/-- A setting whose write runs the overload check and then a dispatch retry (R144). -/
def SettingId.checksLoad : SettingId → Bool
  | .budget _ => true
  | .cost _ => true
  | .headCost => true
  | .cyclePeriod | .bandMap _ | .threshold _ | .riseCount | .fallCount | .samplePeriod | .relaySettle | .gateTime
  | .rref | .kc | .shedClass _ | .window _ _ _ => false

/-- The working copy written, with the hand-ons of the setting written (R144, R168). -/
def State.writeSetting (s : State) (id : SettingId) (v : BitVec 32) : State :=
  let written := s.withSettings (s.settings.write id v)
  if id.checksLoad then written.overloadCheck.dispatchRetry else written

/-- WRITE SETTING's act (R168). -/
def actWriteSetting : Immediate := fun args s =>
  match settingOf (argNat args 1) with
  | none => s.refuse .badArgument
  | some id =>
    let t := s.writeSetting id (argValue args)
    ⟨t, .ok, argWord args 1 :: valueWords (t.settings.read id)⟩

/-- WRITE SETTING (R168). -/
def execWriteSetting (f : Frame) (s : State) : StepOutcome := .next (s.immediate 0x1A 3 f actWriteSetting)

/-- A store begins: the stored block is erased, so it fails its check, and the working copy's values are written to
it, the check word last (R170). -/
def State.beginStore (s : State) : State := s.withStored ⟨s.settings, false⟩

/-- STORE SETTINGS (R170). -/
def execStoreSettings (f : Frame) (s : State) : StepOutcome := .next (s.timed 0x1B 0 f .store State.beginStore)

/-- The store completes: it reads the block back, and the verify indicator says whether it passes its check and holds
the working copy's values; `held` is whether the cells hold what was written (R170). -/
def State.completeStore (s : State) (held : Bool) : State :=
  (s.withStored { s.stored with passes := held }).answer 0x1B .ok [w16 held.toNat]

/-- STORE COMPLETION: nothing while no store is in progress. -/
def execStoreCompletion (held : Bool) (s : State) : StepOutcome :=
  .next (s.unlessHeld fun s => s.whenDue (s.port.state == .wait .store) fun s => s.completeStore held)

/-- NONVOLATILE VALUE LOSS: the stored block fails its check from then on (R167). -/
def execNonvolatileValueLoss (s : State) : StepOutcome := .next (s.withStored { s.stored with passes := false })

end Sys2Proof.Machine
end

