-- ==== Sys2Proof/Machine/TestCommands.lean ====
section
/-! DEFINITION. Meanings of the test commands and of the events of a test in flight (chapters 6 and 7). -/

namespace Sys2Proof.Machine

/-! ### The test queue (R119, R120, R134) -/

/-- A line has an entry in the test queue. -/
def State.queued (s : State) (n : LineNo) : Bool := s.tests.queue.any fun e => e.line == n

/-- A line is UNDER_TEST. -/
def State.underTest (s : State) (n : LineNo) : Bool :=
  match (s.line n).state with
  | .underTest _ => true
  | .rest _ => false

/-- The entry that a REQUEST TEST builds (R119). -/
def requestedEntry (args : List Word16) (n : LineNo) : TestEntry where
  line := n
  items := argItems args
  tone := if argToneFlag args then some (argTone args) else none
  limitSet := argLimitSet args
  autoHold := argAutoHold args

/-- REQUEST TEST's act (R119). The position is the entry's place in the queue after the retry: 0 when the retry has
dispatched it. -/
def actRequestTest : Immediate := fun args s =>
  match lineNoOf (argLine args) with
  | none => s.refuse .badArgument
  | some n =>
    if argItems args = 0 ∧ argToneFlag args = false then s.refuse .badArgument
    else if s.queued n || s.underTest n then s.refuse .duplicate
    else if 8 ≤ s.tests.queue.length then s.refuse .queueFull
    else
      let e := requestedEntry args n
      let t := (s.withTests { s.tests with queue := s.tests.queue ++ [e] }).dispatchRetry
      ⟨t, .ok, w16 t.tests.queue.length :: toneWords e.tone⟩

/-- REQUEST TEST (R119). -/
def execRequestTest (f : Frame) (s : State) : StepOutcome := .next (s.immediate 0x12 4 f actRequestTest)

/-- A stage in which the test holds the pair: CONNECT, a measurement or TONE (R120, R125). -/
def Stage.holdsPair : Stage → Bool
  | .connect => true
  | .measure _ => true
  | .tone => true
  | .disconnect => false
  | .evaluate => false

/-- CANCEL TEST on a line (R120). -/
def State.cancelTest (s : State) (n : LineNo) : State × ResultCode :=
  if s.queued n then
    (s.withTests { s.tests with queue := s.tests.queue.filter fun e => e.line != n }, .ok)
  else
    match s.tests.current with
    | none => (s, .unknown)
    | some t =>
      if t.entry.line = n then if t.stage.holdsPair then (s.abort .host, .ok) else (s, .wrongState)
      else (s, .unknown)

/-- CANCEL TEST's act (R120). -/
def actCancelTest : Immediate := fun args s =>
  match lineNoOf (argLine args) with
  | none => s.refuse .badArgument
  | some n => ⟨(s.cancelTest n).1, (s.cancelTest n).2, []⟩

/-- CANCEL TEST (R120). -/
def execCancelTest (f : Frame) (s : State) : StepOutcome := .next (s.immediate 0x13 1 f actCancelTest)

/-- READ TEST QUEUE's act (R134). -/
def actReadTestQueue : Immediate := fun args s =>
  if 9 ≤ argPosition args then s.refuse .badArgument
  else ⟨s, .ok, testQueueWords s.tests (argPosition args)⟩

/-- READ TEST QUEUE (R134). -/
def execReadTestQueue (f : Frame) (s : State) : StepOutcome := .next (s.immediate 0x14 1 f actReadTestQueue)

/-! ### The relay chain and the settle waits (R99, R101, R124) -/

/-- A latched image begins the settle wait that the stage awaits (R101). -/
def Test.awaits (t : Test) (image : Image) : Bool :=
  t.settle.isNone && (match t.stage with
    | .connect => image.getLsbD t.entry.line.val
    | .disconnect => image == 0
    | .measure _ | .tone | .evaluate => false)

/-- The relay chain's strobe: the image is latched, and the settle wait it begins takes its length from the working
copy (R99, R101). -/
def State.latchRelay (s : State) (image : Image) : State :=
  let latched := s.withRelay s.relay.strobe
  match s.tests.current with
  | none => latched
  | some t => if t.awaits image then latched.withTest { t with settle := some s.settings.relaySettle } else latched

/-- RELAY LATCH COMPLETION: nothing while the chain is idle. -/
def execRelayLatchCompletion (s : State) : StepOutcome :=
  .next (s.unlessHeld fun s =>
    match s.relay.shifting with
    | none => s
    | some image => s.latchRelay image)

/-- The end of a settle wait: CONNECT starts the first requested item, DISCONNECT enters EVALUATE with the
judgements and the verdict formed (R101, R123, R124). -/
def State.settled (s : State) (t : Test) : State :=
  match t.stage with
  | .connect => s.proceed t 0
  | .disconnect => s.withTest { t.atStage .evaluate with evaluation := some (t.evaluate s.settings) }
  | .measure _ | .tone | .evaluate => s

/-- RELAY SETTLE EXPIRY: nothing while no settle wait runs. -/
def execRelaySettleExpiry (s : State) : StepOutcome :=
  .next (s.unlessHeld fun s =>
    match s.tests.current with
    | none => s
    | some t => s.whenDue t.settle.isSome fun s => s.settled t)

/-! ### The head's events (R104 to R114) -/

/-- PATH SETTLE EXPIRY (R104): nothing outside PATH_SETTLE. -/
def execPathSettleExpiry (capin : Bool) (s : State) : StepOutcome :=
  .next (s.unlessHeld fun s => s.withHead (s.head.pathSettled capin))

/-- CONVERTER SAMPLE (R107, R108): the last sample completes the measurement; nothing outside SAMPLING. -/
def execConverterSample (code : BitVec 10) (s : State) : StepOutcome :=
  .next (s.unlessHeld fun s =>
    match s.head.phase with
    | .sampling i a =>
      let b := a.add code.toNat
      if i.samples ≤ b.count then s.completeMeasure i.meas (i.result b)
      else s.withHead { s.head with phase := .sampling i b }
    | .idle | .pathSettle _ | .refGate _ | .pairGate _ _ | .charge _ | .discharge _ _ | .toneOn _ | .toneOff _ => s)

/-- REFERENCE GATE EXPIRY: Nref is kept and the pair path is set (R109); nothing outside REF_GATE. -/
def execReferenceGateExpiry (s : State) : StepOutcome :=
  .next (s.unlessHeld fun s =>
    match s.head.phase with
    | .refGate w => s.withHead { s.head with phase := .pathSettle (.resPair w s.head.osc), path := w.item.path }
    | .idle | .pathSettle _ | .sampling _ _ | .pairGate _ _ | .charge _ | .discharge _ _ | .toneOn _ | .toneOff _ => s)

/-- PAIR GATE EXPIRY: Nx is kept and the measurement completes (R110); nothing outside PAIR_GATE. -/
def execPairGateExpiry (s : State) : StepOutcome :=
  .next (s.unlessHeld fun s =>
    match s.head.phase with
    | .pairGate w nref => s.completeMeasure w.item.meas (resResult w.rref nref s.head.osc)
    | .idle | .pathSettle _ | .sampling _ _ | .refGate _ | .charge _ | .discharge _ _ | .toneOn _ | .toneOff _ => s)

/-- OSCILLATOR EDGE: counted in either gate, saturating (R109); not counted elsewhere. -/
def execOscillatorEdge (s : State) : StepOutcome :=
  .next (s.unlessHeld fun s =>
    match s.head.phase with
    | .refGate _ | .pairGate _ _ => s.withHead { s.head with osc := min oscMax (s.head.osc + 1) }
    | .idle | .pathSettle _ | .sampling _ _ | .charge _ | .discharge _ _ | .toneOn _ | .toneOff _ => s)

/-- The end of the charge: TCHG goes low and the head enters DISCHARGE (R111). -/
def Head.endCharge (h : Head) (kc : Nat) (e : ChargeEnd) (ticks : Nat) : Head :=
  { h with phase := .discharge kc e, tchg := false, timer := ticks }

/-- CAPIN EDGE: it ends the charge with the ticks counted; it is ignored in every other state (R111). -/
def execCapinEdge (ticks : Word16) (s : State) : StepOutcome :=
  .next (s.unlessHeld fun s =>
    match s.head.phase with
    | .charge kc => s.withHead (s.head.endCharge kc (.edge ticks.toNat) ticks.toNat)
    | .idle | .pathSettle _ | .sampling _ _ | .refGate _ | .pairGate _ _ | .discharge _ _ | .toneOn _ | .toneOff _ => s)

/-- CAPTURE TIMEOUT: the timer at 65,535 ticks ends the charge (R111); nothing outside CHARGE. -/
def execCaptureTimeout (s : State) : StepOutcome :=
  .next (s.unlessHeld fun s =>
    match s.head.phase with
    | .charge kc => s.withHead (s.head.endCharge kc .timeout 65535)
    | .idle | .pathSettle _ | .sampling _ _ | .refGate _ | .pairGate _ _ | .discharge _ _ | .toneOn _ | .toneOff _ => s)

/-- DISCHARGE EXPIRY: CAP completes (R112); nothing outside DISCHARGE. -/
def execDischargeExpiry (s : State) : StepOutcome :=
  .next (s.unlessHeld fun s =>
    match s.head.phase with
    | .discharge kc e => s.completeMeasure .cap (capResult kc e)
    | .idle | .pathSettle _ | .sampling _ _ | .refGate _ | .pairGate _ _ | .charge _ | .toneOn _ | .toneOff _ => s)

/-- CADENCE EXPIRY: the tone changes its phase (R114); nothing while no tone plays. -/
def execCadenceExpiry (s : State) : StepOutcome :=
  .next (s.unlessHeld fun s =>
    match s.head.phase with
    | .toneOn t => s.withHead { s.head with phase := .toneOff t, tone := false }
    | .toneOff t => s.withHead { s.head with phase := .toneOn t, tone := true }
    | .idle | .pathSettle _ | .sampling _ _ | .refGate _ | .pairGate _ _ | .charge _ | .discharge _ _ => s)

/-- TONE DURATION EXPIRY: the tone completes in whichever phase it is in (R114); nothing while no tone plays. -/
def execToneDurationExpiry (s : State) : StepOutcome :=
  .next (s.unlessHeld fun s =>
    match s.head.phase with
    | .toneOn _ | .toneOff _ => s.completeTone
    | .idle | .pathSettle _ | .sampling _ _ | .refGate _ | .pairGate _ _ | .charge _ | .discharge _ _ => s)

/-! ### The test completion (R130 to R133) -/

/-- The condition record of a completed test, of age 0 (R130). -/
def Test.condition (t : Test) (v : Evaluation) : Condition :=
  ⟨v.verdict, t.abort, t.entry.limitSet, v.judged, t.tonePlayed, 0⟩

/-- The verdict holds the line: FAULTY with auto-hold set (the first row of Table 54). -/
def Test.holdsLine (t : Test) (v : Evaluation) : Bool := v.verdict == .faulty && t.entry.autoHold

/-- The line's new state, from the first row of Table 54 that applies (R132). -/
def stateAfterTest (holds : Bool) (verdict : TestVerdict) (ret : RestState) : RestState :=
  if holds then .faulted
  else
    match ret with
    | .faulted => if verdict = .good ∨ verdict = .marginal then .dark else .faulted
    | .dark => .dark
    | .suspended => .suspended
    | .inService => .inService

/-- The shed mark after a test: kept by a line that returns to DARK from a return state DARK, absent otherwise
(R132). -/
def shedAfterTest (holds : Bool) (ret : RestState) (shed : Option PreShed) : Option PreShed :=
  if holds then none else if ret = .dark then shed else none

/-- The new state written with its hand-ons: an entry into IN_SERVICE, or an exit from the lit set (R133 step 2). -/
def State.leaveTest (s : State) (n : LineNo) (ret new : RestState) (shed : Option PreShed) : State :=
  let moved := s.setLineState n (.rest new) shed
  if new = .inService then moved.enterService n
  else if ret.lit ∧ new = .faulted then moved.leftLit
  else moved

/-- The test completion, in the order of R133. -/
def State.completeTest (s : State) (t : Test) (v : Evaluation) : State :=
  let n := t.entry.line
  let l := s.line n
  let ret := l.state.saved
  let holds := t.holdsLine v
  let written := s.setLine n { l with condition := some (t.condition v) }
  let left := written.leaveTest n ret (stateAfterTest holds v.verdict ret) (shedAfterTest holds ret l.shed)
  let discarded := left.withTests { left.tests with current := none }
  let told := discarded.raise .testDone
  (if holds then told.raise .lineFaulted else told).dispatchRetry

/-- TEST COMPLETION, the evaluation expiry (R133): nothing outside EVALUATE. -/
def execTestCompletion (s : State) : StepOutcome :=
  .next (s.unlessHeld fun s =>
    match s.tests.current with
    | none => s
    | some t =>
      match t.evaluation with
      | none => s
      | some v => s.completeTest t v)

/-- A condition record one minute older, saturated (R131). -/
def Condition.older (c : Condition) : Condition := { c with age := countUp16 c.age }

/-- MINUTE TICK EXPIRY: every present condition record ages (R131). -/
def execMinuteTickExpiry (s : State) : StepOutcome :=
  .next (s.unlessHeld fun s =>
    s.withLines (s.lines.map fun l => { l with condition := l.condition.map Condition.older }))

end Sys2Proof.Machine
end

