-- ==== Sys2Proof/Machine/Dispatch.lean ====
section
/-! DEFINITION. One arm for each command: its meaning. -/

namespace Sys2Proof.Machine

def exec (i : Instr) (s : State) : Host.Outcome State Fault Refusal :=
  match i with
  | .admitService f => Sys2Proof.Machine.execAdmitService f s
  | .amendService f => Sys2Proof.Machine.execAmendService f s
  | .retireService f => Sys2Proof.Machine.execRetireService f s
  | .retireSlot f => Sys2Proof.Machine.execRetireSlot f s
  | .barService f => Sys2Proof.Machine.execBarService f s
  | .unbarService f => Sys2Proof.Machine.execUnbarService f s
  | .lookUpService f => Sys2Proof.Machine.execLookUpService f s
  | .probeSlot f => Sys2Proof.Machine.execProbeSlot f s
  | .clearCounters f => Sys2Proof.Machine.execClearCounters f s
  | .forceCheckError f => Sys2Proof.Machine.execForceCheckError f s
  | .readFault f => Sys2Proof.Machine.execReadFault f s
  | .lightLine f => Sys2Proof.Machine.execLightLine f s
  | .serveLine f => Sys2Proof.Machine.execServeLine f s
  | .suspendLine f => Sys2Proof.Machine.execSuspendLine f s
  | .darkenLine f => Sys2Proof.Machine.execDarkenLine f s
  | .clearFault f => Sys2Proof.Machine.execClearFault f s
  | .readLine f => Sys2Proof.Machine.execReadLine f s
  | .requestTest f => Sys2Proof.Machine.execRequestTest f s
  | .cancelTest f => Sys2Proof.Machine.execCancelTest f s
  | .readTestQueue f => Sys2Proof.Machine.execReadTestQueue f s
  | .readLadder f => Sys2Proof.Machine.execReadLadder f s
  | .readStatus f => Sys2Proof.Machine.execReadStatus f s
  | .acknowledgeEvents f => Sys2Proof.Machine.execAcknowledgeEvents f s
  | .setEventMask f => Sys2Proof.Machine.execSetEventMask f s
  | .readSetting f => Sys2Proof.Machine.execReadSetting f s
  | .writeSetting f => Sys2Proof.Machine.execWriteSetting f s
  | .storeSettings f => Sys2Proof.Machine.execStoreSettings f s
  | .restart f => Sys2Proof.Machine.execRestart f s
  | .undefinedCommandCode code f => Sys2Proof.Machine.execUndefinedCommandCode code f s
  | .transactionBegin => Sys2Proof.Machine.execTransactionBegin s
  | .fetch rest => Sys2Proof.Machine.execFetch rest s
  | .fetchComplete slots => Sys2Proof.Machine.execFetchComplete slots s
  | .managementRequestTake => Sys2Proof.Machine.execManagementRequestTake s
  | .managementRequestCompletion => Sys2Proof.Machine.execManagementRequestCompletion s
  | .storeCompletion held => Sys2Proof.Machine.execStoreCompletion held s
  | .resolve query tag length => Sys2Proof.Machine.execResolve query tag length s
  | .backlog tag credits => Sys2Proof.Machine.execBacklog tag credits s
  | .capacity up down => Sys2Proof.Machine.execCapacity up down s
  | .unknownInboundTypeDiscard kind => Sys2Proof.Machine.execUnknownInboundTypeDiscard kind s
  | .lookupEvent => Sys2Proof.Machine.execLookupEvent s
  | .resolveCompletion => Sys2Proof.Machine.execResolveCompletion s
  | .verdictEmission => Sys2Proof.Machine.execVerdictEmission s
  | .transmissionCompletion => Sys2Proof.Machine.execTransmissionCompletion s
  | .cycleExpiry => Sys2Proof.Machine.execCycleExpiry s
  | .rosterSnapshot => Sys2Proof.Machine.execRosterSnapshot s
  | .grantEmission => Sys2Proof.Machine.execGrantEmission s
  | .roundEndEmission => Sys2Proof.Machine.execRoundEndEmission s
  | .powerChainLatch => Sys2Proof.Machine.execPowerChainLatch s
  | .relayLatchCompletion => Sys2Proof.Machine.execRelayLatchCompletion s
  | .relaySettleExpiry => Sys2Proof.Machine.execRelaySettleExpiry s
  | .pathSettleExpiry capin => Sys2Proof.Machine.execPathSettleExpiry capin s
  | .converterSample code => Sys2Proof.Machine.execConverterSample code s
  | .referenceGateExpiry => Sys2Proof.Machine.execReferenceGateExpiry s
  | .pairGateExpiry => Sys2Proof.Machine.execPairGateExpiry s
  | .capinEdge ticks => Sys2Proof.Machine.execCapinEdge ticks s
  | .captureTimeout => Sys2Proof.Machine.execCaptureTimeout s
  | .dischargeExpiry => Sys2Proof.Machine.execDischargeExpiry s
  | .cadenceExpiry => Sys2Proof.Machine.execCadenceExpiry s
  | .toneDurationExpiry => Sys2Proof.Machine.execToneDurationExpiry s
  | .testCompletion => Sys2Proof.Machine.execTestCompletion s
  | .minuteTickExpiry => Sys2Proof.Machine.execMinuteTickExpiry s
  | .oneSecondTickExpiry => Sys2Proof.Machine.execOneSecondTickExpiry s
  | .comparisonSettleExpiry bsense => Sys2Proof.Machine.execComparisonSettleExpiry bsense s
  | .sampleEnd bsense mains => Sys2Proof.Machine.execSampleEnd bsense mains s
  | .recordDisturbance a => Sys2Proof.Machine.execRecordDisturbance a s
  | .powerOnReset => Sys2Proof.Machine.execPowerOnReset s
  | .pinReset => Sys2Proof.Machine.execPinReset s
  | .supplyReturn => Sys2Proof.Machine.execSupplyReturn s
  | .resetnRise => Sys2Proof.Machine.execResetnRise s
  | .settingsLoadCompletion => Sys2Proof.Machine.execSettingsLoadCompletion s
  | .inboundByteTaken start byte => Sys2Proof.Machine.execInboundByteTaken start byte s
  | .oscillatorEdge => Sys2Proof.Machine.execOscillatorEdge s
  | .nonvolatileValueLoss => Sys2Proof.Machine.execNonvolatileValueLoss s

end Sys2Proof.Machine
end

