-- ==== Sys2Proof/Safety.lean ====
section
/-! DEFINITION. What the claims are stated in: when a command transaction is taken, the management command that a row carries, what it means that nothing due is left undone, and the properties that every step keeps. -/

namespace Sys2Proof.Machine

/-! ### Management commands as the port sees them (Table 61, R151, R154) -/

/-- A command transaction: its code, the argument count that Table 61 gives the code (none for a code that is no
command), and what was shifted in. -/
structure Transaction where
  code : Byte
  argc : Option Nat
  frame : Frame
deriving DecidableEq, Repr

/-- The command transaction that a row stands for: the 28 rows of Table 61, and the row of the codes outside it. -/
def transactionOf : Instr → Option Transaction
  | .admitService f => some ⟨0x01, some 11, f⟩
  | .amendService f => some ⟨0x02, some 11, f⟩
  | .retireService f => some ⟨0x03, some 2, f⟩
  | .retireSlot f => some ⟨0x04, some 1, f⟩
  | .barService f => some ⟨0x05, some 2, f⟩
  | .unbarService f => some ⟨0x06, some 2, f⟩
  | .lookUpService f => some ⟨0x07, some 2, f⟩
  | .probeSlot f => some ⟨0x08, some 1, f⟩
  | .clearCounters f => some ⟨0x09, some 2, f⟩
  | .forceCheckError f => some ⟨0x0A, some 0, f⟩
  | .readFault f => some ⟨0x0B, some 0, f⟩
  | .lightLine f => some ⟨0x0C, some 1, f⟩
  | .serveLine f => some ⟨0x0D, some 1, f⟩
  | .suspendLine f => some ⟨0x0E, some 1, f⟩
  | .darkenLine f => some ⟨0x0F, some 1, f⟩
  | .clearFault f => some ⟨0x10, some 1, f⟩
  | .readLine f => some ⟨0x11, some 1, f⟩
  | .requestTest f => some ⟨0x12, some 4, f⟩
  | .cancelTest f => some ⟨0x13, some 1, f⟩
  | .readTestQueue f => some ⟨0x14, some 1, f⟩
  | .readLadder f => some ⟨0x15, some 0, f⟩
  | .readStatus f => some ⟨0x16, some 0, f⟩
  | .acknowledgeEvents f => some ⟨0x17, some 1, f⟩
  | .setEventMask f => some ⟨0x18, some 1, f⟩
  | .readSetting f => some ⟨0x19, some 1, f⟩
  | .writeSetting f => some ⟨0x1A, some 3, f⟩
  | .storeSettings f => some ⟨0x1B, some 0, f⟩
  | .restart f => some ⟨0x1C, some 0, f⟩
  | .undefinedCommandCode code f => some ⟨code, none, f⟩
  | .transactionBegin | .fetch _ | .fetchComplete _ | .managementRequestTake | .managementRequestCompletion
  | .storeCompletion _ | .resolve _ _ _ | .backlog _ _ | .capacity _ _ | .unknownInboundTypeDiscard _ | .lookupEvent
  | .resolveCompletion | .verdictEmission | .transmissionCompletion | .cycleExpiry | .rosterSnapshot | .grantEmission
  | .roundEndEmission | .powerChainLatch | .relayLatchCompletion | .relaySettleExpiry | .pathSettleExpiry _
  | .converterSample _ | .referenceGateExpiry | .pairGateExpiry | .capinEdge _ | .captureTimeout | .dischargeExpiry
  | .cadenceExpiry | .toneDurationExpiry | .testCompletion | .minuteTickExpiry | .oneSecondTickExpiry
  | .comparisonSettleExpiry _ | .sampleEnd _ _ | .recordDisturbance _ | .powerOnReset | .pinReset | .supplyReturn
  | .resetnRise | .settingsLoadCompletion | .inboundByteTaken _ _ | .oscillatorEdge | .nonvolatileValueLoss => none

/-- A row that begins, joins or ends a reset (R172), RESTART included. -/
def touchesReset : Instr → Bool
  | .restart _ | .powerOnReset | .pinReset | .supplyReturn | .resetnRise | .settingsLoadCompletion => true
  | .admitService _ | .amendService _ | .retireService _ | .retireSlot _ | .barService _ | .unbarService _
  | .lookUpService _ | .probeSlot _ | .clearCounters _ | .forceCheckError _ | .readFault _ | .lightLine _
  | .serveLine _ | .suspendLine _ | .darkenLine _ | .clearFault _ | .readLine _ | .requestTest _ | .cancelTest _
  | .readTestQueue _ | .readLadder _ | .readStatus _ | .acknowledgeEvents _ | .setEventMask _ | .readSetting _
  | .writeSetting _ | .storeSettings _ | .undefinedCommandCode _ _ | .transactionBegin | .fetch _ | .fetchComplete _
  | .managementRequestTake | .managementRequestCompletion | .storeCompletion _ | .resolve _ _ _ | .backlog _ _
  | .capacity _ _ | .unknownInboundTypeDiscard _ | .lookupEvent | .resolveCompletion | .verdictEmission
  | .transmissionCompletion | .cycleExpiry | .rosterSnapshot | .grantEmission | .roundEndEmission | .powerChainLatch
  | .relayLatchCompletion | .relaySettleExpiry | .pathSettleExpiry _ | .converterSample _ | .referenceGateExpiry
  | .pairGateExpiry | .capinEdge _ | .captureTimeout | .dischargeExpiry | .cadenceExpiry | .toneDurationExpiry
  | .testCompletion | .minuteTickExpiry | .oneSecondTickExpiry | .comparisonSettleExpiry _ | .sampleEnd _ _
  | .recordDisturbance _ | .inboundByteTaken _ _ | .oscillatorEdge | .nonvolatileValueLoss => false

/-- The end of a command transaction is an arrival: no reset holds the part, no reset abandoned the transaction, and the
transaction in progress is not a fetch (R151, R154, R160, R172). -/
abbrev State.Arrives (s : State) : Prop :=
  s.hold = none ∧ (s.port.csLow = true → s.port.txn ≠ none) ∧ ∀ x ∈ s.port.txn, x.fetch = false

/-- A transaction is well formed (R154 step 2): no partial word, a count field of 16 at most, and as many complete
argument words as it says. -/
abbrev FrameSound (f : Frame) : Prop :=
  f.partialWord = false ∧ f.count.toNat ≤ 16 ∧ f.args.length = f.count.toNat

/-- A command with `argc` arguments is carried out or accepted at its arrival: the port is not in WAIT, the
transaction is well formed and the count is the command's (R154 steps 5 and 6). -/
abbrev State.Accepts (s : State) (f : Frame) (argc : Nat) : Prop :=
  s.Arrives ∧ s.port.state.waits = false ∧ FrameSound f ∧ f.count.toNat = argc

/-- At the end of its transaction a command leaves `u` with the port in state `p`: chip select is high, no transaction is
in progress, and slot 1 has shifted out the status word latched at the falling edge, where one was latched (R152, R154;
with no falling edge met, the word is left open here: log entry 12). -/
def State.Leaves (s : State) (c : Instr) (u : State) (p : PortState) : Prop :=
  ∃ w : Word16, exec c s = .next { u with port := ⟨p, s.port.busy, false, none, [w]⟩ }
    ∧ ∀ x, s.port.txn = some x → w = x.status

/-- The result word: the command echo over the result code (Table 73). -/
def echoed (code : Byte) (r : ResultCode) : Word16 := code ++ BitVec.ofNat 8 r.code

/-- Words in the layout of words 3 to 11 of Table 75, in which ADMIT SERVICE and AMEND SERVICE answer the stored values. -/
def Covered.LaidOutIn (c : Covered) (words : List Word16) : Prop :=
  ∃ a b1 b2 b3 b4 b5 b6 b7 b8 : Word16, words = [a, b1, b2, b3, b4, b5, b6, b7, b8]
    ∧ a.getLsbD 15 = (c.cls == .essential) ∧ a.extractLsb' 13 2 = 0
    ∧ (a.extractLsb' 8 5).toNat = c.line ∧ a.extractLsb' 5 3 = 0 ∧ (a.extractLsb' 0 5).toNat = c.weight
    ∧ b1.toNat = c.upCir ∧ b2.toNat = c.upPir ∧ b3.toNat = c.dcu ∧ b4.toNat = c.dpu
    ∧ b5.toNat = c.downCir ∧ b6.toNat = c.downPir ∧ b7.toNat = c.dcd ∧ b8.toNat = c.dpd

/-! ### Nothing due is left undone (R12, R62, R69) -/

/-- Nothing that the spec makes at once is still to be made: an idle transmitter has no message waiting (R69), no
decided resolve waits for an empty held verdict (R62), and a free table engine has no request waiting (R12). -/
abbrev State.Settled (s : State) : Prop :=
  (s.link.sending = none → s.link.refusals = [] ∧ s.link.held = none ∧ s.round.phase.offering = false)
    ∧ s.completionDue = false
    ∧ (s.engine.service = .free → s.round.phase ≠ .snapshotWait ∧ s.link.queue = [] ∧ s.port.state.waiting = none)

/-! ### Records and their metering, as the rules word them -/

/-- The set of a tag: the exclusive-OR of its four 5-bit groups (R2). -/
def homeSet (t : Tag) : Nat :=
  (t.extractLsb' 0 5 ^^^ t.extractLsb' 5 5 ^^^ t.extractLsb' 10 5 ^^^ t.extractLsb' 15 5).toNat

/-- The metering unit after an entry of a slot into ACTIVE with the rates reported (R50). -/
def Meter.afterEntry (m : Meter) (i : Slot) (up down : Nat) : Meter where
  countedUp := m.countedUp.set i up
  countedDown := m.countedDown.set i down
  sumUp := m.sumUp + up
  sumDown := m.sumDown + down
  f := m.f

/-- The metering unit after an exit of a slot from ACTIVE (R50). -/
def Meter.afterExit (m : Meter) (i : Slot) : Meter where
  countedUp := m.countedUp.set i 0
  countedDown := m.countedDown.set i 0
  sumUp := m.sumUp - m.countedUp[i]
  sumDown := m.sumDown - m.countedDown[i]
  f := m.f

/-- The table engine with a management request taken, which will deliver a response (R11). -/
def Engine.serving (e : Engine) (response : List Word16) : Engine := { e with service := .management response }

/-- `t` is `s` after a damage discovery on a slot with an operation, as far as the record table, the metering unit, the
fault capture and the events go (R7, R8). -/
def State.Discovers (s t : State) (i : Slot) (op : FaultOp) : Prop :=
  t.slots = s.slots.set i { s.slot i with cov := { (s.slot i).cov with state := .damaged } }
    ∧ t.meter = (if (s.slot i).cov.state = .active then s.meter.afterExit i else s.meter)
    ∧ t.engine.capture = some (s.engine.capture.getD ⟨i, (s.slot i).cov.tag, op⟩)
    ∧ t.engine.overflow = (s.engine.overflow || s.engine.capture.isSome)
    ∧ t.events = { s.events with pending := s.events.pending ||| 0x010 }

/-- `t` is `s` with the record table, the metering unit, the fault capture and the events as they were. -/
def State.RecordsKept (s t : State) : Prop :=
  t.slots = s.slots ∧ t.meter = s.meter ∧ t.engine.capture = s.engine.capture
    ∧ t.engine.overflow = s.engine.overflow ∧ t.events = s.events

/-- `t` is `s` with one slot's record replaced, the rest of what a decision can touch as it was. -/
def State.RecordWritten (s t : State) (i : Slot) (r : Record) : Prop :=
  t.slots = s.slots.set i r ∧ t.meter = s.meter ∧ t.engine.capture = s.engine.capture
    ∧ t.engine.overflow = s.engine.overflow ∧ t.events = s.events

/-- A counter that has counted `n` more, staying at 4,294,967,295 (R54). -/
def counted (c n : Nat) : Nat := if 4294967295 < c + n then 4294967295 else c + n

/-- The verdict of a request decided on `s`, with what the decision leaves in `t`: the cases of Table 27 with the
decisions of Table 22 and the counters of R54; n is the credit count of R52. -/
def State.Decides (s t : State) (q : Request) (v : VerdictMsg) : Prop :=
  v.query = q.query
    ∧ ((validTag q.tag = false ∨ s.find q.tag = none) →
        v = ⟨q.query, .unknown, 0, .standard⟩ ∧ s.RecordsKept t)
    ∧ ∀ i, validTag q.tag = true → s.find q.tag = some i →
        (v.line = (s.slot i).cov.line ∧ v.cls = (s.slot i).cov.cls)
          ∧ ((s.slot i).cov.state = .damaged → v.verdict = .fault ∧ s.RecordsKept t)
          ∧ ((s.slot i).cov.state ≠ .damaged → (s.slot i).passes = false →
              v.verdict = .fault ∧ s.Discovers t i .resolve)
          ∧ ((s.slot i).cov.state = .barred → (s.slot i).passes = true → v.verdict = .barred ∧ s.RecordsKept t)
          ∧ ((s.slot i).cov.state = .standby → (s.slot i).passes = true → v.verdict = .held ∧ s.RecordsKept t)
          ∧ ((s.slot i).cov.state = .active → (s.slot i).passes = true →
              let n := if q.length ≤ 64 then 1 else (q.length + 63) / 64
              let r := s.slot i
              (r.kpd < 16 * n →
                  v.verdict = .drop ∧ s.RecordWritten t i { r with downDropped := counted r.downDropped 1 })
                ∧ (16 * n ≤ r.kpd → r.kcd < 16 * n →
                  v.verdict = .excess
                    ∧ s.RecordWritten t i { r with kpd := r.kpd - 16 * n, downExcess := counted r.downExcess n })
                ∧ (16 * n ≤ r.kpd → 16 * n ≤ r.kcd →
                  v.verdict = .pass
                    ∧ s.RecordWritten t i { r with
                        kcd := r.kcd - 16 * n
                        kpd := r.kpd - 16 * n
                        downPassed := counted r.downPassed n }))

/-- The records of an attached list that a line's entry into IN_SERVICE moves (R4). -/
def State.movedIn (s : State) (n : LineNo) : List Slot :=
  (s.line n).attached.filter fun i => (s.slot i).cov.state == .standby

/-- The records of an attached list that a line's exit from IN_SERVICE moves (R4). -/
def State.movedOut (s : State) (n : LineNo) : List Slot :=
  (s.line n).attached.filter fun i => (s.slot i).cov.state == .active

/-- `t` holds the records and the committed sums of `s` after line `n` has entered IN_SERVICE (R4, R50). -/
def State.EntersService (s t : State) (n : LineNo) : Prop :=
  (∀ i, t.slot i = if i ∈ s.movedIn n then (s.slot i).moveState .active else s.slot i)
    ∧ (∀ i, t.meter.countedUp[i] = (if i ∈ s.movedIn n then (s.slot i).cov.upCir else s.meter.countedUp[i]))
    ∧ (∀ i, t.meter.countedDown[i] = (if i ∈ s.movedIn n then (s.slot i).cov.downCir else s.meter.countedDown[i]))
    ∧ t.meter.sumUp = s.meter.sumUp + ((s.movedIn n).map fun i => (s.slot i).cov.upCir).sum
    ∧ t.meter.sumDown = s.meter.sumDown + ((s.movedIn n).map fun i => (s.slot i).cov.downCir).sum
    ∧ t.meter.f = s.meter.f

/-- `t` holds the records and the committed sums of `s` after line `n` has left IN_SERVICE (R4, R50). -/
def State.LeavesService (s t : State) (n : LineNo) : Prop :=
  (∀ i, t.slot i = if i ∈ s.movedOut n then (s.slot i).moveState .standby else s.slot i)
    ∧ (∀ i, t.meter.countedUp[i] = (if i ∈ s.movedOut n then 0 else s.meter.countedUp[i]))
    ∧ (∀ i, t.meter.countedDown[i] = (if i ∈ s.movedOut n then 0 else s.meter.countedDown[i]))
    ∧ t.meter.sumUp = s.meter.sumUp - ((s.movedOut n).map fun i => s.meter.countedUp[i]).sum
    ∧ t.meter.sumDown = s.meter.sumDown - ((s.movedOut n).map fun i => s.meter.countedDown[i]).sum
    ∧ t.meter.f = s.meter.f

/-- No dispatch retry can succeed (R121): a test is in flight, or the level is above 0, or the queue is empty. -/
abbrev State.NoDispatch (s : State) : Prop :=
  s.tests.current ≠ none ∨ s.ladder.level ≠ 0 ∨ s.tests.queue = []

/-- Nothing of the table engine's or the round engine's is due, whatever the transmitter does (R12). -/
abbrev State.EngineSettled (s : State) : Prop :=
  s.engine.service = .free → s.round.phase ≠ .snapshotWait ∧ s.link.queue = [] ∧ s.port.state.waiting = none

/-! ### Tests, the head and verdicts, as the rules word them -/

/-- What the head begins for a measurement, and its first path, with the settings that it reads at the start
(Table 42, R109, R115). -/
def Meas.begun (g : Settings) : Meas → Work × Path
  | .vdcTg => (.volt .vdcTg, .tgDc)
  | .vdcRg => (.volt .vdcRg, .rgDc)
  | .vac => (.volt .vac, .trAc)
  | .risTg => (.resReference ⟨.risTg, g.gateTime, g.rref⟩, .reference)
  | .risRg => (.resReference ⟨.risRg, g.gateTime, g.rref⟩, .reference)
  | .rloop => (.resReference ⟨.rloop, g.gateTime, g.rref⟩, .reference)
  | .cap => (.cap g.kc, .charge)

/-- The head with its measurement or tone over: IDLE, path NONE, TCHG and the tone output low (R104, R106). -/
def Head.resting (h : Head) : Head := ⟨h.headen, .idle, .none, false, false, h.osc, h.timer⟩

/-- The head with HEADEN low and its work abandoned (R102, R106). -/
def Head.unpowered (h : Head) : Head := ⟨false, .idle, .none, false, false, h.osc, h.timer⟩

/-- `t` is `s` after the test `x` has gone on from measurement number `k`: to the first requested measurement from
there, or else to its tone, or else to DISCONNECT, with HEADEN low and the all-off image commanded (R104, R123). -/
def State.GoesOn (s t : State) (x : Test) (k : Nat) : Prop :=
  (∀ m : Meas, k ≤ m.number.val → x.entry.items.getLsbD m.number.val = true →
      (∀ j : Meas, k ≤ j.number.val → j.number.val < m.number.val → x.entry.items.getLsbD j.number.val = false) →
      t = { s with
        head := { s.head with phase := .pathSettle (m.begun s.settings).1, path := (m.begun s.settings).2 }
        tests := { s.tests with current := some { x with stage := .measure m, settle := none } } })
    ∧ ((∀ m : Meas, k ≤ m.number.val → x.entry.items.getLsbD m.number.val = false) →
      (∀ v, x.entry.tone = some v → t = { s with
          head := { s.head with phase := .pathSettle (.tone v), path := .drive }
          tests := { s.tests with current := some { x with stage := .tone, settle := none } } })
        ∧ (x.entry.tone = none → t = { s with
          head := s.head.unpowered
          relay := s.relay.command 0
          tests := { s.tests with current := some { x with stage := .disconnect, settle := none } } }))

/-- `s` after an abort with a cause (R125). -/
def State.aborted (s : State) (x : Test) (c : Cause) : State := { s with
  head := s.head.unpowered
  relay := s.relay.command 0
  tests := { s.tests with current := some { x with stage := .disconnect, settle := none, abort := some c } } }

/-- The judgement of a value against a window (R128). -/
def Window.Judges (w : Window) (v : Option Int) (g : Judgement) : Prop :=
  (w.mode = .ignore ∨ v = none → g = .notJudged)
    ∧ ∀ x, v = some x →
      (w.mode = .passInside → g = if w.low ≤ x ∧ x ≤ w.high then .pass else .fail w.severity)
        ∧ (w.mode = .passOutside → g = if w.low ≤ x ∧ x ≤ w.high then .fail w.severity else .pass)

/-- A word in the layout of word 2 of Table 78 carries what R34 gives of a line: state, return state, shed mark and
pre-shed state, 0 when absent. The model's other bits of the word are log entry 16. -/
def Line.ToldBy (l : Line) (w : Word16) : Prop :=
  (w.extractLsb' 12 2).toNat = preShedCode l.shed ∧ w.getLsbD 11 = l.shed.isSome
    ∧ (w.extractLsb' 8 3).toNat = l.state.returnCode ∧ (w.extractLsb' 5 3).toNat = l.state.code

/-- A shed of one line, as far as its record goes (R29): a lit line becomes DARK, or its return state does, and the
mark keeps the state it had. -/
def Line.shedOf (l : Line) : Line :=
  match l.state with
  | .rest .suspended => { l with state := .rest .dark, shed := some .suspended }
  | .rest .inService => { l with state := .rest .dark, shed := some .inService }
  | .underTest .suspended => { l with state := .underTest .dark, shed := some .suspended }
  | .underTest .inService => { l with state := .underTest .dark, shed := some .inService }
  | .rest .dark | .rest .faulted | .underTest .dark | .underTest .faulted => l

/-- A relight of one line, as far as its record goes (R29): the line takes its pre-shed state and loses its mark. -/
def Line.relitOf (l : Line) : Line :=
  match l.shed with
  | some .suspended => { l with state := .rest .suspended, shed := none }
  | some .inService => { l with state := .rest .inService, shed := none }
  | none => l

/-- A candidate of the relight pass (R145). -/
abbrev State.Candidate (s : State) (n : LineNo) : Prop :=
  (s.line n).state = .rest .dark ∧ (s.line n).shed ≠ none ∧ s.ladder.level.val < s.settings.shedClass[n]

/-- Line `m` comes before line `n` in the relight pass: descending shed class, then ascending number (R145). -/
abbrev State.Before (s : State) (m n : LineNo) : Prop :=
  s.settings.shedClass[n] < s.settings.shedClass[m] ∨ (s.settings.shedClass[n] = s.settings.shedClass[m] ∧ m < n)

/-! ### Resets -/

/-- The part while a reset holds it: every block cleared, no shift, sample or transaction in progress, the latched
images as they were (R24, R42, R56, R73, R98, R116, R117, R135, R150, R161, R166, R172). -/
def State.inReset (s : State) (h : Hold) : State := { State.reset with
  power := ⟨0, s.power.latched, none, none⟩
  relay := ⟨0, s.relay.latched, none, none⟩
  round := ⟨.idle, 0, 0, false, 0, s.round.period⟩
  ladder := ⟨3, 0, false, 3, false, 0, 0, 0, .idle⟩
  port := ⟨.none, false, s.port.csLow, none, []⟩
  events := ⟨0, 0x1FF, s.events.cause⟩
  settings := s.settings
  stored := s.stored
  hold := some h
  draws := s.draws
  pending := s.pending }

/-- The part at the end of a reset with the working copy loaded: Table 69. -/
def State.afterReset (s : State) (g : Settings) (cause : ResetCause) : State := { State.reset with
  power := ⟨0, s.power.latched, some 0, none⟩
  relay := ⟨0, s.relay.latched, some 0, none⟩
  round := ⟨.idle, 0, 0, false, 0, g.cyclePeriod⟩
  ladder := ⟨3, 0, false, 3, false, 0, 0, 0, .compare1 g.thresholds[3]⟩
  port := ⟨.none, false, s.port.csLow, none, []⟩
  events := ⟨if s.stored.passes then 0 else 0x100, 0x1FF, cause⟩
  settings := g
  stored := s.stored
  draws := s.draws
  pending := s.pending }

/-! ### Settings by identifier (Table 67) -/

/-- The range of a setting (Table 67, Table 52). -/
def SettingId.range : SettingId → Int × Int
  | .cyclePeriod => (1, 16)
  | .budget _ => (0, 4095)
  | .bandMap _ => (0, 3)
  | .threshold _ => (0, 255)
  | .riseCount => (1, 15)
  | .fallCount => (1, 15)
  | .samplePeriod => (1, 255)
  | .relaySettle => (1, 50)
  | .gateTime => (10, 250)
  | .rref => (1, 1000000)
  | .kc => (1, 65535)
  | .headCost => (0, 255)
  | .shedClass _ => (1, 4)
  | .cost _ => (0, 255)
  | .window _ _ .low => (-16777216, 16777215)
  | .window _ _ .high => (-16777216, 16777215)
  | .window _ _ .mode => (0, 2)
  | .window _ _ .severity => (0, 1)

/-- The 32-bit value of WRITE SETTING as the setting takes it: signed for the low and high fields of a window,
unsigned otherwise (R168). -/
def SettingId.taken (x : SettingId) (v : BitVec 32) : Int :=
  match x with
  | .window _ _ .low | .window _ _ .high => v.toInt
  | .window _ _ .mode | .window _ _ .severity => v.toNat
  | .cyclePeriod | .budget _ | .bandMap _ | .threshold _ | .riseCount | .fallCount | .samplePeriod | .relaySettle
  | .gateTime | .rref | .kc | .headCost | .shedClass _ | .cost _ => v.toNat

/-! ### Runs of several commands -/

/-- Commands carried out one after another, each on what the one before left. -/
def State.runs : State → List Instr → Host.Outcome State Fault Refusal
  | s, [] => .next s
  | s, c :: rest =>
    match exec c s with
    | .next t => t.runs rest
    | .fault r => .fault r
    | .refused r => .refused r

/-! ### Ranges (Table 67, and the ranges the chapters give their counters) -/

/-- A limit window's limits lie in their range (Table 52). -/
abbrev Window.InRange (w : Window) : Prop :=
  -16777216 ≤ w.low ∧ w.low ≤ 16777215 ∧ -16777216 ≤ w.high ∧ w.high ≤ 16777215

/-- Every setting lies within its range (Table 67). -/
abbrev Settings.InRange (g : Settings) : Prop :=
  (1 ≤ g.cyclePeriod ∧ g.cyclePeriod ≤ 16)
    ∧ (∀ l : Fin 4, g.budget[l] ≤ 4095)
    ∧ (∀ k : Fin 7, g.thresholds[k] ≤ 255)
    ∧ (1 ≤ g.riseCount ∧ g.riseCount ≤ 15)
    ∧ (1 ≤ g.fallCount ∧ g.fallCount ≤ 15)
    ∧ (1 ≤ g.samplePeriod ∧ g.samplePeriod ≤ 255)
    ∧ (1 ≤ g.relaySettle ∧ g.relaySettle ≤ 50)
    ∧ (10 ≤ g.gateTime ∧ g.gateTime ≤ 250)
    ∧ (1 ≤ g.rref ∧ g.rref ≤ 1000000)
    ∧ (1 ≤ g.kc ∧ g.kc ≤ 65535)
    ∧ g.headCost ≤ 255
    ∧ (∀ n : LineNo, 1 ≤ g.shedClass[n] ∧ g.shedClass[n] ≤ 4)
    ∧ (∀ n : LineNo, g.cost[n] ≤ 255)
    ∧ (∀ (k : Fin 4) (m : Fin 7), (g.limits[k][m]).InRange)

/-- A response that a service holds for delivery fits the buffer (R153). -/
def Service.fits : Service → Bool
  | .management response => decide (1 ≤ response.length ∧ response.length ≤ 24)
  | .free => true
  | .resolve _ => true

/-- The buffer holds 1 to 24 words in READY (R152, R153). -/
def PortState.fits : PortState → Bool
  | .ready response => decide (1 ≤ response.length ∧ response.length ≤ 24)
  | .none => true
  | .wait _ => true

/-- A record's fields lie within the ranges that their rules give them, the field widths of chapter 12 for those that a
disturbance can reach (Table 5, R14, R43, R54, R63, log entry 21). -/
abbrev Record.InRange (r : Record) : Prop :=
  (r.cov.line ≤ 31 ∧ r.cov.weight ≤ 15)
    ∧ (r.cov.upCir ≤ 65535 ∧ r.cov.upPir ≤ 65535 ∧ r.cov.downCir ≤ 65535 ∧ r.cov.downPir ≤ 65535)
    ∧ (r.cov.dcu ≤ 4095 ∧ r.cov.dpu ≤ 4095 ∧ r.cov.dcd ≤ 4095 ∧ r.cov.dpd ≤ 4095)
    ∧ (r.kcu ≤ 65520 ∧ r.kpu ≤ 65520 ∧ r.kcd ≤ 65520 ∧ r.kpd ≤ 65520)
    ∧ r.demand ≤ 4095
    ∧ (r.upGranted ≤ 4294967295 ∧ r.downPassed ≤ 4294967295 ∧ r.downExcess ≤ 4294967295
      ∧ r.downDropped ≤ 4294967295)

/-- The rates that a waiting record command carries are 16-bit numbers (Table 75). -/
def PortState.ratesFit : PortState → Bool
  | .wait (.record (.admission _ _ p)) | .wait (.record (.amend _ p)) =>
    decide (p.upCir ≤ 65535 ∧ p.upPir ≤ 65535 ∧ p.downCir ≤ 65535 ∧ p.downPir ≤ 65535)
  | .wait (.record (.retire _)) | .wait (.record (.retireSlot _)) | .wait (.record (.bar _))
  | .wait (.record (.unbar _)) | .wait (.record (.lookUp _)) | .wait .taken | .wait .store => true
  | .none => true
  | .ready _ => true

/-- Records, queues and counters lie within the ranges that their rules give them (R45, R54, R58, R62, R63, R65, R66, R67,
R74, R75, R76, R109, R111, R118, R131, R136, R139, R153); a message being sent has eight bytes (R68, Table 81). -/
abbrev State.CountersInRange (s : State) : Prop :=
  (s.link.queue.length ≤ 4 ∧ s.link.refusals.length ≤ 4 ∧ s.link.receiving.length ≤ 7)
    ∧ (s.link.capUp ≤ 4095 ∧ s.link.capDown ≤ 4095 ∧ s.link.unmatched ≤ 65535)
    ∧ (s.link.staleCount ≤ 64 ∧ s.link.stale = (s.link.staleCount == 64))
    ∧ (s.round.slips ≤ 65535 ∧ 1 ≤ s.round.period ∧ s.round.period ≤ 16)
    ∧ (s.round.deferred = true → s.round.phase ≠ .idle)
    ∧ s.meter.f ≤ 4096
    ∧ (s.head.osc ≤ 1048575 ∧ s.head.timer ≤ 65535)
    ∧ s.tests.queue.length ≤ 8
    ∧ (s.ladder.rise ≤ 15 ∧ s.ladder.fall ≤ 15 ∧ s.ladder.count ≤ 255)
    ∧ (s.port.state.fits = true ∧ s.engine.service.fits = true)
    ∧ (∀ n : LineNo, ∀ c ∈ (s.line n).condition, c.age ≤ 65535)
    ∧ (∀ i : Slot, (s.slot i).InRange)
    ∧ s.port.state.ratesFit = true
    ∧ (∀ bytes ∈ s.link.sending, bytes.length = 8)

/-! ### The record table (R1, R3, R5, R6, R30, R43, R49) -/

/-- A slot's record in a line's attached list keeps the line that the part wrote (R30), and is ACTIVE while the line
is IN_SERVICE and STANDBY otherwise unless it is BARRED or DAMAGED (R3); it is not FREE (R30). -/
abbrev State.AttachedWell (s : State) (n : LineNo) (i : Slot) : Prop :=
  (s.slot i).cov.state ≠ .free
    ∧ (s.slot i).code.covers.line = n.val
    ∧ ((s.slot i).cov.state = .active → (s.line n).state = .rest .inService)
    ∧ ((s.slot i).cov.state = .standby → (s.line n).state ≠ .rest .inService)

/-- How often a slot stands in the attached lists of all lines. -/
def State.attachments (s : State) (i : Slot) : Nat := ((List.finRange 24).map fun n => (s.line n).attached.count i).sum

/-- The record table and the attached lists agree (R1, R3, R6, R30): a FREE slot holds the cleared contents and stands
in no list, any other slot stands exactly once; a DAMAGED record's check fails, and every other record's code covers
the stored state. -/
abbrev State.TableWell (s : State) : Prop :=
  (∀ i : Slot, (s.slot i).cov.state = .free → s.slot i = clearedRecord ∧ s.attachments i = 0)
    ∧ (∀ i : Slot, (s.slot i).cov.state ≠ .free → s.attachments i = 1)
    ∧ (∀ n : LineNo, (s.line n).attached.length ≤ 8 ∧ ∀ i ∈ (s.line n).attached, s.AttachedWell n i)
    ∧ (∀ i : Slot, (s.slot i).cov.state = .damaged → (s.slot i).passes = false)
    ∧ (∀ i : Slot, (s.slot i).code.covers.state ≠ .damaged)
    ∧ (∀ i : Slot, (s.slot i).cov.state ≠ .damaged → (s.slot i).code.covers.state = (s.slot i).cov.state)

/-- A bucket of each kind lies within its depth × 16 (R43). -/
abbrev Record.BucketsWithin (r : Record) : Prop :=
  r.kcu ≤ r.cov.dcu * 16 ∧ r.kpu ≤ r.cov.dpu * 16 ∧ r.kcd ≤ r.cov.dcd * 16 ∧ r.kpd ≤ r.cov.dpd * 16

/-- The committed sums are the sums of the counted values, which only ACTIVE records have; every stored and counted
rate is a 16-bit number, so the sums stay within 8,388,480 (R49). -/
abbrev State.SumsWell (s : State) : Prop :=
  s.meter.sumUp = s.meter.countedUp.toList.sum ∧ s.meter.sumDown = s.meter.countedDown.toList.sum
    ∧ (∀ i : Slot, s.meter.countedUp[i] ≤ 65535 ∧ s.meter.countedDown[i] ≤ 65535)
    ∧ (∀ i : Slot, (s.slot i).cov.upCir ≤ 65535 ∧ (s.slot i).cov.downCir ≤ 65535)
    ∧ (∀ i : Slot, (s.slot i).cov.state ≠ .active → s.meter.countedUp[i] = 0 ∧ s.meter.countedDown[i] = 0)
    ∧ s.port.state.ratesFit = true

/-- The counted values of an ACTIVE record whose covered fields are as the part last wrote them are its stored CIRs (R49,
R50; log entry 29). -/
abbrev State.CountsWell (s : State) : Prop :=
  ∀ i : Slot, (s.slot i).cov.state = .active → (s.slot i).cov = (s.slot i).code.covers →
    s.meter.countedUp[i] = (s.slot i).cov.upCir ∧ s.meter.countedDown[i] = (s.slot i).cov.downCir

/-! ### Lines, chains and tests (R28, R33, R99, R100, R102, R118) -/

/-- A chain carries its last command: an idle chain has latched it, a shifting chain shifts it or holds it pending
(R33, R99). -/
def Chain.carries (c : Chain) : Bool :=
  match c.shifting with
  | none => c.pending == none && c.latched == c.commanded
  | some i => (c.pending.getD i) == c.commanded

/-- The shed mark stands only on a line that is DARK, or UNDER_TEST with return state DARK (R28), and the power chain
carries the lit set (R33). During a reset both chains command the all-off image and shift nothing (R42, R116). -/
abbrev State.LinesWell (s : State) : Prop :=
  (∀ n : LineNo, (s.line n).shed ≠ none → (s.line n).state = .rest .dark ∨ (s.line n).state = .underTest .dark)
    ∧ s.power.commanded = s.litSet
    ∧ (s.hold = none → s.power.carries = true ∧ s.relay.carries = true)

/-- What the head does belongs to the stage of the test in flight (R103, R123, Table 51). -/
def Head.suits (h : Head) (g : Stage) : Bool :=
  match h.phase with
  | .idle => match g with
    | .connect | .disconnect | .evaluate => true
    | .measure _ | .tone => false
  | .pathSettle (.volt i) | .sampling i _ => g == .measure i.meas
  | .pathSettle (.resReference w) | .pathSettle (.resPair w _) | .refGate w | .pairGate w _ => g == .measure w.item.meas
  | .pathSettle (.cap _) | .charge _ | .discharge _ _ => g == .measure .cap
  | .pathSettle (.tone _) | .toneOn _ | .toneOff _ => g == .tone

/-- The test in flight, its line, the head and the relay image agree (R100, R102, R106, R118, R124). -/
def State.testWell (s : State) : Bool :=
  match s.tests.current with
  | none =>
    !s.head.headen && s.head.phase == .idle && s.relay.commanded == 0
      && (List.finRange 24).all (fun n => !s.underTest n)
  | some t =>
    (List.finRange 24).all (fun n => s.underTest n == (n == t.entry.line))
      && s.head.headen == t.stage.holdsPair
      && s.head.suits t.stage
      && s.relay.commanded == (if t.stage.holdsPair then lineBit t.entry.line else 0)
      && t.evaluation.isSome == (t.stage == .evaluate)
      && (t.settle == none || t.stage == .connect || t.stage == .disconnect)

/-- One test at most is in flight, exactly while its line is UNDER_TEST; the queue holds 8 entries at most, none for
the same line twice and none for the line under test; the head is powered only at level 0; the level is 3 until the
initial sample (R102, R118, R140). -/
abbrev State.TestsWell (s : State) : Prop :=
  s.testWell = true
    ∧ s.tests.queue.length ≤ 8
    ∧ (s.tests.queue.map TestEntry.line).Nodup
    ∧ (∀ e ∈ s.tests.queue, s.underTest e.line = false)
    ∧ (s.head.headen = true → s.ladder.level = 0)
    ∧ (s.ladder.sampled = false → s.ladder.level = 3 ∧ s.ladder.rise = 0 ∧ s.ladder.fall = 0)

/-- The load is within the budget of the current level (R143). -/
abbrev State.LoadWithinBudget (s : State) : Prop := s.load ≤ s.budgetNow

/-! ### Rounds (R72, R89, R94) -/

/-- What was sent, what was withheld and what is still to be offered add up to the round's grants, which are within
its capacity; each grant is within its entry's demand and peak credits (R83, R89, R94). -/
def Emission.accounts (e : Emission) : Bool :=
  decide (e.sentTotal + e.withheld + sumShares Share.grant e.offers = sumShares Share.grant e.shares)
    && decide (sumShares Share.grant e.shares ≤ e.capacity)
    && decide (e.capacity ≤ 4095)
    && e.shares.all (fun x => decide (x.grant ≤ min x.entry.demand x.entry.kp))
    && e.offers.all (fun x => decide (0 < x.grant))
    && decide (e.sentCount + e.offers.length ≤ e.shares.length)
    && decide (e.shares.length ≤ 128)

/-- The round in flight, if its grants are computed, accounts for them. -/
def RoundPhase.accounts : RoundPhase → Bool
  | .emitting e => e.accounts
  | .idle => true
  | .snapshotWait => true

/-- The round in flight accounts for its grants, and the capacity the next snapshot takes is within 4095 (R66). -/
abbrev State.RoundWell (s : State) : Prop := s.round.phase.accounts = true ∧ s.link.capUp ≤ 4095

end Sys2Proof.Machine
end

