-- ==== Sys2Proof/Certificates/Slice0/Obligations.lean ====
section
/-! DEFINITION. The statements for the provers, in the order of OBLIGATIONS.json. -/

section

open Sys2Proof Sys2Proof.Machine

/-! ### The queue and the port -/

/-- A step takes the command at the front of the queue and runs exec on it with the queue's rest; on an empty queue
the part idles (log entry 1). -/
def Obligations.StepRunsTheFrontCommand : Prop :=
  (∀ (s : State) (c : Instr) (rest : List Instr), s.pending = c :: rest → step s = exec c { s with pending := rest })
    ∧ ∀ s : State, s.pending = [] → step s = .next s

/-- At the arrival of a command in WAIT nothing changes but the refused-busy flag and the end of the transaction; the
flag is cleared by the end of slot 1 of a fetch whose latched status showed it and by a reset, and set and cleared by
nothing else (R155). -/
def Obligations.RefusedBusyFlag : Prop :=
  (∀ (c : Instr) (x : Transaction) (s : State) (w : InFlight), transactionOf c = some x → s.Arrives →
      s.port.state = .wait w → ∃ o : Word16, exec c s = .next { s with port := ⟨.wait w, true, false, none, [o]⟩ }
        ∧ ∀ y, s.port.txn = some y → o = y.status)
    ∧ (∀ (rest : Byte) (s : State) (x : Txn), s.hold = none → s.port.txn = some x → x.fetch = false →
      ∃ t, exec (.fetch rest) s = .next t ∧ t.port.busy = (s.port.busy && !x.status.getLsbD 13))
    ∧ (∀ (c : Instr) (s t : State), exec c s = .next t → s.port.busy = true → t.port.busy = false →
      (∃ rest, c = .fetch rest) ∨ touchesReset c = true)
    ∧ (∀ (c : Instr) (s t : State), exec c s = .next t → s.port.busy = false → t.port.busy = true →
      (transactionOf c).isSome = true ∧ s.port.state.waits = true)
    ∧ (∀ s : State, ∃ t, exec .pinReset s = .next t ∧ t.port.busy = false)
    ∧ (∀ s : State, ∃ t, exec .powerOnReset s = .next t ∧ t.port.busy = false)
    ∧ (∀ (s : State) (f : Frame), s.Accepts f 0 → ∃ t, exec (.restart f) s = .next t ∧ t.port.busy = false)

/-- The word of slot 1 tells a fetch, by its code 0, from a command, and gives the command's code and count field, by which
Table 61 names its row; a transaction without a complete slot 1 has no kind (R151, Table 71). Outside WAIT a transaction
that is not well formed, or whose code is no command, is answered ILLEGAL, and one with the wrong count BAD_ARGUMENT; the
answer is the result word alone with the code received, and nothing but the port changes (R154 steps 2 to 4). The model's
choices: a term of the row UNDEFINED_COMMAND_CODE with a defined code is answered as that row (log entry 23), and a
command row inside an open fetch, which R151 rules out, changes nothing (log entry 4). -/
def Obligations.IllegalAndMiscountedCommands : Prop :=
  (∀ (w : Word16) (args : List Word16) (part : Bool),
      transactionRow [] part = none
        ∧ (w.extractLsb' 8 8 = 0 → transactionRow (w :: args) part = some (.fetch (w.extractLsb' 0 8)))
        ∧ (w.extractLsb' 8 8 ≠ 0 → ∃ (c : Instr) (x : Transaction), transactionRow (w :: args) part = some c
          ∧ transactionOf c = some x
          ∧ x.code = w.extractLsb' 8 8
          ∧ x.argc = ([11, 11, 2, 1, 2, 2, 2, 1, 2, 0, 0, 1, 1, 1, 1, 1, 1, 4, 1, 1, 0, 0, 1, 1, 1, 3, 0, 0] : List Nat)[
              x.code.toNat - 1]?
          ∧ x.frame = ⟨w.extractLsb' 5 3, w.extractLsb' 0 5, args, part⟩))
    ∧ (∀ (c : Instr) (x : Transaction) (s : State), transactionOf c = some x → s.Arrives → s.port.state.waits = false →
      (¬ FrameSound x.frame ∨ x.argc = none → s.Leaves c s (.ready [echoed x.code .illegal]))
        ∧ (∀ k, FrameSound x.frame → x.argc = some k → x.frame.count.toNat ≠ k →
          s.Leaves c s (.ready [echoed x.code .badArgument])))
    ∧ ∀ (c : Instr) (x : Transaction) (s : State) (y : Txn), transactionOf c = some x → s.hold = none →
      s.port.txn = some y → y.fetch = true → exec c s = .next s

/-- A transaction's falling edge latches the status word of Table 72; a fetch shifts the response out behind it, and
empties the buffer when it latched READY and the slot of the last response word ended (R152, R156). The model's choices
(log entry 13): the row FETCH_COMPLETE carries the number of slots that had ended, and a TRANSACTION_BEGIN inside an open
transaction stands for a rise and a new fall. -/
def Obligations.FetchShiftsOutAndEmptiesTheBuffer : Prop :=
  (∀ s : State, s.hold = none → s.port.state.words ≤ 24 → ∃ w : Word16,
      exec .transactionBegin s = .next { s with port := { s.port with csLow := true, txn := some ⟨w, false⟩, out := [w] } }
        ∧ (w.extractLsb' 14 2).toNat = s.port.state.code
        ∧ w.getLsbD 13 = s.port.busy
        ∧ w.getLsbD 12 = s.attn
        ∧ w.extractLsb' 5 7 = 0
        ∧ (w.extractLsb' 0 5).toNat = s.port.state.words)
    ∧ (∀ (rest : Byte) (s : State) (x : Txn), s.hold = none → s.port.txn = some x → x.fetch = false →
      exec (.fetch rest) s = .next { s with port := { s.port with
        txn := some { x with fetch := true }
        busy := s.port.busy && !x.status.getLsbD 13
        out := x.status :: (if x.status.extractLsb' 14 2 = 2#2 then s.port.state.response else []) } })
    ∧ (∀ (slots : Nat) (s : State) (x : Txn), s.port.txn = some x →
      exec (.fetchComplete slots) s = .next { s with port := { s.port with
        csLow := false
        txn := none
        state := if x.fetch = true ∧ x.status.extractLsb' 14 2 = 2#2 ∧ (x.status.extractLsb' 0 5).toNat + 1 ≤ slots
          then .none else s.port.state } })
    ∧ (∀ (rest : Byte) (slots : Nat) (s : State) (r : List Word16), s.hold = none → s.port.state = .ready r →
      r.length ≤ 24 → ∃ t, s.runs [.transactionBegin, .fetch rest, .fetchComplete slots] = .next t
        ∧ t.port.out = s.statusWord :: r
        ∧ t.port.state = (if r.length + 1 ≤ slots then .none else .ready r))

/-! ### Record commands (chapter 1) -/

/-- A tag is found in the lowest way of its home set that holds it in a state other than FREE, and a free way is the
lowest FREE one (R2, R15). -/
def Obligations.TagIsFoundInTheLowestWayOfItsSet : Prop :=
  ∀ (s : State) (t : Tag) (i : Slot),
    (s.find t = some i ↔
      i.val / 4 = homeSet t ∧ (s.slot i).cov.state ≠ .free ∧ (s.slot i).cov.tag = t
        ∧ ∀ j : Slot, j.val / 4 = homeSet t → j < i → (s.slot j).cov.state = .free ∨ (s.slot j).cov.tag ≠ t)
    ∧ (s.freeWay t = some i ↔
      i.val / 4 = homeSet t ∧ (s.slot i).cov.state = .free
        ∧ ∀ j : Slot, j.val / 4 = homeSet t → j < i → (s.slot j).cov.state ≠ .free)

/-- ADMIT SERVICE and AMEND SERVICE correct their values in the four steps of R14; values that need no correction are
taken as they are, so correcting twice changes nothing more. -/
def Obligations.ProvisioningValuesAreCorrected : Prop :=
  ∀ p : Provision,
    let q := p.correct
    let depth := fun (d rate : Nat) =>
      let d2 := if d = 0 then 1 else if 4095 < d then 4095 else d
      let refill := if 4095 < (rate + 15) / 16 then 4095 else (rate + 15) / 16
      if d2 < refill then refill else d2
    q.weight = (if p.weight = 0 then 1 else if 15 < p.weight then 15 else p.weight)
      ∧ q.cls = p.cls ∧ q.upCir = p.upCir ∧ q.downCir = p.downCir
      ∧ q.upPir = (if p.upPir < p.upCir then p.upCir else p.upPir)
      ∧ q.downPir = (if p.downPir < p.downCir then p.downCir else p.downPir)
      ∧ q.dcu = depth p.dcu q.upCir ∧ q.dpu = depth p.dpu q.upPir
      ∧ q.dcd = depth p.dcd q.downCir ∧ q.dpd = depth p.dpd q.downPir
      ∧ q.correct = q

/-- ADMIT SERVICE at a free table engine, with no condition of refusal, writes the new record into the lowest FREE way,
appends the slot to the line's list, reports an entry into ACTIVE, consumes the arming, and holds the answer with the
stored values, in the layout of Table 75, until its completion; nothing else changes (R15). -/
def Obligations.AdmitServiceWritesTheNewRecord : Prop :=
  ∀ (s : State) (f : Frame) (w1 w2 w3 w4 w5 w6 w7 w8 w9 w10 w11 : Word16) (n : LineNo) (i : Slot),
    f.args = [w1, w2, w3, w4, w5, w6, w7, w8, w9, w10, w11] → s.Accepts f 11 → s.Settled → s.engine.service = .free →
    let tag : Tag := w1.extractLsb' 0 4 ++ w2
    let p := (⟨if w3.getLsbD 15 then .essential else .standard, (w3.extractLsb' 0 5).toNat, w4.toNat, w5.toNat, w6.toNat,
      w7.toNat, w8.toNat, w9.toNat, w10.toNat, w11.toNat⟩ : Provision).correct
    let served := (s.line n).state = .rest .inService
    (w3.extractLsb' 8 5).toNat = n.val → tag ≠ 0 → tag ≠ 0xFFFFF → s.find tag = none →
    (s.line n).attached.length < 8 → s.freeWay tag = some i →
    let c : Covered := ⟨tag, n.val, p.cls, if served then .active else .standby, p.upCir, p.upPir, p.dcu, p.dpu, p.weight,
      p.downCir, p.downPir, p.dcd, p.dpd⟩
    c.LaidOutIn (provisionWords c) ∧ s.Leaves (.admitService f) { s with
      slots := s.slots.set i ⟨c, p.dcu * 16, p.dpu * 16, p.dcd * 16, p.dpd * 16, 0, 0, 0, 0, 0, ⟨c, s.armed⟩⟩
      lines := s.lines.set n { s.line n with attached := (s.line n).attached ++ [i] }
      meter := if served then s.meter.afterEntry i p.upCir p.downCir else s.meter
      armed := false
      engine := s.engine.serving (echoed 0x01 .ok :: BitVec.ofNat 16 i.val :: provisionWords c) } (.wait .taken)

/-- AMEND SERVICE at a free table engine replaces the provisioned values of the found passing record, clamps its
buckets down, keeps latch and counters, writes a new code, and adjusts the committed sums of an ACTIVE record; the
answer carries the stored values in the layout of Table 75, and nothing else changes (R16, R51). -/
def Obligations.AmendServiceReplacesTheProvisionedValues : Prop :=
  ∀ (s : State) (f : Frame) (w1 w2 w3 w4 w5 w6 w7 w8 w9 w10 w11 : Word16) (i : Slot),
    f.args = [w1, w2, w3, w4, w5, w6, w7, w8, w9, w10, w11] → s.Accepts f 11 → s.Settled → s.engine.service = .free →
    let tag : Tag := w1.extractLsb' 0 4 ++ w2
    let p := (⟨if w3.getLsbD 15 then .essential else .standard, (w3.extractLsb' 0 5).toNat, w4.toNat, w5.toNat, w6.toNat,
      w7.toNat, w8.toNat, w9.toNat, w10.toNat, w11.toNat⟩ : Provision).correct
    tag ≠ 0 → tag ≠ 0xFFFFF → s.find tag = some i → (s.slot i).cov.state ≠ .damaged → (s.slot i).passes = true →
    let r := s.slot i
    let c : Covered := ⟨r.cov.tag, r.cov.line, p.cls, r.cov.state, p.upCir, p.upPir, p.dcu, p.dpu, p.weight,
      p.downCir, p.downPir, p.dcd, p.dpd⟩
    (r.cov.line < 32 → c.LaidOutIn (provisionWords c)) ∧ s.Leaves (.amendService f) { s with
      slots := s.slots.set i { r with
        cov := c
        kcu := min r.kcu (p.dcu * 16)
        kpu := min r.kpu (p.dpu * 16)
        kcd := min r.kcd (p.dcd * 16)
        kpd := min r.kpd (p.dpd * 16)
        code := ⟨c, s.armed⟩ }
      meter := if r.cov.state = .active then (s.meter.afterExit i).afterEntry i p.upCir p.downCir else s.meter
      armed := false
      engine := s.engine.serving (echoed 0x02 .ok :: BitVec.ofNat 16 i.val :: provisionWords c) } (.wait .taken)

/-- RETIRE SERVICE of a found tag and RETIRE SLOT of a slot that is not FREE, at a free table engine: the slot takes the
cleared contents, leaves the attached list that holds it, and an ACTIVE record's counted rates leave the sums; BAR
SERVICE and UNBAR SERVICE change the state with a new code and the report that follows (R17 to R20). The model's own: the
slot is taken out of every list (log entry 24), and a record whose line reads 24 or more rides on no line IN_SERVICE (log
entry 21). -/
def Obligations.RetireBarAndUnbarActOnTheRecord : Prop :=
  ∀ (s : State) (f : Frame) (i : Slot), s.Settled → s.engine.service = .free →
    let r := s.slot i
    let out := if r.cov.state = .active then s.meter.afterExit i else s.meter
    let served := lineNoOf r.cov.line ≠ none ∧ ∀ n, lineNoOf r.cov.line = some n → (s.line n).state = .rest .inService
    let answered := fun (c : Instr) (u : State) (response : List Word16) =>
      s.Leaves c { u with engine := s.engine.serving response } (.wait .taken)
    let retired : State := { s with
      slots := s.slots.set i clearedRecord
      lines := s.lines.map fun l => { l with attached := l.attached.filter (· != i) }
      meter := out }
    let moved := fun (st : RecordState) (m : Meter) => { s with
      slots := s.slots.set i { r with
        cov := { r.cov with state := st }
        code := ⟨{ r.cov with state := st }, false⟩ }
      meter := m }
    (∀ w1 w2 : Word16, f.args = [w1, w2] → s.Accepts f 2 →
      let tag : Tag := w1.extractLsb' 0 4 ++ w2
      tag ≠ 0 → tag ≠ 0xFFFFF → s.find tag = some i →
        answered (.retireService f) retired [echoed 0x03 .ok, BitVec.ofNat 16 i.val]
          ∧ ((r.cov.state = .standby ∨ r.cov.state = .active) → r.passes = true →
            answered (.barService f) (moved .barred out) [echoed 0x05 .ok, BitVec.ofNat 16 i.val])
          ∧ (r.cov.state = .barred → r.passes = true → served →
            answered (.unbarService f) (moved .active (s.meter.afterEntry i r.cov.upCir r.cov.downCir))
              [echoed 0x06 .ok, BitVec.ofNat 16 i.val])
          ∧ (r.cov.state = .barred → r.passes = true → ¬ served →
            answered (.unbarService f) (moved .standby s.meter) [echoed 0x06 .ok, BitVec.ofNat 16 i.val]))
    ∧ (∀ w : Word16, f.args = [w] → s.Accepts f 1 → w.toNat = i.val → r.cov.state ≠ .free →
        answered (.retireSlot f) retired
          [echoed 0x04 .ok, (0#12 ++ r.cov.tag.extractLsb' 16 4), r.cov.tag.extractLsb' 0 16])

/-- LOOK UP SERVICE at a free table engine changes no record: a found record that passes, or that is already DAMAGED, is
answered in the 24 words of Table 76, which carry each of its fields (R21). -/
def Obligations.LookUpServiceReturnsTheRecord : Prop :=
  (∀ (s : State) (f : Frame) (w1 w2 : Word16) (i : Slot), f.args = [w1, w2] → s.Accepts f 2 → s.Settled →
      s.engine.service = .free →
      let tag : Tag := w1.extractLsb' 0 4 ++ w2
      tag ≠ 0 → tag ≠ 0xFFFFF → s.find tag = some i →
      ((s.slot i).cov.state ≠ .damaged → (s.slot i).passes = true →
          s.Leaves (.lookUpService f) { s with
            engine := s.engine.serving (echoed 0x07 .ok :: lookUpWords i (s.slot i)) } (.wait .taken))
        ∧ ((s.slot i).cov.state = .damaged →
          s.Leaves (.lookUpService f) { s with
            engine := s.engine.serving (echoed 0x07 .damaged :: lookUpWords i (s.slot i)) } (.wait .taken)))
    ∧ (∀ (i : Slot) (r : Record), r.InRange →
        ∃ a2 a3 a4 a5 a6 a7 a8 a9 a10 a11 a12 a13 a14 a15 a16 a17 a18 a19 a20 a21 a22 a23 a24 : Word16,
          lookUpWords i r = [a2, a3, a4, a5, a6, a7, a8, a9, a10, a11, a12, a13, a14, a15, a16, a17, a18, a19, a20, a21,
              a22, a23, a24]
            ∧ (a2.getLsbD 15 = true ∧ (a2.extractLsb' 8 7).toNat = i.val ∧ (a2.extractLsb' 0 5).toNat = r.cov.line)
            ∧ (a3.extractLsb' 12 4 ++ a4 = r.cov.tag ∧ (a3.extractLsb' 0 12).toNat = r.demand)
            ∧ (a5.toNat = r.cov.upCir ∧ a6.toNat = r.cov.upPir ∧ a7.toNat = r.cov.downCir ∧ a8.toNat = r.cov.downPir)
            ∧ ((a9.extractLsb' 12 4).toNat = r.cov.weight ∧ (a9.extractLsb' 0 12).toNat = r.cov.dcu)
            ∧ (a10.getLsbD 15 = (r.cov.cls == .essential) ∧ (a10.extractLsb' 12 3).toNat = r.cov.state.code
              ∧ (a10.extractLsb' 0 12).toNat = r.cov.dpu)
            ∧ (a11.toNat = r.cov.dcd ∧ a12.toNat = r.cov.dpd)
            ∧ (a13.toNat = r.kcu ∧ a14.toNat = r.kpu ∧ a15.toNat = r.kcd ∧ a16.toNat = r.kpd)
            ∧ ((a17 ++ a18).toNat = r.upGranted ∧ (a19 ++ a20).toNat = r.downPassed
              ∧ (a21 ++ a22).toNat = r.downExcess ∧ (a23 ++ a24).toNat = r.downDropped))

/-- The refusals of the timed record commands at their take, in the order of their rules: nothing changes but the
engine, which holds the refusal until its completion, and the port. While the engine is busy the command waits in the
port with its own operands, read from the places of Tables 75 and 85, and nothing else changes (R12, R15 to R21). -/
def Obligations.RecordCommandsAreRefusedOrWait : Prop :=
  (∀ (c : Instr) (s : State) (code : Byte) (k : Nat) (f : Frame), transactionOf c = some ⟨code, some k, f⟩ →
      code ∈ [0x01, 0x02, 0x03, 0x05, 0x06, 0x07] → s.Accepts f k → s.Settled → s.engine.service = .free →
      let tag := argTag f.args 1
      let n := argAdmitLine f.args
      let answered := fun (r : List Word16) =>
        s.Leaves c { s with engine := s.engine.serving r } (.wait .taken)
      (validTag tag = false → answered [echoed code .badArgument])
        ∧ (validTag tag = true → code = 0x01 → 24 ≤ n → answered [echoed code .badArgument])
        ∧ (∀ (m : LineNo), validTag tag = true → code = 0x01 → n = m.val →
          ((s.find tag).isSome = true → answered [echoed code .duplicate])
            ∧ (s.find tag = none → 8 ≤ (s.line m).attached.length → answered [echoed code .lineFull])
            ∧ (s.find tag = none → (s.line m).attached.length < 8 → s.freeWay tag = none →
              answered [echoed code .setFull]))
        ∧ (validTag tag = true → s.find tag = none →
          (code ∈ [0x02, 0x03, 0x05, 0x06] → answered [echoed code .unknown])
            ∧ (code = 0x07 → answered [echoed code .unknown, 0]))
        ∧ (∀ i, validTag tag = true → s.find tag = some i →
          (code ∈ [0x02, 0x05, 0x06] → (s.slot i).cov.state = .damaged → answered [echoed code .damaged])
            ∧ (code = 0x05 → (s.slot i).passes = true → (s.slot i).cov.state = .barred →
              answered [echoed code .wrongState])
            ∧ (code = 0x06 → (s.slot i).passes = true → ((s.slot i).cov.state = .standby ∨ (s.slot i).cov.state = .active) →
              answered [echoed code .wrongState])))
    ∧ (∀ (s : State) (f : Frame) (w : Word16), f.args = [w] → s.Accepts f 1 → s.Settled → s.engine.service = .free →
      (128 ≤ w.toNat → s.Leaves (.retireSlot f) { s with
          engine := s.engine.serving [echoed 0x04 .badArgument] } (.wait .taken))
        ∧ (∀ i : Slot, w.toNat = i.val → (s.slot i).cov.state = .free → s.Leaves (.retireSlot f) { s with
          engine := s.engine.serving [echoed 0x04 .unknown] } (.wait .taken)))
    ∧ (∀ (s : State) (f : Frame) (w1 w2 w3 w4 w5 w6 w7 w8 w9 w10 w11 : Word16),
      f.args = [w1, w2, w3, w4, w5, w6, w7, w8, w9, w10, w11] → s.Accepts f 11 → s.Settled → s.engine.service ≠ .free →
      let tag : Tag := w1.extractLsb' 0 4 ++ w2
      let p : Provision := ⟨if w3.getLsbD 15 then .essential else .standard, (w3.extractLsb' 0 5).toNat, w4.toNat, w5.toNat,
        w6.toNat, w7.toNat, w8.toNat, w9.toNat, w10.toNat, w11.toNat⟩
      s.Leaves (.admitService f) s (.wait (.record (.admission tag (w3.extractLsb' 8 5).toNat p)))
        ∧ s.Leaves (.amendService f) s (.wait (.record (.amend tag p))))
    ∧ (∀ (s : State) (f : Frame) (w1 w2 : Word16), f.args = [w1, w2] → s.Accepts f 2 → s.Settled →
      s.engine.service ≠ .free →
      let tag : Tag := w1.extractLsb' 0 4 ++ w2
      s.Leaves (.retireService f) s (.wait (.record (.retire tag)))
        ∧ s.Leaves (.barService f) s (.wait (.record (.bar tag)))
        ∧ s.Leaves (.unbarService f) s (.wait (.record (.unbar tag)))
        ∧ s.Leaves (.lookUpService f) s (.wait (.record (.lookUp tag))))
    ∧ (∀ (s : State) (f : Frame) (w : Word16), f.args = [w] → s.Accepts f 1 → s.Settled → s.engine.service ≠ .free →
      s.Leaves (.retireSlot f) s (.wait (.record (.retireSlot w.toNat))))

/-- A failing check found by LOOK UP, AMEND, BAR or UNBAR SERVICE is a damage discovery: the record becomes DAMAGED, an
ACTIVE record leaves the sums, the capture is offered, RECORD_DAMAGED is raised, and the answer is DAMAGED; no other
record and no line changes (R7, R8). -/
def Obligations.FailingCheckIsADamageDiscovery : Prop :=
  ∀ (c : Instr) (s : State) (code : Byte) (f : Frame) (i : Slot), transactionOf c = some ⟨code, some f.count.toNat, f⟩ →
    code ∈ [0x02, 0x05, 0x06, 0x07] → s.Accepts f f.count.toNat → s.Settled → s.engine.service = .free →
    validTag (argTag f.args 1) = true → s.find (argTag f.args 1) = some i → (s.slot i).cov.state ≠ .damaged →
    (s.slot i).passes = false →
    ∃ t data, s.Leaves c t (.wait .taken)
      ∧ s.Discovers t i (if code = 0x07 then .lookup else if code = 0x02 then .amend else .bar)
      ∧ t.engine.service = .management (echoed code .damaged :: data)
      ∧ data = (if code = 0x07 then lookUpWords i (t.slot i) else [])
      ∧ t = { s with slots := t.slots, meter := t.meter, engine := t.engine, events := t.events }

/-- READ FAULT answers with the capture and the overflow flag, then empties the one and clears the other (R9). -/
def Obligations.ReadFaultReturnsAndEmptiesTheCapture : Prop :=
  ∀ (s : State) (f : Frame), s.Accepts f 0 → ∃ w hi lo : Word16,
    s.Leaves (.readFault f) { s with engine := { s.engine with capture := none, overflow := false } }
        (.ready [echoed 0x0B .ok, w, hi, lo])
      ∧ w.getLsbD 15 = s.engine.capture.isSome
      ∧ w.getLsbD 14 = s.engine.overflow
      ∧ (s.engine.capture = none → w.extractLsb' 0 14 = 0 ∧ hi = 0 ∧ lo = 0)
      ∧ (∀ e, s.engine.capture = some e →
        w.extractLsb' 11 3 = 0 ∧ (w.extractLsb' 8 3).toNat = e.op.code ∧ w.getLsbD 7 = false
          ∧ (w.extractLsb' 0 7).toNat = e.slot.val
          ∧ hi = 0#12 ++ e.tag.extractLsb' 16 4 ∧ lo = e.tag.extractLsb' 0 16)

/-- PROBE SLOT reads a slot and changes nothing but the port; a set of 32 or more or a way of 4 or more is refused, and
a slot with the cleared contents reports tag 0, line 0, FREE and check 1 (R22). -/
def Obligations.ProbeSlotReadsWithoutChanging : Prop :=
  ∀ (s : State) (f : Frame) (w : Word16), f.args = [w] → s.Accepts f 1 →
    let set := (w.extractLsb' 8 8).toNat
    let way := (w.extractLsb' 0 8).toNat
    (32 ≤ set ∨ 4 ≤ way → s.Leaves (.probeSlot f) s (.ready [echoed 0x08 .badArgument]))
      ∧ (∀ i : Slot, set < 32 → way < 4 → i.val = set * 4 + way → (s.slot i).cov.line < 32 → ∃ a hi lo : Word16,
        s.Leaves (.probeSlot f) s (.ready [echoed 0x08 .ok, a, hi, lo])
          ∧ a.getLsbD 15 = ((s.slot i).cov.state == .free)
          ∧ a.getLsbD 14 = ((s.slot i).code == ⟨(s.slot i).cov, false⟩)
          ∧ (a.extractLsb' 8 3).toNat = (s.slot i).cov.state.code
          ∧ (a.extractLsb' 0 5).toNat = (s.slot i).cov.line
          ∧ a.extractLsb' 11 3 = 0 ∧ a.extractLsb' 5 3 = 0
          ∧ hi = 0#12 ++ (s.slot i).cov.tag.extractLsb' 16 4 ∧ lo = (s.slot i).cov.tag.extractLsb' 0 16
          ∧ (s.slot i = clearedRecord → a = 0xC000 ∧ hi = 0 ∧ lo = 0))

/-- CLEAR COUNTERS sets the four counters of the found record to 0, whatever its state, without reading or writing its
code; an invalid tag and a tag not found are refused (R23). -/
def Obligations.ClearCountersZeroesTheFourCounters : Prop :=
  ∀ (s : State) (f : Frame) (w1 w2 : Word16), f.args = [w1, w2] → s.Accepts f 2 →
    let tag : Tag := w1.extractLsb' 0 4 ++ w2
    (tag = 0 ∨ tag = 0xFFFFF → s.Leaves (.clearCounters f) s (.ready [echoed 0x09 .badArgument]))
      ∧ (tag ≠ 0 → tag ≠ 0xFFFFF → s.find tag = none → s.Leaves (.clearCounters f) s (.ready [echoed 0x09 .unknown]))
      ∧ (∀ i, tag ≠ 0 → tag ≠ 0xFFFFF → s.find tag = some i → s.Leaves (.clearCounters f) { s with
          slots := s.slots.set i { s.slot i with upGranted := 0, downPassed := 0, downExcess := 0, downDropped := 0 } }
        (.ready [echoed 0x09 .ok, BitVec.ofNat 16 i.val]))

/-! ### The traffic link (chapter 4) and the table engine's events -/

/-- A RESOLVE that reaches a free table engine is taken, decided and completed at its arrival: its VERDICT is handed to
an idle transmitter, waits in an empty held verdict, or stays in service behind a held one (R59, R60, R62, R69). A VERDICT's
bytes are query number, verdict, line and class in the layout and the codes of Table 81 (R175). -/
def Obligations.ResolveIsDecidedAtAFreeEngine : Prop :=
  (∀ (s : State) (q : Byte) (tag : Tag) (len : Word16), s.hold = none → s.Settled → s.engine.service = .free →
    ∃ t v, exec (.resolve q tag len) s = .next t
      ∧ s.Decides t ⟨q, tag, len.toNat⟩ v
      ∧ (s.link.sending = none →
        t.link = { s.link with receiving := [], sending := some (verdictBytes v) } ∧ t.engine.service = .free)
      ∧ (s.link.sending ≠ none → s.link.held = none →
        t.link = { s.link with receiving := [], held := some v } ∧ t.engine.service = .free)
      ∧ (s.link.held ≠ none → t.link = { s.link with receiving := [] } ∧ t.engine.service = .resolve v)
      ∧ t = { s with slots := t.slots, meter := t.meter, engine := t.engine, events := t.events, link := t.link })
    ∧ ∀ v : VerdictMsg, v.line ≤ 255 → ∃ b2 b3 b4 : Byte, verdictBytes v = [0x81, v.query, b2, b3, b4, 0, 0, 0]
      ∧ ([.pass, .excess, .drop, .held, .barred, .unknown, .fault, .refused] : List Verdict)[b2.toNat]? = some v.verdict
      ∧ b3.toNat = v.line
      ∧ b4 = (if v.cls = .essential then 1 else 0)

/-- At the arrival of a RESOLVE: with fewer than 4 requests queued it joins the tail, taken at once by a free engine;
with 4 queued it overruns: a REFUSED verdict joins the refusal list unless that holds 4, QUERY_OVERRUN is raised, and
no queued request and no record changes; an idle transmitter is handed the refusal at the same event (R59). -/
def Obligations.ResolveQueuesOrOverruns : Prop :=
  ∀ (s : State) (q : Byte) (tag : Tag) (len : Word16), s.hold = none → s.Settled →
    (s.engine.service = .free → ∃ t, exec (.resolve q tag len) s = .next t ∧ t.link.queue = []
        ∧ t.events.pending &&& 0x040 = s.events.pending &&& 0x040)
      ∧ (s.engine.service ≠ .free → s.link.queue.length < 4 → exec (.resolve q tag len) s = .next { s with
        link := { s.link with queue := s.link.queue ++ [⟨q, tag, len.toNat⟩], receiving := [] } })
      ∧ (4 ≤ s.link.queue.length → s.link.sending ≠ none → exec (.resolve q tag len) s = .next { s with
        link := { s.link with
          refusals := if s.link.refusals.length < 4 then s.link.refusals ++ [q] else s.link.refusals
          receiving := [] }
        events := { s.events with pending := s.events.pending ||| 0x040 } })
      ∧ (4 ≤ s.link.queue.length → s.link.sending = none → exec (.resolve q tag len) s = .next { s with
        link := { s.link with sending := some (verdictBytes ⟨q, .refused, 0, .standard⟩), receiving := [] }
        events := { s.events with pending := s.events.pending ||| 0x040 } })

/-- A BACKLOG overwrites the demand latch of the record found, whatever its state, clamped to 4095; with an invalid tag
or a tag not found no record changes and the unmatched-report counter counts, saturating (R63). -/
def Obligations.BacklogWritesTheDemandLatch : Prop :=
  ∀ (s : State) (tag : Tag) (credits : Word16), s.hold = none →
    (∀ i, tag ≠ 0 → tag ≠ 0xFFFFF → s.find tag = some i → exec (.backlog tag credits) s = .next { s with
        slots := s.slots.set i { s.slot i with demand := if 4095 < credits.toNat then 4095 else credits.toNat }
        link := { s.link with receiving := [] } })
      ∧ (tag = 0 ∨ tag = 0xFFFFF ∨ s.find tag = none → exec (.backlog tag credits) s = .next { s with
        link := { s.link with
          receiving := []
          unmatched := if 65535 < s.link.unmatched + 1 then 65535 else s.link.unmatched + 1 } })

/-- A CAPACITY loads both registers, clamped, and ends staleness without an event; a message of another type changes
nothing; and a message acts whole at its eighth byte: eight bytes, the first with the start line high, do what the
message does, whatever partial message they follow (R57, R66, R175). -/
def Obligations.MessagesActWholeAtTheirEighthByte : Prop :=
  (∀ (s : State) (up down : Word16), s.hold = none → exec (.capacity up down) s = .next { s with
      link := { s.link with
        capUp := if 4095 < up.toNat then 4095 else up.toNat
        capDown := if 4095 < down.toNat then 4095 else down.toNat
        stale := false
        staleCount := 0
        receiving := [] } })
    ∧ (∀ (s : State) (kind : Byte), s.hold = none →
      exec (.unknownInboundTypeDiscard kind) s = .next { s with link := { s.link with receiving := [] } })
    ∧ (∀ (s : State) (b0 b1 b2 b3 b4 b5 b6 b7 : Byte), s.hold = none →
      s.runs [.inboundByteTaken true b0, .inboundByteTaken false b1, .inboundByteTaken false b2,
          .inboundByteTaken false b3, .inboundByteTaken false b4, .inboundByteTaken false b5,
          .inboundByteTaken false b6, .inboundByteTaken false b7]
        = exec (if b0 = 0x01 then .resolve b1 (b2.extractLsb' 0 4 ++ b3 ++ b4) (b5 ++ b6)
          else if b0 = 0x02 then .backlog (b1.extractLsb' 0 4 ++ b2 ++ b3) (b4 ++ b5)
          else if b0 = 0x03 then .capacity (b1 ++ b2) (b3 ++ b4)
          else .unknownInboundTypeDiscard b0) s)
    ∧ (∀ (s : State) (b : Byte), s.hold = none → s.link.receiving = [] → exec (.inboundByteTaken false b) s = .next s)

/-- At a transmission completion the arbiter hands the transmitter to the head of the refusal list, or else to the held
verdict, or else to the round message on offer, whose emission, with all that it debits, counts and withholds, takes place at
that event, or leaves it idle; a decided resolve then enters the emptied held verdict (R62, R68 to R70). -/
def Obligations.ArbiterChoosesRefusalsThenVerdictsThenRounds : Prop :=
  ∀ (s : State) (b : List Byte), s.hold = none → s.Settled → s.link.sending = some b →
    (∀ q rest, s.link.refusals = q :: rest → exec .transmissionCompletion s = .next { s with
        link := { s.link with refusals := rest, sending := some [0x81, q, 7, 0, 0, 0, 0, 0] } })
      ∧ (∀ v, s.link.refusals = [] → s.link.held = some v → (∀ u, s.engine.service ≠ .resolve u) →
        exec .transmissionCompletion s = .next { s with
          link := { s.link with held := none, sending := some (verdictBytes v) } })
      ∧ (∀ v u, s.link.refusals = [] → s.link.held = some v → s.engine.service = .resolve u →
        s.round.phase ≠ .snapshotWait → s.link.queue = [] → s.port.state.waiting = none →
        exec .transmissionCompletion s = .next { s with
          link := { s.link with held := some u, sending := some (verdictBytes v) }
          engine := { s.engine with service := .free } })
      ∧ (s.link.refusals = [] → s.link.held = none → s.round.phase.offering = true →
        ∃ t kind rest, exec .transmissionCompletion s = .next t ∧ t.link.sending = some (kind :: rest)
          ∧ (kind = 0x82 ∨ kind = 0x83))
      ∧ (∀ e, s.link.refusals = [] → s.link.held = none → s.round.phase = .emitting e →
        exec .transmissionCompletion s = exec (if e.offers = [] then .roundEndEmission else .grantEmission)
          { s with link := { s.link with sending := none } })
      ∧ (s.link.refusals = [] → s.link.held = none → s.round.phase.offering = false →
        exec .transmissionCompletion s = .next { s with link := { s.link with sending := none } })

/-- The engine's and the arbiter's own events, each where it is due and nothing else is: a lookup decides the queue's
head and completes it, a decided resolve enters the held verdict, an idle transmitter is handed a refusal before the held
verdict, and a waiting record command is taken with its whole effect (R11, R12, R58, R60, R62, R69). -/
def Obligations.InternalEventsActWhenDue : Prop :=
  (∀ (s : State) (q : Request), s.hold = none → s.engine.service = .free → s.round.phase ≠ .snapshotWait →
      s.link.queue = [q] → s.link.held = none → s.link.sending ≠ none → s.port.state.waiting = none →
      ∃ t v, exec .lookupEvent s = .next t ∧ s.Decides t q v ∧ t.link = { s.link with queue := [], held := some v }
        ∧ t.engine.service = .free
        ∧ t = { s with slots := t.slots, meter := t.meter, engine := t.engine, events := t.events, link := t.link })
    ∧ (∀ (s : State) (v : VerdictMsg), s.hold = none → s.engine.service = .resolve v → s.link.held = none →
      s.link.sending ≠ none → s.round.phase ≠ .snapshotWait → s.link.queue = [] → s.port.state.waiting = none →
      exec .resolveCompletion s = .next { s with
        link := { s.link with held := some v }, engine := { s.engine with service := .free } })
    ∧ (∀ (s : State), s.hold = none → s.link.sending = none → (∀ u, s.engine.service ≠ .resolve u) → s.EngineSettled →
      (∀ q rest, s.link.refusals = q :: rest → exec .verdictEmission s = .next { s with
          link := { s.link with refusals := rest, sending := some [0x81, q, 7, 0, 0, 0, 0, 0] } })
        ∧ (∀ v, s.link.refusals = [] → s.link.held = some v → exec .verdictEmission s = .next { s with
          link := { s.link with held := none, sending := some (verdictBytes v) } }))
    ∧ (∀ (s : State) (c : RecordCommand), s.hold = none → s.engine.service = .free → s.round.phase ≠ .snapshotWait →
      s.link.queue = [] → s.link.sending ≠ none → s.port.state = .wait (.record c) →
      exec .managementRequestTake s = .next { (s.takeCommand c).state with
        port := { s.port with state := .wait .taken }
        engine := (s.takeCommand c).state.engine.serving
          (echoed c.code (s.takeCommand c).result :: (s.takeCommand c).data) })

/-- The completion of a management request delivers its response and frees the engine; the engine then takes a waiting
roster request first, and the head of the resolve queue before any later management request (R11, R12). -/
def Obligations.ManagementCompletionDeliversAndFreesTheEngine : Prop :=
  ∀ (s : State) (r : List Word16), s.hold = none → s.Settled → s.engine.service = .management r →
    (∃ t, exec .managementRequestCompletion s = .next t ∧ t.port = { s.port with state := .ready r })
      ∧ (s.round.phase ≠ .snapshotWait → s.link.queue = [] → exec .managementRequestCompletion s = .next { s with
        port := { s.port with state := .ready r }, engine := { s.engine with service := .free } })
      ∧ (s.round.phase = .snapshotWait → s.link.sending ≠ none →
        ∃ t e, exec .managementRequestCompletion s = .next t ∧ t.round.phase = .emitting e
          ∧ e.capacity = s.link.capUp ∧ e.pUsed = s.round.pointer)
      ∧ (∀ q rest, s.round.phase ≠ .snapshotWait → s.link.queue = q :: rest → s.link.sending ≠ none →
        s.link.held = none → ∃ t v, exec .managementRequestCompletion s = .next t ∧ t.link.held = some v
          ∧ v.query = q.query ∧ t.link.queue = rest.tail)

/-! ### Metering and rounds (chapters 3 and 5) -/

/-- A cycle expiry: f and every refill, the stale count, and the round's start, deferral or slip; the buckets of FREE and
DAMAGED records stay. A round that starts at a free table engine takes its roster snapshot at the same event, on the
refilled buckets, with the first emission where the transmitter is idle (R44, R46, R47, R67, R74 to R77, R12). -/
def Obligations.CycleExpiryRefillsAndCounts : Prop :=
  ∀ s : State, s.hold = none → s.Settled →
    let f := if s.meter.sumDown = 0 then 4096 else min 4096 (65536 * s.link.capDown / s.meter.sumDown)
    let slip := s.round.phase ≠ .idle ∧ s.round.deferred = true
    ∃ u t, exec .cycleExpiry s = .next t
      ∧ ((s.round.phase ≠ .idle ∨ s.engine.service ≠ .free) → t = u)
      ∧ (s.round.phase = .idle → s.engine.service = .free → exec .rosterSnapshot u = .next t)
      ∧ u.meter = { s.meter with f := f }
      ∧ (∀ i, (s.slot i).cov.state ≠ .free → (s.slot i).cov.state ≠ .damaged → u.slot i = { s.slot i with
        kcu := min ((s.slot i).cov.dcu * 16) ((s.slot i).kcu + (s.slot i).cov.upCir)
        kpu := min ((s.slot i).cov.dpu * 16) ((s.slot i).kpu + (s.slot i).cov.upPir)
        kcd := min ((s.slot i).cov.dcd * 16) ((s.slot i).kcd + (s.slot i).cov.downCir * f / 4096)
        kpd := min ((s.slot i).cov.dpd * 16) ((s.slot i).kpd + (s.slot i).cov.downPir * f / 4096) })
      ∧ (∀ i, (s.slot i).cov.state = .free ∨ (s.slot i).cov.state = .damaged → u.slot i = s.slot i)
      ∧ u.link = { s.link with
        staleCount := if s.link.staleCount < 64 then s.link.staleCount + 1 else s.link.staleCount
        stale := s.link.stale || s.link.staleCount == 63 }
      ∧ u.round = { s.round with
        phase := if s.round.phase = .idle then .snapshotWait else s.round.phase
        number := if s.round.phase = .idle then s.round.number + 1 else s.round.number
        deferred := if s.round.phase = .idle then s.round.deferred else true
        slips := if slip then min 65535 (s.round.slips + 1) else s.round.slips
        period := s.settings.cyclePeriod }
      ∧ u.events = { s.events with pending := s.events.pending
        ||| (if s.link.staleCount = 63 then 0x020 else 0) ||| (if slip then 0x080 else 0) }
      ∧ u = { s with slots := u.slots, meter := u.meter, link := u.link, round := u.round, events := u.events }

/-- f is recomputed at each cycle expiry, is 4096 after every reset, and holds its value at every other event; it runs
from 0 to 4096, is 0 for a capacity of 0 against committed traffic, and 4096 where the capacity holds the sum (R45). -/
def Obligations.ScaleFactorChangesAtExpiriesAlone : Prop :=
  (∀ s t : State, s.hold = none → exec .cycleExpiry s = .next t →
      t.meter.f = (if s.meter.sumDown = 0 then 4096 else min 4096 (4096 * 16 * s.link.capDown / s.meter.sumDown))
        ∧ t.meter.f ≤ 4096
        ∧ (s.meter.sumDown ≠ 0 → s.link.capDown = 0 → t.meter.f = 0)
        ∧ (s.meter.sumDown ≤ 16 * s.link.capDown → t.meter.f = 4096))
    ∧ (∀ (c : Instr) (s t : State), exec c s = .next t → c ≠ .cycleExpiry → touchesReset c = false →
      t.meter.f = s.meter.f)
    ∧ (∀ (s t : State), exec .powerOnReset s = .next t → t.meter.f = 4096)
    ∧ (∀ (s t : State), exec .pinReset s = .next t → t.meter.f = 4096)
    ∧ (∀ (s t : State) (f : Frame), s.Accepts f 0 → exec (.restart f) s = .next t → t.meter.f = 4096)

/-- The scaled committed refills of the ACTIVE records, whose CIRs make the committed sum, add to no more than the
downstream capacity of one cycle (R47). -/
def Obligations.ScaledRefillsFitTheDownCapacity : Prop :=
  ∀ (cirs : List Nat) (cd : Nat), (cirs.map fun r => r * scaleFactor cirs.sum cd / 4096).sum ≤ 16 * cd

/-- The grants of a round: one for each roster entry in roster order, together never above C, each at most the entry's
demand and at most its peak credits; within C go first the essential entries and within what they leave the standard
ones (R89). -/
def Obligations.GrantsNeverExceedTheCapacity : Prop :=
  ∀ (c : Nat) (p : Slot) (roster : List RosterEntry),
    let l := computeGrants c p roster
    l.map Share.entry = roster
      ∧ sumShares Share.grant l ≤ c
      ∧ sumShares (fun x => if x.entry.cls = .essential then x.grant else 0) l ≤ c
      ∧ sumShares (fun x => if x.entry.cls = .standard then x.grant else 0) l
        ≤ c - sumShares (fun x => if x.entry.cls = .essential then x.grant else 0) l
      ∧ ∀ x ∈ l, x.grant ≤ x.entry.demand ∧ x.grant ≤ x.entry.kp

/-- Where the claims of a stage exceed its capacity, its entries receive the floors of their scaled claims, and the
leftover goes, one credit each, to the first entries in rotating order that are below their claims; the stage's grants
add up to exactly its capacity and later stages give nothing. Where neither stage is short, every entry receives its claim
and the excess stage shares the remainder R by weight among the entries with headroom; what the shares leave of R goes, up
to the headroom, to the first of them in rotating order, until R or all headroom is used (R84, R86 to R88). -/
def Obligations.ScaledStagesAreExactAndRotate : Prop :=
  ∀ (c : Nat) (p : Slot) (roster : List RosterEntry), (roster.map RosterEntry.slot).Pairwise (· < ·) →
    let l := computeGrants c p roster
    let claims := fun (k : Sys2Proof.Class) => ((roster.filter fun e => e.cls == k).map RosterEntry.claim).sum
    let given := fun (k : Sys2Proof.Class) => ((l.filter fun x => x.entry.cls == k).map Share.grant).sum
    let scaled := fun (k : Sys2Proof.Class) (cap : Nat) =>
      given k = cap
        ∧ (∀ x ∈ l, x.entry.cls = k →
          x.entry.claim * cap / claims k ≤ x.grant ∧ x.grant ≤ x.entry.claim * cap / claims k + 1
            ∧ x.grant ≤ x.entry.claim)
        ∧ (∀ x ∈ l, ∀ y ∈ l, x.entry.cls = k → y.entry.cls = k →
          (x.entry.slot - p).val < (y.entry.slot - p).val → x.entry.claim * cap / claims k < x.entry.claim →
          y.grant = y.entry.claim * cap / claims k + 1 → x.grant = x.entry.claim * cap / claims k + 1)
    (c < claims .essential → scaled .essential c ∧ ∀ x ∈ l, x.entry.cls = .standard → x.grant = 0)
      ∧ (claims .essential ≤ c → c - claims .essential < claims .standard →
        scaled .standard (c - claims .essential) ∧ ∀ x ∈ l, x.entry.cls = .essential → x.grant = x.entry.claim)
      ∧ (claims .essential + claims .standard ≤ c → (∀ e ∈ roster, 1 ≤ e.weight) →
        let r := c - (claims .essential + claims .standard)
        let room := fun (x : Share) => min (x.entry.demand - x.entry.claim) (x.entry.kp - x.entry.claim)
        let weights := ((l.filter fun x => decide (0 < room x)).map fun x => x.entry.weight).sum
        let share := fun (x : Share) => min (room x) (r * x.entry.weight / weights)
        (∀ x ∈ l, x.entry.claim + share x ≤ x.grant ∧ x.grant ≤ x.entry.claim + room x)
          ∧ (∀ x ∈ l, ∀ y ∈ l, (x.entry.slot - p).val < (y.entry.slot - p).val →
            y.entry.claim + share y < y.grant → x.grant = x.entry.claim + room x)
          ∧ (l.map Share.grant).sum = (l.map fun x => x.entry.claim).sum + min r (l.map room).sum)
      ∧ (claims .essential + claims .standard ≤ c → ∀ x ∈ l, x.entry.claim ≤ x.grant)

/-- The roster snapshot takes C and P, lists the ACTIVE records that pass in ascending slot order with the values of
Table 33, discovers each failing one, whose counted rates leave the sums, and computes the grants of that roster; the start
pointer moves to one past the entry first in rotating order; the messages on offer are the grants above 0, and an idle
transmitter is handed the first of them, or ROUND END, at the same event (R7, R50, R69, R80 to R82, R85, R91). -/
def Obligations.RosterSnapshotTakesTheActiveRecords : Prop :=
  ∀ s : State, s.hold = none → s.engine.service = .free → s.round.phase = .snapshotWait → s.link.queue = [] →
    s.port.state.waiting = none →
    let good := (List.finRange 128).filter fun i => (s.slot i).cov.state == .active && (s.slot i).passes
    let bad := (List.finRange 128).filter fun i => (s.slot i).cov.state == .active && !(s.slot i).passes
    let roster := good.map fun i => (⟨i, (s.slot i).cov.tag, (s.slot i).cov.cls, (s.slot i).cov.weight, (s.slot i).demand,
      (s.slot i).kcu / 16, (s.slot i).kpu / 16⟩ : RosterEntry)
    let shares := computeGrants s.link.capUp s.round.pointer roster
    let offers := shares.filter fun x => decide (0 < x.grant)
    ∃ u t, exec .rosterSnapshot s = .next t
      ∧ (s.link.sending ≠ none → t = u)
      ∧ (s.link.sending = none → s.link.refusals = [] → s.link.held = none →
        exec (if offers = [] then .roundEndEmission else .grantEmission) u = .next t)
      ∧ u.round = { s.round with
        phase := .emitting ⟨s.link.capUp, s.round.pointer, shares, offers, 0, 0, 0⟩
        pointer := u.round.pointer }
      ∧ (good = [] → u.round.pointer = s.round.pointer)
      ∧ (good ≠ [] → ∃ i ∈ good, u.round.pointer = i + 1
        ∧ ∀ j ∈ good, (i - s.round.pointer).val ≤ (j - s.round.pointer).val)
      ∧ (∀ i, u.slot i = if i ∈ bad then (s.slot i).withState .damaged else s.slot i)
      ∧ (∀ i : Slot, u.meter.countedUp[i] = (if i ∈ bad then 0 else s.meter.countedUp[i])
        ∧ u.meter.countedDown[i] = (if i ∈ bad then 0 else s.meter.countedDown[i]))
      ∧ u.meter.sumUp = s.meter.sumUp - (bad.map fun i => s.meter.countedUp[i]).sum
      ∧ u.meter.sumDown = s.meter.sumDown - (bad.map fun i => s.meter.countedDown[i]).sum
      ∧ u.meter.f = s.meter.f
      ∧ u.engine = ⟨.free, s.engine.capture.or (bad.head?.map fun i => ⟨i, (s.slot i).cov.tag, .roster⟩),
        s.engine.overflow || decide (1 < bad.length + (if s.engine.capture.isSome then 1 else 0) ∧ bad ≠ [])⟩
      ∧ u.events = { s.events with pending := if bad = [] then s.events.pending else s.events.pending ||| 0x010 }
      ∧ u = { s with slots := u.slots, meter := u.meter, engine := u.engine, round := u.round, events := u.events }

/-- The emission of a GRANT whose check passes sends it and makes its debits at that event; a GRANT whose check fails is
withheld, with no debit, and the next message is handed the transmitter at the same event; ROUND END completes the
round and starts an owed one, whose roster snapshot a free table engine takes at the same event (R12, R70, R78, R92 to R94).
The bytes of GRANT and ROUND END are in the layouts of Table 81, most significant byte first, with 0 in the upper 4 bits of
the tag field and in the last byte (R175). -/
def Obligations.EmissionSendsOrWithholdsEachGrant : Prop :=
  (∀ (s : State) (e : Emission), s.hold = none → s.link.sending = none → s.link.refusals = [] → s.link.held = none →
    s.EngineSettled → s.completionDue = false → s.round.phase = .emitting e →
    let passes := fun (x : Share) =>
      (s.slot x.entry.slot).cov.tag = x.entry.tag ∧ (s.slot x.entry.slot).cov.state = .active
    let sent := fun (x : Share) (e' : Emission) => { s with
      slots := s.slots.set x.entry.slot { s.slot x.entry.slot with
        kcu := (s.slot x.entry.slot).kcu - 16 * min x.grant x.entry.claim
        kpu := (s.slot x.entry.slot).kpu - 16 * x.grant
        demand := (s.slot x.entry.slot).demand - x.grant
        upGranted := counted (s.slot x.entry.slot).upGranted x.grant }
      link := { s.link with sending := some (grantBytes s.round.number x.entry.tag x.grant) }
      round := { s.round with phase := .emitting { e' with
        sentCount := e'.sentCount + 1
        sentTotal := e'.sentTotal + x.grant } } }
    (∀ x rest, e.offers = x :: rest → passes x →
        exec .grantEmission s = .next (sent x { e with offers := rest }))
      ∧ (∀ x y rest, e.offers = x :: y :: rest → ¬ passes x → passes y →
        exec .grantEmission s = .next (sent y { e with offers := rest, withheld := e.withheld + x.grant }))
      ∧ (∀ x, e.offers = [x] → ¬ passes x → s.round.deferred = false → exec .grantEmission s = .next { s with
        link := { s.link with
          sending := some (roundEndBytes s.round.number e.sentCount e.sentTotal (e.withheld + x.grant)) }
        round := { s.round with phase := .idle } })
      ∧ (e.offers = [] → s.round.deferred = false → exec .roundEndEmission s = .next { s with
        link := { s.link with sending := some (roundEndBytes s.round.number e.sentCount e.sentTotal e.withheld) }
        round := { s.round with phase := .idle } })
      ∧ (e.offers = [] → s.round.deferred = true → s.engine.service ≠ .free → exec .roundEndEmission s = .next { s with
        link := { s.link with sending := some (roundEndBytes s.round.number e.sentCount e.sentTotal e.withheld) }
        round := { s.round with phase := .snapshotWait, deferred := false, number := s.round.number + 1 } })
      ∧ (∀ x rest, e.offers = x :: rest → ¬ passes x →
        exec .grantEmission s = exec (if rest = [] then .roundEndEmission else .grantEmission) { s with
          round := { s.round with phase := .emitting { e with offers := rest, withheld := e.withheld + x.grant } } })
      ∧ (e.offers = [] → s.round.deferred = true → s.engine.service = .free →
        exec .roundEndEmission s = exec .rosterSnapshot { s with
          link := { s.link with sending := some (roundEndBytes s.round.number e.sentCount e.sentTotal e.withheld) }
          round := { s.round with phase := .snapshotWait, deferred := false, number := s.round.number + 1 } }))
    ∧ (∀ (n : Byte) (tag : Tag) (credits : Nat), credits ≤ 65535 → ∃ b2 b3 b4 b5 b6 : Byte,
      grantBytes n tag credits = [0x82, n, b2, b3, b4, b5, b6, 0]
        ∧ b2 ++ b3 ++ b4 = 0#4 ++ tag ∧ (b5 ++ b6).toNat = credits)
    ∧ ∀ (n : Byte) (count sentTotal withheld : Nat), count ≤ 255 → sentTotal ≤ 65535 → withheld ≤ 65535 →
      ∃ b2 b3 b4 b5 b6 : Byte, roundEndBytes n count sentTotal withheld = [0x83, n, b2, b3, b4, b5, b6, 0]
        ∧ b2.toNat = count ∧ (b3 ++ b4).toNat = sentTotal ∧ (b5 ++ b6).toNat = withheld

/-- A cycle expiry and the completion of a round in either order: with the deferral flag clear both start one round and
leave the flag clear; with it set, the completion first leaves the next round owed and no slip, and the expiry first is
a slip and leaves none owed (R79). -/
def Obligations.ExpiryAndCompletionInEitherOrder : Prop :=
  ∀ (s : State) (e : Emission) (b : List Byte), s.hold = none → s.Settled → s.link.sending = some b →
    s.link.refusals = [] → s.link.held = none → s.round.phase = .emitting e → e.offers = [] →
    ∃ t u, s.runs [.transmissionCompletion, .cycleExpiry] = .next t
      ∧ s.runs [.cycleExpiry, .transmissionCompletion] = .next u
      ∧ t.round.number = s.round.number + 1 ∧ u.round.number = s.round.number + 1
      ∧ t.round.phase ≠ .idle ∧ u.round.phase ≠ .idle
      ∧ (s.round.deferred = false →
        t.round.deferred = false ∧ u.round.deferred = false ∧ t.round.slips = s.round.slips
          ∧ u.round.slips = s.round.slips)
      ∧ (s.round.deferred = true →
        t.round.deferred = true ∧ u.round.deferred = false ∧ t.round.slips = s.round.slips
          ∧ u.round.slips = min 65535 (s.round.slips + 1) ∧ u.events.pending.getLsbD 7 = true)

/-! ### Line commands (chapter 2) -/

/-- LIGHT LINE is judged as R35 states: WRONG_STATE outside DARK, then SHED for a marked line of a class within the
level, then BUDGET; otherwise the line becomes SUSPENDED without mark and enters the lit set, with a new power-chain
image, and no record moves. -/
def Obligations.LightLineByMarkLevelAndBudget : Prop :=
  ∀ (s : State) (f : Frame) (w : Word16), f.args = [w] → s.Accepts f 1 →
    (24 ≤ (w.extractLsb' 0 5).toNat → s.Leaves (.lightLine f) s (.ready [echoed 0x0C .badArgument, 0]))
      ∧ ∀ n : LineNo, (w.extractLsb' 0 5).toNat = n.val →
        let l := s.line n
        let barred := l.shed ≠ none ∧ s.settings.shedClass[n] ≤ s.ladder.level.val
        let refused := fun (r : ResultCode) =>
          ∃ a : Word16, l.ToldBy a ∧ s.Leaves (.lightLine f) s (.ready [echoed 0x0C r, a])
        (l.state ≠ .rest .dark → refused .wrongState)
          ∧ (l.state = .rest .dark → barred → refused .shed)
          ∧ (l.state = .rest .dark → ¬ barred → s.budgetNow < s.load + s.settings.cost[n] → refused .budget)
          ∧ (l.state = .rest .dark → ¬ barred → s.load + s.settings.cost[n] ≤ s.budgetNow →
            let lit : Line := { l with state := .rest .suspended, shed := none }
            ∃ (t : State) (a : Word16), lit.ToldBy a ∧ s.Leaves (.lightLine f) t (.ready [echoed 0x0C .ok, a])
              ∧ t = { s with lines := s.lines.set n lit, power := s.power.command t.litSet }
              ∧ (∀ m, t.lit m = (s.lit m || m == n))
              ∧ t.load = s.load + s.settings.cost[n])

/-- SERVE LINE, SUSPEND LINE and CLEAR FAULT, each by the line's state: the record moves and committed sums of R31, the
return state of a line under test, and no change of the lit set, the mark or the condition record (R36, R37, R39). -/
def Obligations.ServeSuspendAndClearFaultByState : Prop :=
  ∀ (s : State) (f : Frame) (w : Word16), f.args = [w] → s.Accepts f 1 →
    (24 ≤ (w.extractLsb' 0 5).toNat →
      s.Leaves (.serveLine f) s (.ready [echoed 0x0D .badArgument, 0])
        ∧ s.Leaves (.suspendLine f) s (.ready [echoed 0x0E .badArgument, 0])
        ∧ s.Leaves (.clearFault f) s (.ready [echoed 0x10 .badArgument, 0]))
      ∧ ∀ n : LineNo, (w.extractLsb' 0 5).toNat = n.val →
        let l := s.line n
        let refused := fun (c : Instr) (code : Byte) =>
          ∃ a : Word16, l.ToldBy a ∧ s.Leaves c s (.ready [echoed code .wrongState, a])
        let done := fun (c : Instr) (code : Byte) (m : Line) (u : State) =>
          ∃ a : Word16, m.ToldBy a ∧ s.Leaves c u (.ready [echoed code .ok, a])
        let written := fun (m : Line) => { s with lines := s.lines.set n m }
        (l.state ≠ .rest .suspended → refused (.serveLine f) 0x0D)
          ∧ (l.state = .rest .suspended → l.attached.Nodup → ∃ t : State,
            done (.serveLine f) 0x0D { l with state := .rest .inService } t
            ∧ s.EntersService t n
            ∧ t = { written { l with state := .rest .inService } with slots := t.slots, meter := t.meter }
            ∧ t.litSet = s.litSet ∧ t.load = s.load)
          ∧ (l.state ≠ .rest .inService → l.state ≠ .underTest .inService → refused (.suspendLine f) 0x0E)
          ∧ (l.state = .underTest .inService →
            let m : Line := { l with state := .underTest .suspended }
            done (.suspendLine f) 0x0E m (written m))
          ∧ (l.state = .rest .inService → l.attached.Nodup → ∃ t : State,
            done (.suspendLine f) 0x0E { l with state := .rest .suspended } t
            ∧ s.LeavesService t n
            ∧ t = { written { l with state := .rest .suspended } with slots := t.slots, meter := t.meter }
            ∧ t.litSet = s.litSet ∧ t.load = s.load)
          ∧ (l.state ≠ .rest .faulted → refused (.clearFault f) 0x10)
          ∧ (l.state = .rest .faulted →
            let m : Line := { l with state := .rest .dark, shed := none }
            done (.clearFault f) 0x10 m (written m))

/-- DARKEN LINE by the line's state: the mark goes; a lit line becomes DARK, or its return state does, and leaves the
lit set with a new power-chain image and a dispatch retry; a line that was IN_SERVICE moves its records (R38, R32). -/
def Obligations.DarkenLineByState : Prop :=
  ∀ (s : State) (f : Frame) (w : Word16), f.args = [w] → s.Accepts f 1 →
    (24 ≤ (w.extractLsb' 0 5).toNat → s.Leaves (.darkenLine f) s (.ready [echoed 0x0F .badArgument, 0]))
      ∧ ∀ n : LineNo, (w.extractLsb' 0 5).toNat = n.val →
        let l := s.line n
        let answered := fun (u : State) (r : ResultCode) =>
          ∃ a : Word16, (u.line n).ToldBy a ∧ s.Leaves (.darkenLine f) u (.ready [echoed 0x0F r, a])
        let written := fun (st : LineState) => { s with lines := s.lines.set n { l with state := st, shed := none } }
        let unlit := fun (st : LineState) => { written st with power := s.power.command (written st).litSet }
        ((l.state = .rest .faulted ∨ l.state = .underTest .faulted
            ∨ ((l.state = .rest .dark ∨ l.state = .underTest .dark) ∧ l.shed = none)) → answered s .wrongState)
          ∧ ((l.state = .rest .dark ∨ l.state = .underTest .dark) → l.shed ≠ none → answered (written l.state) .ok)
          ∧ (l.state = .rest .suspended → answered (unlit (.rest .dark)).dispatchRetry .ok)
          ∧ ((l.state = .underTest .suspended ∨ l.state = .underTest .inService) →
            answered (unlit (.underTest .dark)).dispatchRetry .ok)
          ∧ (l.state = .rest .inService → l.attached.Nodup → ∃ u,
            s.LeavesService u n
              ∧ u = { unlit (.rest .dark) with slots := u.slots, meter := u.meter }
              ∧ answered u.dispatchRetry .ok)

/-! ### Tests (chapters 6 and 7) -/

/-- A dispatch retry takes the queue's head when no test is in flight, the level is 0 and the load plus the head cost is
within Budget[0], and otherwise does nothing; a dispatch saves the return state, keeps the mark and the lit set, powers
the head, commands the line's relay image, enters CONNECT, and takes an IN_SERVICE line out of service (R121, R122). -/
def Obligations.DispatchTakesTheQueueHead : Prop :=
  ∀ s : State,
    (s.tests.queue = [] → s.dispatchRetry = s)
      ∧ ∀ e rest, s.tests.queue = e :: rest →
        ((s.tests.current ≠ none ∨ s.ladder.level ≠ 0 ∨ s.settings.budget[0] < s.load + s.settings.headCost) →
            s.dispatchRetry = s)
          ∧ (s.tests.current = none → s.ladder.level = 0 → s.load + s.settings.headCost ≤ s.settings.budget[0] →
            ∀ r, (s.line e.line).state = .rest r →
            let t := s.dispatchRetry
            t = { s with
                slots := t.slots
                meter := t.meter
                lines := s.lines.set e.line { s.line e.line with state := .underTest r }
                relay := s.relay.command (BitVec.twoPow 24 e.line.val)
                head := { s.head with headen := true }
                tests := ⟨rest, some ⟨e, .connect, Vector.replicate 7 none, false, none, none, none⟩⟩ }
              ∧ (r = .inService → (s.line e.line).attached.Nodup → s.LeavesService t e.line)
              ∧ (r ≠ .inService → t.slots = s.slots ∧ t.meter = s.meter)
              ∧ t.litSet = s.litSet
              ∧ (s.head.headen = false → t.load = s.load + s.settings.headCost))

/-- REQUEST TEST is refused in the order of R119; otherwise the entry, with its tone values clamped, joins the tail, a
dispatch retry follows, and the answer carries the entry's position, 0 when the retry dispatched it, and the tone values
as stored. -/
def Obligations.RequestTestQueuesAndRetries : Prop :=
  ∀ (s : State) (f : Frame) (w1 w2 w3 w4 : Word16), f.args = [w1, w2, w3, w4] → s.Accepts f 4 →
    let k := (w1.extractLsb' 0 5).toNat
    let items := w1.extractLsb' 9 7
    let asked := w1.getLsbD 8
    let refused := fun (r : ResultCode) =>
      s.Leaves (.requestTest f) s (.ready [echoed 0x12 r])
    (24 ≤ k ∨ (items = 0 ∧ asked = false) → refused .badArgument)
      ∧ ∀ n : LineNo, k = n.val → (items ≠ 0 ∨ asked = true) →
        let taken := (∃ e ∈ s.tests.queue, e.line = n) ∨ ∃ r, (s.line n).state = .underTest r
        (taken → refused .duplicate)
          ∧ (¬ taken → 8 ≤ s.tests.queue.length → refused .queueFull)
          ∧ (¬ taken → s.tests.queue.length < 8 →
            let clamp := fun (lo hi v : Nat) => if v < lo then lo else if hi < v then hi else v
            let v : ToneVals := ⟨clamp 24 4999 w2.toNat, clamp 1 50 (w3.extractLsb' 8 8).toNat,
              clamp 1 50 (w3.extractLsb' 0 8).toNat, clamp 1 600 w4.toNat⟩
            let e : TestEntry := ⟨n, items, if asked then some v else none, (w1.extractLsb' 5 2).toFin, w1.getLsbD 7⟩
            let t := { s with tests := { s.tests with queue := s.tests.queue ++ [e] } }.dispatchRetry
            ∃ a2 a3 a4 a5 : Word16,
              s.Leaves (.requestTest f) t (.ready [echoed 0x12 .ok, a2, a3, a4, a5])
                ∧ a2.toNat = t.tests.queue.length
                ∧ (t.tests.queue = [] → t.tests.current.map Test.entry = some e)
                ∧ (t.tests.queue ≠ [] → t.tests.queue.getLast? = some e)
                ∧ (asked = false → a3 = 0 ∧ a4 = 0 ∧ a5 = 0)
                ∧ (asked = true → a3.toNat = v.reload ∧ (a4.extractLsb' 8 8).toNat = v.on
                  ∧ (a4.extractLsb' 0 8).toNat = v.off ∧ a5.toNat = v.duration))

/-- CANCEL TEST removes a queued entry, aborts with cause HOST a test on the line that holds its pair, is refused
WRONG_STATE in DISCONNECT and EVALUATE, and UNKNOWN otherwise; an abort drops HEADEN and the head's work, commands the
all-off image, enters DISCONNECT and keeps the results handed over (R120, R125, R106). -/
def Obligations.CancelTestRemovesOrAborts : Prop :=
  ∀ (s : State) (f : Frame) (w : Word16), f.args = [w] → s.Accepts f 1 →
    let answered := fun (u : State) (r : ResultCode) =>
      s.Leaves (.cancelTest f) u (.ready [echoed 0x13 r])
    (24 ≤ (w.extractLsb' 0 5).toNat → answered s .badArgument)
      ∧ ∀ n : LineNo, (w.extractLsb' 0 5).toNat = n.val →
        ((∃ e ∈ s.tests.queue, e.line = n) →
            answered { s with tests := { s.tests with queue := s.tests.queue.filter fun e => e.line != n } } .ok)
          ∧ ((∀ e ∈ s.tests.queue, e.line ≠ n) →
            (∀ x, s.tests.current = some x → x.entry.line = n →
              (x.stage ≠ .disconnect → x.stage ≠ .evaluate → answered (s.aborted x .host) .ok)
                ∧ ((x.stage = .disconnect ∨ x.stage = .evaluate) → answered s .wrongState))
              ∧ ((∀ x, s.tests.current = some x → x.entry.line ≠ n) → answered s .unknown))
          ∧ ∀ x, s.head.headen = true → (s.aborted x .host).load + s.settings.headCost = s.load

/-- Both chains latch what they shift and go on with the pending image; after the last command of an idle chain two
strobes at most leave it latched; a settle wait of the length then set begins at the latch of the closing image in
CONNECT and of the all-off image in DISCONNECT, and at no other latch (R33, R99, R101). A shift presents bit 23 first and
bit 0 last, then the strobe, so drivers that shift the bits in latch the image shifted (R176). A strobe while nothing is
shifted changes nothing by the model's choice (log entry 4). -/
def Obligations.ChainsLatchAndSettleWaitsBegin : Prop :=
  (∀ (s : State) (i : Image), s.hold = none → s.power.shifting = some i →
      exec .powerChainLatch s = .next { s with power := ⟨s.power.commanded, i, s.power.pending, none⟩ })
    ∧ (∀ s : State, s.power.shifting = none → exec .powerChainLatch s = .next s)
    ∧ (∀ s : State, s.relay.shifting = none → exec .relayLatchCompletion s = .next s)
    ∧ (∀ (s : State) (i : Image), s.hold = none → s.relay.shifting = some i →
      let latched := { s with relay := ⟨s.relay.commanded, i, s.relay.pending, none⟩ }
      (s.tests.current = none → exec .relayLatchCompletion s = .next latched)
        ∧ ∀ x, s.tests.current = some x →
          let begins := x.settle = none ∧ ((x.stage = .connect ∧ i.getLsbD x.entry.line.val = true)
            ∨ (x.stage = .disconnect ∧ i = 0))
          (begins → exec .relayLatchCompletion s = .next { latched with
              tests := { s.tests with current := some { x with settle := some s.settings.relaySettle } } })
            ∧ (¬ begins → exec .relayLatchCompletion s = .next latched))
    ∧ (∀ (c : Chain) (i j : Image), c.shifting = none → c.pending = none →
      (c.command i).shifting = some i
        ∧ (c.command i).strobe = ⟨i, i, none, none⟩
        ∧ ((c.command i).command j).strobe = ⟨j, i, some j, none⟩
        ∧ ((c.command i).command j).strobe.strobe = ⟨j, j, none, none⟩)
    ∧ (∀ c : Chain, c.shifting = none → c.signals = [])
    ∧ (∀ (c : Chain) (i r : Image), c.shifting = some i →
      c.signals.length = 25
        ∧ (∀ k < 24, c.signals[k]? = some (.bit (i.getLsbD (23 - k))))
        ∧ c.signals[24]? = some .strobe
        ∧ (∀ d ∈ c.signals.dropLast.inits, (d.foldl driveSignal (r, c.latched)).2 = c.latched)
        ∧ (c.signals.foldl driveSignal (r, c.latched)).2 = c.strobe.latched)

/-- The settle expiry of CONNECT starts the first requested item; that of DISCONNECT enters EVALUATE, where each kept
result is judged against its window and the first case of Table 53 gives the verdict (R101, R123, R124, R127 to R129). A settle
expiry while no wait runs changes nothing by the model's choice (log entry 4). -/
def Obligations.SettleExpiryStartsItemsOrEvaluates : Prop :=
  ∀ (s : State) (x : Test), s.hold = none → s.tests.current = some x →
    (x.settle = none → exec .relaySettleExpiry s = .next s)
      ∧ (x.settle ≠ none → x.stage = .connect → ∃ t, exec .relaySettleExpiry s = .next t ∧ s.GoesOn t x 0)
      ∧ (x.settle ≠ none → x.stage = .disconnect → ∃ (v : TestVerdict) (j : Vector (Option Judged) 7),
        exec .relaySettleExpiry s = .next { s with tests := { s.tests with
            current := some { x with stage := .evaluate, settle := none, evaluation := some ⟨v, j⟩ } } }
          ∧ (∀ k : Fin 7, (x.results[k] = none → j[k] = none)
            ∧ ∀ r, x.results[k] = some r → ∃ g, j[k] = some ⟨r, g⟩
              ∧ (s.settings.limits[x.entry.limitSet][k]).Judges r.value g)
          ∧ (x.abort ≠ none → v = .aborted)
          ∧ (x.abort = none →
            let fault := ∃ (k : Fin 7) (q : Judged), j[k] = some q ∧ q.result.headFault = true
            let fails := fun (sev : Severity) => ∃ (k : Fin 7) (q : Judged), j[k] = some q ∧ q.judgement = .fail sev
            (fault → v = .inconclusive)
              ∧ (¬ fault → fails .faulty → v = .faulty)
              ∧ (¬ fault → ¬ fails .faulty → fails .marginal → v = .marginal)
              ∧ (¬ fault → ¬ fails .faulty → ¬ fails .marginal → v = .good)))

/-- The head's steps inside a measurement or tone: each path settle begins the method of its item, samples and
oscillator edges accumulate, the reference gate leads to the pair path, the charge ends at an edge or at the timeout,
and the cadence toggles (R104, R107 to R109, R111, R114); the tone output carries the square wave of 500,000 /
(reload + 1) Hz while the tone is on, and no wave while it is low (R113). That the seven expiries, edges and timeouts named
last change nothing while the head is IDLE is the model's choice (log entry 4). -/
def Obligations.HeadStepsThroughEachMethod : Prop :=
  ∀ s : State, s.hold = none →
    let head := fun (h : Head) => { s with head := h }
    (∀ (i : VoltItem) (c : Bool), s.head.phase = .pathSettle (.volt i) →
        exec (.pathSettleExpiry c) s = .next (head { s.head with phase := .sampling i ⟨0, 0, 1023, 0⟩ }))
      ∧ (∀ (w : ResWork) (c : Bool), s.head.phase = .pathSettle (.resReference w) →
        exec (.pathSettleExpiry c) s = .next (head { s.head with phase := .refGate w, osc := 0 }))
      ∧ (∀ (w : ResWork) (k : Nat) (c : Bool), s.head.phase = .pathSettle (.resPair w k) →
        exec (.pathSettleExpiry c) s = .next (head { s.head with phase := .pairGate w k, osc := 0 }))
      ∧ (∀ kc, s.head.phase = .pathSettle (.cap kc) →
        exec (.pathSettleExpiry false) s = .next (head { s.head with phase := .charge kc, timer := 0, tchg := true })
          ∧ exec (.pathSettleExpiry true) s = .next (head { s.head with
            phase := .discharge kc .alreadyHigh, timer := 0, tchg := false }))
      ∧ (∀ (v : ToneVals) (c : Bool), s.head.phase = .pathSettle (.tone v) →
        exec (.pathSettleExpiry c) s = .next (head { s.head with phase := .toneOn v, tone := true }))
      ∧ (∀ (i : VoltItem) (codes : List (BitVec 10)), s.head.phase = .sampling i ⟨0, 0, 1023, 0⟩ →
        codes.length < (if i = .vac then 64 else 8) → s.runs (codes.map Instr.converterSample) = .next (head { s.head with
          phase := .sampling i ⟨codes.length, (codes.map BitVec.toNat).sum, (codes.map BitVec.toNat).foldl min 1023,
            (codes.map BitVec.toNat).foldl max 0⟩ }))
      ∧ (∀ (n : Nat), ((∃ w, s.head.phase = .refGate w) ∨ ∃ w k, s.head.phase = .pairGate w k) → s.head.osc ≤ 1048575 →
        s.runs (List.replicate n .oscillatorEdge) = .next (head { s.head with osc := min 1048575 (s.head.osc + n) }))
      ∧ (∀ w, s.head.phase = .refGate w → exec .referenceGateExpiry s = .next (head { s.head with
        phase := .pathSettle (.resPair w s.head.osc)
        path := match w.item with
          | .risTg => .tgRes
          | .risRg => .rgRes
          | .rloop => .trRes }))
      ∧ (∀ (kc : Nat) (k : Word16), s.head.phase = .charge kc →
        exec (.capinEdge k) s = .next (head { s.head with
            phase := .discharge kc (.edge k.toNat), tchg := false, timer := k.toNat })
          ∧ exec .captureTimeout s = .next (head { s.head with
            phase := .discharge kc .timeout, tchg := false, timer := 65535 })
          ∧ s.runs [.capinEdge k, .captureTimeout] = exec (.capinEdge k) s
          ∧ s.runs [.captureTimeout, .capinEdge k] = exec .captureTimeout s)
      ∧ (∀ v, s.head.phase = .toneOn v →
        exec .cadenceExpiry s = .next (head { s.head with phase := .toneOff v, tone := false }))
      ∧ (∀ v, s.head.phase = .toneOff v →
        exec .cadenceExpiry s = .next (head { s.head with phase := .toneOn v, tone := true }))
      ∧ (∀ v, s.head.phase = .toneOn v → s.head.tone = true →
        s.head.toneHertz = some ((500000 : Rat) / ((v.reload : Rat) + 1)))
      ∧ (s.head.tone = false → s.head.toneHertz = none)
      ∧ (s.head.phase = .idle → ∀ c ∈ [Instr.oscillatorEdge, .referenceGateExpiry, .pairGateExpiry, .captureTimeout,
          .dischargeExpiry, .cadenceExpiry, .toneDurationExpiry], exec c s = .next s)

/-- The completion of a measurement hands over its result record, which the test keeps, rests the head and goes on with
the next requested item: the values and flags of R107, R108, Table 44 and Table 45; the tone's completion is reported as
played and enters DISCONNECT (R103, R105, R107, R108, R110, R112, R114, R123). -/
def Obligations.MeasurementsCompleteWithTheirResults : Prop :=
  ∀ (s : State) (x : Test), s.hold = none → s.tests.current = some x →
    let rested := { s with head := s.head.resting }
    let completes := fun (c : Instr) (m : Meas) (r : Result) => ∃ t, exec c s = .next t
      ∧ rested.GoesOn t { x with results := x.results.set m.number (some r) } (m.number.val + 1)
    (∀ (i : VoltItem) (a : Samples) (code : BitVec 10), s.head.phase = .sampling i a →
        (i ≠ .vac → 8 ≤ a.count + 1 →
          let avg := (a.sum + code.toNat) / 8
          completes (.converterSample code) i.meas
            ⟨some ((((avg : Int) - 512) * 2500).tdiv 512), avg == 0 || avg == 1023, false⟩)
          ∧ (i = .vac → 64 ≤ a.count + 1 →
            let v := (max a.most code.toNat - min a.least code.toNat) * 1250 / 512
            completes (.converterSample code) .vac
              (if 2495 < v then ⟨some 2495, true, false⟩ else ⟨some (v : Int), false, false⟩)))
      ∧ (∀ (w : ResWork) (nref : Nat), s.head.phase = .pairGate w nref →
        let nx := s.head.osc
        completes .pairGateExpiry w.item.meas
          (if nref = 0 then ⟨none, false, true⟩
            else if nx = 0 then ⟨some 10000000, true, false⟩
            else if 10000000 < w.rref * nref / nx then ⟨some 10000000, true, false⟩
            else ⟨some ((w.rref * nref / nx : Nat) : Int), nref == 1048575 || nx == 1048575, false⟩))
      ∧ (∀ kc, (s.head.phase = .discharge kc .alreadyHigh → completes .dischargeExpiry .cap ⟨none, false, true⟩)
        ∧ (s.head.phase = .discharge kc .timeout →
          completes .dischargeExpiry .cap ⟨some ((65535 * kc / 256 : Nat) : Int), true, false⟩)
        ∧ ∀ k, s.head.phase = .discharge kc (.edge k) →
          completes .dischargeExpiry .cap ⟨some ((k * kc / 256 : Nat) : Int), false, false⟩)
      ∧ (∀ v, (s.head.phase = .toneOn v ∨ s.head.phase = .toneOff v) →
        let done := { s with
          head := s.head.unpowered
          relay := s.relay.command 0
          tests := { s.tests with current := some { x with stage := .disconnect, settle := none, tonePlayed := true } } }
        exec .toneDurationExpiry s = .next done
          ∧ s.runs [.toneDurationExpiry, .cadenceExpiry] = .next done
          ∧ s.runs [.cadenceExpiry, .toneDurationExpiry] = .next done)

/-- The test completion writes the condition record, then the line's new state by Table 54 with its moves and hand-ons,
discards the test, raises TEST_DONE, and LINE_FAULTED where auto-hold holds the line, and makes a dispatch retry; a
minute-tick expiry ages every present condition record by one, saturating, and changes nothing else (R130 to R133). -/
def Obligations.TestCompletionWritesConditionAndState : Prop :=
  (∀ (s : State) (x : Test) (v : Evaluation) (ret : RestState), s.hold = none → s.tests.current = some x →
    x.evaluation = some v → (s.line x.entry.line).state = .underTest ret →
    let n := x.entry.line
    let l := s.line n
    let holds := v.verdict = .faulty ∧ x.entry.autoHold = true
    let new := if holds then .faulted
      else if ret = .faulted then (if v.verdict = .good ∨ v.verdict = .marginal then .dark else .faulted)
      else ret
    let dropped := (ret = .suspended ∨ ret = .inService) ∧ holds
    ∃ u, exec .testCompletion s = .next u.dispatchRetry
      ∧ u = { s with
        slots := u.slots
        meter := u.meter
        lines := s.lines.set n { l with
          state := .rest new
          shed := if ¬ holds ∧ ret = .dark then l.shed else none
          condition := some ⟨v.verdict, x.abort, x.entry.limitSet, v.judged, x.tonePlayed, 0⟩ }
        power := if dropped then s.power.command u.litSet else s.power
        tests := { s.tests with current := none }
        events := { s.events with pending := s.events.pending ||| (if holds then 0x003 else 0x001) } }
      ∧ (new = .inService → l.attached.Nodup → s.EntersService u n)
      ∧ (new ≠ .inService → u.slots = s.slots ∧ u.meter = s.meter)
      ∧ (¬ dropped → u.litSet = s.litSet)
      ∧ (dropped → u.load + s.settings.cost[n] = s.load))
    ∧ ∀ s : State, s.hold = none → ∃ t, exec .minuteTickExpiry s = .next t
      ∧ t = { s with lines := t.lines }
      ∧ ∀ n, t.line n = { s.line n with condition := (s.line n).condition.map fun c =>
        { c with age := if c.age < 65535 then c.age + 1 else 65535 } }

/-! ### The power ladder (chapter 8) -/

/-- A one-second tick counts, and at the sample period begins a sample with T4; the three comparisons search the band
with T4, then T2 or T6, then T1, T3, T5 or T7, each above when BSENSE exceeds the threshold's code times 25 mV; with
ascending thresholds the band is the number that a steady voltage exceeds (R136, R137). That a tick which
meets a sample in progress begins a new one is the model's choice (log entry 18). -/
def Obligations.ThreeComparisonsFindTheBand : Prop :=
  (∀ s : State, s.hold = none →
      (s.ladder.count + 1 < s.settings.samplePeriod → exec .oneSecondTickExpiry s = .next { s with
          ladder := { s.ladder with count := s.ladder.count + 1 } })
        ∧ (s.settings.samplePeriod ≤ s.ladder.count + 1 → exec .oneSecondTickExpiry s = .next { s with
          ladder := { s.ladder with count := 0, sampler := .compare1 s.settings.thresholds[3] } }))
    ∧ (∀ (s : State) (code v : Nat), s.hold = none → s.ladder.sampler = .compare1 code →
      exec (.comparisonSettleExpiry v) s = .next { s with ladder := { s.ladder with
        sampler := if code * 25000 < v then (.compare2 true s.settings.thresholds[5])
          else (.compare2 false s.settings.thresholds[1]) } })
    ∧ (∀ (s : State) (b2 : Bool) (code v : Nat), s.hold = none → s.ladder.sampler = .compare2 b2 code →
      exec (.comparisonSettleExpiry v) s = .next { s with ladder := { s.ladder with
        sampler := .compare3 b2 (decide (code * 25000 < v)) (if b2 then
            (if code * 25000 < v then s.settings.thresholds[6] else s.settings.thresholds[4])
          else (if code * 25000 < v then s.settings.thresholds[2] else s.settings.thresholds[0])) } })
    ∧ (∀ (s : State) (b2 b1 mains : Bool) (code v : Nat), s.hold = none → s.ladder.sampler = .compare3 b2 b1 code →
      ∃ t, exec (.sampleEnd v mains) s = .next t
        ∧ t.ladder.band.val
          = (if b2 then 4 else 0) + (if b1 then 2 else 0) + (if code * 25000 < v then 1 else 0))
    ∧ (∀ (s : State) (v : Nat) (mains : Bool), s.hold = none → s.ladder.sampler = .compare1 s.settings.thresholds[3] →
      (∀ j k : Fin 7, j ≤ k → s.settings.thresholds[j] ≤ s.settings.thresholds[k]) →
      ∃ t, s.runs [.comparisonSettleExpiry v, .comparisonSettleExpiry v, .sampleEnd v mains] = .next t
        ∧ t.ladder.band.val = (List.finRange 7).countP fun k => decide (s.settings.thresholds[k] * 25000 < v))

/-- The sample end keeps the band, MAINS and target, counts rises and falls, and at the count, or at the initial sample,
changes the level with both counters cleared; a level left as it was runs the relight pass, a fall runs the overload
check, the relight pass, LEVEL_CHANGED and a retry, a rise aborts a powered test and sheds the lit lines of a class
within the level before the same check, event and retry (R138 to R140, R146, R147). -/
def Obligations.SampleEndFollowsTheTarget : Prop :=
  ∀ (s : State) (b2 b1 mains : Bool) (code v : Nat), s.hold = none → s.ladder.sampler = .compare3 b2 b1 code →
    let band := bandOf b2 b1 (decide (code * 25000 < v))
    let target := if mains then 0 else s.settings.bandMap[band]
    let after := fun (level : Level) (rise fall : Nat) => { s with
      ladder := ⟨level, band, mains, target, true, rise, fall, s.ladder.count, .idle⟩ }
    let level := s.ladder.level
    let told := fun (u : State) => { u with events := { u.events with pending := u.events.pending ||| 0x004 } }
    let kept := fun (rise fall : Nat) => exec (.sampleEnd v mains) s = .next (after level rise fall).relightPass
    let fell := exec (.sampleEnd v mains) s = .next (told (after target 0 0).overloadCheck.relightPass).dispatchRetry
    (s.ladder.sampled = false → target = 3 → kept s.ladder.rise s.ladder.fall)
      ∧ (s.ladder.sampled = false → target < 3 → fell)
      ∧ (s.ladder.sampled = true → target = level → kept 0 0)
      ∧ (s.ladder.sampled = true → target < level → s.ladder.fall + 1 < s.settings.fallCount →
        kept 0 (s.ladder.fall + 1))
      ∧ (s.ladder.sampled = true → target < level → s.settings.fallCount ≤ s.ladder.fall + 1 → fell)
      ∧ (s.ladder.sampled = true → level < target → s.ladder.rise + 1 < s.settings.riseCount →
        kept (s.ladder.rise + 1) 0)
      ∧ (s.ladder.sampled = true → level < target → s.settings.riseCount ≤ s.ladder.rise + 1 →
        ∃ u : State, exec (.sampleEnd v mains) s = .next (told u.overloadCheck).dispatchRetry
          ∧ u.ladder = (after target 0 0).ladder
          ∧ (s.head.headen = false → u.head = s.head ∧ u.tests = s.tests ∧ u.relay = s.relay)
          ∧ (s.head.headen = true → ∀ x, s.tests.current = some x →
            u.head = s.head.unpowered ∧ u.relay = s.relay.command 0 ∧ u.tests = (s.aborted x .power).tests)
          ∧ (∀ n, u.line n
            = if s.lit n = true ∧ s.settings.shedClass[n] ≤ target.val then (s.line n).shedOf else s.line n)
          ∧ (∀ i, u.slot i = if ∃ n, (s.line n).state = .rest .inService ∧ s.settings.shedClass[n] ≤ target.val
              ∧ i ∈ s.movedOut n then (s.slot i).moveState .standby else s.slot i)
          ∧ u.events = { s.events with pending := s.events.pending
            ||| (if ∃ n, s.lit n = true ∧ s.settings.shedClass[n] ≤ target.val then 0x008 else 0) }
          ∧ u = { s with slots := u.slots, meter := u.meter, lines := u.lines, power := u.power, relay := u.relay
                         head := u.head, tests := u.tests, ladder := u.ladder, events := u.events })

/-- The overload check does nothing within the budget; above it, it aborts a powered test with cause POWER, or else
sheds the lit line of the lowest shed class and, within it, of the highest number, and goes on; it always ends with the
load within the budget. A shed darkens a lit line, or the return state of one under test, marks it with the state it
had, and hands on a new power-chain image, LINE_SHED and, from IN_SERVICE, the record moves (R29, R142, R143). -/
def Obligations.OverloadCheckRestoresTheBudget : Prop :=
  (∀ s : State, s.settings.InRange →
    (s.load ≤ s.budgetNow → s.overloadCheck = s)
      ∧ (s.budgetNow < s.load → s.head.headen = true → ∀ x, s.tests.current = some x →
        s.overloadCheck = (s.aborted x .power).overloadCheck)
      ∧ (s.budgetNow < s.load → s.head.headen = false → ∀ n, s.lit n = true →
        (∀ m, s.lit m = true → s.settings.shedClass[n] < s.settings.shedClass[m]
          ∨ (s.settings.shedClass[n] = s.settings.shedClass[m] ∧ m ≤ n)) →
        s.overloadCheck = (s.shedLine n).overloadCheck)
      ∧ s.overloadCheck.load ≤ s.overloadCheck.budgetNow)
    ∧ ∀ (s : State) (n : LineNo), s.lit n = true → s.NoDispatch →
    let t := s.shedLine n
    t = { s with
        slots := t.slots
        meter := t.meter
        lines := s.lines.set n (s.line n).shedOf
        power := s.power.command t.litSet
        events := { s.events with pending := s.events.pending ||| 0x008 } }
      ∧ ((s.line n).state = .rest .inService → (s.line n).attached.Nodup → s.LeavesService t n)
      ∧ ((s.line n).state ≠ .rest .inService → t.slots = s.slots ∧ t.meter = s.meter)
      ∧ (∀ m, t.lit m = (s.lit m && m != n))
      ∧ t.load + s.settings.cost[n] = s.load

/-- The relight pass visits the marked DARK lines of a class above the level in descending class and ascending number,
and relights exactly those whose cost fits beside the lines relit before them; it changes no other line, raises no event
and leaves the load within the budget (R145). -/
def Obligations.RelightPassFillsTheBudgetInOrder : Prop :=
  ∀ s : State, s.settings.InRange →
    let t := s.relightPass
    let relit := fun (n : LineNo) => s.Candidate n ∧ t.line n = (s.line n).relitOf
    (∀ n, relit n ∨ t.line n = s.line n)
      ∧ (∀ n, s.Candidate n → (relit n ↔
        s.load + ((List.finRange 24).map fun m =>
            if s.lit m = false ∧ t.lit m = true ∧ s.Before m n then s.settings.cost[m] else 0).sum
          + s.settings.cost[n] ≤ s.budgetNow))
      ∧ t.load = s.load + ((List.finRange 24).map fun m =>
          if s.lit m = false ∧ t.lit m = true then s.settings.cost[m] else 0).sum
      ∧ (s.load ≤ s.budgetNow → t.load ≤ t.budgetNow)
      ∧ t = { s with slots := t.slots, meter := t.meter, lines := t.lines, power := t.power }

/-! ### Status, events and settings (chapters 9 to 11) -/

/-- FORCE CHECK ERROR arms the next code write; ACKNOWLEDGE EVENTS clears the flags named and SET EVENT MASK replaces the
mask whole, each answering the word that then stands; ATTN is high while a pending event is enabled, and an event raised
sets its flag whether or not it is enabled (R10, R162 to R164). -/
def Obligations.EventCommandsAndAttention : Prop :=
  (∀ (s : State) (f : Frame), s.Accepts f 0 →
      s.Leaves (.forceCheckError f) { s with armed := true } (.ready [echoed 0x0A .ok]))
    ∧ (∀ (s : State) (f : Frame) (w : Word16), f.args = [w] → s.Accepts f 1 → ∃ t : State,
      s.Leaves (.acknowledgeEvents f) t (.ready [echoed 0x17 .ok, 0#7 ++ t.events.pending])
      ∧ t = { s with events := { s.events with pending := t.events.pending } }
      ∧ ∀ k < 9, t.events.pending.getLsbD k = (s.events.pending.getLsbD k && !w.getLsbD k))
    ∧ (∀ (s : State) (f : Frame) (w : Word16), f.args = [w] → s.Accepts f 1 → ∃ t : State,
      s.Leaves (.setEventMask f) t (.ready [echoed 0x18 .ok, 0#7 ++ t.events.mask])
      ∧ t = { s with events := { s.events with mask := t.events.mask } }
      ∧ ∀ k < 9, t.events.mask.getLsbD k = w.getLsbD k)
    ∧ (∀ s : State, s.attn = true ↔ ∃ k < 9, s.events.pending.getLsbD k = true ∧ s.events.mask.getLsbD k = true)
    ∧ (∀ (s : State) (e : Event) (k : Nat), k < 9 →
      (s.raise e).events.pending.getLsbD k = (s.events.pending.getLsbD k || k == e.number))

/-- READ STATUS and READ LADDER change nothing but the port and answer each item of Table 79 and Table 80 in its place
(R149, R165). -/
def Obligations.StatusAndLadderAreReadWhole : Prop :=
  ∀ (s : State) (f : Frame), s.Accepts f 0 → s.CountersInRange → s.SumsWell → s.settings.InRange →
    (∃ a2 a3 a4 a5 a6 a7 a8 a9 a10 a11 a12 a13 : Word16,
        s.Leaves (.readStatus f) s (.ready [echoed 0x16 .ok, a2, a3, a4, a5, a6, a7, a8, a9, a10, a11, a12, a13])
          ∧ (a2 = 0#7 ++ s.events.pending ∧ a3 = 0#7 ++ s.events.mask)
          ∧ ((a4.extractLsb' 12 4).toNat = s.tests.queue.length
            ∧ (s.tests.current = none → a4.extractLsb' 8 4 = 0)
            ∧ (∀ x, s.tests.current = some x → (a4.extractLsb' 8 4).toNat = x.stage.code)
            ∧ a4.extractLsb' 6 2 = 0 ∧ (a4.extractLsb' 4 2).toNat = s.ladder.level.val
            ∧ a4.getLsbD 3 = s.armed ∧ a4.getLsbD 2 = s.link.stale
            ∧ (a4.extractLsb' 0 2).toNat = s.events.cause.code)
          ∧ (a5.toNat = s.link.capUp ∧ a6.toNat = s.link.capDown)
          ∧ ((a7 ++ a8).toNat = s.meter.sumUp ∧ (a9 ++ a10).toNat = s.meter.sumDown)
          ∧ (a11 = 0#8 ++ s.round.number ∧ a12.toNat = s.round.slips ∧ a13.toNat = s.link.unmatched))
      ∧ ∃ a2 a3 a4 a5 a6 a7 a8 a9 : Word16,
        s.Leaves (.readLadder f) s (.ready [echoed 0x15 .ok, a2, a3, a4, a5, a6, a7, a8, a9])
          ∧ (a2.extractLsb' 9 7 = 0 ∧ (a2.extractLsb' 7 2).toNat = s.ladder.target.val ∧ a2.getLsbD 6 = s.ladder.mains
            ∧ (a2.extractLsb' 3 3).toNat = s.ladder.band.val ∧ a2.getLsbD 2 = s.ladder.sampled
            ∧ (a2.extractLsb' 0 2).toNat = s.ladder.level.val)
          ∧ (a3.extractLsb' 9 7 = 0 ∧ a3.getLsbD 8 = s.head.headen ∧ (a3.extractLsb' 4 4).toNat = s.ladder.rise
            ∧ (a3.extractLsb' 0 4).toNat = s.ladder.fall)
          ∧ (a4.toNat = s.load ∧ a5.toNat = s.settings.budget[s.ladder.level])
          ∧ (∀ n : LineNo, (a6 ++ a7).getLsbD n.val = s.lit n ∧ (a8 ++ a9).getLsbD n.val = (s.line n).shed.isSome)
          ∧ a6.extractLsb' 8 8 = 0 ∧ a8.extractLsb' 8 8 = 0

/-- READ LINE changes nothing but the port and answers the line record in the 23 words of Table 78, whether or not a
condition record is present; a line of 24 or more is refused (R40, R174). In a condition record, the two words of a
measurement with no kept result read 0000h by the model's choice (log entry 27): Table 78 gives bit 15 alone. -/
def Obligations.LineRecordIsReadWhole : Prop :=
  ∀ (s : State) (f : Frame) (x : Word16), f.args = [x] → s.Accepts f 1 →
    (24 ≤ (x.extractLsb' 0 5).toNat → s.Leaves (.readLine f) s (.ready [echoed 0x11 .badArgument]))
      ∧ ∀ n : LineNo, (x.extractLsb' 0 5).toNat = n.val → (s.line n).attached.length ≤ 8 → s.settings.InRange →
        (∀ c ∈ (s.line n).condition, c.age ≤ 65535) →
        ∃ ws : List Word16, s.Leaves (.readLine f) s (.ready (echoed 0x11 .ok :: ws))
          ∧ ws.length = 22
          ∧ let w := fun (k : Nat) => (ws[k - 2]?).getD 0
            let l := s.line n
            ((w 2).getLsbD 15 = false ∧ (w 2).getLsbD 14 = s.lit n
                ∧ ((w 2).extractLsb' 12 2).toNat = preShedCode l.shed ∧ (w 2).getLsbD 11 = l.shed.isSome
                ∧ ((w 2).extractLsb' 8 3).toNat = l.state.returnCode ∧ ((w 2).extractLsb' 5 3).toNat = l.state.code
                ∧ ((w 2).extractLsb' 0 5).toNat = n.val)
              ∧ (((w 3).extractLsb' 12 4).toNat = l.attached.length ∧ (w 3).getLsbD 11 = false
                ∧ ((w 3).extractLsb' 8 3).toNat = s.settings.shedClass[n]
                ∧ ((w 3).extractLsb' 0 8).toNat = s.settings.cost[n])
              ∧ (∀ k < 4, (w (4 + k)).getLsbD 15 = false ∧ (w (4 + k)).getLsbD 7 = false
                ∧ ((w (4 + k)).extractLsb' 8 7).toNat = ((l.attached[2 * k]?).map Fin.val).getD 0
                ∧ ((w (4 + k)).extractLsb' 0 7).toNat = ((l.attached[2 * k + 1]?).map Fin.val).getD 0)
              ∧ (l.condition = none → ∀ k, 8 ≤ k → w k = 0)
              ∧ (∀ c, l.condition = some c →
                ((w 8).getLsbD 15 = true ∧ ((w 8).extractLsb' 12 3).toNat = c.verdict.code
                    ∧ ((w 8).extractLsb' 10 2).toNat = causeCode c.cause
                    ∧ ((w 8).extractLsb' 8 2).toNat = c.limitSet.val ∧ (w 8).getLsbD 7 = c.tonePlayed
                    ∧ (w 8).extractLsb' 0 7 = 0)
                  ∧ (w 9).toNat = c.age
                  ∧ ∀ k : Fin 7, (c.results[k] = none → w (10 + 2 * k.val) = 0 ∧ w (11 + 2 * k.val) = 0)
                    ∧ ∀ q, c.results[k] = some q →
                      (w (10 + 2 * k.val)).getLsbD 15 = true
                        ∧ (w (10 + 2 * k.val)).getLsbD 14 = q.result.saturated
                        ∧ (w (10 + 2 * k.val)).getLsbD 13 = q.result.headFault
                        ∧ ((w (10 + 2 * k.val)).extractLsb' 11 2).toNat = q.judgement.code
                        ∧ (w (10 + 2 * k.val)).extractLsb' 9 2 = 0
                        ∧ ((w (10 + 2 * k.val)).extractLsb' 0 9 ++ w (11 + 2 * k.val)
                          = BitVec.ofInt 25 (q.result.value.getD 0)))

/-- READ TEST QUEUE changes nothing but the port: a position above 8 is refused; otherwise seven words carry the queue's
length, the line under test and the entry at the position, with stage, cause and kept results at position 0 (R134). -/
def Obligations.TestQueueIsReadByPosition : Prop :=
  ∀ (s : State) (f : Frame) (x : Word16), f.args = [x] → s.Accepts f 1 →
    let p := (x.extractLsb' 0 4).toNat
    (9 ≤ p → s.Leaves (.readTestQueue f) s (.ready [echoed 0x14 .badArgument]))
      ∧ (p ≤ 8 → s.tests.queue.length ≤ 8 → ∃ a2 a3 a4 a5 a6 a7 : Word16,
        s.Leaves (.readTestQueue f) s (.ready [echoed 0x14 .ok, a2, a3, a4, a5, a6, a7])
          ∧ (let entry := if p = 0 then s.tests.current.map Test.entry else s.tests.queue[p - 1]?
            (a2.getLsbD 15 = entry.isSome ∧ a2.getLsbD 14 = s.tests.current.isSome ∧ a2.extractLsb' 12 2 = 0
                ∧ (a2.extractLsb' 8 4).toNat = s.tests.queue.length ∧ a2.extractLsb' 5 3 = 0)
              ∧ (s.tests.current = none → a2.extractLsb' 0 5 = 0)
              ∧ (∀ t, s.tests.current = some t → (a2.extractLsb' 0 5).toNat = t.entry.line.val)
              ∧ (entry = none → a3 = 0 ∧ a4 = 0 ∧ a5 = 0 ∧ a6 = 0 ∧ a7 = 0)
              ∧ (∀ e, entry = some e →
                (a3.extractLsb' 9 7 = e.items ∧ a3.getLsbD 8 = e.tone.isSome ∧ a3.getLsbD 7 = e.autoHold
                    ∧ (a3.extractLsb' 5 2).toNat = e.limitSet.val ∧ (a3.extractLsb' 0 5).toNat = e.line.val)
                  ∧ (∀ v, e.tone = some v → v.reload ≤ 4999 → v.on ≤ 50 → v.off ≤ 50 → v.duration ≤ 600 →
                    a4.toNat = v.reload ∧ (a5.extractLsb' 8 8).toNat = v.on ∧ (a5.extractLsb' 0 8).toNat = v.off
                      ∧ a6.toNat = v.duration))
              ∧ (p ≠ 0 → a7 = 0)
              ∧ ∀ t, p = 0 → s.tests.current = some t →
                (∀ k : Fin 7, a7.getLsbD (9 + k.val) = (t.results[k]).isSome) ∧ a7.getLsbD 8 = false
                  ∧ (a7.extractLsb' 4 4).toNat = t.stage.code
                  ∧ (a7.extractLsb' 2 2).toNat = causeCode t.abort ∧ a7.extractLsb' 0 2 = 0))

/-- WRITE SETTING clamps its value to the range of Table 67, writes that setting alone, answers the value as written,
and runs the overload check and a retry after a budget or a cost; READ SETTING answers the working copy's value; each
identifier of Table 67 names its setting, and an identifier outside the table is refused (R144, R168, R169). -/
def Obligations.SettingsAreReadAndWrittenClamped : Prop :=
  (∀ (s : State) (f : Frame) (w : Word16), f.args = [w] → s.Accepts f 1 →
      (settingOf w.toNat = none → s.Leaves (.readSetting f) s (.ready [echoed 0x19 .badArgument]))
        ∧ ∀ x, settingOf w.toNat = some x → ∃ hi lo : Word16,
          s.Leaves (.readSetting f) s (.ready [echoed 0x19 .ok, w, hi, lo])
            ∧ hi ++ lo = BitVec.ofInt 32 (s.settings.read x))
    ∧ (∀ (s : State) (f : Frame) (w w2 w3 : Word16), f.args = [w, w2, w3] → s.Accepts f 3 →
      (settingOf w.toNat = none → s.Leaves (.writeSetting f) s (.ready [echoed 0x1A .badArgument]))
        ∧ ∀ x, settingOf w.toNat = some x → ∃ (g : Settings) (u : State) (hi lo : Word16),
          s.Leaves (.writeSetting f) u (.ready [echoed 0x1A .ok, w, hi, lo])
            ∧ hi ++ lo = BitVec.ofInt 32 (g.read x)
            ∧ g.read x = max x.range.1 (min x.range.2 (x.taken (w2 ++ w3)))
            ∧ (∀ y, y ≠ x → g.read y = s.settings.read y)
            ∧ (let weighs := (∃ l, x = .budget l) ∨ (∃ n, x = .cost n) ∨ x = .headCost
              (weighs → u = { s with settings := g }.overloadCheck.dispatchRetry)
                ∧ (¬ weighs → u = { s with settings := g })))
    ∧ (∀ k : Nat, settingOf k = none ↔
      ¬ (k ≤ 27 ∨ (32 ≤ k ∧ k ≤ 55) ∨ (64 ≤ k ∧ k ≤ 87) ∨ (256 ≤ k ∧ k ≤ 383 ∧ (k - 256) % 32 < 28)))
    ∧ (∀ k : Fin 4, ∀ m : Fin 7, settingOf (256 + 32 * k.val + 4 * m.val) = some (.window k m .low)
      ∧ settingOf (256 + 32 * k.val + 4 * m.val + 1) = some (.window k m .high)
      ∧ settingOf (256 + 32 * k.val + 4 * m.val + 2) = some (.window k m .mode)
      ∧ settingOf (256 + 32 * k.val + 4 * m.val + 3) = some (.window k m .severity))
    ∧ (∀ n : LineNo, settingOf (32 + n.val) = some (.shedClass n) ∧ settingOf (64 + n.val) = some (.cost n))
    ∧ ((∀ l : Fin 4, settingOf (1 + l.val) = some (.budget l)) ∧ (∀ b : Fin 8, settingOf (5 + b.val) = some (.bandMap b))
      ∧ ∀ k : Fin 7, settingOf (13 + k.val) = some (.threshold k))
    ∧ (settingOf 0 = some .cyclePeriod ∧ settingOf 20 = some .riseCount ∧ settingOf 21 = some .fallCount
      ∧ settingOf 22 = some .samplePeriod ∧ settingOf 23 = some .relaySettle ∧ settingOf 24 = some .gateTime
      ∧ settingOf 25 = some .rref ∧ settingOf 26 = some .kc ∧ settingOf 27 = some .headCost)
    ∧ ∀ g : Settings, (g.read .cyclePeriod = g.cyclePeriod ∧ g.read .riseCount = g.riseCount
        ∧ g.read .fallCount = g.fallCount ∧ g.read .samplePeriod = g.samplePeriod
        ∧ g.read .relaySettle = g.relaySettle ∧ g.read .gateTime = g.gateTime ∧ g.read .rref = g.rref
        ∧ g.read .kc = g.kc ∧ g.read .headCost = g.headCost)
      ∧ (∀ l : Fin 4, g.read (.budget l) = g.budget[l]) ∧ (∀ b : Fin 8, g.read (.bandMap b) = (g.bandMap[b]).val)
      ∧ (∀ k : Fin 7, g.read (.threshold k) = g.thresholds[k])
      ∧ (∀ n : LineNo, g.read (.shedClass n) = g.shedClass[n] ∧ g.read (.cost n) = g.cost[n])
      ∧ ∀ (k : Fin 4) (m : Fin 7), g.read (.window k m .low) = (g.limits[k][m]).low
        ∧ g.read (.window k m .high) = (g.limits[k][m]).high
        ∧ g.read (.window k m .mode) = (match (g.limits[k][m]).mode with
          | .passInside => 0
          | .passOutside => 1
          | .ignore => 2)
        ∧ g.read (.window k m .severity) = (match (g.limits[k][m]).severity with
          | .marginal => 0
          | .faulty => 1)

/-- STORE SETTINGS erases the stored block, begins writing the working copy and puts the port in WAIT; its completion
answers the verify indicator and leaves the block passing or failing by it; a block that passes gives the working copy
back at a later reset, and one that fails, for a lost value too, gives the defaults with SETTINGS_DEFAULTED (R167, R170,
R171). The check word is held as a flag, and whether the cells held is the operand of STORE_COMPLETION (log entry 9). -/
def Obligations.StoredSettingsComeBackAtAReset : Prop :=
  (∀ (s : State) (f : Frame), s.Accepts f 0 →
      s.Leaves (.storeSettings f) { s with stored := ⟨s.settings, false⟩ } (.wait .store))
    ∧ (∀ (s : State) (held : Bool), s.hold = none → s.port.state = .wait .store → ∃ w : Word16,
      exec (.storeCompletion held) s = .next { s with
          stored := { s.stored with passes := held }
          port := { s.port with state := .ready [echoed 0x1B .ok, w] } }
        ∧ w = (if held then 1 else 0))
    ∧ (∀ s : State, exec .nonvolatileValueLoss s = .next { s with stored := { s.stored with passes := false } })
    ∧ (∀ (s : State) (f : Frame) (held : Bool), s.Accepts f 0 → s.settings.InRange →
      ∃ t, s.runs [.storeSettings f, .storeCompletion held, .pinReset, .resetnRise, .settingsLoadCompletion] = .next t
        ∧ t.settings = (if held then s.settings else defaultSettings)
        ∧ t.events.pending = (if held then 0 else 0x100))
    ∧ (∀ (s : State) (f : Frame), s.Accepts f 0 →
      ∃ t, s.runs [.storeSettings f, .pinReset, .resetnRise, .settingsLoadCompletion] = .next t
        ∧ t.settings = defaultSettings ∧ t.events.pending = 0x100)

/-! ### Resets (chapter 11) -/

/-- A reset holds every block in its reset state from its beginning, power-on, pin or RESTART alike; a reset that begins
during another joins it, the load runs once every condition has cleared, and while it lasts no other command of the
table, the two disturbances of memory apart, changes anything but chip select (R172). A power-on reset leaves the relay
chain's latched image open (R116). The model's own: every block is in its reset state while the reset lasts (log entry 20),
the open image is drawn as the reset begins (log entry 6), a power-on reset keeps the power chain's latched image (deduced,
log entry 28), and a load completion while no load runs changes nothing (log entry 4). -/
def Obligations.ResetsHoldEveryBlock : Prop :=
  (∀ s : State, s.hold = none →
      exec .pinReset s = .next (s.inReset ⟨false, true, false, s.events.cause⟩)
        ∧ (∀ f, s.Accepts f 0 → exec (.restart f) s
          = .next ({ s with port := { s.port with csLow := false } }.inReset ⟨false, false, true, .command⟩))
        ∧ ∃ r : Image, exec .powerOnReset s = .next ({ s with
          relay := { s.relay with latched := r }
          draws := s.draws + 1 }.inReset ⟨true, false, false, s.events.cause⟩))
    ∧ (∀ (s : State) (h : Hold), s.hold = some h →
      exec .pinReset s = .next (s.inReset { h with resetnLow := true, loading := false })
        ∧ (∃ r : Image, exec .powerOnReset s = .next ({ s with
          relay := { s.relay with latched := r }
          draws := s.draws + 1 }.inReset { h with supplyLow := true, loading := false }))
        ∧ (h.supplyLow = true → exec .supplyReturn s = .next { s with
          hold := some ⟨false, h.resetnLow, !h.resetnLow, .powerOn⟩ })
        ∧ (h.resetnLow = true → exec .resetnRise s = .next { s with
          hold := some ⟨h.supplyLow, false, !h.supplyLow, .pin⟩ })
        ∧ (h.loading = false → exec .settingsLoadCompletion s = .next s))
    ∧ (∀ (s : State) (h : Hold) (c : Instr), s.hold = some h → s.port.txn = none → (∀ a, c ≠ .recordDisturbance a) →
      c ≠ .nonvolatileValueLoss → (touchesReset c = false ∨ ∃ f, c = .restart f) →
      ∃ low, exec c s = .next { s with port := { s.port with csLow := low } })

/-- The end of a reset leaves every block in its reset state with the working copy just loaded, whatever the kind of
reset but for its cause: clamped stored values, or the defaults with SETTINGS_DEFAULTED; overlapping resets record the
kind whose condition cleared last (R24, R42, R56, R73, R98, R116, R117, R135, R150, R161, R166, R171 to R173). -/
def Obligations.ResetEndLeavesTheResetState : Prop :=
  (∀ (s : State) (h : Hold), s.hold = some h → h.loading = true → ∃ g : Settings,
      exec .settingsLoadCompletion s = .next (s.afterReset g h.cause)
        ∧ (s.stored.passes = false → g = defaultSettings)
        ∧ (s.stored.passes = true → ∀ x : SettingId, g.read x = max x.range.1 (min x.range.2 (s.stored.values.read x)))
        ∧ (s.stored.passes = true → s.stored.values.InRange → g = s.stored.values)
        ∧ g.InRange)
    ∧ (∀ s : State, s.hold = none →
      (∃ t, s.runs [.powerOnReset, .pinReset, .supplyReturn, .resetnRise, .settingsLoadCompletion] = .next t
          ∧ t.hold = none ∧ t.events.cause = .pin)
        ∧ (∃ t, s.runs [.powerOnReset, .pinReset, .resetnRise, .supplyReturn, .settingsLoadCompletion] = .next t
          ∧ t.hold = none ∧ t.events.cause = .powerOn)
        ∧ (∃ t, s.runs [.pinReset, .resetnRise, .settingsLoadCompletion] = .next t
          ∧ t.hold = none ∧ t.events.cause = .pin)
        ∧ ∀ f, s.Accepts f 0 → ∃ t, s.runs [.restart f, .settingsLoadCompletion] = .next t
          ∧ t.hold = none ∧ t.events.cause = .command ∧ t.port.state = .none)

/-- A record disturbance alters covered fields of a record that is not FREE, never its state or code, so that a sound
record passes from then on exactly when nothing was altered, and leaves a FREE slot alone; a line-driven move keeps the
result of the check of a record whose code agrees on the state (R4, R5). The model's own: no two contents share a code (log
entry 5), and the widths that a disturbance reaches (log entry 21). -/
def Obligations.DisturbanceAndMovesAgainstTheCheck : Prop :=
  (∀ (s : State) (a : Alteration), (s.slot a.slot).cov.state = .free → exec (.recordDisturbance a) s = .next s)
    ∧ (∀ (s : State) (a : Alteration), (s.slot a.slot).cov.state ≠ .free →
      let r := s.slot a.slot
      let c : Covered := ⟨a.tag, a.line.toNat, a.cls, r.cov.state, a.upCir.toNat, a.upPir.toNat, a.dcu.toNat,
        a.dpu.toNat, a.weight.toNat, a.downCir.toNat, a.downPir.toNat, a.dcd.toNat, a.dpd.toNat⟩
      exec (.recordDisturbance a) s = .next { s with slots := s.slots.set a.slot { r with cov := c } }
        ∧ (r.passes = true → ({ r with cov := c }.passes = true ↔ c = r.cov)))
    ∧ ∀ (r : Record) (st : RecordState), r.code.covers.state = r.cov.state →
      (r.moveState st).passes = r.passes ∧ (r.moveState st).cov.state = st

/-! ### Properties that every step keeps -/

/-- No step leaves undone what the spec makes at once (R12, R62, R69). Every step answers a next state (log entry 26) and
consumes the command at the front of the model's queue (log entry 1). -/
def Obligations.EveryStepAnswersAndLeavesNothingDue : Prop :=
  (∀ s : State, ∃ t, step s = .next t ∧ t.pending = s.pending.tail)
    ∧ ∀ s t : State, s.Settled → step s = .next t → t.Settled

/-- Every step keeps each setting, record field, counter and queue within the range that its rule gives it, and the round in
flight's account of its grants (Table 5, Table 67, R54, R58, R62, R63, R66, R67, R76, R94, R153; the widths that a
disturbance reaches are log entry 21's); what the transmitter sends is a message of eight bytes, with the start line high
with byte 0 alone (R68, R175). -/
def Obligations.EveryStepKeepsTheRanges : Prop :=
  (∀ s t : State, s.CountersInRange → s.settings.InRange → s.RoundWell → step s = .next t →
      t.CountersInRange ∧ t.settings.InRange ∧ t.RoundWell)
    ∧ ∀ (s : State) (bytes : List Byte), s.CountersInRange → s.link.sending = some bytes →
      s.link.outbound.length = 8 ∧ s.link.outbound.map Prod.snd = bytes
        ∧ ∀ k < 8, (s.link.outbound[k]?).map Prod.fst = some (k == 0)

/-- Every step keeps the record table, the attached lists and the committed sums in agreement: every slot that is not
FREE in exactly one list, records ACTIVE only on lines IN_SERVICE, the sums equal to the counted rates (R1, R3, R6, R30,
R49); no list then holds a slot twice. An ACTIVE record whose covered fields are as the part last wrote them is counted at
its stored CIRs, which every step keeps but a second disturbance of a record already altered (R49, R50, log entry 29). -/
def Obligations.EveryStepKeepsTheRecordTable : Prop :=
  (∀ s t : State, s.TableWell → s.SumsWell → s.TestsWell → s.LinesWell → s.settings.InRange → s.LoadWithinBudget →
      step s = .next t → t.TableWell ∧ t.SumsWell)
    ∧ (∀ s : State, s.TableWell → ∀ n : LineNo, (s.line n).attached.Nodup)
    ∧ (∀ s : State, s.SumsWell → s.meter.sumUp ≤ 8388480 ∧ s.meter.sumDown ≤ 8388480)
    ∧ ∀ s t : State, s.CountsWell →
      (∀ a, s.pending.head? = some (.recordDisturbance a) → (s.slot a.slot).cov = (s.slot a.slot).code.covers) →
      step s = .next t → t.CountsWell

/-- Every step keeps the load within the budget of the current level, shed marks on dark lines alone, the power chain on
the lit set, and one test at most, exactly while its line is UNDER_TEST, with the head powered at level 0 alone;
and no step but the power chain's latch changes the image that the power chain has latched (R28, R33, R100, R102, R118, R141,
R143). That a power-on reset keeps that image too is the model's deduction (log entry 28). -/
def Obligations.EveryStepKeepsLinesTestsAndLoad : Prop :=
  (∀ s t : State, s.LinesWell → s.TestsWell → s.settings.InRange → s.LoadWithinBudget → step s = .next t →
      t.LinesWell ∧ t.TestsWell ∧ t.LoadWithinBudget)
    ∧ (∀ s : State, s.settings.InRange → s.load ≤ 6375)
    ∧ ∀ s t : State, s.pending.head? ≠ some .powerChainLatch → step s = .next t → t.power.latched = s.power.latched

/-- Every step but a record disturbance keeps each bucket within its depth times 16 (R43). -/
def Obligations.EveryStepKeepsTheBuckets : Prop :=
  ∀ (s t : State) (c : Instr) (rest : List Instr), s.pending = c :: rest → (∀ a, c ≠ .recordDisturbance a) →
    (∀ i, (s.slot i).BucketsWithin) → step s = .next t → ∀ i, (t.slot i).BucketsWithin

/-- The state after reset has every property that the steps keep; it is the end of the power-on reset of a part without
stored settings (log entry 8), and with its empty queue it idles (log entry 1). -/
def Obligations.ResetHasEveryProperty : Prop :=
  State.reset.Settled ∧ State.reset.CountersInRange ∧ State.reset.settings.InRange ∧ State.reset.RoundWell
    ∧ State.reset.TableWell ∧ State.reset.SumsWell ∧ State.reset.CountsWell ∧ State.reset.LinesWell ∧ State.reset.TestsWell
    ∧ State.reset.LoadWithinBudget ∧ (∀ i, (State.reset.slot i).BucketsWithin)
    ∧ State.reset.pending = [] ∧ step State.reset = .next State.reset

end
end

