-- ==== Sys2Proof/Laws/State.lean ====
section
/-! SUPPORT. What each named update of the state leaves in each field: one lemma per field per update, true by rfl. -/

namespace Sys2Proof.Machine

/-! ### withSlots -/

section

variable (s : State) (x : Vector Record 128)

@[simp] theorem State.withSlots_slots : (s.withSlots x).slots = x := rfl
@[simp] theorem State.withSlots_armed : (s.withSlots x).armed = s.armed := rfl
@[simp] theorem State.withSlots_engine : (s.withSlots x).engine = s.engine := rfl
@[simp] theorem State.withSlots_meter : (s.withSlots x).meter = s.meter := rfl
@[simp] theorem State.withSlots_lines : (s.withSlots x).lines = s.lines := rfl
@[simp] theorem State.withSlots_power : (s.withSlots x).power = s.power := rfl
@[simp] theorem State.withSlots_link : (s.withSlots x).link = s.link := rfl
@[simp] theorem State.withSlots_round : (s.withSlots x).round = s.round := rfl
@[simp] theorem State.withSlots_tests : (s.withSlots x).tests = s.tests := rfl
@[simp] theorem State.withSlots_relay : (s.withSlots x).relay = s.relay := rfl
@[simp] theorem State.withSlots_head : (s.withSlots x).head = s.head := rfl
@[simp] theorem State.withSlots_ladder : (s.withSlots x).ladder = s.ladder := rfl
@[simp] theorem State.withSlots_port : (s.withSlots x).port = s.port := rfl
@[simp] theorem State.withSlots_events : (s.withSlots x).events = s.events := rfl
@[simp] theorem State.withSlots_settings : (s.withSlots x).settings = s.settings := rfl
@[simp] theorem State.withSlots_stored : (s.withSlots x).stored = s.stored := rfl
@[simp] theorem State.withSlots_hold : (s.withSlots x).hold = s.hold := rfl
@[simp] theorem State.withSlots_draws : (s.withSlots x).draws = s.draws := rfl
@[simp] theorem State.withSlots_pending : (s.withSlots x).pending = s.pending := rfl
@[simp] theorem State.withSlots_line (n : LineNo) : (s.withSlots x).line n = s.line n := rfl

end

/-! ### withArmed -/

section

variable (s : State) (x : Bool)

@[simp] theorem State.withArmed_slots : (s.withArmed x).slots = s.slots := rfl
@[simp] theorem State.withArmed_armed : (s.withArmed x).armed = x := rfl
@[simp] theorem State.withArmed_engine : (s.withArmed x).engine = s.engine := rfl
@[simp] theorem State.withArmed_meter : (s.withArmed x).meter = s.meter := rfl
@[simp] theorem State.withArmed_lines : (s.withArmed x).lines = s.lines := rfl
@[simp] theorem State.withArmed_power : (s.withArmed x).power = s.power := rfl
@[simp] theorem State.withArmed_link : (s.withArmed x).link = s.link := rfl
@[simp] theorem State.withArmed_round : (s.withArmed x).round = s.round := rfl
@[simp] theorem State.withArmed_tests : (s.withArmed x).tests = s.tests := rfl
@[simp] theorem State.withArmed_relay : (s.withArmed x).relay = s.relay := rfl
@[simp] theorem State.withArmed_head : (s.withArmed x).head = s.head := rfl
@[simp] theorem State.withArmed_ladder : (s.withArmed x).ladder = s.ladder := rfl
@[simp] theorem State.withArmed_port : (s.withArmed x).port = s.port := rfl
@[simp] theorem State.withArmed_events : (s.withArmed x).events = s.events := rfl
@[simp] theorem State.withArmed_settings : (s.withArmed x).settings = s.settings := rfl
@[simp] theorem State.withArmed_stored : (s.withArmed x).stored = s.stored := rfl
@[simp] theorem State.withArmed_hold : (s.withArmed x).hold = s.hold := rfl
@[simp] theorem State.withArmed_draws : (s.withArmed x).draws = s.draws := rfl
@[simp] theorem State.withArmed_pending : (s.withArmed x).pending = s.pending := rfl
@[simp] theorem State.withArmed_slot (i : Slot) : (s.withArmed x).slot i = s.slot i := rfl
@[simp] theorem State.withArmed_line (n : LineNo) : (s.withArmed x).line n = s.line n := rfl

end

/-! ### withEngine -/

section

variable (s : State) (x : Engine)

@[simp] theorem State.withEngine_slots : (s.withEngine x).slots = s.slots := rfl
@[simp] theorem State.withEngine_armed : (s.withEngine x).armed = s.armed := rfl
@[simp] theorem State.withEngine_engine : (s.withEngine x).engine = x := rfl
@[simp] theorem State.withEngine_meter : (s.withEngine x).meter = s.meter := rfl
@[simp] theorem State.withEngine_lines : (s.withEngine x).lines = s.lines := rfl
@[simp] theorem State.withEngine_power : (s.withEngine x).power = s.power := rfl
@[simp] theorem State.withEngine_link : (s.withEngine x).link = s.link := rfl
@[simp] theorem State.withEngine_round : (s.withEngine x).round = s.round := rfl
@[simp] theorem State.withEngine_tests : (s.withEngine x).tests = s.tests := rfl
@[simp] theorem State.withEngine_relay : (s.withEngine x).relay = s.relay := rfl
@[simp] theorem State.withEngine_head : (s.withEngine x).head = s.head := rfl
@[simp] theorem State.withEngine_ladder : (s.withEngine x).ladder = s.ladder := rfl
@[simp] theorem State.withEngine_port : (s.withEngine x).port = s.port := rfl
@[simp] theorem State.withEngine_events : (s.withEngine x).events = s.events := rfl
@[simp] theorem State.withEngine_settings : (s.withEngine x).settings = s.settings := rfl
@[simp] theorem State.withEngine_stored : (s.withEngine x).stored = s.stored := rfl
@[simp] theorem State.withEngine_hold : (s.withEngine x).hold = s.hold := rfl
@[simp] theorem State.withEngine_draws : (s.withEngine x).draws = s.draws := rfl
@[simp] theorem State.withEngine_pending : (s.withEngine x).pending = s.pending := rfl
@[simp] theorem State.withEngine_slot (i : Slot) : (s.withEngine x).slot i = s.slot i := rfl
@[simp] theorem State.withEngine_line (n : LineNo) : (s.withEngine x).line n = s.line n := rfl

end

/-! ### withMeter -/

section

variable (s : State) (x : Meter)

@[simp] theorem State.withMeter_slots : (s.withMeter x).slots = s.slots := rfl
@[simp] theorem State.withMeter_armed : (s.withMeter x).armed = s.armed := rfl
@[simp] theorem State.withMeter_engine : (s.withMeter x).engine = s.engine := rfl
@[simp] theorem State.withMeter_meter : (s.withMeter x).meter = x := rfl
@[simp] theorem State.withMeter_lines : (s.withMeter x).lines = s.lines := rfl
@[simp] theorem State.withMeter_power : (s.withMeter x).power = s.power := rfl
@[simp] theorem State.withMeter_link : (s.withMeter x).link = s.link := rfl
@[simp] theorem State.withMeter_round : (s.withMeter x).round = s.round := rfl
@[simp] theorem State.withMeter_tests : (s.withMeter x).tests = s.tests := rfl
@[simp] theorem State.withMeter_relay : (s.withMeter x).relay = s.relay := rfl
@[simp] theorem State.withMeter_head : (s.withMeter x).head = s.head := rfl
@[simp] theorem State.withMeter_ladder : (s.withMeter x).ladder = s.ladder := rfl
@[simp] theorem State.withMeter_port : (s.withMeter x).port = s.port := rfl
@[simp] theorem State.withMeter_events : (s.withMeter x).events = s.events := rfl
@[simp] theorem State.withMeter_settings : (s.withMeter x).settings = s.settings := rfl
@[simp] theorem State.withMeter_stored : (s.withMeter x).stored = s.stored := rfl
@[simp] theorem State.withMeter_hold : (s.withMeter x).hold = s.hold := rfl
@[simp] theorem State.withMeter_draws : (s.withMeter x).draws = s.draws := rfl
@[simp] theorem State.withMeter_pending : (s.withMeter x).pending = s.pending := rfl
@[simp] theorem State.withMeter_slot (i : Slot) : (s.withMeter x).slot i = s.slot i := rfl
@[simp] theorem State.withMeter_line (n : LineNo) : (s.withMeter x).line n = s.line n := rfl

end

/-! ### withLines -/

section

variable (s : State) (x : Vector Line 24)

@[simp] theorem State.withLines_slots : (s.withLines x).slots = s.slots := rfl
@[simp] theorem State.withLines_armed : (s.withLines x).armed = s.armed := rfl
@[simp] theorem State.withLines_engine : (s.withLines x).engine = s.engine := rfl
@[simp] theorem State.withLines_meter : (s.withLines x).meter = s.meter := rfl
@[simp] theorem State.withLines_lines : (s.withLines x).lines = x := rfl
@[simp] theorem State.withLines_power : (s.withLines x).power = s.power := rfl
@[simp] theorem State.withLines_link : (s.withLines x).link = s.link := rfl
@[simp] theorem State.withLines_round : (s.withLines x).round = s.round := rfl
@[simp] theorem State.withLines_tests : (s.withLines x).tests = s.tests := rfl
@[simp] theorem State.withLines_relay : (s.withLines x).relay = s.relay := rfl
@[simp] theorem State.withLines_head : (s.withLines x).head = s.head := rfl
@[simp] theorem State.withLines_ladder : (s.withLines x).ladder = s.ladder := rfl
@[simp] theorem State.withLines_port : (s.withLines x).port = s.port := rfl
@[simp] theorem State.withLines_events : (s.withLines x).events = s.events := rfl
@[simp] theorem State.withLines_settings : (s.withLines x).settings = s.settings := rfl
@[simp] theorem State.withLines_stored : (s.withLines x).stored = s.stored := rfl
@[simp] theorem State.withLines_hold : (s.withLines x).hold = s.hold := rfl
@[simp] theorem State.withLines_draws : (s.withLines x).draws = s.draws := rfl
@[simp] theorem State.withLines_pending : (s.withLines x).pending = s.pending := rfl
@[simp] theorem State.withLines_slot (i : Slot) : (s.withLines x).slot i = s.slot i := rfl

end

/-! ### withPower -/

section

variable (s : State) (x : Chain)

@[simp] theorem State.withPower_slots : (s.withPower x).slots = s.slots := rfl
@[simp] theorem State.withPower_armed : (s.withPower x).armed = s.armed := rfl
@[simp] theorem State.withPower_engine : (s.withPower x).engine = s.engine := rfl
@[simp] theorem State.withPower_meter : (s.withPower x).meter = s.meter := rfl
@[simp] theorem State.withPower_lines : (s.withPower x).lines = s.lines := rfl
@[simp] theorem State.withPower_power : (s.withPower x).power = x := rfl
@[simp] theorem State.withPower_link : (s.withPower x).link = s.link := rfl
@[simp] theorem State.withPower_round : (s.withPower x).round = s.round := rfl
@[simp] theorem State.withPower_tests : (s.withPower x).tests = s.tests := rfl
@[simp] theorem State.withPower_relay : (s.withPower x).relay = s.relay := rfl
@[simp] theorem State.withPower_head : (s.withPower x).head = s.head := rfl
@[simp] theorem State.withPower_ladder : (s.withPower x).ladder = s.ladder := rfl
@[simp] theorem State.withPower_port : (s.withPower x).port = s.port := rfl
@[simp] theorem State.withPower_events : (s.withPower x).events = s.events := rfl
@[simp] theorem State.withPower_settings : (s.withPower x).settings = s.settings := rfl
@[simp] theorem State.withPower_stored : (s.withPower x).stored = s.stored := rfl
@[simp] theorem State.withPower_hold : (s.withPower x).hold = s.hold := rfl
@[simp] theorem State.withPower_draws : (s.withPower x).draws = s.draws := rfl
@[simp] theorem State.withPower_pending : (s.withPower x).pending = s.pending := rfl
@[simp] theorem State.withPower_slot (i : Slot) : (s.withPower x).slot i = s.slot i := rfl
@[simp] theorem State.withPower_line (n : LineNo) : (s.withPower x).line n = s.line n := rfl

end

/-! ### withLink -/

section

variable (s : State) (x : Link)

@[simp] theorem State.withLink_slots : (s.withLink x).slots = s.slots := rfl
@[simp] theorem State.withLink_armed : (s.withLink x).armed = s.armed := rfl
@[simp] theorem State.withLink_engine : (s.withLink x).engine = s.engine := rfl
@[simp] theorem State.withLink_meter : (s.withLink x).meter = s.meter := rfl
@[simp] theorem State.withLink_lines : (s.withLink x).lines = s.lines := rfl
@[simp] theorem State.withLink_power : (s.withLink x).power = s.power := rfl
@[simp] theorem State.withLink_link : (s.withLink x).link = x := rfl
@[simp] theorem State.withLink_round : (s.withLink x).round = s.round := rfl
@[simp] theorem State.withLink_tests : (s.withLink x).tests = s.tests := rfl
@[simp] theorem State.withLink_relay : (s.withLink x).relay = s.relay := rfl
@[simp] theorem State.withLink_head : (s.withLink x).head = s.head := rfl
@[simp] theorem State.withLink_ladder : (s.withLink x).ladder = s.ladder := rfl
@[simp] theorem State.withLink_port : (s.withLink x).port = s.port := rfl
@[simp] theorem State.withLink_events : (s.withLink x).events = s.events := rfl
@[simp] theorem State.withLink_settings : (s.withLink x).settings = s.settings := rfl
@[simp] theorem State.withLink_stored : (s.withLink x).stored = s.stored := rfl
@[simp] theorem State.withLink_hold : (s.withLink x).hold = s.hold := rfl
@[simp] theorem State.withLink_draws : (s.withLink x).draws = s.draws := rfl
@[simp] theorem State.withLink_pending : (s.withLink x).pending = s.pending := rfl
@[simp] theorem State.withLink_slot (i : Slot) : (s.withLink x).slot i = s.slot i := rfl
@[simp] theorem State.withLink_line (n : LineNo) : (s.withLink x).line n = s.line n := rfl

end

/-! ### withRound -/

section

variable (s : State) (x : Round)

@[simp] theorem State.withRound_slots : (s.withRound x).slots = s.slots := rfl
@[simp] theorem State.withRound_armed : (s.withRound x).armed = s.armed := rfl
@[simp] theorem State.withRound_engine : (s.withRound x).engine = s.engine := rfl
@[simp] theorem State.withRound_meter : (s.withRound x).meter = s.meter := rfl
@[simp] theorem State.withRound_lines : (s.withRound x).lines = s.lines := rfl
@[simp] theorem State.withRound_power : (s.withRound x).power = s.power := rfl
@[simp] theorem State.withRound_link : (s.withRound x).link = s.link := rfl
@[simp] theorem State.withRound_round : (s.withRound x).round = x := rfl
@[simp] theorem State.withRound_tests : (s.withRound x).tests = s.tests := rfl
@[simp] theorem State.withRound_relay : (s.withRound x).relay = s.relay := rfl
@[simp] theorem State.withRound_head : (s.withRound x).head = s.head := rfl
@[simp] theorem State.withRound_ladder : (s.withRound x).ladder = s.ladder := rfl
@[simp] theorem State.withRound_port : (s.withRound x).port = s.port := rfl
@[simp] theorem State.withRound_events : (s.withRound x).events = s.events := rfl
@[simp] theorem State.withRound_settings : (s.withRound x).settings = s.settings := rfl
@[simp] theorem State.withRound_stored : (s.withRound x).stored = s.stored := rfl
@[simp] theorem State.withRound_hold : (s.withRound x).hold = s.hold := rfl
@[simp] theorem State.withRound_draws : (s.withRound x).draws = s.draws := rfl
@[simp] theorem State.withRound_pending : (s.withRound x).pending = s.pending := rfl
@[simp] theorem State.withRound_slot (i : Slot) : (s.withRound x).slot i = s.slot i := rfl
@[simp] theorem State.withRound_line (n : LineNo) : (s.withRound x).line n = s.line n := rfl

end

/-! ### withTests -/

section

variable (s : State) (x : Tests)

@[simp] theorem State.withTests_slots : (s.withTests x).slots = s.slots := rfl
@[simp] theorem State.withTests_armed : (s.withTests x).armed = s.armed := rfl
@[simp] theorem State.withTests_engine : (s.withTests x).engine = s.engine := rfl
@[simp] theorem State.withTests_meter : (s.withTests x).meter = s.meter := rfl
@[simp] theorem State.withTests_lines : (s.withTests x).lines = s.lines := rfl
@[simp] theorem State.withTests_power : (s.withTests x).power = s.power := rfl
@[simp] theorem State.withTests_link : (s.withTests x).link = s.link := rfl
@[simp] theorem State.withTests_round : (s.withTests x).round = s.round := rfl
@[simp] theorem State.withTests_tests : (s.withTests x).tests = x := rfl
@[simp] theorem State.withTests_relay : (s.withTests x).relay = s.relay := rfl
@[simp] theorem State.withTests_head : (s.withTests x).head = s.head := rfl
@[simp] theorem State.withTests_ladder : (s.withTests x).ladder = s.ladder := rfl
@[simp] theorem State.withTests_port : (s.withTests x).port = s.port := rfl
@[simp] theorem State.withTests_events : (s.withTests x).events = s.events := rfl
@[simp] theorem State.withTests_settings : (s.withTests x).settings = s.settings := rfl
@[simp] theorem State.withTests_stored : (s.withTests x).stored = s.stored := rfl
@[simp] theorem State.withTests_hold : (s.withTests x).hold = s.hold := rfl
@[simp] theorem State.withTests_draws : (s.withTests x).draws = s.draws := rfl
@[simp] theorem State.withTests_pending : (s.withTests x).pending = s.pending := rfl
@[simp] theorem State.withTests_slot (i : Slot) : (s.withTests x).slot i = s.slot i := rfl
@[simp] theorem State.withTests_line (n : LineNo) : (s.withTests x).line n = s.line n := rfl

end

/-! ### withRelay -/

section

variable (s : State) (x : Chain)

@[simp] theorem State.withRelay_slots : (s.withRelay x).slots = s.slots := rfl
@[simp] theorem State.withRelay_armed : (s.withRelay x).armed = s.armed := rfl
@[simp] theorem State.withRelay_engine : (s.withRelay x).engine = s.engine := rfl
@[simp] theorem State.withRelay_meter : (s.withRelay x).meter = s.meter := rfl
@[simp] theorem State.withRelay_lines : (s.withRelay x).lines = s.lines := rfl
@[simp] theorem State.withRelay_power : (s.withRelay x).power = s.power := rfl
@[simp] theorem State.withRelay_link : (s.withRelay x).link = s.link := rfl
@[simp] theorem State.withRelay_round : (s.withRelay x).round = s.round := rfl
@[simp] theorem State.withRelay_tests : (s.withRelay x).tests = s.tests := rfl
@[simp] theorem State.withRelay_relay : (s.withRelay x).relay = x := rfl
@[simp] theorem State.withRelay_head : (s.withRelay x).head = s.head := rfl
@[simp] theorem State.withRelay_ladder : (s.withRelay x).ladder = s.ladder := rfl
@[simp] theorem State.withRelay_port : (s.withRelay x).port = s.port := rfl
@[simp] theorem State.withRelay_events : (s.withRelay x).events = s.events := rfl
@[simp] theorem State.withRelay_settings : (s.withRelay x).settings = s.settings := rfl
@[simp] theorem State.withRelay_stored : (s.withRelay x).stored = s.stored := rfl
@[simp] theorem State.withRelay_hold : (s.withRelay x).hold = s.hold := rfl
@[simp] theorem State.withRelay_draws : (s.withRelay x).draws = s.draws := rfl
@[simp] theorem State.withRelay_pending : (s.withRelay x).pending = s.pending := rfl
@[simp] theorem State.withRelay_slot (i : Slot) : (s.withRelay x).slot i = s.slot i := rfl
@[simp] theorem State.withRelay_line (n : LineNo) : (s.withRelay x).line n = s.line n := rfl

end

/-! ### withHead -/

section

variable (s : State) (x : Head)

@[simp] theorem State.withHead_slots : (s.withHead x).slots = s.slots := rfl
@[simp] theorem State.withHead_armed : (s.withHead x).armed = s.armed := rfl
@[simp] theorem State.withHead_engine : (s.withHead x).engine = s.engine := rfl
@[simp] theorem State.withHead_meter : (s.withHead x).meter = s.meter := rfl
@[simp] theorem State.withHead_lines : (s.withHead x).lines = s.lines := rfl
@[simp] theorem State.withHead_power : (s.withHead x).power = s.power := rfl
@[simp] theorem State.withHead_link : (s.withHead x).link = s.link := rfl
@[simp] theorem State.withHead_round : (s.withHead x).round = s.round := rfl
@[simp] theorem State.withHead_tests : (s.withHead x).tests = s.tests := rfl
@[simp] theorem State.withHead_relay : (s.withHead x).relay = s.relay := rfl
@[simp] theorem State.withHead_head : (s.withHead x).head = x := rfl
@[simp] theorem State.withHead_ladder : (s.withHead x).ladder = s.ladder := rfl
@[simp] theorem State.withHead_port : (s.withHead x).port = s.port := rfl
@[simp] theorem State.withHead_events : (s.withHead x).events = s.events := rfl
@[simp] theorem State.withHead_settings : (s.withHead x).settings = s.settings := rfl
@[simp] theorem State.withHead_stored : (s.withHead x).stored = s.stored := rfl
@[simp] theorem State.withHead_hold : (s.withHead x).hold = s.hold := rfl
@[simp] theorem State.withHead_draws : (s.withHead x).draws = s.draws := rfl
@[simp] theorem State.withHead_pending : (s.withHead x).pending = s.pending := rfl
@[simp] theorem State.withHead_slot (i : Slot) : (s.withHead x).slot i = s.slot i := rfl
@[simp] theorem State.withHead_line (n : LineNo) : (s.withHead x).line n = s.line n := rfl

end

/-! ### withLadder -/

section

variable (s : State) (x : Ladder)

@[simp] theorem State.withLadder_slots : (s.withLadder x).slots = s.slots := rfl
@[simp] theorem State.withLadder_armed : (s.withLadder x).armed = s.armed := rfl
@[simp] theorem State.withLadder_engine : (s.withLadder x).engine = s.engine := rfl
@[simp] theorem State.withLadder_meter : (s.withLadder x).meter = s.meter := rfl
@[simp] theorem State.withLadder_lines : (s.withLadder x).lines = s.lines := rfl
@[simp] theorem State.withLadder_power : (s.withLadder x).power = s.power := rfl
@[simp] theorem State.withLadder_link : (s.withLadder x).link = s.link := rfl
@[simp] theorem State.withLadder_round : (s.withLadder x).round = s.round := rfl
@[simp] theorem State.withLadder_tests : (s.withLadder x).tests = s.tests := rfl
@[simp] theorem State.withLadder_relay : (s.withLadder x).relay = s.relay := rfl
@[simp] theorem State.withLadder_head : (s.withLadder x).head = s.head := rfl
@[simp] theorem State.withLadder_ladder : (s.withLadder x).ladder = x := rfl
@[simp] theorem State.withLadder_port : (s.withLadder x).port = s.port := rfl
@[simp] theorem State.withLadder_events : (s.withLadder x).events = s.events := rfl
@[simp] theorem State.withLadder_settings : (s.withLadder x).settings = s.settings := rfl
@[simp] theorem State.withLadder_stored : (s.withLadder x).stored = s.stored := rfl
@[simp] theorem State.withLadder_hold : (s.withLadder x).hold = s.hold := rfl
@[simp] theorem State.withLadder_draws : (s.withLadder x).draws = s.draws := rfl
@[simp] theorem State.withLadder_pending : (s.withLadder x).pending = s.pending := rfl
@[simp] theorem State.withLadder_slot (i : Slot) : (s.withLadder x).slot i = s.slot i := rfl
@[simp] theorem State.withLadder_line (n : LineNo) : (s.withLadder x).line n = s.line n := rfl

end

/-! ### withPort -/

section

variable (s : State) (x : Port)

@[simp] theorem State.withPort_slots : (s.withPort x).slots = s.slots := rfl
@[simp] theorem State.withPort_armed : (s.withPort x).armed = s.armed := rfl
@[simp] theorem State.withPort_engine : (s.withPort x).engine = s.engine := rfl
@[simp] theorem State.withPort_meter : (s.withPort x).meter = s.meter := rfl
@[simp] theorem State.withPort_lines : (s.withPort x).lines = s.lines := rfl
@[simp] theorem State.withPort_power : (s.withPort x).power = s.power := rfl
@[simp] theorem State.withPort_link : (s.withPort x).link = s.link := rfl
@[simp] theorem State.withPort_round : (s.withPort x).round = s.round := rfl
@[simp] theorem State.withPort_tests : (s.withPort x).tests = s.tests := rfl
@[simp] theorem State.withPort_relay : (s.withPort x).relay = s.relay := rfl
@[simp] theorem State.withPort_head : (s.withPort x).head = s.head := rfl
@[simp] theorem State.withPort_ladder : (s.withPort x).ladder = s.ladder := rfl
@[simp] theorem State.withPort_port : (s.withPort x).port = x := rfl
@[simp] theorem State.withPort_events : (s.withPort x).events = s.events := rfl
@[simp] theorem State.withPort_settings : (s.withPort x).settings = s.settings := rfl
@[simp] theorem State.withPort_stored : (s.withPort x).stored = s.stored := rfl
@[simp] theorem State.withPort_hold : (s.withPort x).hold = s.hold := rfl
@[simp] theorem State.withPort_draws : (s.withPort x).draws = s.draws := rfl
@[simp] theorem State.withPort_pending : (s.withPort x).pending = s.pending := rfl
@[simp] theorem State.withPort_slot (i : Slot) : (s.withPort x).slot i = s.slot i := rfl
@[simp] theorem State.withPort_line (n : LineNo) : (s.withPort x).line n = s.line n := rfl

end

/-! ### withEvents -/

section

variable (s : State) (x : Events)

@[simp] theorem State.withEvents_slots : (s.withEvents x).slots = s.slots := rfl
@[simp] theorem State.withEvents_armed : (s.withEvents x).armed = s.armed := rfl
@[simp] theorem State.withEvents_engine : (s.withEvents x).engine = s.engine := rfl
@[simp] theorem State.withEvents_meter : (s.withEvents x).meter = s.meter := rfl
@[simp] theorem State.withEvents_lines : (s.withEvents x).lines = s.lines := rfl
@[simp] theorem State.withEvents_power : (s.withEvents x).power = s.power := rfl
@[simp] theorem State.withEvents_link : (s.withEvents x).link = s.link := rfl
@[simp] theorem State.withEvents_round : (s.withEvents x).round = s.round := rfl
@[simp] theorem State.withEvents_tests : (s.withEvents x).tests = s.tests := rfl
@[simp] theorem State.withEvents_relay : (s.withEvents x).relay = s.relay := rfl
@[simp] theorem State.withEvents_head : (s.withEvents x).head = s.head := rfl
@[simp] theorem State.withEvents_ladder : (s.withEvents x).ladder = s.ladder := rfl
@[simp] theorem State.withEvents_port : (s.withEvents x).port = s.port := rfl
@[simp] theorem State.withEvents_events : (s.withEvents x).events = x := rfl
@[simp] theorem State.withEvents_settings : (s.withEvents x).settings = s.settings := rfl
@[simp] theorem State.withEvents_stored : (s.withEvents x).stored = s.stored := rfl
@[simp] theorem State.withEvents_hold : (s.withEvents x).hold = s.hold := rfl
@[simp] theorem State.withEvents_draws : (s.withEvents x).draws = s.draws := rfl
@[simp] theorem State.withEvents_pending : (s.withEvents x).pending = s.pending := rfl
@[simp] theorem State.withEvents_slot (i : Slot) : (s.withEvents x).slot i = s.slot i := rfl
@[simp] theorem State.withEvents_line (n : LineNo) : (s.withEvents x).line n = s.line n := rfl

end

/-! ### withSettings -/

section

variable (s : State) (x : Settings)

@[simp] theorem State.withSettings_slots : (s.withSettings x).slots = s.slots := rfl
@[simp] theorem State.withSettings_armed : (s.withSettings x).armed = s.armed := rfl
@[simp] theorem State.withSettings_engine : (s.withSettings x).engine = s.engine := rfl
@[simp] theorem State.withSettings_meter : (s.withSettings x).meter = s.meter := rfl
@[simp] theorem State.withSettings_lines : (s.withSettings x).lines = s.lines := rfl
@[simp] theorem State.withSettings_power : (s.withSettings x).power = s.power := rfl
@[simp] theorem State.withSettings_link : (s.withSettings x).link = s.link := rfl
@[simp] theorem State.withSettings_round : (s.withSettings x).round = s.round := rfl
@[simp] theorem State.withSettings_tests : (s.withSettings x).tests = s.tests := rfl
@[simp] theorem State.withSettings_relay : (s.withSettings x).relay = s.relay := rfl
@[simp] theorem State.withSettings_head : (s.withSettings x).head = s.head := rfl
@[simp] theorem State.withSettings_ladder : (s.withSettings x).ladder = s.ladder := rfl
@[simp] theorem State.withSettings_port : (s.withSettings x).port = s.port := rfl
@[simp] theorem State.withSettings_events : (s.withSettings x).events = s.events := rfl
@[simp] theorem State.withSettings_settings : (s.withSettings x).settings = x := rfl
@[simp] theorem State.withSettings_stored : (s.withSettings x).stored = s.stored := rfl
@[simp] theorem State.withSettings_hold : (s.withSettings x).hold = s.hold := rfl
@[simp] theorem State.withSettings_draws : (s.withSettings x).draws = s.draws := rfl
@[simp] theorem State.withSettings_pending : (s.withSettings x).pending = s.pending := rfl
@[simp] theorem State.withSettings_slot (i : Slot) : (s.withSettings x).slot i = s.slot i := rfl
@[simp] theorem State.withSettings_line (n : LineNo) : (s.withSettings x).line n = s.line n := rfl

end

/-! ### withStored -/

section

variable (s : State) (x : Stored)

@[simp] theorem State.withStored_slots : (s.withStored x).slots = s.slots := rfl
@[simp] theorem State.withStored_armed : (s.withStored x).armed = s.armed := rfl
@[simp] theorem State.withStored_engine : (s.withStored x).engine = s.engine := rfl
@[simp] theorem State.withStored_meter : (s.withStored x).meter = s.meter := rfl
@[simp] theorem State.withStored_lines : (s.withStored x).lines = s.lines := rfl
@[simp] theorem State.withStored_power : (s.withStored x).power = s.power := rfl
@[simp] theorem State.withStored_link : (s.withStored x).link = s.link := rfl
@[simp] theorem State.withStored_round : (s.withStored x).round = s.round := rfl
@[simp] theorem State.withStored_tests : (s.withStored x).tests = s.tests := rfl
@[simp] theorem State.withStored_relay : (s.withStored x).relay = s.relay := rfl
@[simp] theorem State.withStored_head : (s.withStored x).head = s.head := rfl
@[simp] theorem State.withStored_ladder : (s.withStored x).ladder = s.ladder := rfl
@[simp] theorem State.withStored_port : (s.withStored x).port = s.port := rfl
@[simp] theorem State.withStored_events : (s.withStored x).events = s.events := rfl
@[simp] theorem State.withStored_settings : (s.withStored x).settings = s.settings := rfl
@[simp] theorem State.withStored_stored : (s.withStored x).stored = x := rfl
@[simp] theorem State.withStored_hold : (s.withStored x).hold = s.hold := rfl
@[simp] theorem State.withStored_draws : (s.withStored x).draws = s.draws := rfl
@[simp] theorem State.withStored_pending : (s.withStored x).pending = s.pending := rfl
@[simp] theorem State.withStored_slot (i : Slot) : (s.withStored x).slot i = s.slot i := rfl
@[simp] theorem State.withStored_line (n : LineNo) : (s.withStored x).line n = s.line n := rfl

end

/-! ### withHold -/

section

variable (s : State) (x : Option Hold)

@[simp] theorem State.withHold_slots : (s.withHold x).slots = s.slots := rfl
@[simp] theorem State.withHold_armed : (s.withHold x).armed = s.armed := rfl
@[simp] theorem State.withHold_engine : (s.withHold x).engine = s.engine := rfl
@[simp] theorem State.withHold_meter : (s.withHold x).meter = s.meter := rfl
@[simp] theorem State.withHold_lines : (s.withHold x).lines = s.lines := rfl
@[simp] theorem State.withHold_power : (s.withHold x).power = s.power := rfl
@[simp] theorem State.withHold_link : (s.withHold x).link = s.link := rfl
@[simp] theorem State.withHold_round : (s.withHold x).round = s.round := rfl
@[simp] theorem State.withHold_tests : (s.withHold x).tests = s.tests := rfl
@[simp] theorem State.withHold_relay : (s.withHold x).relay = s.relay := rfl
@[simp] theorem State.withHold_head : (s.withHold x).head = s.head := rfl
@[simp] theorem State.withHold_ladder : (s.withHold x).ladder = s.ladder := rfl
@[simp] theorem State.withHold_port : (s.withHold x).port = s.port := rfl
@[simp] theorem State.withHold_events : (s.withHold x).events = s.events := rfl
@[simp] theorem State.withHold_settings : (s.withHold x).settings = s.settings := rfl
@[simp] theorem State.withHold_stored : (s.withHold x).stored = s.stored := rfl
@[simp] theorem State.withHold_hold : (s.withHold x).hold = x := rfl
@[simp] theorem State.withHold_draws : (s.withHold x).draws = s.draws := rfl
@[simp] theorem State.withHold_pending : (s.withHold x).pending = s.pending := rfl
@[simp] theorem State.withHold_slot (i : Slot) : (s.withHold x).slot i = s.slot i := rfl
@[simp] theorem State.withHold_line (n : LineNo) : (s.withHold x).line n = s.line n := rfl

end

/-! ### withDraws -/

section

variable (s : State) (x : Nat)

@[simp] theorem State.withDraws_slots : (s.withDraws x).slots = s.slots := rfl
@[simp] theorem State.withDraws_armed : (s.withDraws x).armed = s.armed := rfl
@[simp] theorem State.withDraws_engine : (s.withDraws x).engine = s.engine := rfl
@[simp] theorem State.withDraws_meter : (s.withDraws x).meter = s.meter := rfl
@[simp] theorem State.withDraws_lines : (s.withDraws x).lines = s.lines := rfl
@[simp] theorem State.withDraws_power : (s.withDraws x).power = s.power := rfl
@[simp] theorem State.withDraws_link : (s.withDraws x).link = s.link := rfl
@[simp] theorem State.withDraws_round : (s.withDraws x).round = s.round := rfl
@[simp] theorem State.withDraws_tests : (s.withDraws x).tests = s.tests := rfl
@[simp] theorem State.withDraws_relay : (s.withDraws x).relay = s.relay := rfl
@[simp] theorem State.withDraws_head : (s.withDraws x).head = s.head := rfl
@[simp] theorem State.withDraws_ladder : (s.withDraws x).ladder = s.ladder := rfl
@[simp] theorem State.withDraws_port : (s.withDraws x).port = s.port := rfl
@[simp] theorem State.withDraws_events : (s.withDraws x).events = s.events := rfl
@[simp] theorem State.withDraws_settings : (s.withDraws x).settings = s.settings := rfl
@[simp] theorem State.withDraws_stored : (s.withDraws x).stored = s.stored := rfl
@[simp] theorem State.withDraws_hold : (s.withDraws x).hold = s.hold := rfl
@[simp] theorem State.withDraws_draws : (s.withDraws x).draws = x := rfl
@[simp] theorem State.withDraws_pending : (s.withDraws x).pending = s.pending := rfl
@[simp] theorem State.withDraws_slot (i : Slot) : (s.withDraws x).slot i = s.slot i := rfl
@[simp] theorem State.withDraws_line (n : LineNo) : (s.withDraws x).line n = s.line n := rfl

end

/-! ### withPending -/

section

variable (s : State) (x : List Instr)

@[simp] theorem State.withPending_slots : (s.withPending x).slots = s.slots := rfl
@[simp] theorem State.withPending_armed : (s.withPending x).armed = s.armed := rfl
@[simp] theorem State.withPending_engine : (s.withPending x).engine = s.engine := rfl
@[simp] theorem State.withPending_meter : (s.withPending x).meter = s.meter := rfl
@[simp] theorem State.withPending_lines : (s.withPending x).lines = s.lines := rfl
@[simp] theorem State.withPending_power : (s.withPending x).power = s.power := rfl
@[simp] theorem State.withPending_link : (s.withPending x).link = s.link := rfl
@[simp] theorem State.withPending_round : (s.withPending x).round = s.round := rfl
@[simp] theorem State.withPending_tests : (s.withPending x).tests = s.tests := rfl
@[simp] theorem State.withPending_relay : (s.withPending x).relay = s.relay := rfl
@[simp] theorem State.withPending_head : (s.withPending x).head = s.head := rfl
@[simp] theorem State.withPending_ladder : (s.withPending x).ladder = s.ladder := rfl
@[simp] theorem State.withPending_port : (s.withPending x).port = s.port := rfl
@[simp] theorem State.withPending_events : (s.withPending x).events = s.events := rfl
@[simp] theorem State.withPending_settings : (s.withPending x).settings = s.settings := rfl
@[simp] theorem State.withPending_stored : (s.withPending x).stored = s.stored := rfl
@[simp] theorem State.withPending_hold : (s.withPending x).hold = s.hold := rfl
@[simp] theorem State.withPending_draws : (s.withPending x).draws = s.draws := rfl
@[simp] theorem State.withPending_pending : (s.withPending x).pending = x := rfl
@[simp] theorem State.withPending_slot (i : Slot) : (s.withPending x).slot i = s.slot i := rfl
@[simp] theorem State.withPending_line (n : LineNo) : (s.withPending x).line n = s.line n := rfl

end

/-! ### setSlot -/

section

variable (s : State) (i : Slot) (r : Record)

@[simp] theorem State.setSlot_slots : (s.setSlot i r).slots = s.slots.set i r := rfl
@[simp] theorem State.setSlot_armed : (s.setSlot i r).armed = s.armed := rfl
@[simp] theorem State.setSlot_engine : (s.setSlot i r).engine = s.engine := rfl
@[simp] theorem State.setSlot_meter : (s.setSlot i r).meter = s.meter := rfl
@[simp] theorem State.setSlot_lines : (s.setSlot i r).lines = s.lines := rfl
@[simp] theorem State.setSlot_power : (s.setSlot i r).power = s.power := rfl
@[simp] theorem State.setSlot_link : (s.setSlot i r).link = s.link := rfl
@[simp] theorem State.setSlot_round : (s.setSlot i r).round = s.round := rfl
@[simp] theorem State.setSlot_tests : (s.setSlot i r).tests = s.tests := rfl
@[simp] theorem State.setSlot_relay : (s.setSlot i r).relay = s.relay := rfl
@[simp] theorem State.setSlot_head : (s.setSlot i r).head = s.head := rfl
@[simp] theorem State.setSlot_ladder : (s.setSlot i r).ladder = s.ladder := rfl
@[simp] theorem State.setSlot_port : (s.setSlot i r).port = s.port := rfl
@[simp] theorem State.setSlot_events : (s.setSlot i r).events = s.events := rfl
@[simp] theorem State.setSlot_settings : (s.setSlot i r).settings = s.settings := rfl
@[simp] theorem State.setSlot_stored : (s.setSlot i r).stored = s.stored := rfl
@[simp] theorem State.setSlot_hold : (s.setSlot i r).hold = s.hold := rfl
@[simp] theorem State.setSlot_draws : (s.setSlot i r).draws = s.draws := rfl
@[simp] theorem State.setSlot_pending : (s.setSlot i r).pending = s.pending := rfl
@[simp] theorem State.setSlot_line (n : LineNo) : (s.setSlot i r).line n = s.line n := rfl

end

/-! ### setLine -/

section

variable (s : State) (n : LineNo) (l : Line)

@[simp] theorem State.setLine_slots : (s.setLine n l).slots = s.slots := rfl
@[simp] theorem State.setLine_armed : (s.setLine n l).armed = s.armed := rfl
@[simp] theorem State.setLine_engine : (s.setLine n l).engine = s.engine := rfl
@[simp] theorem State.setLine_meter : (s.setLine n l).meter = s.meter := rfl
@[simp] theorem State.setLine_lines : (s.setLine n l).lines = s.lines.set n l := rfl
@[simp] theorem State.setLine_power : (s.setLine n l).power = s.power := rfl
@[simp] theorem State.setLine_link : (s.setLine n l).link = s.link := rfl
@[simp] theorem State.setLine_round : (s.setLine n l).round = s.round := rfl
@[simp] theorem State.setLine_tests : (s.setLine n l).tests = s.tests := rfl
@[simp] theorem State.setLine_relay : (s.setLine n l).relay = s.relay := rfl
@[simp] theorem State.setLine_head : (s.setLine n l).head = s.head := rfl
@[simp] theorem State.setLine_ladder : (s.setLine n l).ladder = s.ladder := rfl
@[simp] theorem State.setLine_port : (s.setLine n l).port = s.port := rfl
@[simp] theorem State.setLine_events : (s.setLine n l).events = s.events := rfl
@[simp] theorem State.setLine_settings : (s.setLine n l).settings = s.settings := rfl
@[simp] theorem State.setLine_stored : (s.setLine n l).stored = s.stored := rfl
@[simp] theorem State.setLine_hold : (s.setLine n l).hold = s.hold := rfl
@[simp] theorem State.setLine_draws : (s.setLine n l).draws = s.draws := rfl
@[simp] theorem State.setLine_pending : (s.setLine n l).pending = s.pending := rfl
@[simp] theorem State.setLine_slot (i : Slot) : (s.setLine n l).slot i = s.slot i := rfl

end

/-! ### Reading back a written slot or line -/

/-- A slot reads back as written, every other slot as before. -/
@[simp] theorem State.setSlot_slot (s : State) (i j : Slot) (r : Record) :
    (s.setSlot i r).slot j = if i = j then r else s.slot j := by
  simp [State.slot, Vector.getElem_set, Fin.ext_iff]

/-- A line reads back as written, every other line as before. -/
@[simp] theorem State.setLine_line (s : State) (n m : LineNo) (l : Line) :
    (s.setLine n l).line m = if n = m then l else s.line m := by
  simp [State.line, Vector.getElem_set, Fin.ext_iff]

end Sys2Proof.Machine
end

