-- ==== Sys2Proof/Laws/Chains.lean ====
section
/-! SUPPORT. The serial chains and the images they carry: what a command and a strobe leave, and which bits an image of lines has. -/

namespace Sys2Proof.Machine

/-! ### Images -/

/-- A fold that sets the bits of the lines of a list leaves the bits that were set, and those of the listed lines that
`p` names. -/
theorem foldl_lineBits_getLsbD (p : LineNo → Bool) (l : List LineNo) (a : Image) (m : LineNo) :
    (l.foldl (fun a n => if p n then a ||| BitVec.twoPow 24 n.val else a) a).getLsbD m.val
      = (a.getLsbD m.val || (l.contains m && p m)) := by
  induction l generalizing a with
  | nil => simp
  | cons n l ih =>
    rw [List.foldl_cons, ih]
    by_cases h : m = n
    · subst h
      cases hp : p m <;> simp
    · have h' : ¬ m.val = n.val := fun e => h (Fin.ext e)
      cases hp : p n <;> simp [h', h]

/-- Bit n of an image of lines says whether the line is one of them. -/
theorem imageOf_getLsbD (p : LineNo → Bool) (n : LineNo) : (imageOf p).getLsbD n.val = p n := by
  unfold imageOf
  rw [foldl_lineBits_getLsbD]
  simp [List.mem_finRange]

/-- Two images that agree on every line's bit are equal. -/
theorem image_ext {a b : Image} (h : ∀ n : LineNo, a.getLsbD n.val = b.getLsbD n.val) : a = b :=
  BitVec.eq_of_getLsbD_eq fun i hi => h ⟨i, hi⟩

/-- Bit n of the lit set says whether line n is lit (R33). -/
theorem litSet_getLsbD (s : State) (n : LineNo) : s.litSet.getLsbD n.val = s.lit n := imageOf_getLsbD _ n

/-- Bit n of the set of marked lines says whether line n carries the shed mark (R149). -/
theorem markedSet_getLsbD (s : State) (n : LineNo) : s.markedSet.getLsbD n.val = (s.line n).shed.isSome :=
  imageOf_getLsbD _ n

/-- States whose lines are lit alike have the same lit set. -/
theorem litSet_congr {s t : State} (h : ∀ n, s.lit n = t.lit n) : s.litSet = t.litSet :=
  image_ext fun n => by rw [litSet_getLsbD, litSet_getLsbD, h]

/-! ### Commands and strobes (R33, R99) -/

/-- A command to an idle chain begins its shift. -/
theorem Chain.command_of_idle {c : Chain} (h : c.shifting = none) (i : Image) :
    c.command i = ⟨i, c.latched, some i, c.pending⟩ := by
  simp [Chain.command, h]

/-- A command to a shifting chain becomes the pending image. -/
theorem Chain.command_of_shifting {c : Chain} {j : Image} (h : c.shifting = some j) (i : Image) :
    c.command i = ⟨i, c.latched, some j, some i⟩ := by
  simp [Chain.command, h]

@[simp] theorem Chain.command_commanded (c : Chain) (i : Image) : (c.command i).commanded = i := by
  unfold Chain.command; split <;> rfl

@[simp] theorem Chain.command_latched (c : Chain) (i : Image) : (c.command i).latched = c.latched := by
  unfold Chain.command; split <;> rfl

@[simp] theorem Chain.strobe_commanded (c : Chain) : c.strobe.commanded = c.commanded := by
  unfold Chain.strobe; split <;> rfl

@[simp] theorem Chain.abandoned_latched (c : Chain) : c.abandoned.latched = c.latched := rfl

/-- A chain that carries its last command carries the next one. -/
theorem Chain.command_carries {c : Chain} (h : c.carries = true) (i : Image) : (c.command i).carries = true := by
  obtain ⟨k, l, s, p⟩ := c
  cases s <;> simp_all [Chain.carries, Chain.command]

/-- A chain that carries its last command carries it after a strobe. -/
theorem Chain.strobe_carries {c : Chain} (h : c.carries = true) : c.strobe.carries = true := by
  obtain ⟨k, l, s, p⟩ := c
  cases s <;> cases p <;> simp_all [Chain.carries, Chain.strobe]

/-! ### The latched images at a reset -/

@[simp] theorem State.drawRelayImage_power (s : State) : s.drawRelayImage.power = s.power := rfl

@[simp] theorem State.drawRelayImage_draws (s : State) : s.drawRelayImage.draws = s.draws + 1 := rfl

@[simp] theorem State.held_power (s : State) (h : Hold) : (s.held h).power = s.power.abandoned := rfl

@[simp] theorem State.held_relay (s : State) (h : Hold) : (s.held h).relay = s.relay.abandoned := rfl

end Sys2Proof.Machine
end

