-- ==== Sys2Proof/Laws/Records.lean ====
section
/-! SUPPORT. The record table's shared operations: committed sums, damage discoveries, check codes, and a line's walk over its attached list. -/

namespace Sys2Proof.Machine

/-! ### Committed sums and check codes -/

theorem State.enterActive_eq (s : State) (i : Slot) :
    s.enterActive i = { s with meter := s.meter.afterEntry i (s.slot i).cov.upCir (s.slot i).cov.downCir } := rfl

theorem State.exitActive_eq (s : State) (i : Slot) : s.exitActive i = { s with meter := s.meter.afterExit i } := rfl

/-- The set that the search walks is the set of R2. -/
theorem tagSet_val (t : Tag) : (tagSet t).val = homeSet t := rfl

/-- A check passes exactly when the code covers the fields as they stand and was not inverted (R5). -/
theorem Record.passes_iff (r : Record) : r.passes = true ↔ r.code = ⟨r.cov, false⟩ := by
  simp [Record.passes]

/-- A code written in full passes unless it was inverted (R5, R10). -/
theorem Record.seal_passes (r : Record) (b : Bool) : (r.seal b).passes = !b := by
  cases b <;> simp [Record.passes, Record.seal]

/-! ### Damage discovery (R7, R8) -/

/-- A discovery does what R7 and R8 say, and touches nothing but the record table, the sums, the capture and the
events. -/
theorem State.discover_discovers (s : State) (i : Slot) (op : FaultOp) :
    s.Discovers (s.discover i op) i op
      ∧ (s.discover i op).engine.service = s.engine.service
      ∧ s.discover i op = { s with
        slots := (s.discover i op).slots
        meter := (s.discover i op).meter
        engine := (s.discover i op).engine
        events := (s.discover i op).events } := by
  have hb : Event.recordDamaged.bit = 0x010 := by decide
  unfold State.Discovers
  cases hc : s.engine.capture <;> by_cases ha : (s.slot i).cov.state = .active <;>
    simp [State.discover, State.offerCapture, State.exitActive_eq, ha, hc, State.raise, State.withEvents,
      State.withEngine, State.setSlot, State.withSlots, Record.withState, hb, Meter.afterExit]

/-! ### Line-driven moves over a list of slots (R4, R31) -/

/-- A walk of moves changes nothing but the record table and the sums. -/
theorem foldl_moveIn_frame (l : List Slot) (s : State) :
    l.foldl State.moveIn s = { s with slots := (l.foldl State.moveIn s).slots, meter := (l.foldl State.moveIn s).meter } := by
  induction l generalizing s with
  | nil => rfl
  | cons i l ih =>
    rw [List.foldl_cons, ih]
    unfold State.moveIn
    split <;> rfl

theorem foldl_moveOut_frame (l : List Slot) (s : State) :
    l.foldl State.moveOut s
      = { s with slots := (l.foldl State.moveOut s).slots, meter := (l.foldl State.moveOut s).meter } := by
  induction l generalizing s with
  | nil => rfl
  | cons i l ih =>
    rw [List.foldl_cons, ih]
    unfold State.moveOut
    split <;> rfl

/-- A walk into service over a list without repeats: each STANDBY record of the list becomes ACTIVE with its rates
counted; every other slot keeps its record and its counted rates. -/
theorem foldl_moveIn_spec (l : List Slot) (hl : l.Nodup) (s : State) :
    let t := l.foldl State.moveIn s
    let moved := l.filter fun i => (s.slot i).cov.state == .standby
    (∀ i, t.slot i = if i ∈ moved then (s.slot i).moveState .active else s.slot i)
      ∧ (∀ i, t.meter.countedUp[i] = if i ∈ moved then (s.slot i).cov.upCir else s.meter.countedUp[i])
      ∧ (∀ i, t.meter.countedDown[i] = if i ∈ moved then (s.slot i).cov.downCir else s.meter.countedDown[i])
      ∧ t.meter.sumUp = s.meter.sumUp + (moved.map fun i => (s.slot i).cov.upCir).sum
      ∧ t.meter.sumDown = s.meter.sumDown + (moved.map fun i => (s.slot i).cov.downCir).sum
      ∧ t.meter.f = s.meter.f := by
  induction l generalizing s with
  | nil => simp
  | cons j l ih =>
    obtain ⟨hj, hl⟩ := List.nodup_cons.1 hl
    simp only [List.foldl_cons]
    by_cases hs : (s.slot j).cov.state = .standby
    · have e : s.moveIn j = (s.setSlot j ((s.slot j).moveState .active)).enterActive j := by simp [State.moveIn, hs]
      have hslot : ∀ i, (s.moveIn j).slot i = if i = j then (s.slot j).moveState .active else s.slot i := by
        intro i; rw [e, State.enterActive_eq]
        show ((s.setSlot j _).slot i) = _
        rw [State.setSlot_slot]; by_cases h : j = i <;> simp [h, eq_comm]
      have hf : (l.filter fun i => ((s.moveIn j).slot i).cov.state == .standby)
          = l.filter fun i => (s.slot i).cov.state == .standby := by
        apply List.filter_congr; intro i hi
        have : i ≠ j := fun h => hj (h ▸ hi)
        simp [hslot, this]
      have := ih hl (s.moveIn j)
      simp only [hf] at this
      obtain ⟨h1, h2, h3, h4, h5, h6⟩ := this
      have hm : (s.moveIn j).meter = s.meter.afterEntry j (s.slot j).cov.upCir (s.slot j).cov.downCir := by
        rw [e, State.enterActive_eq, State.setSlot_slot]; simp [Record.moveState]
      have hne : ∀ i ∈ l.filter (fun i => (s.slot i).cov.state == .standby), i ≠ j := by
        intro i hi h; exact hj (h ▸ (List.mem_filter.1 hi).1)
      have hmap : ∀ q : Record → Nat, ((l.filter fun i => (s.slot i).cov.state == .standby).map
          fun i => q ((s.moveIn j).slot i)) = (l.filter fun i => (s.slot i).cov.state == .standby).map
          fun i => q (s.slot i) := by
        intro q; apply List.map_congr_left; intro i hi; simp [hslot, hne i hi]
      have hu := hmap fun r => r.cov.upCir
      have hd := hmap fun r => r.cov.downCir
      simp only [List.filter_cons, hs, beq_self_eq_true, if_true, List.mem_cons, List.map_cons, List.sum_cons]
      refine ⟨?_, ?_, ?_, ?_, ?_, ?_⟩
      · intro i; rw [h1]
        by_cases hij : i = j
        · subst hij; simp [hj, hslot]
        · simp [hij, hslot]
      · intro i; rw [h2, hm]
        by_cases hij : i = j
        · subst hij; simp [hj, Meter.afterEntry]
        · have : ¬ j.val = i.val := fun h => hij (Fin.ext h.symm)
          simp [hij, hslot, Meter.afterEntry, this]
      · intro i; rw [h3, hm]
        by_cases hij : i = j
        · subst hij; simp [hj, Meter.afterEntry]
        · have : ¬ j.val = i.val := fun h => hij (Fin.ext h.symm)
          simp [hij, hslot, Meter.afterEntry, this]
      · rw [h4, hm, hu]; simp [Meter.afterEntry]; omega
      · rw [h5, hm, hd]; simp [Meter.afterEntry]; omega
      · rw [h6, hm]; rfl
    · have e : s.moveIn j = s := by simp [State.moveIn, hs]
      have hb : ((s.slot j).cov.state == RecordState.standby) = false := by simpa using hs
      simp only [e, List.filter_cons, hb]
      exact ih hl s

/-- A walk out of service over a list without repeats: each ACTIVE record of the list becomes STANDBY and its counted
rates leave the sums; every other slot keeps its record and its counted rates. -/
theorem foldl_moveOut_spec (l : List Slot) (hl : l.Nodup) (s : State) :
    let t := l.foldl State.moveOut s
    let moved := l.filter fun i => (s.slot i).cov.state == .active
    (∀ i, t.slot i = if i ∈ moved then (s.slot i).moveState .standby else s.slot i)
      ∧ (∀ i, t.meter.countedUp[i] = if i ∈ moved then 0 else s.meter.countedUp[i])
      ∧ (∀ i, t.meter.countedDown[i] = if i ∈ moved then 0 else s.meter.countedDown[i])
      ∧ t.meter.sumUp = s.meter.sumUp - (moved.map fun i => s.meter.countedUp[i]).sum
      ∧ t.meter.sumDown = s.meter.sumDown - (moved.map fun i => s.meter.countedDown[i]).sum
      ∧ t.meter.f = s.meter.f := by
  induction l generalizing s with
  | nil => simp
  | cons j l ih =>
    obtain ⟨hj, hl⟩ := List.nodup_cons.1 hl
    simp only [List.foldl_cons]
    by_cases hs : (s.slot j).cov.state = .active
    · have e : s.moveOut j = (s.setSlot j ((s.slot j).moveState .standby)).exitActive j := by simp [State.moveOut, hs]
      have hslot : ∀ i, (s.moveOut j).slot i = if i = j then (s.slot j).moveState .standby else s.slot i := by
        intro i; rw [e, State.exitActive_eq]
        show ((s.setSlot j _).slot i) = _
        rw [State.setSlot_slot]; by_cases h : j = i <;> simp [h, eq_comm]
      have hf : (l.filter fun i => ((s.moveOut j).slot i).cov.state == .active)
          = l.filter fun i => (s.slot i).cov.state == .active := by
        apply List.filter_congr; intro i hi
        have : i ≠ j := fun h => hj (h ▸ hi)
        simp [hslot, this]
      have := ih hl (s.moveOut j)
      simp only [hf] at this
      obtain ⟨h1, h2, h3, h4, h5, h6⟩ := this
      have hm : (s.moveOut j).meter = s.meter.afterExit j := by rw [e, State.exitActive_eq]; rfl
      have hne : ∀ i ∈ l.filter (fun i => (s.slot i).cov.state == .active), ¬ j.val = i.val := by
        intro i hi h; exact hj (Fin.ext h ▸ (List.mem_filter.1 hi).1)
      have hu : ((l.filter fun i => (s.slot i).cov.state == .active).map fun i => (s.moveOut j).meter.countedUp[i])
          = (l.filter fun i => (s.slot i).cov.state == .active).map fun i => s.meter.countedUp[i] := by
        apply List.map_congr_left; intro i hi
        simp [hm, Meter.afterExit, hne i hi]
      have hd : ((l.filter fun i => (s.slot i).cov.state == .active).map fun i => (s.moveOut j).meter.countedDown[i])
          = (l.filter fun i => (s.slot i).cov.state == .active).map fun i => s.meter.countedDown[i] := by
        apply List.map_congr_left; intro i hi
        simp [hm, Meter.afterExit, hne i hi]
      simp only [List.filter_cons, hs, beq_self_eq_true, if_true, List.mem_cons, List.map_cons, List.sum_cons]
      refine ⟨?_, ?_, ?_, ?_, ?_, ?_⟩
      · intro i; rw [h1]
        by_cases hij : i = j
        · subst hij; simp [hj, hslot]
        · simp [hij, hslot]
      · intro i; rw [h2, hm]
        by_cases hij : i = j
        · subst hij; simp [hj, Meter.afterExit]
        · have : ¬ j.val = i.val := fun h => hij (Fin.ext h.symm)
          simp [hij, Meter.afterExit, this]
      · intro i; rw [h3, hm]
        by_cases hij : i = j
        · subst hij; simp [hj, Meter.afterExit]
        · have : ¬ j.val = i.val := fun h => hij (Fin.ext h.symm)
          simp [hij, Meter.afterExit, this]
      · rw [h4, hu, hm]; simp only [Meter.afterExit]; omega
      · rw [h5, hd, hm]; simp only [Meter.afterExit]; omega
      · rw [h6, hm]; rfl
    · have e : s.moveOut j = s := by simp [State.moveOut, hs]
      have hb : ((s.slot j).cov.state == RecordState.active) = false := by simpa using hs
      simp only [e, List.filter_cons, hb]
      exact ih hl s

/-- A line's entry into IN_SERVICE, over an attached list without repeats, does what R4 and R50 say, and touches
nothing but the record table and the sums. -/
theorem State.enterService_enters (s : State) (n : LineNo) (h : (s.line n).attached.Nodup) :
    s.EntersService (s.enterService n) n
      ∧ s.enterService n = { s with slots := (s.enterService n).slots, meter := (s.enterService n).meter } :=
  ⟨foldl_moveIn_spec _ h s, foldl_moveIn_frame _ s⟩

/-- A line's exit from IN_SERVICE, over an attached list without repeats, does what R4 and R50 say, and touches nothing
but the record table and the sums. -/
theorem State.leaveService_leaves (s : State) (n : LineNo) (h : (s.line n).attached.Nodup) :
    s.LeavesService (s.leaveService n) n
      ∧ s.leaveService n = { s with slots := (s.leaveService n).slots, meter := (s.leaveService n).meter } :=
  ⟨foldl_moveOut_spec _ h s, foldl_moveOut_frame _ s⟩

end Sys2Proof.Machine
end

