-- ==== Sys2Proof/Laws/Link.lean ====
section
/-! SUPPORT. What is due and what `settle` leaves: a settled state is left as it is, and any other state is left settled. -/

namespace Sys2Proof.Machine

/-- Nothing is due exactly in a settled state. -/
theorem internal_eq_none_iff (s : State) : s.internal = none ↔ s.Settled := by
  unfold State.internal State.Settled State.verdictDue State.roundDue State.rosterDue State.lookupDue
    State.managementDue State.engineFree State.txIdle
  cases hs : s.link.sending <;> cases hr : s.link.refusals <;> cases hh : s.link.held <;>
    cases hp : s.round.phase <;> cases hq : s.link.queue <;> cases hw : s.port.state.waiting <;>
    cases he : s.engine.service <;>
    simp [State.completionDue, RoundPhase.offering, hh, he]

/-- A settled state is left as it is. -/
theorem settle_of_settled {s : State} (h : s.Settled) : s.settle = s := by
  have hn := (internal_eq_none_iff s).2 h
  simp [State.settle, State.settleFor, hn]

/-! ### How much can be due -/

/-- What the table engine, the arbiter and the round engine can still make: an idle transmitter counts 3, an empty held
verdict 2, a free engine 1, a waiting roster request 1. -/
def State.due (s : State) : Nat :=
  3 * s.link.sending.isNone.toNat + 2 * s.link.held.isNone.toNat + (s.engine.service == .free).toNat
    + (s.round.phase == .snapshotWait).toNat

/-- A decision leaves the link and the round engine as they are. -/
theorem State.decide_frame (s : State) (q : Request) :
    (s.decide q).1.link = s.link ∧ (s.decide q).1.round = s.round := by
  have hd : ∀ i op, (s.discover i op).link = s.link ∧ (s.discover i op).round = s.round := by
    intro i op
    rw [(s.discover_discovers i op).2.2]
    exact ⟨rfl, rfl⟩
  simp only [State.decide, State.decideFound]
  repeat' split
  all_goals first
    | exact ⟨rfl, rfl⟩
    | exact hd _ _

/-- A record command leaves the link and the round engine as they are. -/
theorem State.takeCommand_frame (s : State) (c : RecordCommand) :
    (s.takeCommand c).state.link = s.link ∧ (s.takeCommand c).state.round = s.round := by
  have hd : ∀ i op, (s.discover i op).link = s.link ∧ (s.discover i op).round = s.round := by
    intro i op
    rw [(s.discover_discovers i op).2.2]
    exact ⟨rfl, rfl⟩
  cases c <;>
    simp only [State.takeCommand, State.takeAdmit, State.takeAmend, State.takeRetire, State.takeRetireSlot,
      State.takeBar, State.takeUnbar, State.takeLookUp] <;>
    (repeat' split) <;>
    first
      | exact ⟨rfl, rfl⟩
      | exact hd _ _
      | (simp only [State.admitAt, State.reportEntry, State.recount, State.retireAt]; split <;> exact ⟨rfl, rfl⟩)

/-- The roster's discoveries leave the link, the round engine and the request in service as they are. -/
theorem foldl_discover_frame (l : List Slot) (op : FaultOp) (s : State) :
    let t := l.foldl (fun s i => s.discover i op) s
    t.link = s.link ∧ t.round = s.round ∧ t.engine.service = s.engine.service := by
  induction l generalizing s with
  | nil => exact ⟨rfl, rfl, rfl⟩
  | cons i l ih =>
    obtain ⟨h1, h2, h3⟩ := ih (s.discover i op)
    obtain ⟨-, hs, hf⟩ := s.discover_discovers i op
    refine ⟨h1.trans ?_, h2.trans ?_, h3.trans hs⟩
    · rw [hf]
    · rw [hf]

/-- Handing a round message over occupies the transmitter, leaves the held verdict and the engine as they are, and may
start one round. -/
theorem State.emitRound_due (s : State) (l : List Share) (e : Emission) :
    (s.emitRound l e).link.sending ≠ none ∧ (s.emitRound l e).link.held = s.link.held
      ∧ (s.emitRound l e).engine = s.engine := by
  induction l generalizing e with
  | nil =>
    simp only [State.emitRound, State.sendRoundEnd]
    split <;> simp [State.startRound]
  | cons x xs ih =>
    simp only [State.emitRound]
    split
    · simp [State.sendGrant]
    · exact ih _

/-- Each internal event leaves less that can still be due. -/
theorem internal_due {s t : State} (h : s.internal = some t) : t.due < s.due := by
  unfold State.internal at h
  split at h
  · rename_i hv
    obtain rfl := Option.some.inj h
    simp only [State.verdictDue, State.txIdle, Bool.and_eq_true] at hv
    unfold State.sendVerdict State.due
    split
    · simp [hv.1]
    · cases hh : s.link.held with
      | none => simp_all
      | some v => simp [hv.1]
  split at h
  · rename_i hv
    obtain rfl := Option.some.inj h
    simp only [State.roundDue, State.txIdle, Bool.and_eq_true] at hv
    unfold State.sendRound
    cases hp : s.round.phase with
    | idle => simp [hp, RoundPhase.offering] at hv
    | snapshotWait => simp [hp, RoundPhase.offering] at hv
    | emitting e =>
      obtain ⟨h1, h2, h3⟩ := s.emitRound_due e.offers e
      have := Bool.toNat_le ((s.emitRound e.offers e).round.phase == .snapshotWait)
      have h1' : (s.emitRound e.offers e).link.sending.isNone = false := by
        simpa [← Option.ne_none_iff_isSome] using h1
      simp only [State.due, h1', h2, h3, hv.1.1.1, Bool.toNat_true, Bool.toNat_false]
      omega
  split at h
  · rename_i hv
    obtain rfl := Option.some.inj h
    unfold State.completionDue at hv
    unfold State.completeResolve State.due
    cases he : s.engine.service <;> simp_all
    omega
  split at h
  · rename_i hv
    obtain rfl := Option.some.inj h
    simp only [State.rosterDue, State.engineFree, Bool.and_eq_true] at hv
    obtain ⟨h1, -, h3⟩ := foldl_discover_frame s.unsound .roster s
    simp only [State.snapshot, State.due, State.withRound_link, State.withRound_engine, State.withRound_round, h1, h3,
      hv.1, hv.2, Bool.toNat_true]
    simp
  split at h
  · rename_i hv
    obtain rfl := Option.some.inj h
    simp only [State.lookupDue, State.engineFree, Bool.and_eq_true] at hv
    unfold State.lookupHead State.lookup
    cases hq : s.link.queue with
    | nil => simp [hq] at hv
    | cons q rest =>
      obtain ⟨h1, h2⟩ := (s.withLink { s.link with queue := rest }).decide_frame q
      simp only [State.due, State.withEngine_link, State.withEngine_engine, State.withEngine_round, h1, h2, hv.1.1]
      simp
  split at h
  · rename_i hv
    obtain rfl := Option.some.inj h
    simp only [State.managementDue, State.engineFree, Bool.and_eq_true] at hv
    unfold State.takeWaiting State.takeManagement
    cases hc : s.port.state.waiting with
    | none => simp [hc] at hv
    | some c =>
      obtain ⟨h1, h2⟩ := s.takeCommand_frame c
      simp [State.due, h1, h2, hv.1.1.1]
  · exact absurd h (by simp)

/-- With as many internal events as can be due, nothing stays due. -/
theorem settleFor_settled (k : Nat) (s : State) (h : s.due ≤ k) : (s.settleFor k).internal = none := by
  induction k generalizing s with
  | zero =>
    unfold State.settleFor
    cases hi : s.internal with
    | none => rfl
    | some t => have := internal_due hi; omega
  | succ k ih =>
    unfold State.settleFor
    cases hi : s.internal with
    | none => simpa using hi
    | some t => have := internal_due hi; exact ih t (by omega)

/-- Whatever was due has happened (R12, R62, R69). -/
theorem settle_settled (s : State) : s.settle.Settled :=
  (internal_eq_none_iff _).1 (settleFor_settled 10 s (by
    have := Bool.toNat_le s.link.sending.isNone
    have := Bool.toNat_le s.link.held.isNone
    have := Bool.toNat_le (s.engine.service == .free)
    have := Bool.toNat_le (s.round.phase == .snapshotWait)
    unfold State.due; omega))

end Sys2Proof.Machine
end

