-- ==== Sys2Proof/Laws/Load.lean ====
section
/-! SUPPORT. The load and the event flags: what they depend on, and what one line's change of lit condition makes of the load. -/

namespace Sys2Proof.Machine

/-! ### Events -/

/-- The bit of an event by its number (Table 64). -/
theorem Event.bit_getLsbD (e : Event) (k : Nat) (h : k < 9) : e.bit.getLsbD k = (k == e.number) := by
  cases e <;> interval_cases k <;> decide

/-- An event raised sets its own flag alone. -/
theorem State.raise_eq (s : State) (e : Event) :
    s.raise e = { s with events := { s.events with pending := s.events.pending ||| e.bit } } := rfl

/-- ATTN is high while some event is pending and enabled (R163). -/
theorem State.attn_eq_true_iff (s : State) : s.attn = true ↔ s.events.pending &&& s.events.mask ≠ 0 := by
  simp [State.attn]

/-! ### The load (R141) -/

/-- The load depends on the lit lines, the costs and the head alone. -/
theorem load_congr {s t : State} (hl : ∀ n, t.lit n = s.lit n) (hc : t.settings.cost = s.settings.cost)
    (hh : t.head.headen = s.head.headen) (hk : t.settings.headCost = s.settings.headCost) : t.load = s.load := by
  simp only [State.load, hl, hc, hh, hk]

/-- A line that becomes lit, everything else of the load the same, adds its cost. -/
theorem load_of_lit {s t : State} {n : LineNo} (hn : s.lit n = false) (ht : t.lit n = true)
    (hl : ∀ m, m ≠ n → t.lit m = s.lit m) (hc : t.settings.cost = s.settings.cost)
    (hh : t.head.headen = s.head.headen) (hk : t.settings.headCost = s.settings.headCost) :
    t.load = s.load + s.settings.cost[n] := by
  have h : ∀ f : LineNo → Nat, ((List.finRange 24).map f).sum = f n + ∑ m ∈ Finset.univ.erase n, f m := by
    intro f
    rw [← Fin.sum_univ_def, Finset.add_sum_erase _ _ (Finset.mem_univ n)]
  have hs : ∑ m ∈ Finset.univ.erase n, (if t.lit m then s.settings.cost[m] else 0)
      = ∑ m ∈ Finset.univ.erase n, (if s.lit m then s.settings.cost[m] else 0) := by
    apply Finset.sum_congr rfl
    intro m hm
    rw [hl m (Finset.ne_of_mem_erase hm)]
  simp only [State.load, hc, hh, hk, h, hs, hn, ht]
  simp
  omega

/-- A line that leaves the lit set, everything else of the load the same, takes its cost away. -/
theorem load_of_unlit {s t : State} {n : LineNo} (hn : s.lit n = true) (ht : t.lit n = false)
    (hl : ∀ m, m ≠ n → t.lit m = s.lit m) (hc : t.settings.cost = s.settings.cost)
    (hh : t.head.headen = s.head.headen) (hk : t.settings.headCost = s.settings.headCost) :
    t.load + s.settings.cost[n] = s.load := by
  have := load_of_lit (s := t) (t := s) ht hn (fun m hm => (hl m hm).symm) hc.symm hh.symm hk.symm
  rw [this, hc]

end Sys2Proof.Machine
end

