-- ==== Sys2Proof/Laws/Port.lean ====
section
/-! SUPPORT. What the port makes of an arrival: one lemma for each case of R154, and the port's operations as record updates. -/

namespace Sys2Proof.Machine

variable {s : State} {f : Frame}

/-! ### The port's operations as record updates -/

/-- The word shifted out in slot 1 of the transaction that ends: the status word latched at its falling edge, or, where no
falling edge was met, the status word as it stands (R152, log entry 12). -/
def State.slot1Word (s : State) : Word16 :=
  match s.port.txn with
  | some t => t.status
  | none => s.statusWord

/-- The port after an arrival that leaves it in a port state: chip select is high and no transaction is in progress; slot 1
has shifted out its word (R152, R154). -/
def State.portAfter (s : State) (p : PortState) : Port := ⟨p, s.port.busy, false, none, [s.slot1Word]⟩

/-- A command that answers a state with the port as the end of its transaction leaves it. -/
theorem State.leaves_of_portAfter {c : Instr} {u : State} {p : PortState}
    (h : exec c s = .next { u with port := s.portAfter p }) : s.Leaves c u p :=
  ⟨s.slot1Word, h, fun x hx => by simp [State.slot1Word, hx]⟩

theorem State.endCommand_eq (s : State) : s.endCommand = { s with port := s.portAfter s.port.state } := rfl

theorem State.csRise_eq (s : State) : s.csRise = { s with port := { s.port with csLow := false, txn := none } } := rfl

theorem State.answer_eq (s : State) (code : Byte) (r : ResultCode) (data : List Word16) :
    s.answer code r data = { s with port := { s.port with state := .ready (resultWord code r :: data) } } := rfl

theorem State.refuseBusy_eq (s : State) :
    s.refuseBusy = { s with port := { s.portAfter s.port.state with busy := true } } := rfl

/-- The result word of Table 73 as the model computes it is the command echo over the result code. -/
theorem resultWord_eq_echoed (code : Byte) (r : ResultCode) : resultWord code r = echoed code r := by
  have h : r.code < 256 := by cases r <;> decide
  apply BitVec.eq_of_toNat_eq
  simp only [resultWord, w16, echoed, BitVec.toNat_append, BitVec.toNat_ofNat]
  have hc := code.isLt
  rw [Nat.shiftLeft_eq, ← Nat.shiftLeft_eq, ← Nat.shiftLeft_add_eq_or_of_lt (by omega), Nat.shiftLeft_eq]
  omega

/-! ### The judgement of R154 -/

theorem frameOk_iff (f : Frame) : frameOk f = true ↔ FrameSound f := by
  simp [frameOk, and_assoc]

/-- At an arrival the transaction in progress, if any, is not a fetch. -/
theorem fetching_of_arrives (h : s.Arrives) : s.port.fetching = false := by
  unfold Port.fetching
  split
  · exact h.2.2 _ ‹_›
  · rfl

theorem ignored_of_arrives (h : s.Arrives) : (s.port.csLow && s.port.txn.isNone) = false := by
  have h2 := h.2.1
  cases hc : s.port.csLow <;> cases ht : s.port.txn <;> simp_all

theorem arrival_of_wait {w : InFlight} (h : s.Arrives) (hw : s.port.state = .wait w) (k : Option Nat) :
    s.arrival f k = .busy := by
  simp [State.arrival, h.1, ignored_of_arrives h, fetching_of_arrives h, hw, PortState.waits]

theorem arrival_of_unsound (h : s.Arrives) (hw : s.port.state.waits = false) (hf : ¬ FrameSound f) (k : Option Nat) :
    s.arrival f k = .illegal := by
  have hf' : frameOk f = false := by rw [← Bool.not_eq_true, frameOk_iff]; exact hf
  simp [State.arrival, h.1, ignored_of_arrives h, fetching_of_arrives h, hw, hf']

theorem arrival_of_sound (h : s.Arrives) (hw : s.port.state.waits = false) (hf : FrameSound f) (k : Option Nat) :
    s.arrival f k = match k with
      | none => .illegal
      | some n => if f.count.toNat = n then .accepted else .badCount := by
  cases k <;> simp [State.arrival, h.1, ignored_of_arrives h, fetching_of_arrives h, hw, (frameOk_iff f).2 hf]

/-- A command row inside an open fetch (R151, log entry 4). -/
theorem arrival_of_fetching (h : s.hold = none) (hf : s.port.fetching = true) (k : Option Nat) :
    s.arrival f k = .overlapped := by
  have ht : s.port.txn.isNone = false := by
    unfold Port.fetching at hf
    split at hf <;> simp_all
  simp [State.arrival, h, ht, hf]

theorem arrival_of_accepts {argc : Nat} (h : s.Accepts f argc) : s.arrival f (some argc) = .accepted := by
  rw [arrival_of_sound h.1 h.2.1 h.2.2.1]
  simp [h.2.2.2]

/-! ### What the three kinds of command leave -/

/-- An immediate command that is carried out: its act on the state whose transaction has ended, then its answer. -/
theorem immediate_of_accepts {code : Byte} {argc : Nat} {act : Immediate} (h : s.Accepts f argc) :
    s.immediate code argc f act =
      (act f.args s.endCommand).state.answer code (act f.args s.endCommand).result (act f.args s.endCommand).data := by
  simp [State.immediate, arrival_of_accepts h]

/-- A timed command that is accepted: the port waits for it, and its owner begins. -/
theorem timed_of_accepts {code : Byte} {argc : Nat} {c : InFlight} {begun : State → State} (h : s.Accepts f argc) :
    s.timed code argc f c begun = begun { s with port := s.portAfter (.wait c) } := by
  simp only [State.timed, arrival_of_accepts h]
  rfl

/-- An accepted command has as many arguments as Table 61 gives it. -/
theorem args_length_of_accepts {argc : Nat} (h : s.Accepts f argc) : f.args.length = argc := by
  rw [h.2.2.1.2.2, h.2.2.2]

end Sys2Proof.Machine
end

