-- ==== Sys2Proof/Laws/Tests.lean ====
section
/-! SUPPORT. Tests in flight: what an abort leaves, and what a test goes on with. -/

namespace Sys2Proof.Machine

theorem Head.toIdle_eq (h : Head) : h.toIdle = h.resting := rfl

theorem Head.powerOff_eq (h : Head) : h.powerOff = h.unpowered := rfl

/-- What the head starts for a measurement, by its rules. -/
theorem startOf_eq_begun (g : Settings) (m : Meas) : startOf g m = m.begun g := by cases m <;> rfl

/-- An abort of the test in flight (R125). -/
theorem State.abort_eq_aborted {s : State} {x : Test} (h : s.tests.current = some x) (c : Cause) :
    s.abort c = s.aborted x c := by
  unfold State.abort
  simp only [h]
  rfl

/-- Measurements are found by number in their fixed order (R123). -/
theorem TestEntry.itemFrom_eq_some_iff (e : TestEntry) (k : Nat) (m : Meas) :
    e.itemFrom k = some m ↔
      (k ≤ m.number.val ∧ e.items.getLsbD m.number.val = true)
        ∧ ∀ j : Meas, k ≤ j.number.val → j.number.val < m.number.val → e.items.getLsbD j.number.val = false := by
  have key : ∀ p : Meas → Bool, Meas.all.find? p = some m ↔
      p m = true ∧ ∀ j : Meas, j.number.val < m.number.val → p j = false := by
    intro p
    constructor
    · intro h
      refine ⟨List.find?_some h, fun j hj => ?_⟩
      cases hp : p j with
      | false => rfl
      | true =>
        revert h hj
        cases m <;> cases j <;> simp [Meas.number, Meas.all, List.find?_cons, hp] <;>
          (repeat' split) <;> simp_all
    · rintro ⟨hm, hj⟩
      cases m <;> simp_all [Meas.all, Meas.number]
  unfold TestEntry.itemFrom
  rw [key]
  simp only [Bool.and_eq_true, decide_eq_true_eq, Bool.and_eq_false_iff, decide_eq_false_iff_not]
  constructor
  · rintro ⟨h, g⟩
    exact ⟨h, fun j hk hj => (g j hj).resolve_left (fun n => n hk)⟩
  · rintro ⟨h, g⟩
    refine ⟨h, fun j hj => ?_⟩
    by_cases hk : k ≤ j.number.val
    · exact .inr (g j hk hj)
    · exact .inl hk

/-- No measurement is found exactly where none is requested from number `k` on. -/
theorem TestEntry.itemFrom_eq_none_iff (e : TestEntry) (k : Nat) :
    e.itemFrom k = none ↔ ∀ m : Meas, k ≤ m.number.val → e.items.getLsbD m.number.val = false := by
  unfold TestEntry.itemFrom
  rw [List.find?_eq_none]
  constructor
  · intro h m hk
    have := h m (by cases m <;> decide)
    simpa [hk] using this
  · intro h m _
    by_cases hk : k ≤ m.number.val
    · rw [h m hk]; simp
    · simp [hk]

/-- A test goes on with the first requested measurement from number `k` on, else with its tone, else to DISCONNECT
(R104, R123). -/
theorem State.proceed_goesOn (s : State) (x : Test) (k : Nat) : s.GoesOn (s.proceed x k) x k := by
  constructor
  · intro m hk hm hj
    have h := (x.entry.itemFrom_eq_some_iff k m).2 ⟨⟨hk, hm⟩, hj⟩
    unfold State.proceed
    simp only [h, startOf_eq_begun]
    rfl
  · intro hn
    have h := (x.entry.itemFrom_eq_none_iff k).2 hn
    constructor
    · intro v hv
      unfold State.proceed
      simp only [h, hv]
      rfl
    · intro hv
      unfold State.proceed
      simp only [h, hv]
      rfl

/-- A measurement's completion keeps its result, rests the head and goes on with the next requested item (R103, R105,
R123). -/
theorem State.completeMeasure_goesOn {s : State} {x : Test} (h : s.tests.current = some x) (m : Meas) (r : Result) :
    { s with head := s.head.resting }.GoesOn (s.completeMeasure m r)
      { x with results := x.results.set m.number (some r) } (m.number.val + 1) := by
  unfold State.completeMeasure
  simp only [h]
  exact State.proceed_goesOn _ _ _

end Sys2Proof.Machine
end

