-- ==== Sys2Proof/WellFormed.lean ====
section
/-! DEFINITION. Which terms of Instr stand for a step the part can meet. -/

namespace Sys2Proof

/-- Codes 1Dh to FFh are not commands (Table 61); 00h marks a fetch (R151). -/
def isUndefinedCode (code : Byte) : Bool := decide (0x1D ≤ code.toNat)

/-- The inbound message types other than 01h to 03h (R175). -/
def isUnknownType (kind : Byte) : Bool := decide (kind.toNat = 0 ∨ 4 ≤ kind.toNat)

/-- The BSENSE input range is 0 to 6.4 V (Table 84); the operand is in microvolts. -/
def isSenseVoltage (bsense : Nat) : Bool := decide (bsense ≤ 6400000)

/-- The check of each operand that its type alone leaves too wide. -/
def Instr.wellFormed : Instr → Bool
  | .undefinedCommandCode code _ => isUndefinedCode code
  | .unknownInboundTypeDiscard kind => isUnknownType kind
  | .comparisonSettleExpiry bsense => isSenseVoltage bsense
  | .sampleEnd bsense _ => isSenseVoltage bsense
  | .admitService _ | .amendService _ | .retireService _ | .retireSlot _ | .barService _ | .unbarService _
  | .lookUpService _ | .probeSlot _ | .clearCounters _ | .forceCheckError _ | .readFault _ | .lightLine _
  | .serveLine _ | .suspendLine _ | .darkenLine _ | .clearFault _ | .readLine _ | .requestTest _ | .cancelTest _
  | .readTestQueue _ | .readLadder _ | .readStatus _ | .acknowledgeEvents _ | .setEventMask _ | .readSetting _
  | .writeSetting _ | .storeSettings _ | .restart _ | .transactionBegin | .fetch _ | .fetchComplete _
  | .managementRequestTake | .managementRequestCompletion | .storeCompletion _ | .resolve _ _ _ | .backlog _ _
  | .capacity _ _ | .lookupEvent | .resolveCompletion | .verdictEmission | .transmissionCompletion | .cycleExpiry
  | .rosterSnapshot | .grantEmission | .roundEndEmission | .powerChainLatch | .relayLatchCompletion
  | .relaySettleExpiry | .pathSettleExpiry _ | .converterSample _ | .referenceGateExpiry | .pairGateExpiry
  | .capinEdge _ | .captureTimeout | .dischargeExpiry | .cadenceExpiry | .toneDurationExpiry | .testCompletion
  | .minuteTickExpiry | .oneSecondTickExpiry | .recordDisturbance _ | .powerOnReset | .pinReset | .supplyReturn
  | .resetnRise | .settingsLoadCompletion | .inboundByteTaken _ _ | .oscillatorEdge | .nonvolatileValueLoss => true

end Sys2Proof
end

