-- ==== Sys2Proof/Tests/Slice0.lean ====
section
/-! SUPPORT. Tests: ill-formed terms refused, worked examples of the spec, and for each obligation with hypotheses a concrete state and operands that meet them. -/

namespace Sys2Proof.Tests

set_option Elab.async false

open Sys2Proof.Machine

/-! ### Helpers -/

/-- A well-formed frame with these arguments. -/
def fr (args : List Word16) : Frame := ⟨0, BitVec.ofNat 5 args.length, args, false⟩

/-- A step answers a next state with a property. -/
def leaves (o : StepOutcome) (p : State → Bool) : Bool :=
  match o with
  | .next t => p t
  | .fault _ => false
  | .refused _ => false

/-- The fields of service 12345h (set 21, slot 84 by Table 10) on line 5, with the rates of 101h in section 3.8. -/
def cov (st : RecordState) : Covered := ⟨0x12345, 5, .standard, st, 160, 320, 40, 60, 2, 800, 1600, 60, 100⟩

/-- Its record with full buckets and demand 12; `bad` inverts the check code. -/
def record (st : RecordState) (bad : Bool) : Record := ⟨cov st, 640, 960, 960, 1600, 12, 0, 0, 0, 0, ⟨cov st, bad⟩⟩

/-- Line 5 in a state and service 12345h attached to it; chains idle, the ladder at level 0 after a sample. -/
def placed (l : LineState) (st : RecordState) (bad : Bool := false) : State :=
  let image : Image := if l.lit then 0x20 else 0
  { State.reset with
    slots := State.reset.slots.set 84 (record st bad)
    lines := State.reset.lines.set 5 ⟨l, none, [84], none⟩
    meter := if st = .active then resetMeter.afterEntry 84 160 800 else resetMeter
    power := ⟨image, image, none, none⟩
    relay := ⟨0, 0, none, none⟩
    ladder := ⟨0, 7, true, 0, true, 0, 0, 0, .idle⟩
    events := ⟨0, 0x1FF, .powerOn⟩ }

/-- Line 5 IN_SERVICE with its service ACTIVE. -/
def served : State := placed (.rest .inService) .active

/-- Line 5 SUSPENDED with its service STANDBY. -/
def suspended : State := placed (.rest .suspended) .standby

/-- The transmitter is sending a message. -/
def sends (s : State) : State := { s with link := { s.link with sending := some [0x83, 1, 0, 0, 0, 0, 0, 0] } }

/-- The table engine serves a management request. -/
def serving (s : State) : State := { s with engine := { s.engine with service := .management [0x0100] } }

/-- A transaction has begun with this latched status. -/
def begun (s : State) (status : Word16) (fetch : Bool := false) : State :=
  { s with port := { s.port with csLow := true, txn := some ⟨status, fetch⟩ } }

/-- The port is in a state. -/
def atPort (s : State) (p : PortState) : State := { s with port := { s.port with state := p } }

/-- A test entry for line 5: all seven measurements and a tone, limit set 1, auto-hold. -/
def entry : TestEntry := ⟨5, 0x7F, some ⟨499, 5, 5, 120⟩, 1, true⟩

/-- A test on line 5 in a stage, with the head in a state of that stage. -/
def testing (g : Stage) (p : HeadPhase) : State :=
  let image : Image := if g.holdsPair then 0x20 else 0
  let v := if g = .evaluate then some (⟨.faulty, Vector.replicate 7 none⟩ : Evaluation) else none
  { placed (.underTest .inService) .standby with
    relay := ⟨image, image, none, none⟩
    head := ⟨g.holdsPair, p, .none, false, false, 0, 0⟩
    tests := ⟨[], some ⟨entry, g, Vector.replicate 7 none, false, none, none, v⟩⟩ }

/-- The test in flight waits for a relay settle. -/
def waiting (s : State) : State :=
  { s with tests := { s.tests with current := s.tests.current.map fun x => { x with settle := some 10 } } }

/-- A queue of test entries. -/
def queueOf (s : State) (q : List TestEntry) : State := { s with tests := { s.tests with queue := q } }

/-- A round is EMITTING. -/
def roundOf (s : State) (e : Emission) (deferred : Bool := false) : State :=
  { s with round := { s.round with phase := .emitting e, number := 41, deferred := deferred } }

/-- A grant of 8 credits for service 12345h in slot 84, and one of 3 for a service that slot 12 no longer holds. -/
def good : Share := ⟨⟨84, 0x12345, .standard, 2, 12, 40, 60⟩, 8⟩
def stale : Share := ⟨⟨12, 0x3, .essential, 1, 3, 10, 20⟩, 3⟩

/-- A round with these messages still on offer. -/
def offering (l : List Share) : Emission := ⟨100, 50, l, l, 0, 0, 0⟩

/-- A wholly shed line, marked, with a shed class. -/
def marked (s : State) (c : Nat) : State := { s with
  lines := s.lines.set 5 { s.line 5 with state := .rest .dark, shed := some .inService }
  settings := { s.settings with shedClass := s.settings.shedClass.set 5 c } }

/-- The level, with the sampler in COMPARE_3 against T5. -/
def sampling (s : State) (level : Level) (sampled : Bool := true) : State :=
  { s with ladder := ⟨level, 0, false, 3, sampled, 1, 5, 0, .compare3 true false 96⟩ }

/-- The part is held in reset. -/
def held (s : State) (supply pin load : Bool) : State := s.inReset ⟨supply, pin, load, .pin⟩

/-! ### Ill-formed terms are refused -/

theorem test_wellFormed_command_code : (Instr.undefinedCommandCode 0x1C (fr [])).wellFormed = false
    ∧ (Instr.undefinedCommandCode 0x1D (fr [])).wellFormed = true := by decide

theorem test_wellFormed_inbound_type : (Instr.unknownInboundTypeDiscard 0x03).wellFormed = false
    ∧ (Instr.unknownInboundTypeDiscard 0x04).wellFormed = true := by decide

theorem test_wellFormed_comparison_voltage : (Instr.comparisonSettleExpiry 6400001).wellFormed = false
    ∧ (Instr.comparisonSettleExpiry 6400000).wellFormed = true := by decide

theorem test_wellFormed_sample_voltage : (Instr.sampleEnd 6400001 true).wellFormed = false
    ∧ (Instr.sampleEnd 6400000 true).wellFormed = true := by decide

/-! ### Worked examples of the spec: shared operations -/

/-- Table 10. -/
theorem test_tags_hash_to_set_21 :
    [0x12345, 0x15, 0x34, 0x2A0, 0x5400].map (fun t => homeSet (BitVec.ofNat 20 t)) = [21, 21, 21, 21, 21] := by decide

/-- The example under R14: CIR 800, PIR 400, Dcu 0, Dpu 30, weight 0. -/
theorem test_provision_example :
    let p := (⟨.standard, 0, 800, 400, 0, 30, 0, 0, 1, 1⟩ : Provision).correct
    (p.weight, p.upCir, p.upPir, p.dcu, p.dpu) = (1, 800, 800, 50, 50) := by decide

/-- Table 47, the converter. -/
theorem test_voltage_cases : vdcResult (700 * 8) = ⟨some 917, false, false⟩ ∧ vdcResult (300 * 8) = ⟨some (-1035), false, false⟩
    ∧ vdcResult (513 * 8) = ⟨some 4, false, false⟩ ∧ vdcResult (1023 * 8) = ⟨some 2495, true, false⟩
    ∧ vacResult 212 812 = ⟨some 1464, false, false⟩ ∧ vacResult 0 1023 = ⟨some 2495, true, false⟩ := by decide

/-- Table 47, the oscillator. -/
theorem test_resistance_cases : resResult 100000 5000 500000 = ⟨some 1000, false, false⟩
    ∧ resResult 100000 5000 250 = ⟨some 2000000, false, false⟩ ∧ resResult 100000 5000 40 = ⟨some 10000000, true, false⟩
    ∧ resResult 100000 5000 0 = ⟨some 10000000, true, false⟩ ∧ resResult 100000 0 300 = ⟨none, false, true⟩ := by decide

/-- Table 47, the capture. -/
theorem test_capacitance_cases : capResult 64 (.edge 1200) = ⟨some 300, false, false⟩
    ∧ capResult 64 .timeout = ⟨some 16383, true, false⟩ ∧ capResult 64 .alreadyHigh = ⟨none, false, true⟩ := by decide

/-- The roster of Table 34. -/
def roster : List RosterEntry := [⟨12, 0x3, .essential, 1, 8, 10, 20⟩, ⟨40, 0xA, .standard, 4, 90, 40, 100⟩,
  ⟨56, 0xE, .standard, 2, 50, 30, 60⟩, ⟨88, 0x16, .standard, 2, 0, 20, 80⟩]

/-- Tables 36 and 37: C 100 and C 49, rotating order from slot 50. -/
theorem test_rounds_of_tables_36_and_37 : (computeGrants 100 50 roster).map Share.grant = [8, 54, 38, 0]
    ∧ (computeGrants 49 50 roster).map Share.grant = [8, 23, 18, 0] ∧ nextPointer 50 roster = 57 := by decide

/-- Table 38: C 9, rotating order from slot 10. -/
theorem test_round_of_table_38 :
    let l : List RosterEntry := [⟨5, 1, .essential, 1, 7, 7, 7⟩, ⟨20, 2, .essential, 1, 5, 5, 5⟩, ⟨30, 3, .standard, 1, 10, 10, 10⟩]
    (computeGrants 9 10 l).map Share.grant = [5, 4, 0] ∧ nextPointer 10 l = 21 := by decide

/-- Section 3.8: f with a sum of 4000 and 200 credits, and the refills it gives. -/
theorem test_scale_factor_of_the_fade : scaleFactor 4000 200 = 3276 ∧ 800 * 3276 / 4096 = 639 ∧ 1600 * 3276 / 4096 = 1279
    ∧ scaleFactor 4000 0 = 0 := by decide

/-- Table 24: 650 + 48 and 1610 + 96, then a grant of 54 with claim 40. -/
theorem test_emission_debit_of_table_24 :
    let r := { record .active false with kcu := 698, kpu := 1706, demand := 90 }.payGrant 54 40
    (r.kcu, r.kpu, r.demand) = (58, 842, 36) := by decide

/-- Table 47, the tone. -/
theorem test_tone_frequencies : (⟨499, 5, 5, 1⟩ : ToneVals).hertz = 1000 ∧ (⟨24, 5, 5, 1⟩ : ToneVals).hertz = 20000
    ∧ (⟨4999, 5, 5, 1⟩ : ToneVals).hertz = 100 := by
  refine ⟨?_, ?_, ?_⟩ <;> norm_num [ToneVals.hertz]

/-- Tables 61 and 71: LIGHT LINE with one argument, a code that is no command with its unused bits set, a fetch, and a
transaction without a complete word. -/
theorem test_transaction_rows : transactionRow [0x0C01, 6] false = some (.lightLine (fr [6]))
    ∧ transactionRow [0x1DE0] true = some (.undefinedCommandCode 0x1D ⟨7, 0, [], true⟩)
    ∧ transactionRow [0x00FF] false = some (.fetch 0xFF) ∧ transactionRow [] true = none := by decide

/-- R176: line 23's bit is shifted first, line 0's last, and the strobe follows. -/
theorem test_shift_order : (shiftSignals 0x800000).head? = some (.bit true) ∧ (shiftSignals 1)[23]? = some (.bit true)
    ∧ (shiftSignals 1)[24]? = some .strobe := by decide

/-- R175: the start line is high with byte 0 alone. -/
theorem test_outbound_start_line : ((sends served).link.outbound.map Prod.fst)
    = [true, false, false, false, false, false, false, false] := by decide +kernel

/-! ### Worked examples of the spec: steps -/

/-- The first row of Table 11, less the line's state: 12345h takes slot 84 and joins the list. -/
theorem test_admit_takes_slot_84 :
    leaves (exec (.admitService (fr [1, 0x2345, 0x0702, 160, 320, 40, 60, 800, 1600, 60, 100])) State.reset)
      (fun t => (t.slot 84).cov.state == .standby && (t.line 7).attached == [84]) = true := by decide +kernel

/-- Table 12: an amendment while armed leaves a code that fails. -/
theorem test_amend_consumes_the_arming :
    leaves (exec (.amendService (fr [1, 0x2345, 2, 160, 320, 40, 60, 1000, 1600, 60, 100])) { served with armed := true })
      (fun t => !(t.slot 84).passes && !t.armed && t.meter.sumDown == 1000) = true := by decide +kernel

/-- Table 12: RETIRE SLOT answers the tag and frees the slot. -/
theorem test_retire_slot_answers_the_tag :
    leaves (exec (.retireSlot (fr [84])) served)
      (fun t => t.engine.service == .management [0x0400, 0x0001, 0x2345] && (t.line 5).attached == []
        && t.meter.sumUp == 0) = true := by decide +kernel

/-- Table 18: BAR SERVICE takes the counted rates out of the sums. -/
theorem test_bar_leaves_the_sums :
    leaves (exec (.barService (fr [1, 0x2345])) served)
      (fun t => (t.slot 84).cov.state == .barred && t.meter.sumUp == 0 && t.meter.sumDown == 0) = true := by decide +kernel

/-- Table 23: a frame of 1500 bytes costs 384 sixteenths of each bucket and passes. -/
theorem test_resolve_passes :
    leaves (exec (.resolve 10 0x12345 1500) served)
      (fun t => (t.slot 84).kcd == 576 && (t.slot 84).kpd == 1216 && (t.slot 84).downPassed == 24
        && t.link.sending == some [0x81, 10, 0, 5, 0, 0, 0, 0]) = true := by decide +kernel

/-- Table 12: a failing record is found by a resolve, answered FAULT and captured. -/
theorem test_resolve_discovers_damage :
    leaves (exec (.resolve 10 0x12345 64) (placed (.rest .inService) .active true))
      (fun t => (t.slot 84).cov.state == .damaged && t.engine.capture == some ⟨84, 0x12345, .resolve⟩
        && t.link.sending == some [0x81, 10, 6, 5, 0, 0, 0, 0] && t.events.pending == 0x010) = true := by decide +kernel

/-- Table 30: a report of 9000 is clamped, and ends staleness. -/
theorem test_capacity_clamps :
    leaves (exec (.capacity 9000 140) { served with link := { served.link with stale := true, staleCount := 64 } })
      (fun t => t.link.capUp == 4095 && t.link.capDown == 140 && !t.link.stale && t.link.staleCount == 0) = true := by
  decide +kernel

/-- Table 30: the 64th expiry without a report raises CAPACITY_STALE. -/
theorem test_cycle_expiry_goes_stale :
    leaves (exec .cycleExpiry { served with link := { served.link with staleCount := 63 } })
      (fun t => t.link.stale && t.events.pending == 0x020) = true := by decide +kernel

/-- Table 41: an expiry that finds the flag set is a slip. -/
theorem test_cycle_expiry_slips :
    leaves (exec .cycleExpiry (roundOf (sends served) (offering [good]) true))
      (fun t => t.round.slips == 1 && t.events.pending == 0x080 && t.round.deferred) = true := by decide +kernel

/-- Table 18: SERVE LINE moves the record to ACTIVE and counts its rates. -/
theorem test_serve_line_enters_service :
    leaves (exec (.serveLine (fr [5])) suspended)
      (fun t => (t.slot 84).cov.state == .active && t.meter.sumUp == 160 && t.meter.sumDown == 800
        && (t.slot 84).passes) = true := by decide +kernel

/-- Table 18: LIGHT LINE of a marked line of class 2 at level 2 is refused SHED, word 2 showing the mark. -/
theorem test_light_line_refused_shed :
    leaves (exec (.lightLine (fr [5])) { marked served 2 with ladder := { served.ladder with level := 2 } })
      (fun t => t.port.state == .ready [0x0C08, 0x2805]) = true := by decide +kernel

/-- Table 56: REQUEST TEST on a line in service at level 0 is dispatched at once. -/
theorem test_request_test_dispatches :
    leaves (exec (.requestTest (fr [0xFEA5, 0, 0, 0])) served)
      (fun t => (t.line 5).state == .underTest .inService && t.head.headen && (t.slot 84).cov.state == .standby
        && t.load == 55 && t.port.state == .ready [0x1200, 0, 0, 0, 0]) = true := by decide +kernel

/-- The first row of Table 54: FAULTY with auto-hold holds the line, and it leaves the lit set. -/
theorem test_completion_holds_the_line :
    leaves (exec .testCompletion (testing .evaluate .idle))
      (fun t => (t.line 5).state == .rest .faulted && t.events.pending == 0x003 && t.load == 0
        && t.power.shifting == some 0) = true := by decide +kernel

/-- Section 8.9: 2.45 V at BSENSE is band 5; with map[5] = 1 and the rise count at 2 it is a rise to level 1, which
sheds line 5 when its class is 1. -/
theorem test_sample_end_rises :
    leaves (exec (.sampleEnd 2450000 false)
        { sampling served 0 with settings := { defaultSettings with shedClass := defaultSettings.shedClass.set 5 1 } })
      (fun t => t.ladder.band == 5 && t.ladder.level == 1 && (t.line 5).shed == some .inService
        && t.events.pending == 0x00C) = true := by decide +kernel

/-- Table 63: a command in WAIT is discarded whole and sets refused-busy. -/
theorem test_command_refused_busy :
    leaves (exec (.lightLine (fr [6])) (atPort State.reset (.wait .taken)))
      (fun t => t.port.busy && t.port.state == .wait .taken && (t.line 6).state == .rest .dark) = true := by decide +kernel

/-- Table 63: a fetch that ends after slot 3 leaves a response of 3 words in place; one that ends after slot 4 empties the
buffer. -/
theorem test_partial_fetch_keeps_the_response :
    leaves (exec (.fetchComplete 3) (begun (atPort State.reset (.ready [1, 2, 3])) 0x8003 true))
      (fun t => t.port.state == .ready [1, 2, 3]) = true
    ∧ leaves (exec (.fetchComplete 4) (begun (atPort State.reset (.ready [1, 2, 3])) 0x8003 true))
      (fun t => t.port.state == .none) = true := by decide +kernel

/-- R168: a value above the range is clamped and answered as written. -/
theorem test_write_setting_clamps :
    leaves (exec (.writeSetting (fr [24, 0, 999])) State.reset)
      (fun t => t.settings.gateTime == 250 && t.port.state == .ready [0x1A00, 24, 0, 250]) = true := by decide +kernel

/-- R171: a load of a failing block gives the defaults and raises SETTINGS_DEFAULTED. -/
theorem test_load_of_a_failing_block :
    leaves (exec .settingsLoadCompletion (held served false false true))
      (fun t => t.events.pending == 0x100 && t.events.cause == .pin && t.settings == defaultSettings
        && t.ladder.sampler == .compare1 92) = true := by decide +kernel

/-! ### Witnesses: for each obligation a state and operands that meet its hypotheses, clause by clause -/

theorem test_witness_StepRunsTheFrontCommand :
    ({ served with pending := [.minuteTickExpiry] } : State).pending = .minuteTickExpiry :: [] ∧ served.pending = [] := by
  decide

theorem test_witness_RefusedBusyFlag :
    (transactionOf (.lightLine (fr [6])) = some ⟨0x0C, some 1, fr [6]⟩
        ∧ (begun (atPort served (.wait .taken)) 0x4000).Arrives ∧ (atPort served (.wait .taken)).Arrives)
      ∧ (served.hold = none ∧ (begun served 0x2000).port.txn = some ⟨0x2000, false⟩)
      ∧ leaves (exec (.fetch 0) { begun served 0x2000 with port := { (begun served 0x2000).port with busy := true } })
        (fun t => !t.port.busy) = true
      ∧ leaves (exec (.lightLine (fr [6])) (atPort served (.wait .taken))) (fun t => t.port.busy) = true
      ∧ served.Accepts (fr []) 0 := by decide +kernel

theorem test_witness_IllegalAndMiscountedCommands :
    served.Arrives ∧ served.port.state.waits = false
      ∧ ¬ FrameSound { fr [] with partialWord := true } ∧ ¬ FrameSound { fr [] with count := 17 }
      ∧ (∃ x, transactionOf (.undefinedCommandCode 0x1D (fr [])) = some x ∧ x.argc = none)
      ∧ FrameSound (fr (List.replicate 16 0)) ∧ (fr (List.replicate 16 0)).count.toNat ≠ 1
      ∧ ((begun served 0x8001 true).hold = none ∧ (begun served 0x8001 true).port.txn = some ⟨0x8001, true⟩)
      ∧ ((0x00FF : Word16).extractLsb' 8 8 = 0 ∧ (0x1C00 : Word16).extractLsb' 8 8 ≠ 0) := by
  refine ⟨by decide, by decide, by decide, by decide, ⟨_, rfl, rfl⟩, by decide, by decide, by decide, by decide⟩

theorem test_witness_FetchShiftsOutAndEmptiesTheBuffer :
    (served.hold = none ∧ (atPort served (.ready (List.replicate 24 7))).port.state.words ≤ 24)
      ∧ (begun (atPort served (.ready [1])) 0x8001).port.txn = some ⟨0x8001, false⟩
      ∧ (begun (atPort served (.ready [1])) 0x8001 true).port.txn = some ⟨0x8001, true⟩
      ∧ (atPort served (.ready (List.replicate 24 7))).port.state = .ready (List.replicate 24 7) := by decide +kernel

/-- A tag found in way 0, one that is found nowhere, and a free way beside it. -/
theorem test_witness_TagIsFoundInTheLowestWayOfItsSet :
    served.find 0x12345 = some 84 ∧ served.find 0x15 = none ∧ served.freeWay 0x15 = some 85 := by decide +kernel

/-- An admission to line 0 in way 1, and to line 23, which is dark, with the arming set. -/
theorem test_witness_AdmitServiceWritesTheNewRecord :
    (let f := fr [0, 0x15, 0x0001, 1, 1, 1, 1, 1, 1, 1, 1];
      served.Accepts f 11 ∧ served.Settled ∧ served.engine.service = .free ∧ served.find 0x15 = none
        ∧ (served.line 0).attached.length < 8 ∧ served.freeWay 0x15 = some 85)
      ∧ (let f := fr [0xF, 0xFFFE, 0x9710, 1, 1, 1, 1, 1, 1, 1, 1];
        served.Accepts f 11 ∧ served.find 0xFFFFE = none ∧ ((0x9710 : Word16).extractLsb' 8 5).toNat = 23
          ∧ served.freeWay 0xFFFFE = some 4 ∧ (served.line 23).attached.length < 8) := by decide +kernel

theorem test_witness_AmendServiceReplacesTheProvisionedValues :
    let f := fr [1, 0x2345, 2, 160, 320, 40, 60, 1000, 1600, 60, 100]
    served.Accepts f 11 ∧ served.Settled ∧ served.engine.service = .free ∧ served.find 0x12345 = some 84
      ∧ (served.slot 84).cov.state ≠ .damaged ∧ (served.slot 84).passes = true := by decide +kernel

/-- Retirement and bar of an ACTIVE record; unbar on a line IN_SERVICE and on one that is not; a slot retired by
number. -/
theorem test_witness_RetireBarAndUnbarActOnTheRecord :
    (served.Accepts (fr [1, 0x2345]) 2 ∧ served.Settled ∧ served.engine.service = .free ∧ served.find 0x12345 = some 84
        ∧ (served.slot 84).cov.state = .active ∧ (served.slot 84).passes = true)
      ∧ (let s := placed (.rest .inService) .barred;
        s.find 0x12345 = some 84 ∧ s.Settled ∧ (s.slot 84).cov.state = .barred ∧ (s.slot 84).passes = true
          ∧ lineNoOf (s.slot 84).cov.line = some 5 ∧ (s.line 5).state = .rest .inService)
      ∧ (let s := placed (.rest .dark) .barred;
        s.find 0x12345 = some 84 ∧ s.Settled ∧ (s.slot 84).cov.state = .barred ∧ (s.slot 84).passes = true
          ∧ lineNoOf (s.slot 84).cov.line = some 5 ∧ (s.line 5).state ≠ .rest .inService)
      ∧ (served.Accepts (fr [84]) 1 ∧ (served.slot 84).cov.state ≠ .free) := by
  (repeat' apply And.intro) <;> decide +kernel

theorem test_witness_LookUpServiceReturnsTheRecord :
    (served.Accepts (fr [1, 0x2345]) 2 ∧ served.Settled ∧ served.engine.service = .free ∧ served.find 0x12345 = some 84
        ∧ (served.slot 84).passes = true)
      ∧ (let s := placed (.rest .inService) .damaged;
        s.find 0x12345 = some 84 ∧ s.Settled ∧ (s.slot 84).cov.state = .damaged)
      ∧ (record .active false).InRange ∧ { record .active false with demand := 4095, upGranted := 4294967295 }.InRange := by
  (repeat' apply And.intro) <;> decide +kernel

/-- A set of four ACTIVE records, so that the set is full, and a line with eight slots. -/
def crowded : State := { served with
  slots := (((served.slots.set 85 { record .active false with cov := { cov .active with tag := 0x15 } }).set 86
    { record .active false with cov := { cov .active with tag := 0x34 } }).set 87
    { record .active false with cov := { cov .active with tag := 0x2A0 } })
  lines := served.lines.set 0 ⟨.rest .dark, none, [0, 1, 2, 3, 4, 5, 6, 7], none⟩ }

/-- The refusals of ADMIT at each of their conditions, those of a tag not found, and those by state. -/
theorem test_witness_RecordCommandsAreRefusedOrWait_at_take :
    (transactionOf (.admitService (fr (List.replicate 11 0))) = some ⟨0x01, some 11, fr (List.replicate 11 0)⟩
        ∧ served.Accepts (fr (List.replicate 11 0)) 11 ∧ served.Settled ∧ served.engine.service = .free
        ∧ validTag 0 = false ∧ validTag 0xFFFFF = false)
      ∧ argAdmitLine (0 :: 0x15 :: 0x1800 :: List.replicate 8 0) = 24
      ∧ (crowded.Settled ∧ crowded.engine.service = .free ∧ (crowded.find 0x34).isSome = true
        ∧ crowded.find 0x5400 = none ∧ 8 ≤ (crowded.line 0).attached.length ∧ (crowded.line 5).attached.length < 8
        ∧ crowded.freeWay 0x5400 = none)
      ∧ (validTag 0x15 = true ∧ served.find 0x15 = none)
      ∧ (let s := placed (.rest .inService) .damaged; s.find 0x12345 = some 84 ∧ (s.slot 84).cov.state = .damaged)
      ∧ (let s := placed (.rest .inService) .barred;
        s.find 0x12345 = some 84 ∧ (s.slot 84).passes = true ∧ (s.slot 84).cov.state = .barred)
      ∧ (served.find 0x12345 = some 84 ∧ (served.slot 84).cov.state = .active) := by decide +kernel

theorem test_witness_RecordCommandsAreRefusedOrWait_by_slot_and_busy :
    (served.Accepts (fr [128]) 1 ∧ served.Accepts (fr [127]) 1 ∧ (served.slot 127).cov.state = .free)
      ∧ (let s := serving served;
        s.Accepts (fr (List.replicate 11 0)) 11 ∧ s.Accepts (fr [1, 0x2345]) 2 ∧ s.Accepts (fr [84]) 1 ∧ s.Settled
          ∧ s.engine.service ≠ .free) := by
  (repeat' apply And.intro) <;> decide +kernel

theorem test_witness_FailingCheckIsADamageDiscovery :
    let s := placed (.rest .inService) .active true
    let f := fr [1, 0x2345]
    transactionOf (.barService f) = some ⟨0x05, some f.count.toNat, f⟩ ∧ s.Accepts f f.count.toNat ∧ s.Settled
      ∧ s.engine.service = .free ∧ validTag (argTag f.args 1) = true ∧ s.find (argTag f.args 1) = some 84
      ∧ (s.slot 84).cov.state ≠ .damaged ∧ (s.slot 84).passes = false := by decide +kernel

/-- An empty and a full capture. -/
theorem test_witness_ReadFaultReturnsAndEmptiesTheCapture :
    served.Accepts (fr []) 0 ∧ served.engine.capture = none
      ∧ ({ served with engine := ⟨.free, some ⟨84, 0x12345, .roster⟩, true⟩ } : State).engine.capture
        = some ⟨84, 0x12345, .roster⟩ := by decide +kernel

/-- The last set and way, and the first of each that is refused. -/
theorem test_witness_ProbeSlotReadsWithoutChanging :
    served.Accepts (fr [0x1F03]) 1 ∧ (127 : Slot).val = ((0x1F03 : Word16).extractLsb' 8 8).toNat * 4
        + ((0x1F03 : Word16).extractLsb' 0 8).toNat
      ∧ (served.slot 127).cov.line < 32 ∧ served.slot 127 = clearedRecord
      ∧ 32 ≤ ((0x2003 : Word16).extractLsb' 8 8).toNat ∧ 4 ≤ ((0x1F04 : Word16).extractLsb' 0 8).toNat := by decide +kernel

theorem test_witness_ClearCountersZeroesTheFourCounters :
    served.Accepts (fr [1, 0x2345]) 2 ∧ (1#16).extractLsb' 0 4 ++ (0x2345 : Word16) = (0x12345 : Tag)
      ∧ served.find 0x12345 = some 84 ∧ served.find 0x15 = none ∧ served.Accepts (fr [0xF, 0xFFFF]) 2 := by decide +kernel

/-- An idle transmitter, an occupied one, and one behind a held verdict. -/
theorem test_witness_ResolveIsDecidedAtAFreeEngine :
    (served.hold = none ∧ served.Settled ∧ served.engine.service = .free ∧ served.link.sending = none)
      ∧ ((sends served).Settled ∧ (sends served).link.sending ≠ none ∧ (sends served).link.held = none)
      ∧ (let s := { sends served with link := { (sends served).link with held := some ⟨9, .pass, 5, .standard⟩ } };
        s.Settled ∧ s.engine.service = .free ∧ s.link.held ≠ none)
      ∧ (⟨9, .pass, 255, .standard⟩ : VerdictMsg).line ≤ 255 := by decide +kernel

/-- VERDICT, GRANT and ROUND END by Table 81, with a line of 23, a tag and credits of several bytes, and totals. -/
theorem test_outbound_layouts :
    verdictBytes ⟨9, .unknown, 23, .essential⟩ = [0x81, 9, 5, 23, 1, 0, 0, 0]
      ∧ grantBytes 7 0x12345 0x0ABC = [0x82, 7, 0x01, 0x23, 0x45, 0x0A, 0xBC, 0]
      ∧ roundEndBytes 7 128 0x0FFF 0x0102 = [0x83, 7, 128, 0x0F, 0xFF, 0x01, 0x02, 0] := by decide +kernel

/-- The queue of a busy engine at 3 and at 4 requests. -/
def queued (n : Nat) (s : State) : State :=
  { serving s with link := { s.link with queue := List.replicate n ⟨1, 0x12345, 64⟩ } }

theorem test_witness_ResolveQueuesOrOverruns :
    ((queued 3 served).hold = none ∧ (queued 3 served).Settled ∧ (queued 3 served).engine.service ≠ .free
        ∧ (queued 3 served).link.queue.length < 4)
      ∧ ((queued 4 served).Settled ∧ 4 ≤ (queued 4 served).link.queue.length ∧ (queued 4 served).link.sending = none)
      ∧ ((queued 4 (sends served)).Settled ∧ (queued 4 (sends served)).link.sending ≠ none) := by decide +kernel

theorem test_witness_BacklogWritesTheDemandLatch :
    served.hold = none ∧ (0x12345 : Tag) ≠ 0 ∧ (0x12345 : Tag) ≠ 0xFFFFF ∧ served.find 0x12345 = some 84
      ∧ served.find 0x15 = none := by decide +kernel

theorem test_witness_MessagesActWholeAtTheirEighthByte : served.hold = none ∧ served.link.receiving = [] := by
  decide +kernel

/-- A refusal, a held verdict with and without a decided resolve behind it, a round message, and nothing. -/
theorem test_witness_ArbiterChoosesRefusalsThenVerdictsThenRounds :
    let l := (sends served).link
    let v : VerdictMsg := ⟨9, .pass, 5, .standard⟩
    ({ sends served with link := { l with refusals := [14, 15] } } : State).Settled
      ∧ (let s := { sends served with link := { l with held := some v } };
        s.Settled ∧ s.hold = none ∧ s.link.sending ≠ none ∧ s.engine.service = .free)
      ∧ (let s := { sends served with link := { l with held := some v }, engine := ⟨.resolve v, none, false⟩ };
        s.Settled ∧ s.round.phase ≠ .snapshotWait ∧ s.link.queue = [] ∧ s.port.state.waiting = none)
      ∧ (let s := roundOf (sends served) (offering [good]);
        s.Settled ∧ s.link.refusals = [] ∧ s.link.held = none ∧ s.round.phase.offering = true
          ∧ s.round.phase = .emitting (offering [good]) ∧ (offering [good]).offers ≠ [])
      ∧ (let s := roundOf (sends served) (offering []);
        s.Settled ∧ s.link.refusals = [] ∧ s.link.held = none ∧ s.round.phase = .emitting (offering []))
      ∧ ((sends served).Settled ∧ (sends served).round.phase.offering = false) := by
  intros
  (repeat' apply And.intro) <;> decide +kernel

theorem test_witness_InternalEventsActWhenDue :
    let v : VerdictMsg := ⟨9, .pass, 5, .standard⟩
    (let s := { sends served with link := { (sends served).link with queue := [⟨10, 0x12345, 64⟩] } };
      s.hold = none ∧ s.engine.service = .free ∧ s.round.phase ≠ .snapshotWait ∧ s.link.held = none
        ∧ s.link.sending ≠ none ∧ s.port.state.waiting = none)
      ∧ (let s := { sends served with engine := ⟨.resolve v, none, false⟩ };
        s.link.held = none ∧ s.link.sending ≠ none ∧ s.link.queue = [] ∧ s.port.state.waiting = none)
      ∧ (let s := { served with link := { served.link with refusals := [14] } };
        s.link.sending = none ∧ s.engine.service = .free ∧ s.EngineSettled)
      ∧ (let s := { served with link := { served.link with held := some v } };
        s.link.sending = none ∧ s.link.refusals = [] ∧ s.EngineSettled)
      ∧ (let s := atPort (sends served) (.wait (.record (.retireSlot 84)));
        s.engine.service = .free ∧ s.round.phase ≠ .snapshotWait ∧ s.link.queue = [] ∧ s.link.sending ≠ none) := by
  decide +kernel

/-- Nothing behind the request, a roster request behind it, a resolve behind it. -/
theorem test_witness_ManagementCompletionDeliversAndFreesTheEngine :
    let s := atPort (serving (sends served)) (.wait .taken)
    (s.hold = none ∧ s.Settled ∧ s.engine.service = .management [0x0100] ∧ s.round.phase ≠ .snapshotWait
        ∧ s.link.queue = [])
      ∧ (let t := { s with round := { s.round with phase := .snapshotWait } };
        t.Settled ∧ t.round.phase = .snapshotWait ∧ t.link.sending ≠ none)
      ∧ (let t := queued 1 s;
        t.Settled ∧ t.round.phase ≠ .snapshotWait ∧ t.link.queue = [⟨1, 0x12345, 64⟩] ∧ t.link.sending ≠ none
          ∧ t.link.held = none) := by decide +kernel

/-- A round in flight with the flag clear and with it set, and an idle round engine with the transmitter occupied, with it
idle, and with the table engine busy. -/
theorem test_witness_CycleExpiryRefillsAndCounts :
    (let s := roundOf (sends served) (offering [good]); s.hold = none ∧ s.Settled ∧ s.round.phase ≠ .idle)
      ∧ (let s := roundOf (sends served) (offering [good]) true; s.Settled ∧ s.round.deferred = true)
      ∧ ((sends served).Settled ∧ (sends served).round.phase = .idle ∧ (sends served).link.sending ≠ none)
      ∧ (served.Settled ∧ served.round.phase = .idle ∧ served.engine.service = .free ∧ served.link.sending = none)
      ∧ ((serving served).Settled ∧ (serving served).engine.service ≠ .free)
      ∧ (served.slot 84).cov.state = .active ∧ (served.slot 0).cov.state = .free := by
  (repeat' apply And.intro) <;> decide +kernel

/-- A sum above 0 with capacity 0, and a capacity that holds the sum. -/
theorem test_witness_ScaleFactorChangesAtExpiriesAlone :
    served.hold = none ∧ served.meter.sumDown = 800 ∧ served.link.capDown = 0
      ∧ leaves (exec .cycleExpiry served) (fun t => t.meter.f == 0) = true
      ∧ leaves (exec .cycleExpiry { served with link := { served.link with capDown := 50 } }) (fun t => t.meter.f == 4096)
        = true
      ∧ touchesReset .minuteTickExpiry = false ∧ leaves (exec .minuteTickExpiry served) (fun _ => true) = true
      ∧ leaves (exec .powerOnReset served) (fun _ => true) = true ∧ leaves (exec .pinReset served) (fun _ => true) = true
      ∧ served.Accepts (fr []) 0 ∧ leaves (exec (.restart (fr [])) served) (fun _ => true) = true := by decide +kernel

/-- The rosters of sections 5.7 to 5.9: each class's claims below, at and above what it may have. -/
theorem test_witness_ScaledStagesAreExactAndRotate :
    let claims := fun (k : Class) => ((roster.filter fun e => e.cls == k).map RosterEntry.claim).sum
    (roster.map RosterEntry.slot).Pairwise (· < ·) ∧ claims .essential = 8 ∧ claims .standard = 70
      ∧ 7 < claims .essential ∧ (claims .essential ≤ 8 ∧ 8 - claims .essential < claims .standard)
      ∧ claims .essential + claims .standard ≤ 78 ∧ (∀ e ∈ roster, 1 ≤ e.weight) := by decide +kernel

/-- One passing record, one failing record, and none. -/
theorem test_witness_RosterSnapshotTakesTheActiveRecords :
    let wait := fun (s : State) => { sends s with round := { s.round with phase := .snapshotWait } }
    (let s := wait served;
      s.hold = none ∧ s.engine.service = .free ∧ s.round.phase = .snapshotWait ∧ s.link.sending ≠ none
        ∧ s.link.queue = [] ∧ s.port.state.waiting = none ∧ s.sound = [84] ∧ s.unsound = [])
      ∧ (let s := wait (placed (.rest .inService) .active true); s.sound = [] ∧ s.unsound = [84])
      ∧ (let s := wait suspended; s.sound = [] ∧ s.unsound = [])
      ∧ (let s := { served with round := { served.round with phase := .snapshotWait } };
        s.link.sending = none ∧ s.link.refusals = [] ∧ s.link.held = none ∧ s.link.queue = []
          ∧ s.port.state.waiting = none) := by decide +kernel

/-- A grant that passes, one that fails before one that passes, one that fails last, and ROUND END with and without an
owed round. -/
theorem test_witness_EmissionSendsOrWithholdsEachGrant :
    let s := roundOf served (offering [good])
    (s.hold = none ∧ s.link.sending = none ∧ s.link.refusals = [] ∧ s.link.held = none ∧ s.EngineSettled
        ∧ s.completionDue = false)
      ∧ ((s.slot 84).cov.tag = good.entry.tag ∧ (s.slot 84).cov.state = .active)
      ∧ ¬ ((s.slot 12).cov.tag = stale.entry.tag ∧ (s.slot 12).cov.state = .active)
      ∧ (let t := roundOf served (offering [stale]); t.round.deferred = false ∧ t.EngineSettled)
      ∧ (let t := serving (roundOf served (offering []) true);
        t.round.deferred = true ∧ t.engine.service ≠ .free ∧ t.EngineSettled ∧ t.completionDue = false)
      ∧ (let t := roundOf served (offering []) true;
        t.round.deferred = true ∧ t.engine.service = .free ∧ t.EngineSettled ∧ t.completionDue = false) := by decide +kernel

theorem test_witness_ExpiryAndCompletionInEitherOrder :
    let s := roundOf (sends served) (offering [])
    let t := roundOf (sends served) (offering []) true
    (s.hold = none ∧ s.Settled ∧ s.link.sending ≠ none ∧ s.link.refusals = [] ∧ s.link.held = none
        ∧ s.round.phase = .emitting (offering []) ∧ s.round.deferred = false)
      ∧ (t.Settled ∧ t.round.phase = .emitting (offering []) ∧ t.round.deferred = true) := by decide +kernel

/-- Lines 23 and 24; a lit line, a line barred by its mark, one above the budget by 1 and one at it. -/
theorem test_witness_LightLineByMarkLevelAndBudget :
    (served.Accepts (fr [24]) 1 ∧ ((24 : Word16).extractLsb' 0 5).toNat = 24 ∧ served.Accepts (fr [23]) 1
        ∧ ((23 : Word16).extractLsb' 0 5).toNat = (23 : LineNo).val)
      ∧ (served.line 5).state ≠ .rest .dark
      ∧ (let s := { marked served 2 with ladder := { served.ladder with level := 2 } };
        s.Accepts (fr [5]) 1 ∧ (s.line 5).state = .rest .dark ∧ (s.line 5).shed ≠ none
          ∧ s.settings.shedClass[(5 : LineNo)] ≤ s.ladder.level.val)
      ∧ (let s := { served with settings := { defaultSettings with budget := #v[79, 1200, 600, 200] } };
        s.Accepts (fr [23]) 1 ∧ s.budgetNow < s.load + s.settings.cost[(23 : LineNo)])
      ∧ (let s := { served with settings := { defaultSettings with budget := #v[80, 1200, 600, 200] } };
        s.Accepts (fr [23]) 1 ∧ (s.line 23).state = .rest .dark ∧ (s.line 23).shed = none
          ∧ s.load + s.settings.cost[(23 : LineNo)] ≤ s.budgetNow) := by
  refine ⟨?_, ?_, ?_, ?_, ?_⟩ <;> decide +kernel

/-- Each state that the three commands tell apart. -/
theorem test_witness_ServeSuspendAndClearFaultByState :
    (suspended.Accepts (fr [5]) 1 ∧ ((5 : Word16).extractLsb' 0 5).toNat = (5 : LineNo).val
        ∧ (suspended.line 5).state = .rest .suspended ∧ (suspended.line 5).attached.Nodup)
      ∧ (served.Accepts (fr [5]) 1 ∧ (served.line 5).state = .rest .inService ∧ (served.line 5).attached.Nodup)
      ∧ (let s := placed (.underTest .inService) .standby; s.Accepts (fr [5]) 1 ∧ (s.line 5).state = .underTest .inService)
      ∧ (let s := placed (.rest .faulted) .standby; s.Accepts (fr [5]) 1 ∧ (s.line 5).state = .rest .faulted)
      ∧ served.Accepts (fr [24]) 1 := by decide +kernel

theorem test_witness_DarkenLineByState :
    (served.Accepts (fr [5]) 1 ∧ (served.line 5).state = .rest .inService ∧ (served.line 5).attached.Nodup)
      ∧ (suspended.line 5).state = .rest .suspended
      ∧ (let s := marked served 2; s.Accepts (fr [5]) 1 ∧ (s.line 5).state = .rest .dark ∧ (s.line 5).shed ≠ none)
      ∧ (let s := placed (.rest .dark) .standby; (s.line 5).state = .rest .dark ∧ (s.line 5).shed = none)
      ∧ (let s := placed (.underTest .inService) .standby; s.Accepts (fr [5]) 1 ∧ (s.line 5).state = .underTest .inService)
      ∧ (placed (.rest .faulted) .standby).Accepts (fr [5]) 1 ∧ served.Accepts (fr [24]) 1 := by decide +kernel

/-- A queue whose head is dispatched, from a line in service and from a dark one, and each reason that stops it. -/
theorem test_witness_DispatchTakesTheQueueHead :
    (let s := queueOf served [entry];
      s.tests.queue = [entry] ∧ s.tests.current = none ∧ s.ladder.level = 0 ∧ s.head.headen = false
        ∧ s.load + s.settings.headCost ≤ s.settings.budget[0] ∧ (s.line 5).state = .rest .inService
        ∧ (s.line 5).attached.Nodup)
      ∧ (queueOf suspended [entry]).line 5 = ⟨.rest .suspended, none, [84], none⟩
      ∧ (queueOf (testing .connect .idle) [{ entry with line := 6 }]).tests.current ≠ none
      ∧ (queueOf (sampling served 1) [entry]).ladder.level ≠ 0
      ∧ (let s := queueOf { served with settings := { defaultSettings with budget := #v[54, 1200, 600, 200] } } [entry]
        s.settings.budget[0] < s.load + s.settings.headCost) := by decide +kernel

/-- Each refusal, an entry dispatched at once, and one that stays queued behind seven. -/
theorem test_witness_RequestTestQueuesAndRetries :
    (served.Accepts (fr [0xFEB8, 0, 0, 0]) 4 ∧ 24 ≤ ((0xFEB8 : Word16).extractLsb' 0 5).toNat
        ∧ ((0x0085 : Word16).extractLsb' 9 7 = 0 ∧ (0x0085 : Word16).getLsbD 8 = false))
      ∧ (served.Accepts (fr [0x0305, 9999, 0x00FF, 0]) 4 ∧ (0x0305 : Word16).extractLsb' 9 7 ≠ 0 ∧ served.tests.queue = []
        ∧ (served.line 5).state = .rest .inService)
      ∧ (let s := queueOf (sampling served 3) [entry]; s.Accepts (fr [0x0305, 0, 0, 0]) 4 ∧ entry ∈ s.tests.queue)
      ∧ (let s := queueOf (sampling served 3) ([0, 1, 2, 3, 4, 6, 7, 8].map fun n => { entry with line := n })
        s.Accepts (fr [0x0305, 0, 0, 0]) 4 ∧ 8 ≤ s.tests.queue.length ∧ ∀ e ∈ s.tests.queue, e.line ≠ 5)
      ∧ (let s := queueOf (sampling served 3) ([0, 1, 2, 3, 4, 6, 7].map fun n => { entry with line := n })
        s.tests.queue.length < 8 ∧ ∀ e ∈ s.tests.queue, e.line ≠ 5) := by decide +kernel

theorem test_witness_CancelTestRemovesOrAborts :
    (let s := queueOf (sampling served 3) [entry]; s.Accepts (fr [5]) 1 ∧ entry ∈ s.tests.queue ∧ entry.line = 5)
      ∧ (let s := testing .tone (.toneOn ⟨499, 5, 5, 120⟩);
        s.Accepts (fr [5]) 1 ∧ s.tests.queue = [] ∧ (s.tests.current.map fun x => x.entry.line) = some 5
          ∧ s.head.headen = true)
      ∧ ((testing .disconnect .idle).tests.current.map Test.stage) = some .disconnect
      ∧ ((testing .evaluate .idle).tests.current.map Test.stage) = some .evaluate
      ∧ (served.Accepts (fr [23]) 1 ∧ served.tests.current = none) ∧ served.Accepts (fr [24]) 1 := by decide +kernel

/-- A shift of either chain; a latch that begins the wait in CONNECT and in DISCONNECT, and one that does not. -/
theorem test_witness_ChainsLatchAndSettleWaitsBegin :
    (State.reset.hold = none ∧ State.reset.power.shifting = some 0 ∧ State.reset.relay.shifting = some 0
        ∧ State.reset.tests.current = none)
      ∧ (served.power.shifting = none ∧ served.relay.shifting = none)
      ∧ (let s := { testing .connect .idle with relay := ⟨0x20, 0, some 0x20, none⟩ };
        s.hold = none ∧ s.relay.shifting = some 0x20 ∧ (s.tests.current.map fun x => (x.stage, x.settle)) = some (.connect, none)
          ∧ (0x20 : Image).getLsbD 5 = true ∧ (0 : Image).getLsbD 5 = false)
      ∧ ((testing .disconnect .idle).tests.current.map fun x => (x.stage, x.settle)) = some (.disconnect, none)
      ∧ (⟨0, 0, none, none⟩ : Chain).shifting = none := by decide +kernel

theorem test_witness_SettleExpiryStartsItemsOrEvaluates :
    (served.hold = none ∧ ((waiting (testing .connect .idle)).tests.current.map fun x => (x.stage, x.settle.isSome))
        = some (.connect, true))
      ∧ ((waiting (testing .disconnect .idle)).tests.current.map fun x => (x.stage, x.settle.isSome, x.abort))
        = some (.disconnect, true, none)
      ∧ ((testing .connect .idle).tests.current.map Test.settle) = some none := by decide +kernel

/-- Each state of the head that the clauses name, at the last sample that does not complete. -/
theorem test_witness_HeadStepsThroughEachMethod :
    let at_ := fun (p : HeadPhase) => (testing (.measure .vac) p).head.phase
    (testing (.measure .vac) .idle).hold = none
      ∧ at_ (.pathSettle (.volt .vac)) = .pathSettle (.volt .vac)
      ∧ at_ (.sampling .vac ⟨0, 0, 1023, 0⟩) = .sampling .vac ⟨0, 0, 1023, 0⟩
      ∧ (List.replicate 63 (5 : BitVec 10)).length < 64 ∧ (List.replicate 7 (5 : BitVec 10)).length < 8
      ∧ (testing (.measure .rloop) (.refGate ⟨.rloop, 100, 100000⟩)).head.osc ≤ 1048575
      ∧ served.head.phase = .idle := by decide +kernel

/-- The last sample of each count, a gate, a discharge and a tone with a test in flight. -/
theorem test_witness_MeasurementsCompleteWithTheirResults :
    (testing (.measure .vdcTg) (.sampling .vdcTg ⟨7, 3584, 512, 512⟩)).hold = none
      ∧ (testing (.measure .vdcTg) (.sampling .vdcTg ⟨7, 3584, 512, 512⟩)).tests.current.isSome = true
      ∧ 8 ≤ (⟨7, 3584, 512, 512⟩ : Samples).count + 1 ∧ 64 ≤ (⟨63, 0, 0, 1023⟩ : Samples).count + 1
      ∧ (testing (.measure .rloop) (.pairGate ⟨.rloop, 100, 100000⟩ 5000)).head.phase
        = .pairGate ⟨.rloop, 100, 100000⟩ 5000
      ∧ (testing (.measure .cap) (.discharge 64 .timeout)).head.phase = .discharge 64 .timeout
      ∧ (testing .tone (.toneOff ⟨499, 5, 5, 120⟩)).head.phase = .toneOff ⟨499, 5, 5, 120⟩ := by decide +kernel

/-- A held line, and one that returns to IN_SERVICE. -/
theorem test_witness_TestCompletionWritesConditionAndState :
    let s := testing .evaluate .idle
    s.hold = none ∧ (s.tests.current.map fun x => (x.entry.line, x.evaluation.map Evaluation.verdict))
        = some (5, some .faulty)
      ∧ (s.line 5).state = .underTest .inService ∧ entry.autoHold = true ∧ (s.line 5).attached.Nodup := by decide +kernel

/-- A tick below the period and one at it; each comparison; thresholds that ascend. -/
theorem test_witness_ThreeComparisonsFindTheBand :
    (served.hold = none ∧ served.ladder.count + 1 < served.settings.samplePeriod)
      ∧ (let s := { served with ladder := { served.ladder with count := 9 } };
        s.settings.samplePeriod ≤ s.ladder.count + 1)
      ∧ State.reset.ladder.sampler = .compare1 State.reset.settings.thresholds[3]
      ∧ (∀ j k : Fin 7, j ≤ k → State.reset.settings.thresholds[j] ≤ State.reset.settings.thresholds[k])
      ∧ (sampling served 0).ladder.sampler = .compare3 true false 96
      ∧ ({ served with ladder := { served.ladder with sampler := .compare2 true 100 } } : State).ladder.sampler
        = .compare2 true 100 := by decide +kernel

/-- Target 1 (2.45 V), from each level and on each side of the counts 2 and 6; the initial sample with target 3 and
below; a rise with a test powered. -/
theorem test_witness_SampleEndFollowsTheTarget :
    (sampling served 0).hold = none ∧ (sampling served 0).ladder.sampler = .compare3 true false 96
      ∧ State.reset.settings.bandMap[bandOf true false (decide (96 * 25000 < 2450000))] = 1
      ∧ (sampling served 0 false).ladder.sampled = false
      ∧ (let s := sampling served 0; s.ladder.level < 1 ∧ s.settings.riseCount ≤ s.ladder.rise + 1)
      ∧ (let s := { sampling served 0 with ladder := { (sampling served 0).ladder with rise := 0 } };
        s.ladder.rise + 1 < s.settings.riseCount)
      ∧ (let s := sampling served 3; 1 < s.ladder.level ∧ s.settings.fallCount ≤ s.ladder.fall + 1)
      ∧ (let s := { sampling served 3 with ladder := { (sampling served 3).ladder with fall := 4 } };
        s.ladder.fall + 1 < s.settings.fallCount)
      ∧ (let s := sampling (testing .tone (.toneOn ⟨499, 5, 5, 120⟩)) 0;
        s.head.headen = true ∧ s.tests.current.isSome = true) := by decide +kernel

/-- Within the budget, above it with a test powered, and above it with a line to shed. -/
theorem test_witness_OverloadCheckRestoresTheBudget :
    let tight := { defaultSettings with budget := #v[39, 1200, 600, 200] }
    (served.settings.InRange ∧ served.load ≤ served.budgetNow)
      ∧ (let s := { testing .tone (.toneOn ⟨499, 5, 5, 120⟩) with settings := tight };
        s.settings.InRange ∧ s.budgetNow < s.load ∧ s.head.headen = true ∧ s.tests.current.isSome = true)
      ∧ (let s := { served with settings := tight };
        s.settings.InRange ∧ s.budgetNow < s.load ∧ s.head.headen = false ∧ s.lit 5 = true
          ∧ (∀ m, s.lit m = true → s.settings.shedClass[(5 : LineNo)] < s.settings.shedClass[m]
            ∨ (s.settings.shedClass[(5 : LineNo)] = s.settings.shedClass[m] ∧ m ≤ 5))
          ∧ s.NoDispatch ∧ (s.line 5).attached.Nodup) := by
  intros
  (repeat' apply And.intro) <;> decide +kernel

/-- Candidates: a marked line that fits, and the same line where the budget is short by 1. -/
theorem test_witness_RelightPassFillsTheBudgetInOrder :
    let s := marked suspended 4
    (s.settings.InRange ∧ s.Candidate 5 ∧ s.load ≤ s.budgetNow ∧ s.load + s.settings.cost[(5 : LineNo)] ≤ s.budgetNow)
      ∧ (let t := { s with settings := { s.settings with budget := #v[39, 1200, 600, 200] } };
        t.settings.InRange ∧ t.Candidate 5 ∧ t.load ≤ t.budgetNow
          ∧ t.budgetNow < t.load + t.settings.cost[(5 : LineNo)]) := by
  intros
  (repeat' apply And.intro) <;> decide +kernel

theorem test_witness_EventCommandsAndAttention : served.Accepts (fr []) 0 ∧ served.Accepts (fr [0x01FF]) 1 := by
  decide +kernel

theorem test_witness_StatusAndLadderAreReadWhole :
    served.Accepts (fr []) 0 ∧ served.CountersInRange ∧ served.SumsWell ∧ served.settings.InRange := by
  (repeat' apply And.intro) <;> decide +kernel

/-- Lines 24 and 5, the latter with a condition record at the greatest age. -/
theorem test_witness_LineRecordIsReadWhole :
    let s := { served with lines := served.lines.set 5 { served.line 5 with
      condition := some ⟨.good, none, 1, Vector.replicate 7 (some ⟨⟨some (-1035), false, false⟩, .pass⟩), true, 65535⟩ } }
    s.Accepts (fr [24]) 1 ∧ 24 ≤ ((24 : Word16).extractLsb' 0 5).toNat
      ∧ s.Accepts (fr [5]) 1 ∧ ((5 : Word16).extractLsb' 0 5).toNat = (5 : LineNo).val
      ∧ (s.line 5).attached.length ≤ 8 ∧ s.settings.InRange ∧ (∀ c ∈ (s.line 5).condition, c.age ≤ 65535)
      ∧ (s.line 5).condition.isSome = true := by decide +kernel

/-- Positions 9, 8 and 0, the last with a test in flight. -/
theorem test_witness_TestQueueIsReadByPosition :
    let s := testing .connect .idle
    (s.Accepts (fr [9]) 1 ∧ 9 ≤ ((9 : Word16).extractLsb' 0 4).toNat)
      ∧ (s.Accepts (fr [8]) 1 ∧ ((8 : Word16).extractLsb' 0 4).toNat ≤ 8 ∧ s.tests.queue.length ≤ 8)
      ∧ (s.Accepts (fr [0]) 1 ∧ s.tests.current.isSome = true)
      ∧ (499 ≤ 4999 ∧ entry.tone = some ⟨499, 5, 5, 120⟩) := by decide +kernel

/-- The first and last identifiers of the blocks, and those beside them that name nothing. -/
theorem test_witness_SettingsAreReadAndWrittenClamped :
    served.Accepts (fr [383]) 1 ∧ served.Accepts (fr [0, 0, 0]) 3
      ∧ settingOf 0 = some .cyclePeriod ∧ settingOf 27 = some .headCost ∧ settingOf 87 = some (.cost 23)
      ∧ settingOf 379 = some (.window 3 6 .severity) ∧ settingOf 28 = none ∧ settingOf 31 = none ∧ settingOf 56 = none
      ∧ settingOf 88 = none ∧ settingOf 284 = none ∧ settingOf 380 = none ∧ settingOf 384 = none := by decide +kernel

theorem test_witness_StoredSettingsComeBackAtAReset :
    served.Accepts (fr []) 0 ∧ served.settings.InRange ∧ served.hold = none
      ∧ (atPort served (.wait .store)).port.state = .wait .store := by decide +kernel

/-- A power-on reset abandons the power chain's shift and keeps its latched image (R33, R42). -/
theorem test_power_on_keeps_the_power_image :
    leaves (exec .powerOnReset { served with power := ⟨2, 5, some 2, none⟩ })
      (fun t => t.power == ⟨0, 5, none, none⟩) = true := by decide +kernel

/-- No reset, and a reset that waits for both conditions, for neither, and for the load. -/
theorem test_witness_ResetsHoldEveryBlock :
    (served.hold = none ∧ served.Accepts (fr []) 0)
      ∧ (held served true true false).hold = some ⟨true, true, false, .pin⟩
      ∧ ((held served false false true).port.txn = none ∧ touchesReset .cycleExpiry = false) := by decide +kernel

theorem test_witness_ResetEndLeavesTheResetState :
    (held served false false true).hold = some ⟨false, false, true, .pin⟩
      ∧ (held served false false true).stored.passes = false
      ∧ (let s := held { served with stored := ⟨defaultSettings, true⟩ } false false true
        s.stored.passes = true ∧ s.stored.values.InRange)
      ∧ served.hold = none ∧ served.Accepts (fr []) 0 := by decide +kernel

/-- A slot that is not FREE and one that is, and a record whose code covers its state. -/
theorem test_witness_DisturbanceAndMovesAgainstTheCheck :
    (served.slot 0).cov.state = .free ∧ (served.slot 84).cov.state ≠ .free ∧ (served.slot 84).passes = true
      ∧ (served.slot 84).code.covers.state = (served.slot 84).cov.state := by decide +kernel

/-- A state with a record in service meets every invariant, and its next step is an event of the queue. -/
def running : State := { served with pending := [.cycleExpiry] }

theorem test_witness_EveryStepAnswersAndLeavesNothingDue :
    running.Settled ∧ leaves (step running) (fun t => t.pending == []) = true := by decide +kernel

theorem test_witness_EveryStepKeepsTheRanges :
    running.CountersInRange ∧ running.settings.InRange ∧ running.RoundWell
      ∧ (sends served).CountersInRange ∧ (sends served).link.sending = some [0x83, 1, 0, 0, 0, 0, 0, 0] := by
  (repeat' apply And.intro) <;> decide +kernel

theorem test_witness_EveryStepKeepsTheRecordTable :
    running.TableWell ∧ running.SumsWell ∧ running.TestsWell ∧ running.LinesWell ∧ running.settings.InRange
      ∧ running.LoadWithinBudget ∧ running.CountsWell
      ∧ (running.slot 84).cov.state = .active ∧ (running.slot 84).cov = (running.slot 84).code.covers := by
  (repeat' apply And.intro) <;> decide +kernel

/-- The same with a test in flight. -/
theorem test_witness_EveryStepKeepsLinesTestsAndLoad :
    let s := { testing .tone (.toneOn ⟨499, 5, 5, 120⟩) with pending := [.cycleExpiry] }
    s.LinesWell ∧ s.TestsWell ∧ s.settings.InRange ∧ s.LoadWithinBudget ∧ s.TableWell
      ∧ s.pending.head? ≠ some .powerChainLatch ∧ leaves (step s) (fun _ => true) = true := by
  intros
  (repeat' apply And.intro) <;> decide +kernel

theorem test_witness_EveryStepKeepsTheBuckets :
    running.pending = [.cycleExpiry] ∧ (∀ i, (running.slot i).BucketsWithin) := by decide +kernel

end Sys2Proof.Tests
end

