-- ==== Sys2Proof/Proofs/RecordTable.lean ====
section
/-! The record table and the committed sums under the changes that one slot, one line or one report makes. -/

namespace Sys2Proof.Machine

/-! ### Committed sums under a report -/

/-- One place of a list replaced: its old entry leaves the sum and the new one enters it. -/
theorem sum_set_add (l : List Nat) (k x : Nat) (h : k < l.length) : (l.set k x).sum + l[k] = l.sum + x := by
  induction l generalizing k with
  | nil => simp at h
  | cons a l ih =>
    cases k with
    | zero => simp; omega
    | succ k =>
      have := ih k (by simpa using h)
      simp
      omega

/-- The same for the vector of counted rates. -/
theorem vector_sum_set_add (v : Vector Nat 128) (i : Slot) (x : Nat) :
    (v.set i x).toList.sum + v[i] = v.toList.sum + x := by
  have h : (v.set i x).toList = v.toList.set i.val x := Vector.toList_set ..
  rw [h]
  exact sum_set_add v.toList i.val x (by simp)

/-- The sums agree with the counted rates (R49). -/
def Meter.Adds (m : Meter) : Prop := m.sumUp = m.countedUp.toList.sum ∧ m.sumDown = m.countedDown.toList.sum

theorem Meter.Adds.afterExit {m : Meter} (h : m.Adds) (i : Slot) : (m.afterExit i).Adds := by
  obtain ⟨hu, hd⟩ := h
  have h1 := vector_sum_set_add m.countedUp i 0
  have h2 := vector_sum_set_add m.countedDown i 0
  simp only [Meter.Adds, Meter.afterExit]
  omega

theorem Meter.Adds.afterEntry {m : Meter} (h : m.Adds) {i : Slot} (hu : m.countedUp[i] = 0)
    (hd : m.countedDown[i] = 0) (up down : Nat) : (m.afterEntry i up down).Adds := by
  obtain ⟨au, ad⟩ := h
  have h1 := vector_sum_set_add m.countedUp i up
  have h2 := vector_sum_set_add m.countedDown i down
  simp only [Meter.Adds, Meter.afterEntry]
  omega

@[simp] theorem State.exitActive_slot (s : State) (i j : Slot) : (s.exitActive i).slot j = s.slot j := rfl
@[simp] theorem State.enterActive_slot (s : State) (i j : Slot) : (s.enterActive i).slot j = s.slot j := rfl
@[simp] theorem State.exitActive_meter (s : State) (i : Slot) : (s.exitActive i).meter = s.meter.afterExit i := rfl
@[simp] theorem State.enterActive_meter (s : State) (i : Slot) :
    (s.enterActive i).meter = s.meter.afterEntry i (s.slot i).cov.upCir (s.slot i).cov.downCir := rfl
@[simp] theorem State.exitActive_port (s : State) (i : Slot) : (s.exitActive i).port = s.port := rfl
@[simp] theorem State.enterActive_port (s : State) (i : Slot) : (s.enterActive i).port = s.port := rfl
@[simp] theorem State.exitActive_line (s : State) (i : Slot) (n : LineNo) : (s.exitActive i).line n = s.line n := rfl
@[simp] theorem State.enterActive_line (s : State) (i : Slot) (n : LineNo) : (s.enterActive i).line n = s.line n := rfl

/-- The counted rates after an exit. -/
theorem Meter.afterExit_counted (m : Meter) (i j : Slot) :
    (m.afterExit i).countedUp[j] = (if i = j then 0 else m.countedUp[j])
      ∧ (m.afterExit i).countedDown[j] = (if i = j then 0 else m.countedDown[j]) := by
  simp [Meter.afterExit, Vector.getElem_set, Fin.ext_iff]

/-- The counted rates after an entry. -/
theorem Meter.afterEntry_counted (m : Meter) (i j : Slot) (up down : Nat) :
    (m.afterEntry i up down).countedUp[j] = (if i = j then up else m.countedUp[j])
      ∧ (m.afterEntry i up down).countedDown[j] = (if i = j then down else m.countedDown[j]) := by
  simp [Meter.afterEntry, Vector.getElem_set, Fin.ext_iff]

/-! ### `SumsWell` while one slot awaits its report -/

/-- `SumsWell` but that the counted rates of slot `i`, not yet reported, may still stand. -/
structure State.SumsBut (s : State) (i : Slot) : Prop where
  adds : s.meter.Adds
  counted : ∀ j : Slot, s.meter.countedUp[j] ≤ 65535 ∧ s.meter.countedDown[j] ≤ 65535
  rates : ∀ j : Slot, (s.slot j).cov.upCir ≤ 65535 ∧ (s.slot j).cov.downCir ≤ 65535
  idle : ∀ j : Slot, j ≠ i → (s.slot j).cov.state ≠ .active → s.meter.countedUp[j] = 0 ∧ s.meter.countedDown[j] = 0
  waiting : s.port.state.ratesFit = true

theorem State.SumsWell.but {s : State} (h : s.SumsWell) (i : Slot) : s.SumsBut i := by
  obtain ⟨au, ad, hc, hr, hi, hw⟩ := h
  exact ⟨⟨au, ad⟩, hc, hr, fun j _ => hi j, hw⟩

theorem State.SumsBut.setSlot {s : State} {i : Slot} (h : s.SumsBut i) {r : Record}
    (hr : r.cov.upCir ≤ 65535 ∧ r.cov.downCir ≤ 65535) : (s.setSlot i r).SumsBut i where
  adds := h.adds
  counted := h.counted
  rates j := by
    rw [State.setSlot_slot]
    split
    · exact hr
    · exact h.rates j
  idle j hj hs := h.idle j hj (by rwa [State.setSlot_slot, if_neg (Ne.symm hj)] at hs)
  waiting := h.waiting

/-- Nothing but the record table, the metering unit and the waiting command matters. -/
theorem State.SumsBut.of_eq {s t : State} {i : Slot} (h : s.SumsBut i) (hs : t.slots = s.slots) (hm : t.meter = s.meter)
    (hp : t.port = s.port) : t.SumsBut i := by
  have hslot : ∀ j, t.slot j = s.slot j := fun j => by simp only [State.slot, hs]
  exact ⟨hm ▸ h.adds, hm ▸ h.counted, fun j => hslot j ▸ h.rates j, fun j hj => hslot j ▸ hm ▸ h.idle j hj, hp ▸ h.waiting⟩

/-- The exit reported, the sums are well again. -/
theorem State.SumsBut.exitActive {s : State} {i : Slot} (h : s.SumsBut i) : (s.exitActive i).SumsWell := by
  obtain ⟨hu, hd⟩ := h.adds.afterExit i
  refine ⟨hu, hd, fun j => ?_, h.rates, fun j hs => ?_, h.waiting⟩ <;>
    rw [State.exitActive_meter, (Meter.afterExit_counted _ i j).1, (Meter.afterExit_counted _ i j).2]
  · have := h.counted j
    split <;> simp_all
  · split
    · exact ⟨rfl, rfl⟩
    · exact h.idle j (Ne.symm ‹_›) hs

/-- With nothing counted for the slot, the sums are well. -/
theorem State.SumsBut.done {s : State} {i : Slot} (h : s.SumsBut i)
    (h0 : s.meter.countedUp[i] = 0 ∧ s.meter.countedDown[i] = 0) : s.SumsWell := by
  refine ⟨h.adds.1, h.adds.2, h.counted, h.rates, fun j hs => ?_, h.waiting⟩
  by_cases hj : j = i
  · exact hj ▸ h0
  · exact h.idle j hj hs

/-- The entry of an ACTIVE record for which nothing is counted yet. -/
theorem State.SumsBut.enterActive {s : State} {i : Slot} (h : s.SumsBut i) (ha : (s.slot i).cov.state = .active)
    (h0 : s.meter.countedUp[i] = 0 ∧ s.meter.countedDown[i] = 0) : (s.enterActive i).SumsWell := by
  obtain ⟨hu, hd⟩ := h.adds.afterEntry h0.1 h0.2 (s.slot i).cov.upCir (s.slot i).cov.downCir
  refine ⟨hu, hd, fun j => ?_, h.rates, fun j hs => ?_, h.waiting⟩ <;>
    rw [State.enterActive_meter, (Meter.afterEntry_counted _ i j _ _).1, (Meter.afterEntry_counted _ i j _ _).2]
  · have := h.counted j
    have := h.rates i
    split <;> simp_all
  · split
    · next e => subst e; exact absurd ha hs
    · exact h.idle j (Ne.symm ‹_›) hs

/-- What is counted for a slot after its exit. -/
theorem State.exitActive_counted_self (s : State) (i : Slot) :
    (s.exitActive i).meter.countedUp[i] = 0 ∧ (s.exitActive i).meter.countedDown[i] = 0 := by
  rw [State.exitActive_meter, (Meter.afterExit_counted _ i i).1, (Meter.afterExit_counted _ i i).2]
  simp

/-- Nothing is counted for a record that is not ACTIVE. -/
theorem State.SumsWell.counted_zero {s : State} (h : s.SumsWell) {i : Slot} (hi : (s.slot i).cov.state ≠ .active) :
    s.meter.countedUp[i] = 0 ∧ s.meter.countedDown[i] = 0 := by
  obtain ⟨-, -, -, -, hz, -⟩ := h
  exact hz i hi

theorem State.SumsWell.rates {s : State} (h : s.SumsWell) (i : Slot) :
    (s.slot i).cov.upCir ≤ 65535 ∧ (s.slot i).cov.downCir ≤ 65535 := by
  obtain ⟨-, -, -, hr, -, -⟩ := h
  exact hr i

/-! ### `CountsWell` while one slot awaits its report -/

/-- `CountsWell` at every slot but `i`. -/
def State.CountsBut (s : State) (i : Slot) : Prop :=
  ∀ j : Slot, j ≠ i → (s.slot j).cov.state = .active → (s.slot j).cov = (s.slot j).code.covers →
    s.meter.countedUp[j] = (s.slot j).cov.upCir ∧ s.meter.countedDown[j] = (s.slot j).cov.downCir

theorem State.CountsWell.but {s : State} (h : s.CountsWell) (i : Slot) : s.CountsBut i := fun j _ => h j

theorem State.CountsBut.setSlot {s : State} {i : Slot} (h : s.CountsBut i) (r : Record) :
    (s.setSlot i r).CountsBut i := by
  intro j hj
  rw [State.setSlot_slot, if_neg (Ne.symm hj)]
  exact h j hj

theorem State.CountsBut.exitActive {s : State} {i : Slot} (h : s.CountsBut i) : (s.exitActive i).CountsBut i := by
  intro j hj
  rw [State.exitActive_meter, (Meter.afterExit_counted _ i j).1, (Meter.afterExit_counted _ i j).2,
    if_neg (Ne.symm hj), if_neg (Ne.symm hj)]
  exact h j hj

theorem State.CountsBut.enterActive {s : State} {i : Slot} (h : s.CountsBut i) : (s.enterActive i).CountsWell := by
  intro j
  rw [State.enterActive_meter, (Meter.afterEntry_counted _ i j _ _).1, (Meter.afterEntry_counted _ i j _ _).2]
  by_cases hj : i = j
  · subst hj
    simp
  · rw [if_neg hj, if_neg hj]
    exact h j (Ne.symm hj)

/-- The record of the slot need not be counted. -/
theorem State.CountsBut.done {s : State} {i : Slot} (h : s.CountsBut i) (hi : (s.slot i).cov.state ≠ .active) :
    s.CountsWell := by
  intro j ha
  refine h j (fun e => hi (e ▸ ha)) ha

end Sys2Proof.Machine
end

