-- ==== Sys2Proof/Proofs/TableWell.lean ====
section
/-! The agreement of the record table with the attached lists: what keeps it. -/

namespace Sys2Proof.Machine

/-! ### What the agreement says -/

/-- A line's list is part of the count of all lists. -/
theorem State.count_le_attachments (s : State) (n : LineNo) (i : Slot) :
    (s.line n).attached.count i ≤ s.attachments i :=
  List.le_sum_of_mem (List.mem_map.2 ⟨n, List.mem_finRange n, rfl⟩)

/-- No list holds a slot twice (R30). -/
theorem State.TableWell.nodup {s : State} (h : s.TableWell) (n : LineNo) : (s.line n).attached.Nodup := by
  obtain ⟨hfree, hone, -⟩ := h
  rw [List.nodup_iff_count_le_one]
  intro i
  have hle := s.count_le_attachments n i
  by_cases hi : (s.slot i).cov.state = .free
  · have := (hfree i hi).2; omega
  · have := hone i hi; omega

/-- A slot stands in the lists of no two lines: its record keeps one line number (R30). -/
theorem State.TableWell.line_unique {s : State} (h : s.TableWell) {i : Slot} {m n : LineNo}
    (hm : i ∈ (s.line m).attached) (hn : i ∈ (s.line n).attached) : m = n := by
  obtain ⟨-, -, hatt, -⟩ := h
  obtain ⟨-, em, -⟩ := (hatt m).2 i hm
  obtain ⟨-, en, -⟩ := (hatt n).2 i hn
  exact Fin.ext (em.symm.trans en)

/-! ### Changes that leave the lists alone -/

theorem State.attachments_congr {s t : State} (h : ∀ n, (t.line n).attached = (s.line n).attached) (i : Slot) :
    t.attachments i = s.attachments i := by
  simp only [State.attachments, h]

/-- What the part may write into the slot of a record that is not FREE: the line that the code covers stays, the state
suits the line, and the code tells the state, or fails for a DAMAGED record. -/
structure State.Rewrites (s : State) (i : Slot) (r : Record) : Prop where
  old : (s.slot i).cov.state ≠ .free
  notFree : r.cov.state ≠ .free
  line : r.code.covers.line = (s.slot i).code.covers.line
  active : r.cov.state = .active → ∀ n, i ∈ (s.line n).attached → (s.line n).state = .rest .inService
  standby : r.cov.state = .standby → ∀ n, i ∈ (s.line n).attached → (s.line n).state ≠ .rest .inService
  failing : r.cov.state = .damaged → r.passes = false
  covers : r.code.covers.state ≠ .damaged
  told : r.cov.state ≠ .damaged → r.code.covers.state = r.cov.state

theorem State.TableWell.setSlot {s : State} (h : s.TableWell) {i : Slot} {r : Record} (hr : s.Rewrites i r) :
    (s.setSlot i r).TableWell := by
  obtain ⟨hfree, hone, hatt, hdam, hcov, htold⟩ := h
  refine ⟨fun j hj => ?_, fun j hj => ?_, fun n => ⟨(hatt n).1, fun j hj => ?_⟩, fun j hj => ?_, fun j => ?_, fun j hj => ?_⟩
    <;> by_cases e : i = j <;> simp only [State.AttachedWell, State.setSlot_slot, State.setSlot_line, e, if_true, if_false] at *
  · exact absurd hj hr.notFree
  · exact hfree j hj
  · exact hone j hr.old
  · exact hone j hj
  · obtain ⟨-, hl, -⟩ := (hatt n).2 j hj
    exact ⟨hr.notFree, hr.line.trans hl, fun ha => hr.active ha n hj, fun hs => hr.standby hs n hj⟩
  · exact (hatt n).2 j hj
  · exact hr.failing hj
  · exact hdam j hj
  · exact hr.covers
  · exact hcov j
  · exact hr.told hj
  · exact htold j hj

/-- The line-driven moves (R4): records go between STANDBY and ACTIVE as their lines do, every list stays. -/
theorem State.TableWell.moved {s t : State} (h : s.TableWell)
    (hlist : ∀ n, (t.line n).attached = (s.line n).attached)
    (hslot : ∀ i, t.slot i = s.slot i ∨ ((s.slot i).cov.state = .standby ∨ (s.slot i).cov.state = .active)
      ∧ (t.slot i = (s.slot i).moveState .standby ∨ t.slot i = (s.slot i).moveState .active))
    (hactive : ∀ n, ∀ i ∈ (s.line n).attached, (t.slot i).cov.state = .active → (t.line n).state = .rest .inService)
    (hstandby : ∀ n, ∀ i ∈ (s.line n).attached, (t.slot i).cov.state = .standby → (t.line n).state ≠ .rest .inService) :
    t.TableWell := by
  obtain ⟨hfree, hone, hatt, hdam, hcov, htold⟩ := h
  have hcount := State.attachments_congr hlist
  have hmove : ∀ i, t.slot i = s.slot i ∨ (s.slot i).cov.state ≠ .free ∧ (t.slot i).cov.state ≠ .free
      ∧ (t.slot i).cov.state ≠ .damaged ∧ (t.slot i).code.covers.state = (t.slot i).cov.state
      ∧ (t.slot i).code.covers.line = (s.slot i).code.covers.line := by
    intro i
    refine (hslot i).imp_right ?_
    rintro ⟨ho, e | e⟩ <;> rw [e] <;> rcases ho with ho | ho <;> simp [Record.moveState, ho]
  refine ⟨fun i hi => ?_, fun i hi => ?_, fun n => ⟨?_, fun i hi => ⟨?_, ?_, ?_, ?_⟩⟩, fun i hi => ?_, fun i => ?_, fun i hi => ?_⟩
  · rcases hmove i with e | ⟨-, hf, -⟩
    · rw [e] at hi ⊢
      rw [hcount]
      exact hfree i hi
    · exact absurd hi hf
  · rw [hcount]
    rcases hmove i with e | ⟨ho, -⟩
    · exact hone i (e ▸ hi)
    · exact hone i ho
  · rw [hlist]; exact (hatt n).1
  · rw [hlist] at hi
    rcases hmove i with e | ⟨-, hf, -⟩
    · rw [e]; exact ((hatt n).2 i hi).1
    · exact hf
  · rw [hlist] at hi
    obtain ⟨-, hl, -⟩ := (hatt n).2 i hi
    rcases hmove i with e | ⟨-, -, -, -, hcl⟩
    · rw [e]; exact hl
    · exact hcl.trans hl
  · exact hactive n i (hlist n ▸ hi)
  · exact hstandby n i (hlist n ▸ hi)
  · rcases hmove i with e | ⟨-, -, hd, -⟩
    · rw [e] at hi ⊢; exact hdam i hi
    · exact absurd hi hd
  · rcases hmove i with e | ⟨-, -, hd, hc, -⟩
    · rw [e]; exact hcov i
    · rw [hc]; exact hd
  · rcases hmove i with e | ⟨-, -, -, hc, -⟩
    · rw [e] at hi ⊢; exact htold i hi
    · exact hc

/-! ### A line's change with the walk it calls for -/

/-- A change of a line that keeps its list and whether it is IN_SERVICE. -/
theorem State.TableWell.setLine {s : State} (h : s.TableWell) {n : LineNo} {l : Line}
    (hl : l.attached = (s.line n).attached)
    (hs : l.state = .rest .inService ↔ (s.line n).state = .rest .inService) : (s.setLine n l).TableWell := by
  have hatt := h.2.2.1
  refine h.moved (fun m => ?_) (fun i => .inl rfl) (fun m i hi => ?_) (fun m i hi => ?_) <;> rw [State.setLine_line]
  · split
    · next e => rw [← e, hl]
    · rfl
  · obtain ⟨-, -, ha, -⟩ := (hatt m).2 i hi
    split
    · next e => subst e; exact fun x => hs.2 (ha x)
    · exact ha
  · obtain ⟨-, -, -, hb⟩ := (hatt m).2 i hi
    split
    · next e => subst e; exact fun x y => hb x (hs.1 y)
    · exact hb

/-- A line enters IN_SERVICE and its list is walked (R4). -/
theorem State.TableWell.enters {s : State} (h : s.TableWell) {n : LineNo} {l : Line}
    (hl : l.attached = (s.line n).attached) (hs : l.state = .rest .inService) :
    ((s.setLine n l).enterService n).TableWell := by
  have hatt := h.2.2.1
  obtain ⟨⟨hslot, -⟩, hframe⟩ := (s.setLine n l).enterService_enters n (by simp [hl, h.nodup n])
  have hline : ∀ m, ((s.setLine n l).enterService n).line m = if n = m then l else s.line m := by
    intro m; rw [hframe, ← State.setLine_line]; rfl
  simp only [State.movedIn, State.setLine_line, if_true, hl, State.setLine_slot] at hslot
  refine h.moved (fun m => ?_) (fun i => ?_) (fun m i hi => ?_) (fun m i hi => ?_)
  · rw [hline]; split
    · next e => rw [← e, hl]
    · rfl
  · rw [hslot]; split
    · next hm => exact .inr ⟨.inl (by simpa using (List.mem_filter.1 hm).2), .inr rfl⟩
    · exact .inl rfl
  · rw [hline, hslot]
    by_cases e : n = m
    · simp [e, ← hs]
    · have hm : i ∉ (s.line n).attached := fun hn => e (h.line_unique hn hi)
      rw [if_neg e, if_neg (fun hf => hm (List.mem_filter.1 hf).1)]
      exact ((hatt m).2 i hi).2.2.1
  · rw [hline, hslot]
    by_cases e : n = m
    · subst e
      intro hst
      split at hst
      · simp [Record.moveState] at hst
      · next hm => exact absurd (List.mem_filter.2 ⟨hi, by simpa using hst⟩) hm
    · have hm : i ∉ (s.line n).attached := fun hn => e (h.line_unique hn hi)
      rw [if_neg e, if_neg (fun hf => hm (List.mem_filter.1 hf).1)]
      exact ((hatt m).2 i hi).2.2.2

/-- A line leaves IN_SERVICE and its list is walked (R4). -/
theorem State.TableWell.leaves {s : State} (h : s.TableWell) {n : LineNo} {l : Line}
    (hl : l.attached = (s.line n).attached) (hs : l.state ≠ .rest .inService) :
    ((s.setLine n l).leaveService n).TableWell := by
  have hatt := h.2.2.1
  obtain ⟨⟨hslot, -⟩, hframe⟩ := (s.setLine n l).leaveService_leaves n (by simp [hl, h.nodup n])
  have hline : ∀ m, ((s.setLine n l).leaveService n).line m = if n = m then l else s.line m := by
    intro m; rw [hframe, ← State.setLine_line]; rfl
  simp only [State.movedOut, State.setLine_line, if_true, hl, State.setLine_slot] at hslot
  refine h.moved (fun m => ?_) (fun i => ?_) (fun m i hi => ?_) (fun m i hi => ?_)
  · rw [hline]; split
    · next e => rw [← e, hl]
    · rfl
  · rw [hslot]; split
    · next hm => exact .inr ⟨.inr (by simpa using (List.mem_filter.1 hm).2), .inl rfl⟩
    · exact .inl rfl
  · rw [hline, hslot]
    by_cases e : n = m
    · subst e
      intro hst
      split at hst
      · simp [Record.moveState] at hst
      · next hm => exact absurd (List.mem_filter.2 ⟨hi, by simpa using hst⟩) hm
    · have hm : i ∉ (s.line n).attached := fun hn => e (h.line_unique hn hi)
      rw [if_neg e, if_neg (fun hf => hm (List.mem_filter.1 hf).1)]
      exact ((hatt m).2 i hi).2.2.1
  · rw [hline, hslot]
    by_cases e : n = m
    · simp [e, hs]
    · have hm : i ∉ (s.line n).attached := fun hn => e (h.line_unique hn hi)
      rw [if_neg e, if_neg (fun hf => hm (List.mem_filter.1 hf).1)]
      exact ((hatt m).2 i hi).2.2.2

/-! ### A slot attached and a slot removed -/

/-- One list replaced: its count is replaced in the sum. -/
theorem State.attachments_setLine (s : State) (n : LineNo) (l : Line) (i : Slot) :
    (s.setLine n l).attachments i + (s.line n).attached.count i = s.attachments i + l.attached.count i := by
  have hsum : ∀ u : State, u.attachments i
      = (u.line n).attached.count i + ∑ m ∈ Finset.univ.erase n, (u.line m).attached.count i := by
    intro u
    rw [State.attachments, ← Fin.sum_univ_def]
    exact (Finset.add_sum_erase _ (fun m => (u.line m).attached.count i) (Finset.mem_univ n)).symm
  have hrest : ∑ m ∈ Finset.univ.erase n, ((s.setLine n l).line m).attached.count i
      = ∑ m ∈ Finset.univ.erase n, (s.line m).attached.count i := by
    refine Finset.sum_congr rfl fun m hm => ?_
    rw [State.setLine_line, if_neg (Ne.symm (Finset.ne_of_mem_erase hm))]
  rw [hsum, hsum s, hrest, State.setLine_line, if_pos rfl]
  omega

/-- A record written into a FREE slot that joins a line's list (R15, R30). -/
theorem State.TableWell.attach {s : State} (h : s.TableWell) {i : Slot} {n : LineNo} {r : Record}
    (hi : (s.slot i).cov.state = .free) (hn : (s.line n).attached.length < 8)
    (hst : r.cov.state = if (s.line n).state = .rest .inService then .active else .standby)
    (hl : r.code.covers.line = n.val) (hc : r.code.covers.state = r.cov.state) :
    ((s.setSlot i r).setLine n { s.line n with attached := (s.line n).attached ++ [i] }).TableWell := by
  obtain ⟨hfree, hone, hatt, hdam, hcov, htold⟩ := h
  have hr : r.cov.state ≠ .free ∧ r.cov.state ≠ .damaged := by rw [hst]; split <;> simp
  have hcount : ∀ j, ((s.setSlot i r).setLine n { s.line n with attached := (s.line n).attached ++ [i] }).attachments j
      = s.attachments j + if i = j then 1 else 0 := by
    intro j
    have := (s.setSlot i r).attachments_setLine n { s.line n with attached := (s.line n).attached ++ [i] } j
    have e : (s.setSlot i r).attachments j = s.attachments j := rfl
    rw [e, List.count_append, List.count_singleton, State.setSlot_line] at this
    by_cases c : i = j
    · simp only [c, beq_self_eq_true, if_true] at this ⊢
      omega
    · simp only [beq_eq_false_iff_ne.2 c, c, if_false] at this ⊢
      simpa using this
  have hout : ∀ m, i ∉ (s.line m).attached := fun m hm => ((hatt m).2 i hm).1 hi
  refine ⟨fun j hj => ?_, fun j hj => ?_, fun m => ?_, fun j hj => ?_, fun j => ?_, fun j hj => ?_⟩
  · rw [hcount]
    by_cases e : i = j
    · simp [e, hr.1] at hj
    · simpa [e] using hfree j (by simpa [e] using hj)
  · rw [hcount]
    by_cases e : i = j
    · subst e; simp [(hfree i hi).2]
    · simpa [e] using hone j (by simpa [e] using hj)
  · by_cases e : n = m
    · subst e
      refine ⟨by simp; omega, fun j hj => ?_⟩
      simp only [State.setLine_line, if_true, List.mem_append, List.mem_singleton] at hj
      rcases hj with hj | rfl
      · have hne : i ≠ j := fun e => hout n (e ▸ hj)
        simpa [State.AttachedWell, hne] using (hatt n).2 j hj
      · simp only [State.AttachedWell, State.setLine_slot, State.setSlot_slot, if_true, State.setLine_line]
        refine ⟨hr.1, hl, fun ha => ?_, fun hs => ?_⟩ <;> rw [hst] at * <;> split at * <;> simp_all
    · refine ⟨by simpa [e] using (hatt m).1, fun j hj => ?_⟩
      simp only [State.setLine_line, if_neg e, State.setSlot_line] at hj
      have hne : i ≠ j := fun e => hout m (e ▸ hj)
      simpa [State.AttachedWell, hne, e] using (hatt m).2 j hj
  · by_cases e : i = j
    · simp [e, hr.2] at hj
    · simpa [e] using hdam j (by simpa [e] using hj)
  · by_cases e : i = j
    · simpa [e, hc] using hr.2
    · simpa [e] using hcov j
  · by_cases e : i = j
    · simp [e, hc]
    · simpa [e] using htold j (by simpa [e] using hj)

/-- A slot taken out of every list and cleared (R17, R24). -/
theorem State.TableWell.detach {s : State} (h : s.TableWell) (i : Slot) :
    ((s.withLines (s.lines.map fun l => { l with attached := l.attached.filter (· != i) })).setSlot i
      clearedRecord).TableWell := by
  obtain ⟨hfree, hone, hatt, hdam, hcov, htold⟩ := h
  have hline : ∀ m, ((s.withLines (s.lines.map fun l => { l with attached := l.attached.filter (· != i) })).setSlot i
      clearedRecord).line m = { s.line m with attached := (s.line m).attached.filter (· != i) } := by
    intro m; simp [State.line, State.withLines]
  have hcount : ∀ j, ((s.withLines (s.lines.map fun l => { l with attached := l.attached.filter (· != i) })).setSlot i
      clearedRecord).attachments j = if i = j then 0 else s.attachments j := by
    intro j
    simp only [State.attachments, hline]
    by_cases e : i = j
    · subst e
      rw [if_pos rfl]
      refine List.sum_eq_zero fun x hx => ?_
      obtain ⟨m, -, rfl⟩ := List.mem_map.1 hx
      exact List.count_eq_zero.2 (by simp)
    · simp [e, List.count_filter, Ne.symm e]
  have hcl : clearedRecord.cov.state = .free ∧ clearedRecord.code.covers.state = .free := ⟨rfl, rfl⟩
  refine ⟨fun j hj => ?_, fun j hj => ?_, fun m => ?_, fun j hj => ?_, fun j => ?_, fun j hj => ?_⟩
  · rw [hcount]
    by_cases e : i = j
    · simp [e]
    · simpa [e] using hfree j (by simpa [e] using hj)
  · rw [hcount]
    by_cases e : i = j
    · simp [e, hcl] at hj
    · simpa [e] using hone j (by simpa [e] using hj)
  · rw [hline]
    refine ⟨(List.length_filter_le ..).trans (hatt m).1, fun j hj => ?_⟩
    obtain ⟨hj, hne⟩ := List.mem_filter.1 hj
    have hne : i ≠ j := fun e => by simp [e] at hne
    have hw := (hatt m).2 j hj
    simp only [State.AttachedWell, State.setSlot_slot, if_neg hne, hline]
    exact hw
  · by_cases e : i = j
    · simp [e, hcl] at hj
    · simpa [e] using hdam j (by simpa [e] using hj)
  · by_cases e : i = j
    · simp [e, hcl]
    · simpa [e] using hcov j
  · by_cases e : i = j
    · simp [e, hcl]
    · simpa [e] using htold j (by simpa [e] using hj)

end Sys2Proof.Machine
end

