-- ==== Sys2Proof/Proofs/RecordMoves.lean ====
section
/-! What a step can do to the record table, said once: a run of record moves, each of which keeps the table, the sums and
the counted rates well. -/

namespace Sys2Proof.Machine

/-! ### Changes that no statement about the table sees -/

/-- The covered fields, the codes, the FREE slots, the counted rates, the line states and the attached lists are kept;
buckets, latches and counters of records, and everything else, may change. -/
structure State.TableKept (s t : State) : Prop where
  cov : ∀ i, (t.slot i).cov = (s.slot i).cov
  code : ∀ i, (t.slot i).code = (s.slot i).code
  free : ∀ i, (s.slot i).cov.state = .free → t.slot i = s.slot i
  countedUp : t.meter.countedUp = s.meter.countedUp
  countedDown : t.meter.countedDown = s.meter.countedDown
  sumUp : t.meter.sumUp = s.meter.sumUp
  sumDown : t.meter.sumDown = s.meter.sumDown
  state : ∀ n, (t.line n).state = (s.line n).state
  attached : ∀ n, (t.line n).attached = (s.line n).attached
  rates : s.port.state.ratesFit = true → t.port.state.ratesFit = true

/-- Records, metering unit and lines as they were. -/
theorem State.TableKept.of_eq {s t : State} (hs : t.slots = s.slots) (hm : t.meter = s.meter) (hl : t.lines = s.lines)
    (hp : s.port.state.ratesFit = true → t.port.state.ratesFit = true) : s.TableKept t := by
  have hslot : ∀ i, t.slot i = s.slot i := fun i => by simp only [State.slot, hs]
  have hline : ∀ n, t.line n = s.line n := fun n => by simp only [State.line, hl]
  constructor <;> intros <;> simp_all

/-- One record keeps its covered fields and its code. -/
theorem State.TableKept.setSlot {s : State} {i : Slot} {r : Record} (hc : r.cov = (s.slot i).cov)
    (hk : r.code = (s.slot i).code) (hf : (s.slot i).cov.state ≠ .free) : s.TableKept (s.setSlot i r) where
  cov j := by rw [State.setSlot_slot]; split <;> simp_all
  code j := by rw [State.setSlot_slot]; split <;> simp_all
  free j hj := by rw [State.setSlot_slot, if_neg]; rintro rfl; exact hf hj
  countedUp := rfl
  countedDown := rfl
  sumUp := rfl
  sumDown := rfl
  state _ := rfl
  attached _ := rfl
  rates := id

theorem State.TableKept.tableWell {s t : State} (h : s.TableKept t) (w : s.TableWell) : t.TableWell := by
  obtain ⟨hfree, hone, hatt, hdam, hcov, htold⟩ := w
  have hcount := State.attachments_congr h.attached
  refine ⟨fun i hi => ?_, fun i hi => ?_, fun n => ⟨?_, fun i hi => ?_⟩, fun i hi => ?_, fun i => ?_, fun i hi => ?_⟩
  · rw [h.cov] at hi
    rw [h.free i hi, hcount]
    exact hfree i hi
  · rw [h.cov] at hi
    rw [hcount]
    exact hone i hi
  · rw [h.attached]; exact (hatt n).1
  · rw [h.attached] at hi
    simp only [State.AttachedWell, h.cov, h.code, h.state]
    exact (hatt n).2 i hi
  · rw [h.cov] at hi
    simp only [Record.passes, h.cov, h.code]
    exact hdam i hi
  · rw [h.code]; exact hcov i
  · rw [h.cov] at hi ⊢
    rw [h.code]
    exact htold i hi

theorem State.TableKept.sumsWell {s t : State} (h : s.TableKept t) (w : s.SumsWell) : t.SumsWell := by
  obtain ⟨hu, hd, hc, hr, hi, hp⟩ := w
  simp only [State.SumsWell, h.cov, h.countedUp, h.countedDown, h.sumUp, h.sumDown]
  exact ⟨hu, hd, hc, hr, hi, h.rates hp⟩

theorem State.TableKept.countsWell {s t : State} (h : s.TableKept t) (w : s.CountsWell) : t.CountsWell := by
  intro i
  rw [h.cov, h.code, h.countedUp, h.countedDown]
  exact w i

/-! ### Damage discoveries -/

theorem State.offered_kept (s : State) (c : Capture) (e : Event) : s.TableKept ((s.offerCapture c).raise e) := by
  unfold State.offerCapture
  split <;> exact .of_eq rfl rfl rfl id

/-- A discovery as its parts: the record marked, the exit reported, the capture offered and the event raised. -/
theorem State.discover_kept (s : State) (i : Slot) (op : FaultOp) :
    let marked := s.setSlot i ((s.slot i).withState .damaged)
    (if (s.slot i).cov.state = .active then marked.exitActive i else marked).TableKept (s.discover i op) :=
  State.offered_kept _ ⟨i, (s.slot i).cov.tag, op⟩ .recordDamaged

theorem State.rewrites_damaged {s : State} (h : s.TableWell) {i : Slot} (hi : (s.slot i).cov.state ≠ .free) :
    s.Rewrites i ((s.slot i).withState .damaged) := by
  obtain ⟨-, -, -, -, hcov, -⟩ := h
  refine ⟨hi, by simp [Record.withState], rfl, by simp [Record.withState], by simp [Record.withState], fun _ => ?_, hcov i,
    by simp [Record.withState]⟩
  rw [Record.passes, beq_eq_false_iff_ne]
  intro e
  exact hcov i (by rw [show (s.slot i).code = _ from e]; rfl)

/-- The record table and the committed sums agree with the lines. -/
structure State.RecordsWell (s : State) : Prop where
  table : s.TableWell
  sums : s.SumsWell

theorem State.TableKept.recordsWell {s t : State} (h : s.TableKept t) (w : s.RecordsWell) : t.RecordsWell :=
  ⟨h.tableWell w.table, h.sumsWell w.sums⟩

/-- A record rewritten with its exit from ACTIVE reported where it was ACTIVE. -/
theorem State.RecordsWell.rewrite {s : State} (h : s.RecordsWell) {i : Slot} {r : Record} (hr : s.Rewrites i r)
    (hrate : r.cov.upCir ≤ 65535 ∧ r.cov.downCir ≤ 65535) :
    (if (s.slot i).cov.state = .active then (s.setSlot i r).exitActive i else s.setSlot i r).RecordsWell := by
  have hb := (h.sums.but i).setSlot hrate
  split
  · exact ⟨h.table.setSlot hr, hb.exitActive⟩
  · next hn => exact ⟨h.table.setSlot hr, hb.done (h.sums.counted_zero hn)⟩

theorem State.RecordsWell.discover {s : State} (h : s.RecordsWell) {i : Slot} (hi : (s.slot i).cov.state ≠ .free)
    (op : FaultOp) : (s.discover i op).RecordsWell :=
  (s.discover_kept i op).recordsWell (h.rewrite (State.rewrites_damaged h.table hi) (h.sums.rates i))

theorem State.CountsWell.discover {s : State} (h : s.CountsWell) (i : Slot) (op : FaultOp) :
    (s.discover i op).CountsWell := by
  refine (s.discover_kept i op).countsWell ?_
  have hb := (h.but i).setSlot ((s.slot i).withState .damaged)
  split
  · exact hb.exitActive.done (by simp [Record.withState])
  · exact hb.done (by simp [Record.withState])

/-! ### Line-driven moves -/

theorem State.SumsWell.moveIn {s : State} (h : s.SumsWell) (i : Slot) : (s.moveIn i).SumsWell := by
  unfold State.moveIn
  split
  · next hs =>
    exact ((h.but i).setSlot (r := (s.slot i).moveState .active) (h.rates i)).enterActive (by simp [Record.moveState])
      (h.counted_zero (by simp [hs]))
  · exact h

theorem State.SumsWell.moveOut {s : State} (h : s.SumsWell) (i : Slot) : (s.moveOut i).SumsWell := by
  unfold State.moveOut
  split
  · exact ((h.but i).setSlot (r := (s.slot i).moveState .standby) (h.rates i)).exitActive
  · exact h

theorem State.SumsWell.enterService {s : State} (h : s.SumsWell) (n : LineNo) : (s.enterService n).SumsWell :=
  List.foldlRecOn _ _ h fun _ hs i _ => hs.moveIn i

theorem State.SumsWell.leaveService {s : State} (h : s.SumsWell) (n : LineNo) : (s.leaveService n).SumsWell :=
  List.foldlRecOn _ _ h fun _ hs i _ => hs.moveOut i

theorem State.CountsWell.moveIn {s : State} (h : s.CountsWell) (i : Slot) : (s.moveIn i).CountsWell := by
  unfold State.moveIn
  split
  · exact ((h.but i).setSlot _).enterActive
  · exact h

theorem State.CountsWell.moveOut {s : State} (h : s.CountsWell) (i : Slot) : (s.moveOut i).CountsWell := by
  unfold State.moveOut
  split
  · exact ((h.but i).setSlot _).exitActive.done (by simp [Record.moveState])
  · exact h

theorem State.CountsWell.enterService {s : State} (h : s.CountsWell) (n : LineNo) : (s.enterService n).CountsWell :=
  List.foldlRecOn _ _ h fun _ hs i _ => hs.moveIn i

theorem State.CountsWell.leaveService {s : State} (h : s.CountsWell) (n : LineNo) : (s.leaveService n).CountsWell :=
  List.foldlRecOn _ _ h fun _ hs i _ => hs.moveOut i

/-! ### The record commands at their take -/

/-- A slot that the search finds is not FREE and holds the tag (R2). -/
theorem State.holds_of_find {s : State} {t : Tag} {i : Slot} (h : s.find t = some i) :
    (s.slot i).cov.state ≠ .free ∧ (s.slot i).cov.tag = t := by
  simpa [State.holds] using List.find?_some h

theorem State.free_of_freeWay {s : State} {t : Tag} {i : Slot} (h : s.freeWay t = some i) :
    (s.slot i).cov.state = .free := by
  simpa using List.find?_some h

theorem lineNoOf_val (n : LineNo) : lineNoOf n.val = some n := by simp [lineNoOf]

theorem State.healthyState_val (s : State) (n : LineNo) :
    s.healthyState n.val = if (s.line n).state = .rest .inService then .active else .standby := by
  simp [State.healthyState, lineNoOf_val]

theorem State.healthyState_eq (s : State) (k : Nat) : s.healthyState k = .active ∨ s.healthyState k = .standby := by
  unfold State.healthyState
  split
  · exact .inr rfl
  · split <;> simp

/-- The CIRs are taken as they are (R14). -/
@[simp] theorem Provision.correct_upCir (p : Provision) : p.correct.upCir = p.upCir := rfl
@[simp] theorem Provision.correct_downCir (p : Provision) : p.correct.downCir = p.downCir := rfl

/-- A record entered into ACTIVE where it is ACTIVE, with nothing counted for it. -/
theorem State.SumsBut.reportEntry {s : State} {i : Slot} (h : s.SumsBut i)
    (h0 : s.meter.countedUp[i] = 0 ∧ s.meter.countedDown[i] = 0) : (s.reportEntry i).SumsWell := by
  unfold State.reportEntry
  split
  · next ha => exact h.enterActive ha h0
  · exact h.done h0

theorem State.CountsBut.reportEntry {s : State} {i : Slot} (h : s.CountsBut i) : (s.reportEntry i).CountsWell := by
  unfold State.reportEntry
  split
  · exact h.enterActive
  · next hn => exact h.done hn

theorem State.reportEntry_tableWell {s : State} (h : s.TableWell) (i : Slot) : (s.reportEntry i).TableWell := by
  unfold State.reportEntry
  split <;> exact h

/-- An admission before its entry into ACTIVE is reported. -/
def State.admitted (s : State) (i : Slot) (n : LineNo) (tag : Tag) (p : Provision) : State :=
  ((s.setSlot i (admittedRecord (p.covered tag n.val (s.healthyState n.val)) s.armed)).withArmed false).setLine n
    { s.line n with attached := (s.line n).attached ++ [i] }

theorem State.admitAt_eq (s : State) (i : Slot) (n : LineNo) (tag : Tag) (p : Provision) :
    s.admitAt i n tag p = (s.admitted i n tag p).reportEntry i := rfl

theorem State.RecordsWell.admitAt {s : State} (h : s.RecordsWell) {i : Slot} {n : LineNo} {tag : Tag} {p : Provision}
    (hi : (s.slot i).cov.state = .free) (hn : (s.line n).attached.length < 8)
    (hp : p.upCir ≤ 65535 ∧ p.downCir ≤ 65535) : (s.admitAt i n tag p).RecordsWell := by
  rw [State.admitAt_eq]
  have ht : (s.admitted i n tag p).TableWell := h.table.attach hi hn (s.healthyState_val n) rfl rfl
  have hs : (s.admitted i n tag p).SumsBut i := ((h.sums.but i).setSlot hp).of_eq
    (s := s.setSlot i (admittedRecord (p.covered tag n.val (s.healthyState n.val)) s.armed)) rfl rfl rfl
  exact ⟨State.reportEntry_tableWell ht i, hs.reportEntry (h.sums.counted_zero (by simp [hi]))⟩

theorem State.CountsWell.admitAt {s : State} (h : s.CountsWell) (i : Slot) (n : LineNo) (tag : Tag) (p : Provision) :
    (s.admitAt i n tag p).CountsWell :=
  State.CountsBut.reportEntry (i := i) ((h.but i).setSlot _)

/-- An amendment writes the line and the state that the record has (R16). -/
theorem State.rewrites_amended {s : State} (h : s.TableWell) {i : Slot} (hi : (s.slot i).cov.state ≠ .free)
    (hd : (s.slot i).cov.state ≠ .damaged) (hp : (s.slot i).passes = true) (p : Provision) (b : Bool) :
    s.Rewrites i ((s.slot i).amended p b) := by
  obtain ⟨-, -, hatt, -⟩ := h
  have hc := (Record.passes_iff _).1 hp
  refine ⟨hi, hi, ?_, fun ha n hn => ((hatt n).2 i hn).2.2.1 ha, fun hs n hn => ((hatt n).2 i hn).2.2.2 hs,
    fun he => absurd he hd, hd, fun _ => rfl⟩
  rw [hc]
  rfl

theorem State.RecordsWell.amend {s : State} (h : s.RecordsWell) {i : Slot} {r : Record} (hr : s.Rewrites i r)
    (hst : r.cov.state = (s.slot i).cov.state) (hrate : r.cov.upCir ≤ 65535 ∧ r.cov.downCir ≤ 65535) :
    (((s.setSlot i r).withArmed false).recount i).RecordsWell := by
  have hb : ((s.setSlot i r).withArmed false).SumsBut i := ((h.sums.but i).setSlot hrate).of_eq rfl rfl rfl
  have ht : ((s.setSlot i r).withArmed false).TableWell := h.table.setSlot hr
  unfold State.recount
  split
  · next ha => exact ⟨ht, (hb.exitActive.but i).enterActive ha (State.exitActive_counted_self _ i)⟩
  · next ha =>
    have hn : (s.slot i).cov.state ≠ .active := by
      rw [← hst]; intro e; apply ha
      show ((s.setSlot i r).slot i).cov.state = .active
      rw [State.setSlot_slot, if_pos rfl, e]
    exact ⟨ht, hb.done (h.sums.counted_zero hn)⟩

theorem State.CountsWell.amend {s : State} (h : s.CountsWell) (i : Slot) (r : Record) :
    (((s.setSlot i r).withArmed false).recount i).CountsWell := by
  have hb : ((s.setSlot i r).withArmed false).CountsBut i := (h.but i).setSlot r
  unfold State.recount
  split
  · exact hb.exitActive.enterActive
  · next ha => exact hb.done ha

theorem State.RecordsWell.retireAt {s : State} (h : s.RecordsWell) (i : Slot) : (s.retireAt i).RecordsWell := by
  have hcl : clearedRecord.cov.upCir ≤ 65535 ∧ clearedRecord.cov.downCir ≤ 65535 := by decide
  unfold State.retireAt
  split
  · exact ⟨(h.table.detach i :), ((((h.sums.but i).exitActive).but i).setSlot hcl).done (State.exitActive_counted_self s i)⟩
  · next ha => exact ⟨(h.table.detach i :), ((h.sums.but i).setSlot hcl).done (h.sums.counted_zero ha)⟩

theorem State.CountsWell.retireAt {s : State} (h : s.CountsWell) (i : Slot) : (s.retireAt i).CountsWell := by
  have hcl : clearedRecord.cov.state ≠ .active := by decide
  unfold State.retireAt
  split
  · exact (((h.but i).exitActive).setSlot clearedRecord).done (by rw [State.setSlot_slot, if_pos rfl]; exact hcl)
  · exact ((h.but i).setSlot clearedRecord).done (by rw [State.setSlot_slot, if_pos rfl]; exact hcl)

/-- A bar writes the state with a new code (R19). -/
theorem State.rewrites_barred {s : State} {i : Slot} (hi : (s.slot i).cov.state ≠ .free)
    (hp : (s.slot i).passes = true) : s.Rewrites i (((s.slot i).withState .barred).seal false) := by
  refine ⟨hi, by simp [Record.seal, Record.withState], ?_, by simp [Record.seal, Record.withState],
    by simp [Record.seal, Record.withState], by simp [Record.seal, Record.withState],
    by simp [Record.seal, Record.withState], fun _ => rfl⟩
  rw [(Record.passes_iff _).1 hp]
  rfl

/-- An unbar writes the state that suits the record's line with a new code (R20). -/
theorem State.rewrites_healthy {s : State} (h : s.TableWell) {i : Slot} (hi : (s.slot i).cov.state ≠ .free)
    (hp : (s.slot i).passes = true) :
    s.Rewrites i (((s.slot i).withState (s.healthyState (s.slot i).cov.line)).seal false) := by
  obtain ⟨-, -, hatt, -⟩ := h
  have hc := (Record.passes_iff _).1 hp
  have hst := s.healthyState_eq (s.slot i).cov.line
  have hline : ∀ n, i ∈ (s.line n).attached → s.healthyState (s.slot i).cov.line
      = if (s.line n).state = .rest .inService then .active else .standby := by
    intro n hn
    obtain ⟨-, hl, -⟩ := (hatt n).2 i hn
    rw [hc] at hl
    rw [show (s.slot i).cov.line = n.val from hl, State.healthyState_val]
  refine ⟨hi, ?_, by rw [hc]; rfl, fun ha n hn => ?_, fun hs n hn => ?_, fun he => ?_, ?_, fun _ => rfl⟩
  · show s.healthyState _ ≠ _
    rcases hst with e | e <;> simp [e]
  · by_contra hno
    have ha : s.healthyState (s.slot i).cov.line = .active := ha
    simp [hline n hn, hno] at ha
  · intro hno
    have hs : s.healthyState (s.slot i).cov.line = .standby := hs
    simp [hline n hn, hno] at hs
  · have he : s.healthyState (s.slot i).cov.line = .damaged := he
    rcases hst with e | e <;> simp [e] at he
  · show s.healthyState _ ≠ _
    rcases hst with e | e <;> simp [e]

/-- The rates that a waiting command carries are 16-bit numbers (Table 75). -/
def RecordCommand.RatesFit : RecordCommand → Prop
  | .admission _ _ p | .amend _ p => p.upCir ≤ 65535 ∧ p.downCir ≤ 65535
  | .retire _ | .retireSlot _ | .bar _ | .unbar _ | .lookUp _ => True

theorem RecordCommand.ratesFit_of_waiting {p : PortState} {c : RecordCommand} (h : p.ratesFit = true)
    (hw : p.waiting = some c) : c.RatesFit := by
  cases p with
  | none => simp [PortState.waiting] at hw
  | ready r => simp [PortState.waiting] at hw
  | wait w =>
    cases w with
    | taken => simp [PortState.waiting] at hw
    | store => simp [PortState.waiting] at hw
    | record d =>
      obtain rfl : d = c := by simpa [PortState.waiting] using hw
      cases d <;> simp_all [PortState.ratesFit, RecordCommand.RatesFit]

/-- What a record command can leave at its take. -/
inductive State.CommandLeaves (s : State) : RecordCommand → State → Prop
  /-- A refusal, or a look-up. -/
  | same {c : RecordCommand} : CommandLeaves s c s
  /-- A failing check (R7). -/
  | damage {c : RecordCommand} {i : Slot} {op : FaultOp} (hi : (s.slot i).cov.state ≠ .free) :
      CommandLeaves s c (s.discover i op)
  | admits {tag : Tag} {k : Nat} {p : Provision} {i : Slot} {n : LineNo} (hi : (s.slot i).cov.state = .free)
      (hn : (s.line n).attached.length < 8) : CommandLeaves s (.admission tag k p) (s.admitAt i n tag p.correct)
  | amends {tag : Tag} {p : Provision} {i : Slot} (hi : (s.slot i).cov.state ≠ .free)
      (hd : (s.slot i).cov.state ≠ .damaged) (hp : (s.slot i).passes = true) :
      CommandLeaves s (.amend tag p) (((s.setSlot i ((s.slot i).amended p.correct s.armed)).withArmed false).recount i)
  | retires {c : RecordCommand} {i : Slot} : CommandLeaves s c (s.retireAt i)
  | bars {c : RecordCommand} {i : Slot} (hi : (s.slot i).cov.state ≠ .free) (hp : (s.slot i).passes = true) :
      CommandLeaves s c (if (s.slot i).cov.state = .active
        then (s.setSlot i (((s.slot i).withState .barred).seal false)).exitActive i
        else s.setSlot i (((s.slot i).withState .barred).seal false))
  | unbars {c : RecordCommand} {i : Slot} (hb : (s.slot i).cov.state = .barred) (hp : (s.slot i).passes = true) :
      CommandLeaves s c
        ((s.setSlot i (((s.slot i).withState (s.healthyState (s.slot i).cov.line)).seal false)).reportEntry i)

theorem State.takeAdmit_leaves (s : State) (tag : Tag) (k : Nat) (p : Provision) :
    s.CommandLeaves (.admission tag k p) (s.takeAdmit tag k p).state := by
  unfold State.takeAdmit
  split
  · exact .same
  split
  · exact .same
  split
  · exact .same
  split
  · exact .same
  split
  · exact .same
  · next hn _ _ hf => exact .admits (State.free_of_freeWay hf) (Nat.not_le.1 hn)

theorem State.takeAmend_leaves (s : State) (tag : Tag) (p : Provision) :
    s.CommandLeaves (.amend tag p) (s.takeAmend tag p).state := by
  unfold State.takeAmend
  split
  · exact .same
  split
  · exact .same
  next i hf =>
  have hi := (State.holds_of_find hf).1
  dsimp only
  split
  · exact .same
  split
  · exact .damage hi
  · next hd hp => exact .amends hi hd (by simpa using hp)

theorem State.takeBar_leaves (s : State) (tag : Tag) : s.CommandLeaves (.bar tag) (s.takeBar tag).state := by
  unfold State.takeBar
  split
  · exact .same
  split
  · exact .same
  next i hf =>
  have hi := (State.holds_of_find hf).1
  dsimp only
  split
  · exact .same
  split
  · exact .damage hi
  split
  · exact .same
  · next hp _ => exact .bars hi (by simpa using hp)

theorem State.takeUnbar_leaves (s : State) (tag : Tag) : s.CommandLeaves (.unbar tag) (s.takeUnbar tag).state := by
  unfold State.takeUnbar
  split
  · exact .same
  split
  · exact .same
  next i hf =>
  have hi := (State.holds_of_find hf).1
  dsimp only
  split
  · exact .same
  split
  · exact .damage hi
  split
  · exact .same
  · next hp hb => exact .unbars (by simpa using hb) (by simpa using hp)

theorem State.takeLookUp_leaves (s : State) (tag : Tag) : s.CommandLeaves (.lookUp tag) (s.takeLookUp tag).state := by
  unfold State.takeLookUp
  split
  · exact .same
  split
  · exact .same
  next i hf =>
  dsimp only
  split
  · exact .same
  split
  · exact .damage (State.holds_of_find hf).1
  · exact .same

theorem State.takeRetire_leaves (s : State) (tag : Tag) : s.CommandLeaves (.retire tag) (s.takeRetire tag).state := by
  unfold State.takeRetire
  split
  · exact .same
  split
  · exact .same
  · exact .retires

theorem State.takeRetireSlot_leaves (s : State) (k : Nat) :
    s.CommandLeaves (.retireSlot k) (s.takeRetireSlot k).state := by
  unfold State.takeRetireSlot
  split
  · exact .same
  split
  · exact .same
  · exact .retires

theorem State.takeCommand_leaves (s : State) (c : RecordCommand) : s.CommandLeaves c (s.takeCommand c).state := by
  cases c with
  | admission tag k p => exact s.takeAdmit_leaves tag k p
  | amend tag p => exact s.takeAmend_leaves tag p
  | retire tag => exact s.takeRetire_leaves tag
  | retireSlot k => exact s.takeRetireSlot_leaves k
  | bar tag => exact s.takeBar_leaves tag
  | unbar tag => exact s.takeUnbar_leaves tag
  | lookUp tag => exact s.takeLookUp_leaves tag

/-- A record command keeps the table and the sums well, whatever it answers. -/
theorem State.RecordsWell.takeCommand {s : State} (h : s.RecordsWell) {c : RecordCommand} (hc : c.RatesFit) :
    (s.takeCommand c).state.RecordsWell := by
  have hl := s.takeCommand_leaves c
  generalize (s.takeCommand c).state = t at hl
  cases hl with
  | same => exact h
  | damage hi => exact h.discover hi _
  | @admits tag k p i n hi hn =>
    have hrate : p.upCir ≤ 65535 ∧ p.downCir ≤ 65535 := hc
    exact h.admitAt hi hn hrate
  | @amends tag p i hi hd hp =>
    have hrate : p.upCir ≤ 65535 ∧ p.downCir ≤ 65535 := hc
    exact h.amend (State.rewrites_amended h.table hi hd hp p.correct s.armed) rfl hrate
  | retires => exact h.retireAt _
  | bars hi hp => exact h.rewrite (State.rewrites_barred hi hp) (h.sums.rates _)
  | @unbars _ i hb hp =>
    have hr := State.rewrites_healthy h.table (by simp [hb]) hp
    have hs := (h.sums.but i).setSlot
      (r := ((s.slot i).withState (s.healthyState (s.slot i).cov.line)).seal false) (h.sums.rates i)
    exact ⟨State.reportEntry_tableWell (h.table.setSlot hr) i, hs.reportEntry (h.sums.counted_zero (by simp [hb]))⟩

/-- A record command keeps every intact ACTIVE record counted at its stored CIRs. -/
theorem State.CountsWell.takeCommand {s : State} (h : s.CountsWell) (c : RecordCommand) :
    (s.takeCommand c).state.CountsWell := by
  have hl := s.takeCommand_leaves c
  generalize (s.takeCommand c).state = t at hl
  have hbar : ∀ r : Record, ((r.withState .barred).seal false).cov.state ≠ .active := fun r => by
    simp [Record.withState, Record.seal]
  cases hl with
  | same => exact h
  | damage hi => exact h.discover _ _
  | admits hi hn => exact h.admitAt _ _ _ _
  | amends hi hd hp => exact h.amend _ _
  | retires => exact h.retireAt _
  | @bars _ i hi hp =>
    have hb := (h.but i).setSlot (((s.slot i).withState .barred).seal false)
    split
    · exact hb.exitActive.done (by simpa using hbar _)
    · exact hb.done (by simpa using hbar _)
  | unbars hb hp => exact ((h.but _).setSlot _).reportEntry

/-- The take keeps what the command keeps: beside it, only the port and the service change. -/
theorem State.takeManagement_kept (s : State) (c : RecordCommand) :
    (s.takeCommand c).state.TableKept (s.takeManagement c) := .of_eq rfl rfl rfl fun _ => rfl

/-! ### Record moves -/

/-- One change of the record table, the metering unit or the lines, as a step can make it. -/
inductive State.RecordMove : State → State → Prop
  /-- Nothing that the table's agreement is about. -/
  | kept {s t : State} (h : s.TableKept t) : RecordMove s t
  /-- A line's record changes, its list and whether it is IN_SERVICE kept. -/
  | line {s : State} {n : LineNo} {l : Line} (hl : l.attached = (s.line n).attached)
      (hs : l.state = .rest .inService ↔ (s.line n).state = .rest .inService) : RecordMove s (s.setLine n l)
  /-- A line enters IN_SERVICE and its list is walked (R4). -/
  | enters {s : State} {n : LineNo} {l : Line} (hl : l.attached = (s.line n).attached)
      (hs : l.state = .rest .inService) : RecordMove s ((s.setLine n l).enterService n)
  /-- A line leaves IN_SERVICE and its list is walked (R4). -/
  | leaves {s : State} {n : LineNo} {l : Line} (hl : l.attached = (s.line n).attached)
      (hs : l.state ≠ .rest .inService) : RecordMove s ((s.setLine n l).leaveService n)
  /-- A damage discovery on a record that is not FREE (R7). -/
  | discovers {s : State} {i : Slot} {op : FaultOp} (hi : (s.slot i).cov.state ≠ .free) : RecordMove s (s.discover i op)
  /-- The take of the record command that waits (R11). -/
  | takes {s : State} {c : RecordCommand} (hc : s.port.state.waiting = some c) : RecordMove s (s.takeManagement c)
  /-- A reset clears the records, the metering unit and the lines (R24, R42, R56). -/
  | clears {s t : State} (hs : t.slots = Vector.replicate 128 clearedRecord) (hm : t.meter = resetMeter)
      (hl : t.lines = Vector.replicate 24 resetLine) (hp : t.port.state.ratesFit = true) : RecordMove s t

/-- Record moves one after another. -/
def State.RecordRun : State → State → Prop := Relation.ReflTransGen State.RecordMove

/-- A cleared table, unit and set of lines agree. -/
theorem State.recordsWell_of_cleared {t : State} (hs : t.slots = Vector.replicate 128 clearedRecord)
    (hm : t.meter = resetMeter) (hl : t.lines = Vector.replicate 24 resetLine) (hp : t.port.state.ratesFit = true) :
    t.RecordsWell := by
  have hslot : ∀ i, t.slot i = clearedRecord := fun i => by simp [State.slot, hs]
  have hline : ∀ n, t.line n = resetLine := fun n => by simp [State.line, hl]
  have hcount : ∀ i, t.attachments i = 0 := fun i => by simp [State.attachments, hline, resetLine]
  have hcl : clearedRecord.cov.state = .free ∧ clearedRecord.code.covers.state = .free := ⟨rfl, rfl⟩
  refine ⟨⟨fun i _ => ⟨hslot i, hcount i⟩, fun i hi => absurd (by rw [hslot]; rfl) hi, fun n => ?_, fun i hi => ?_,
    fun i => ?_, fun i _ => ?_⟩, ?_, ?_, fun i => ?_, fun i => ?_, fun i _ => ?_, hp⟩
  · simp [hline, resetLine]
  · simp [hslot, hcl] at hi
  · simp [hslot, hcl]
  · simp [hslot, hcl]
  · simp [hm, resetMeter]
  · simp [hm, resetMeter]
  · simp [hm, resetMeter]
  · simp [hslot, clearedRecord, clearedCovered]
  · simp [hm, resetMeter]

theorem State.RecordMove.recordsWell {s t : State} (m : s.RecordMove t) (h : s.RecordsWell) : t.RecordsWell := by
  cases m with
  | kept hk => exact hk.recordsWell h
  | line hl hs => exact ⟨h.table.setLine hl hs, h.sums⟩
  | enters hl hs => exact ⟨h.table.enters hl hs, State.SumsWell.enterService (s := s.setLine _ _) h.sums _⟩
  | leaves hl hs => exact ⟨h.table.leaves hl hs, State.SumsWell.leaveService (s := s.setLine _ _) h.sums _⟩
  | discovers hi => exact h.discover hi _
  | takes hc =>
    obtain ⟨-, -, -, -, -, hw⟩ := h.sums
    exact (s.takeManagement_kept _).recordsWell (h.takeCommand (RecordCommand.ratesFit_of_waiting hw hc))
  | clears hs hm hl hp => exact State.recordsWell_of_cleared hs hm hl hp

theorem State.RecordMove.countsWell {s t : State} (m : s.RecordMove t) (h : s.CountsWell) : t.CountsWell := by
  cases m with
  | kept hk => exact hk.countsWell h
  | line hl hs => exact h
  | enters hl hs => exact State.CountsWell.enterService (s := s.setLine _ _) h _
  | leaves hl hs => exact State.CountsWell.leaveService (s := s.setLine _ _) h _
  | discovers hi => exact h.discover _ _
  | takes hc => exact (s.takeManagement_kept _).countsWell (h.takeCommand _)
  | clears hs hm hl hp =>
    intro i ha
    simp [State.slot, hs, clearedRecord, clearedCovered] at ha

/-- A run of record moves keeps what each of its moves keeps. -/
theorem State.RecordRun.keeps {P : State → Prop} (hP : ∀ s t : State, s.RecordMove t → P s → P t) {s t : State}
    (r : s.RecordRun t) (h : P s) : P t := by
  induction r with
  | refl => exact h
  | tail _ m ih => exact hP _ _ m ih

theorem State.RecordRun.recordsWell {s t : State} (r : s.RecordRun t) (h : s.RecordsWell) : t.RecordsWell :=
  r.keeps (fun _ _ m => m.recordsWell) h

theorem State.RecordRun.countsWell {s t : State} (r : s.RecordRun t) (h : s.CountsWell) : t.CountsWell :=
  r.keeps (fun _ _ m => m.countsWell) h

end Sys2Proof.Machine
end

