-- ==== Sys2Proof/Proofs/LocalWork.lean ====
section
/-! Operations of lines, tests and the ladder: they reach the record table by line-driven moves alone, and leave the link,
the rounds, the request in service, the port and the queue as they are. -/

namespace Sys2Proof.Machine

/-! ### The frame -/

/-- The model's queue is kept, and the record table changes by record moves. -/
structure State.RecordWork (s t : State) : Prop where
  run : s.RecordRun t
  pending : t.pending = s.pending

/-- The link, the round engine, the request in service, the port and the model's queue are kept. -/
structure State.ServiceKept (s t : State) : Prop where
  link : t.link = s.link
  round : t.round = s.round
  service : t.engine.service = s.engine.service
  port : t.port = s.port
  pending : t.pending = s.pending

/-- An operation with that frame, which changes the record table by record moves. -/
structure State.LocalWork (s t : State) : Prop extends s.ServiceKept t where
  run : s.RecordRun t

section

variable {s t u : State}

theorem State.RecordWork.refl (s : State) : s.RecordWork s := ⟨.refl, rfl⟩

theorem State.RecordWork.trans (h : s.RecordWork t) (g : t.RecordWork u) : s.RecordWork u :=
  ⟨h.run.trans g.run, g.pending.trans h.pending⟩

theorem State.ServiceKept.trans (h : s.ServiceKept t) (g : t.ServiceKept u) : s.ServiceKept u :=
  ⟨g.link.trans h.link, g.round.trans h.round, g.service.trans h.service, g.port.trans h.port, g.pending.trans h.pending⟩

theorem State.ServiceKept.refl (s : State) : s.ServiceKept s := ⟨rfl, rfl, rfl, rfl, rfl⟩

theorem State.LocalWork.recordWork (h : s.LocalWork t) : s.RecordWork t := ⟨h.run, h.pending⟩

theorem State.LocalWork.refl (s : State) : s.LocalWork s := ⟨.refl s, .refl⟩

theorem State.LocalWork.trans (h : s.LocalWork t) (g : t.LocalWork u) : s.LocalWork u :=
  ⟨h.toServiceKept.trans g.toServiceKept, h.run.trans g.run⟩

theorem State.LocalWork.move (m : s.RecordMove t) (k : s.ServiceKept t) : s.LocalWork t := ⟨k, .single m⟩

/-- Records, metering unit and lines kept beside the frame: the operation works on other blocks. -/
theorem State.LocalWork.quiet (hs : t.slots = s.slots) (hm : t.meter = s.meter) (hl : t.lines = s.lines)
    (k : s.ServiceKept t) : s.LocalWork t := .move (.kept (.of_eq hs hm hl (k.port ▸ id))) k

/-- Operations one after another over a list. -/
theorem State.LocalWork.foldl {α : Type} {f : State → α → State} (h : ∀ (s : State) a, s.LocalWork (f s a)) (l : List α)
    (s : State) : s.LocalWork (l.foldl f s) := by
  induction l generalizing s with
  | nil => exact .refl s
  | cons a l ih => exact (h s a).trans (ih (f s a))

end

/-! ### Changes of one line -/

theorem State.setLineState_serviceKept (s : State) (n : LineNo) (st : LineState) (p : Option PreShed) :
    s.ServiceKept (s.setLineState n st p) := ⟨rfl, rfl, rfl, rfl, rfl⟩

theorem State.enterService_serviceKept (s : State) (n : LineNo) : s.ServiceKept (s.enterService n) := by
  unfold State.enterService
  rw [foldl_moveIn_frame]
  exact ⟨rfl, rfl, rfl, rfl, rfl⟩

theorem State.leaveService_serviceKept (s : State) (n : LineNo) : s.ServiceKept (s.leaveService n) := by
  unfold State.leaveService
  rw [foldl_moveOut_frame]
  exact ⟨rfl, rfl, rfl, rfl, rfl⟩

/-- A line's state and shed mark replaced, neither entering nor leaving IN_SERVICE. -/
theorem State.setLineState_localWork (s : State) (n : LineNo) {st : LineState} (p : Option PreShed)
    (h : st = .rest .inService ↔ (s.line n).state = .rest .inService) : s.LocalWork (s.setLineState n st p) :=
  .move (.line rfl h) ⟨rfl, rfl, rfl, rfl, rfl⟩

/-- A line's state replaced, and its list walked out of service. -/
theorem State.setLineState_leaves (s : State) (n : LineNo) {st : LineState} (p : Option PreShed)
    (h : st ≠ .rest .inService) : s.LocalWork ((s.setLineState n st p).leaveService n) :=
  .move (.leaves rfl h) ((s.setLineState_serviceKept n st p).trans <| (s.setLineState n st p).leaveService_serviceKept n)

/-- A line's state replaced, and its list walked into service. -/
theorem State.setLineState_enters (s : State) (n : LineNo) (p : Option PreShed) :
    s.LocalWork ((s.setLineState n (.rest .inService) p).enterService n) :=
  .move (.enters rfl rfl) ((s.setLineState_serviceKept n _ p).trans <| (s.setLineState n (.rest .inService) p).enterService_serviceKept n)

/-! ### Tests and the head -/

/-- HEADEN goes high and a relay image is commanded (R122). -/
theorem State.powered_localWork (s : State) (i : Image) :
    s.LocalWork ((s.withHead { s.head with headen := true }).withRelay
      ((s.withHead { s.head with headen := true }).relay.command i)) := .quiet rfl rfl rfl ⟨rfl, rfl, rfl, rfl, rfl⟩

theorem State.dispatch_localWork (s : State) (e : TestEntry) (rest : List TestEntry) : s.LocalWork (s.dispatch e rest) := by
  have begun : s.LocalWork (s.withTests ⟨rest, some (dispatchedTest e)⟩) := .quiet rfl rfl rfl ⟨rfl, rfl, rfl, rfl, rfl⟩
  unfold State.dispatch
  refine begun.trans (State.LocalWork.trans ?_ (State.powered_localWork _ _))
  split
  · exact State.setLineState_leaves _ e.line (s.line e.line).shed (by simp)
  · next h =>
    have under : LineState.underTest (s.line e.line).state.saved = .rest .inService ↔
      (s.line e.line).state = .rest .inService := by simp [h]
    exact State.setLineState_localWork _ e.line (s.line e.line).shed under

theorem State.dispatchRetry_localWork (s : State) : s.LocalWork s.dispatchRetry := by
  unfold State.dispatchRetry
  split
  · exact .refl s
  split
  · exact s.dispatch_localWork _ _
  · exact .refl s

theorem State.abort_localWork (s : State) (c : Cause) : s.LocalWork (s.abort c) := by
  unfold State.abort
  split <;> exact .quiet rfl rfl rfl ⟨rfl, rfl, rfl, rfl, rfl⟩

theorem State.enterDisconnect_localWork (s : State) (t : Test) : s.LocalWork (s.enterDisconnect t) :=
  .quiet rfl rfl rfl ⟨rfl, rfl, rfl, rfl, rfl⟩

theorem State.proceed_localWork (s : State) (t : Test) (k : Nat) : s.LocalWork (s.proceed t k) := by
  unfold State.proceed
  split
  · exact .quiet rfl rfl rfl ⟨rfl, rfl, rfl, rfl, rfl⟩
  split
  · exact .quiet rfl rfl rfl ⟨rfl, rfl, rfl, rfl, rfl⟩
  · exact s.enterDisconnect_localWork t

theorem State.withHead_localWork (s : State) (h : Head) : s.LocalWork (s.withHead h) :=
  .quiet rfl rfl rfl ⟨rfl, rfl, rfl, rfl, rfl⟩

theorem State.completeMeasure_localWork (s : State) (m : Meas) (r : Result) : s.LocalWork (s.completeMeasure m r) := by
  unfold State.completeMeasure
  refine (s.withHead_localWork s.head.toIdle).trans ?_
  split
  · exact .refl _
  · exact State.proceed_localWork _ _ _

theorem State.completeTone_localWork (s : State) : s.LocalWork s.completeTone := by
  unfold State.completeTone
  refine (s.withHead_localWork s.head.toIdle).trans ?_
  split
  · exact .refl _
  · exact State.enterDisconnect_localWork _ _

theorem State.latchRelay_localWork (s : State) (i : Image) : s.LocalWork (s.latchRelay i) := by
  unfold State.latchRelay
  dsimp only
  split
  · exact .quiet rfl rfl rfl ⟨rfl, rfl, rfl, rfl, rfl⟩
  split <;> exact .quiet rfl rfl rfl ⟨rfl, rfl, rfl, rfl, rfl⟩

theorem State.settled_localWork (s : State) (t : Test) : s.LocalWork (s.settled t) := by
  unfold State.settled
  split
  · exact s.proceed_localWork t 0
  · exact .quiet rfl rfl rfl ⟨rfl, rfl, rfl, rfl, rfl⟩
  all_goals exact .refl s

theorem State.cancelTest_localWork (s : State) (n : LineNo) : s.LocalWork (s.cancelTest n).1 := by
  unfold State.cancelTest
  split
  · exact .quiet rfl rfl rfl ⟨rfl, rfl, rfl, rfl, rfl⟩
  split
  · exact .refl s
  split
  · split
    · exact s.abort_localWork .host
    · exact .refl s
  · exact .refl s

/-! ### Sheds, relights and the ladder -/

theorem State.raise_localWork (s : State) (e : Event) : s.LocalWork (s.raise e) :=
  .quiet rfl rfl rfl ⟨rfl, rfl, rfl, rfl, rfl⟩

theorem State.withLadder_localWork (s : State) (d : Ladder) : s.LocalWork (s.withLadder d) :=
  .quiet rfl rfl rfl ⟨rfl, rfl, rfl, rfl, rfl⟩

theorem State.commandPower_localWork (s : State) : s.LocalWork s.commandPower :=
  .quiet rfl rfl rfl ⟨rfl, rfl, rfl, rfl, rfl⟩

theorem State.leftLit_localWork (s : State) : s.LocalWork s.leftLit :=
  s.commandPower_localWork.trans s.commandPower.dispatchRetry_localWork

theorem State.darkenMarked_localWork (s : State) (n : LineNo) : s.LocalWork (s.darkenMarked n) := by
  unfold State.darkenMarked
  split
  · next r hr =>
    split
    · exact .refl s
    dsimp only
    split
    · exact s.setLineState_leaves n _ (by simp)
    · next h => exact s.setLineState_localWork n _ (by simpa [hr] using h)
  · next r hr =>
    split
    · exact .refl s
    · exact s.setLineState_localWork n _ (by simp [hr])

theorem State.shedLine_localWork (s : State) (n : LineNo) : s.LocalWork (s.shedLine n) :=
  ((s.darkenMarked_localWork n).trans (State.leftLit_localWork _)).trans (State.raise_localWork _ _)

theorem State.relight_localWork (s : State) (n : LineNo) (p : PreShed) (h : (s.line n).state = .rest .dark) :
    s.LocalWork (s.relight n p) := by
  unfold State.relight
  dsimp only
  split
  · next hp =>
    subst hp
    -- The command comes before the walk, which does not touch the chain.
    have commanded : s.LocalWork (s.withPower (s.power.command (s.setLineState n (.rest .inService) none).litSet)) :=
      .quiet rfl rfl rfl ⟨rfl, rfl, rfl, rfl, rfl⟩
    exact commanded.trans (State.setLineState_enters _ n none)
  · next hp =>
    refine (s.setLineState_localWork n none ?_).trans (State.commandPower_localWork _)
    cases p <;> simp_all [PreShed.rest]

theorem State.overloadFor_localWork (k : Nat) (s : State) : s.LocalWork (s.overloadFor k) := by
  induction k generalizing s with
  | zero => exact .refl s
  | succ k ih =>
    unfold State.overloadFor
    split
    · exact .refl s
    split
    · exact (s.abort_localWork .power).trans (ih _)
    split
    · exact .refl s
    · exact (s.shedLine_localWork _).trans (ih _)

theorem State.overloadCheck_localWork (s : State) : s.LocalWork s.overloadCheck := by
  unfold State.overloadCheck
  exact State.overloadFor_localWork 25 s

theorem State.tryRelight_localWork (s : State) (n : LineNo) : s.LocalWork (s.tryRelight n) := by
  unfold State.tryRelight
  split
  · next hd _ =>
    split
    · exact s.relight_localWork n _ hd
    · exact .refl s
  · exact .refl s

theorem State.relightPass_localWork (s : State) : s.LocalWork s.relightPass :=
  .foldl State.tryRelight_localWork _ s

theorem State.riseShed_localWork (s : State) (n : LineNo) : s.LocalWork (s.riseShed n) := by
  unfold State.riseShed
  split
  · exact s.shedLine_localWork n
  · exact .refl s

theorem State.levelRise_localWork (s : State) (l : Level) : s.LocalWork (s.levelRise l) := by
  have unpowered : s.LocalWork (if s.head.headen then (s.atLevel l).abort .power else s.atLevel l) := by
    split
    · exact (s.withLadder_localWork _).trans (State.abort_localWork _ _)
    · exact s.withLadder_localWork _
  have sheds := State.LocalWork.foldl State.riseShed_localWork (List.finRange 24)
    (if s.head.headen then (s.atLevel l).abort .power else s.atLevel l)
  unfold State.levelRise
  exact (((unpowered.trans sheds).trans (State.overloadCheck_localWork _)).trans
    (State.raise_localWork _ _)).trans (State.dispatchRetry_localWork _)

theorem State.levelFall_localWork (s : State) (l : Level) : s.LocalWork (s.levelFall l) :=
  ((((s.withLadder_localWork _).trans (State.overloadCheck_localWork _)).trans (State.relightPass_localWork _)).trans
    (State.raise_localWork _ _)).trans (State.dispatchRetry_localWork _)

theorem State.hysteresis_localWork (s : State) (target : Level) : s.LocalWork (s.hysteresis target) := by
  unfold State.hysteresis
  dsimp only
  split
  · split
    · exact s.levelRise_localWork target
    · exact (s.withLadder_localWork _).trans (State.relightPass_localWork _)
  split
  · split
    · exact s.levelFall_localWork target
    · exact (s.withLadder_localWork _).trans (State.relightPass_localWork _)
  · exact (s.withLadder_localWork _).trans (State.relightPass_localWork _)

theorem State.endSample_localWork (s : State) (band : Fin 8) (mains : Bool) : s.LocalWork (s.endSample band mains) := by
  unfold State.endSample
  refine (s.withLadder_localWork { s.ladder with
    band := band, mains := mains, target := targetOf s.settings band mains, sampled := true, sampler := .idle }).trans ?_
  dsimp only
  split
  · exact State.hysteresis_localWork _ _
  unfold State.initialSample
  split
  · exact State.levelFall_localWork _ _
  · exact State.relightPass_localWork _

theorem State.writeSetting_localWork (s : State) (id : SettingId) (v : BitVec 32) : s.LocalWork (s.writeSetting id v) := by
  have written : s.LocalWork (s.withSettings (s.settings.write id v)) := .quiet rfl rfl rfl ⟨rfl, rfl, rfl, rfl, rfl⟩
  unfold State.writeSetting
  dsimp only
  split
  · exact (written.trans (State.overloadCheck_localWork _)).trans (State.dispatchRetry_localWork _)
  · exact written

/-! ### The line commands -/

theorem lightLine_localWork (n : LineNo) (s : State) : s.LocalWork (lightLine n s).1 := by
  unfold lightLine
  split
  · next h =>
    split
    · exact .refl s
    split
    · exact .refl s
    · exact (s.setLineState_localWork n none (by simp [h])).trans (State.commandPower_localWork _)
  · exact .refl s

theorem serveLine_localWork (n : LineNo) (s : State) : s.LocalWork (serveLine n s).1 := by
  unfold serveLine
  split
  · exact s.setLineState_enters n _
  · exact .refl s

theorem suspendLine_localWork (n : LineNo) (s : State) : s.LocalWork (suspendLine n s).1 := by
  unfold suspendLine
  split
  · exact s.setLineState_leaves n _ (by simp)
  · next h => exact s.setLineState_localWork n _ (by simp [h])
  all_goals exact .refl s

theorem darkenLine_localWork (n : LineNo) (s : State) : s.LocalWork (darkenLine n s).1 := by
  unfold darkenLine
  split
  · next h => exact (s.setLineState_localWork n none (by simp [h])).trans (State.leftLit_localWork _)
  · exact (s.setLineState_leaves n none (by simp)).trans (State.leftLit_localWork _)
  · next h =>
    split
    · exact s.setLineState_localWork n none (by simp [h])
    · exact .refl s
  · next h => exact (s.setLineState_localWork n none (by simp [h])).trans (State.leftLit_localWork _)
  · next h => exact (s.setLineState_localWork n none (by simp [h])).trans (State.leftLit_localWork _)
  · next h =>
    split
    · exact s.setLineState_localWork n none (by simp [h])
    · exact .refl s
  all_goals exact .refl s

theorem clearFault_localWork (n : LineNo) (s : State) : s.LocalWork (clearFault n s).1 := by
  unfold clearFault
  split
  · next h => exact s.setLineState_localWork n none (by simp [h])
  · exact .refl s

/-! ### The test completion -/

/-- The line that a completed test leaves: nothing that the table engine, the link or the port holds changes. -/
theorem State.leaveTest_serviceKept (s : State) (n : LineNo) (ret new : RestState) (p : Option PreShed) :
    s.ServiceKept (s.leaveTest n ret new p) := by
  unfold State.leaveTest
  dsimp only
  split
  · exact (s.setLineState_serviceKept n _ p).trans ((s.setLineState n (.rest new) p).enterService_serviceKept n)
  split
  · exact (s.setLineState_serviceKept n _ p).trans (State.leftLit_localWork _).toServiceKept
  · exact s.setLineState_serviceKept n _ p

/-- A line under test leaves it by a line-driven move (R133 step 2). -/
theorem State.leaveTest_localWork (s : State) (n : LineNo) (ret new : RestState) (p : Option PreShed)
    (h : (s.line n).state ≠ .rest .inService) : s.LocalWork (s.leaveTest n ret new p) := by
  unfold State.leaveTest
  dsimp only
  split
  · next e => subst e; exact s.setLineState_enters n p
  · next e =>
    have moved : s.LocalWork (s.setLineState n (.rest new) p) :=
      s.setLineState_localWork n p (by simp [e, h])
    split
    · exact moved.trans (State.leftLit_localWork _)
    · exact moved

theorem State.CountsWell.leaveTest {s : State} (h : s.CountsWell) (n : LineNo) (ret new : RestState)
    (p : Option PreShed) : (s.leaveTest n ret new p).CountsWell := by
  have moved : (s.setLineState n (.rest new) p).CountsWell := h
  unfold State.leaveTest
  dsimp only
  split
  · exact moved.enterService n
  split
  · exact (State.leftLit_localWork _).run.countsWell moved
  · exact moved

/-- The condition record is written, the line leaves its test, and what follows works on no record and no line that the
table's agreement sees, but for a dispatch. -/
theorem State.completeTest_after (s : State) (t : Test) (v : Evaluation) :
    ∃ (l : Line) (ret new : RestState) (p : Option PreShed),
      l.state = (s.line t.entry.line).state ∧ l.attached = (s.line t.entry.line).attached
        ∧ ((s.setLine t.entry.line l).leaveTest t.entry.line ret new p).LocalWork (s.completeTest t v) := by
  refine ⟨{ s.line t.entry.line with condition := some (t.condition v) }, (s.line t.entry.line).state.saved,
    stateAfterTest (t.holdsLine v) v.verdict (s.line t.entry.line).state.saved,
    shedAfterTest (t.holdsLine v) (s.line t.entry.line).state.saved (s.line t.entry.line).shed, rfl, rfl, ?_⟩
  have told : ∀ u : State, u.LocalWork ((u.withTests { u.tests with current := none }).raise .testDone) :=
    fun u => .quiet rfl rfl rfl ⟨rfl, rfl, rfl, rfl, rfl⟩
  unfold State.completeTest
  dsimp only
  refine (told _).trans (State.LocalWork.trans ?_ (State.dispatchRetry_localWork _))
  split
  · exact State.raise_localWork _ _
  · exact .refl _

end Sys2Proof.Machine
end

