-- ==== Sys2Proof/Proofs/StepWork.lean ====
section
/-! What a step can do, said once for every command: it keeps the model's queue, changes the record table by record moves,
and leaves a settled part settled. -/

namespace Sys2Proof.Machine

/-! ### The internal events -/

theorem State.RecordWork.kept {s t : State} (h : s.TableKept t) (hp : t.pending = s.pending) : s.RecordWork t :=
  ⟨.single (.kept h), hp⟩

theorem State.discover_recordWork (s : State) {i : Slot} (hi : (s.slot i).cov.state ≠ .free) (op : FaultOp) :
    s.RecordWork (s.discover i op) :=
  ⟨.single (.discovers hi), by rw [(s.discover_discovers i op).2.2]⟩

/-- Discoveries leave no record FREE that was not FREE. -/
theorem State.discover_not_free (s : State) (i j : Slot) (op : FaultOp) (h : (s.slot j).cov.state ≠ .free) :
    ((s.discover i op).slot j).cov.state ≠ .free := by
  obtain ⟨hs, -⟩ := (s.discover_discovers i op).1
  have : (s.discover i op).slot j = if i = j then (s.slot i).withState .damaged else s.slot j := by
    rw [← State.setSlot_slot]
    simp only [State.slot, State.setSlot_slots, hs]
    rfl
  rw [this]
  split
  · simp [Record.withState]
  · exact h

theorem State.foldl_discover_recordWork (l : List Slot) (op : FaultOp) (s : State)
    (h : ∀ i ∈ l, (s.slot i).cov.state ≠ .free) : s.RecordWork (l.foldl (fun s i => s.discover i op) s) := by
  induction l generalizing s with
  | nil => exact .refl s
  | cons i l ih =>
    have hi := h i (List.mem_cons_self ..)
    exact (s.discover_recordWork hi op).trans
      (ih _ fun j hj => s.discover_not_free i j op (h j (List.mem_cons_of_mem _ hj)))

theorem State.snapshot_recordWork (s : State) : s.RecordWork s.snapshot := by
  have hu : ∀ i ∈ s.unsound, (s.slot i).cov.state ≠ .free := by
    intro i hi
    have ha : s.isActive i = true := by
      have := (List.mem_filter.1 hi).2
      simp_all
    simp [State.isActive] at ha
    simp [ha]
  exact (State.foldl_discover_recordWork _ .roster s hu).trans (.kept (.of_eq rfl rfl rfl id) rfl)

/-- A decision keeps each record's covered fields and code, but for a damage discovery. -/
theorem State.decide_recordWork (s : State) (q : Request) : s.RecordWork (s.decide q).1 := by
  unfold State.decide
  split
  · exact .refl s
  split
  · exact .refl s
  next i hf =>
  have hi := (State.holds_of_find hf).1
  unfold State.decideFound
  dsimp only
  split
  · exact .refl s
  split
  · exact s.discover_recordWork hi .resolve
  split
  · exact .refl s
  split
  · exact .refl s
  · have hr : ((s.slot i).meterResolve (creditsOf q.length)).2.cov = (s.slot i).cov
        ∧ ((s.slot i).meterResolve (creditsOf q.length)).2.code = (s.slot i).code := by
      unfold Record.meterResolve
      split
      · exact ⟨rfl, rfl⟩
      split <;> exact ⟨rfl, rfl⟩
    exact .kept (.setSlot hr.1 hr.2 hi) rfl

theorem State.lookup_recordWork (s : State) (q : Request) (rest : List Request) : s.RecordWork (s.lookup q rest) := by
  have taken : s.RecordWork (s.withLink { s.link with queue := rest }) := .kept (.of_eq rfl rfl rfl id) rfl
  exact (taken.trans (State.decide_recordWork _ q)).trans (.kept (.of_eq rfl rfl rfl id) rfl)

theorem State.takeCommand_pending (s : State) (c : RecordCommand) : (s.takeCommand c).state.pending = s.pending := by
  have hl := s.takeCommand_leaves c
  generalize (s.takeCommand c).state = t at hl
  have hr : ∀ (u : State) (i : Slot), (u.reportEntry i).pending = u.pending := by
    intro u i; unfold State.reportEntry; split <;> rfl
  cases hl with
  | same => rfl
  | damage hi => exact (s.discover_recordWork hi _).pending
  | admits hi hn => rw [State.admitAt_eq, hr]; rfl
  | amends hi hd hp => unfold State.recount; split <;> rfl
  | retires => unfold State.retireAt; split <;> rfl
  | bars hi hp => split <;> rfl
  | unbars hb hp => rw [hr]; rfl

theorem State.takeWaiting_recordWork (s : State) : s.RecordWork s.takeWaiting := by
  unfold State.takeWaiting
  split
  · next c hc => exact ⟨.single (.takes hc), s.takeCommand_pending c⟩
  · exact .refl s

/-- A sent GRANT debits a record whose state is ACTIVE (R92). -/
theorem State.sendGrant_recordWork (s : State) {x : Share} (h : s.grantPasses x = true) (rest : List Share)
    (e : Emission) : s.RecordWork (s.sendGrant x rest e) := by
  have ha : (s.slot x.entry.slot).cov.state ≠ .free := by
    simp only [State.grantPasses, Bool.and_eq_true, beq_iff_eq] at h
    simp [h.2]
  have paid : s.RecordWork (s.setSlot x.entry.slot ((s.slot x.entry.slot).payGrant x.grant x.entry.claim)) :=
    .kept (.setSlot rfl rfl ha) rfl
  exact paid.trans (.kept (.of_eq rfl rfl rfl id) rfl)

theorem State.sendRoundEnd_recordWork (s : State) (e : Emission) : s.RecordWork (s.sendRoundEnd e) := by
  unfold State.sendRoundEnd
  dsimp only
  split <;> exact .kept (.of_eq rfl rfl rfl id) rfl

theorem State.emitRound_recordWork (s : State) (l : List Share) (e : Emission) : s.RecordWork (s.emitRound l e) := by
  induction l generalizing e with
  | nil => exact s.sendRoundEnd_recordWork e
  | cons x xs ih =>
    unfold State.emitRound
    split
    · next h => exact s.sendGrant_recordWork h xs e
    · exact ih _

theorem State.sendRound_recordWork (s : State) : s.RecordWork s.sendRound := by
  unfold State.sendRound
  split
  · exact s.emitRound_recordWork _ _
  all_goals exact .refl s

theorem State.sendVerdict_recordWork (s : State) : s.RecordWork s.sendVerdict := by
  unfold State.sendVerdict
  split
  · exact .kept (.of_eq rfl rfl rfl id) rfl
  split
  · exact .kept (.of_eq rfl rfl rfl id) rfl
  · exact .refl s

theorem State.completeResolve_recordWork (s : State) : s.RecordWork s.completeResolve := by
  unfold State.completeResolve
  split
  · exact .kept (.of_eq rfl rfl rfl id) rfl
  all_goals exact .refl s

theorem State.lookupHead_recordWork (s : State) : s.RecordWork s.lookupHead := by
  unfold State.lookupHead
  split
  · exact s.lookup_recordWork _ _
  · exact .refl s

theorem State.internal_recordWork {s t : State} (h : s.internal = some t) : s.RecordWork t := by
  unfold State.internal at h
  split at h
  · obtain rfl := Option.some.inj h; exact s.sendVerdict_recordWork
  split at h
  · obtain rfl := Option.some.inj h; exact s.sendRound_recordWork
  split at h
  · obtain rfl := Option.some.inj h; exact s.completeResolve_recordWork
  split at h
  · obtain rfl := Option.some.inj h; exact s.snapshot_recordWork
  split at h
  · obtain rfl := Option.some.inj h; exact s.lookupHead_recordWork
  split at h
  · obtain rfl := Option.some.inj h; exact s.takeWaiting_recordWork
  · simp at h

theorem State.settleFor_recordWork (k : Nat) (s : State) : s.RecordWork (s.settleFor k) := by
  induction k generalizing s with
  | zero => exact .refl s
  | succ k ih =>
    unfold State.settleFor
    split
    · exact .refl s
    · next t h => exact (State.internal_recordWork h).trans (ih t)

theorem State.settle_recordWork (s : State) : s.RecordWork s.settle := by
  unfold State.settle
  exact s.settleFor_recordWork 10

/-! ### The work of a step -/

/-- What every command does but a record disturbance, and a test completion without a line under test. -/
structure State.StepWork (s t : State) : Prop extends s.RecordWork t where
  settled : s.Settled → t.Settled

section

variable {s t u : State}

theorem State.StepWork.refl (s : State) : s.StepWork s := ⟨.refl s, id⟩

theorem State.StepWork.trans (h : s.StepWork t) (g : t.StepWork u) : s.StepWork u :=
  ⟨h.toRecordWork.trans g.toRecordWork, fun hs => g.settled (h.settled hs)⟩

/-- What is due depends on the messages that wait, the round's phase, the request in service and the command that
waits. -/
theorem State.Settled.of_eq (h : s.Settled) (hs : t.link.sending = s.link.sending) (hr : t.link.refusals = s.link.refusals)
    (hh : t.link.held = s.link.held) (hq : t.link.queue = s.link.queue) (hp : t.round.phase = s.round.phase)
    (he : t.engine.service = s.engine.service)
    (hw : t.port.state.waiting = s.port.state.waiting ∨ t.port.state.waiting = none) : t.Settled := by
  obtain ⟨hsend, hdone, hfree⟩ := h
  refine ⟨?_, ?_, ?_⟩
  · rw [hs, hr, hh, hp]; exact hsend
  · rw [← hdone]; simp only [State.completionDue, he, hh]
  · rw [he, hp, hq]
    intro hf
    obtain ⟨h1, h2, h3⟩ := hfree hf
    exact ⟨h1, h2, hw.elim (fun e => e.trans h3) id⟩

theorem State.ServiceKept.settled (k : s.ServiceKept t) (h : s.Settled) : t.Settled :=
  h.of_eq (by rw [k.link]) (by rw [k.link]) (by rw [k.link]) (by rw [k.link]) (by rw [k.round]) k.service
    (.inl (by rw [k.port]))

theorem State.LocalWork.stepWork (h : s.LocalWork t) : s.StepWork t := ⟨h.recordWork, h.toServiceKept.settled⟩

/-- A command works on other blocks than the records, the lines, the table engine, the link and the port. -/
theorem State.StepWork.quiet (hs : t.slots = s.slots) (hm : t.meter = s.meter) (hl : t.lines = s.lines)
    (k : s.ServiceKept t) : s.StepWork t := (State.LocalWork.quiet hs hm hl k).stepWork

/-- Whatever a settling makes of a state, nothing stays due. -/
theorem State.RecordWork.settle (h : s.RecordWork t) : s.StepWork t.settle :=
  ⟨h.trans t.settle_recordWork, fun _ => settle_settled t⟩

/-- Only the port changes, and a command that waits does not appear. -/
theorem State.StepWork.port (s : State) (p : Port)
    (hw : p.state.waiting = s.port.state.waiting ∨ p.state.waiting = none)
    (hr : s.port.state.ratesFit = true → p.state.ratesFit = true) : s.StepWork (s.withPort p) :=
  ⟨.kept (.of_eq rfl rfl rfl hr) rfl, fun h => h.of_eq rfl rfl rfl rfl rfl rfl hw⟩

theorem State.StepWork.unlessHeld {f : State → State} (h : s.StepWork (f s)) : s.StepWork (s.unlessHeld f) := by
  unfold State.unlessHeld
  split
  · exact .refl s
  · exact h

theorem State.StepWork.whenDue {b : Bool} {f : State → State} (h : b = true → s.StepWork (f s)) :
    s.StepWork (s.whenDue b f) := by
  unfold State.whenDue
  split
  · next hb => exact h hb
  · exact .refl s

end

/-! ### Commands at the port -/

theorem State.csRise_stepWork (s : State) : s.StepWork s.csRise := .port s _ (.inl rfl) id

theorem State.endCommand_stepWork (s : State) : s.StepWork s.endCommand := .port s _ (.inl rfl) id

theorem State.refuseBusy_stepWork (s : State) : s.StepWork s.refuseBusy := .port s _ (.inl rfl) id

theorem State.answer_stepWork (s : State) (code : Byte) (r : ResultCode) (data : List Word16) :
    s.StepWork (s.answer code r data) := .port s _ (.inr rfl) fun _ => rfl

/-- What becomes of a command that is not carried out: every row judges it alike (R154). -/
theorem State.immediate_stepWork (s : State) (code : Byte) (argc : Nat) (f : Frame) {act : Immediate}
    (h : ∀ (args : List Word16) (u : State), u.LocalWork (act args u).state) : s.StepWork (s.immediate code argc f act) := by
  unfold State.immediate
  split
  · exact s.csRise_stepWork
  · exact s.csRise_stepWork
  · exact .refl s
  · exact s.refuseBusy_stepWork
  · exact s.endCommand_stepWork.trans (State.answer_stepWork _ _ _ _)
  · exact s.endCommand_stepWork.trans (State.answer_stepWork _ _ _ _)
  · exact (s.endCommand_stepWork.trans (h f.args s.endCommand).stepWork).trans (State.answer_stepWork _ _ _ _)

/-- A timed command: what its owner begins works on the port in WAIT. -/
theorem State.timed_stepWork (s : State) (code : Byte) (argc : Nat) (f : Frame) (c : InFlight) {begun : State → State}
    (h : s.StepWork (begun (s.endCommand.withPort { s.endCommand.port with state := .wait c }))) :
    s.StepWork (s.timed code argc f c begun) := by
  unfold State.timed
  split
  · exact s.csRise_stepWork
  · exact s.csRise_stepWork
  · exact .refl s
  · exact s.refuseBusy_stepWork
  · exact s.endCommand_stepWork.trans (State.answer_stepWork _ _ _ _)
  · exact s.endCommand_stepWork.trans (State.answer_stepWork _ _ _ _)
  · exact h

theorem State.timedRecord_stepWork (s : State) (argc : Nat) (f : Frame) (c : RecordCommand)
    (hc : (PortState.wait (.record c)).ratesFit = true) : s.StepWork (s.timedRecord argc f c) :=
  s.timed_stepWork _ _ _ _ <| State.RecordWork.settle (.kept (.of_eq rfl rfl rfl fun _ => hc) rfl)

/-- The rates read from argument words are 16-bit numbers (Table 75). -/
theorem argProvision_rates (args : List Word16) : (argProvision args).upCir ≤ 65535 ∧ (argProvision args).upPir ≤ 65535
    ∧ (argProvision args).downCir ≤ 65535 ∧ (argProvision args).downPir ≤ 65535 :=
  ⟨Nat.le_of_lt_succ (argWord args 4).isLt, Nat.le_of_lt_succ (argWord args 5).isLt,
    Nat.le_of_lt_succ (argWord args 8).isLt, Nat.le_of_lt_succ (argWord args 9).isLt⟩

theorem State.undefinedCode_stepWork (s : State) (code : Byte) (f : Frame) : s.StepWork (s.undefinedCode code f) := by
  unfold State.undefinedCode
  split
  · exact s.csRise_stepWork
  · exact s.csRise_stepWork
  · exact .refl s
  · exact s.refuseBusy_stepWork
  all_goals exact s.endCommand_stepWork.trans (State.answer_stepWork _ _ _ _)

theorem lineCommand_localWork {act : LineAct} (h : ∀ (n : LineNo) (u : State), u.LocalWork (act n u).1)
    (args : List Word16) (u : State) : u.LocalWork (lineCommand act args u).state := by
  unfold lineCommand
  split
  · exact .refl u
  · exact h _ u

theorem actReadLine_state (args : List Word16) (u : State) : (actReadLine args u).state = u := by
  unfold actReadLine; split <;> rfl

theorem actProbeSlot_state (args : List Word16) (u : State) : (actProbeSlot args u).state = u := by
  unfold actProbeSlot; split <;> rfl

theorem actReadSetting_state (args : List Word16) (u : State) : (actReadSetting args u).state = u := by
  unfold actReadSetting; split <;> rfl

theorem actReadTestQueue_state (args : List Word16) (u : State) : (actReadTestQueue args u).state = u := by
  unfold actReadTestQueue; split <;> rfl

theorem actClearCounters_localWork (args : List Word16) (u : State) : u.LocalWork (actClearCounters args u).state := by
  unfold actClearCounters
  split
  · exact .refl u
  split
  · exact .refl u
  · next i hf => exact .move (.kept (.setSlot rfl rfl (State.holds_of_find hf).1)) ⟨rfl, rfl, rfl, rfl, rfl⟩

theorem actRequestTest_localWork (args : List Word16) (u : State) : u.LocalWork (actRequestTest args u).state := by
  unfold actRequestTest
  split
  · exact .refl u
  split
  · exact .refl u
  split
  · exact .refl u
  split
  · exact .refl u
  · next n _ _ _ _ =>
    have queued : u.LocalWork (u.withTests { u.tests with queue := u.tests.queue ++ [requestedEntry args n] }) :=
      .quiet rfl rfl rfl ⟨rfl, rfl, rfl, rfl, rfl⟩
    exact queued.trans (State.dispatchRetry_localWork _)

theorem actCancelTest_localWork (args : List Word16) (u : State) : u.LocalWork (actCancelTest args u).state := by
  unfold actCancelTest
  split
  · exact .refl u
  · exact u.cancelTest_localWork _

theorem actWriteSetting_localWork (args : List Word16) (u : State) : u.LocalWork (actWriteSetting args u).state := by
  unfold actWriteSetting
  split
  · exact .refl u
  · exact u.writeSetting_localWork _ _

/-! ### Arrivals on the link -/

theorem State.receiverIdle_stepWork (s : State) : s.StepWork s.receiverIdle :=
  ⟨.kept (.of_eq rfl rfl rfl id) rfl, fun h => h.of_eq rfl rfl rfl rfl rfl rfl (.inl rfl)⟩

theorem State.arriveResolve_recordWork (s : State) (q : Byte) (tag : Tag) (len : Nat) :
    s.RecordWork (s.arriveResolve q tag len) := by
  unfold State.arriveResolve
  split <;> exact .kept (.of_eq rfl rfl rfl id) rfl

theorem State.arriveBacklog_stepWork (s : State) (tag : Tag) (credits : Nat) : s.StepWork (s.arriveBacklog tag credits) := by
  unfold State.arriveBacklog
  split
  · next i h =>
    split at h
    · exact ⟨.kept (.setSlot rfl rfl (State.holds_of_find h).1) rfl, fun h => h.of_eq rfl rfl rfl rfl rfl rfl (.inl rfl)⟩
    · simp at h
  · exact ⟨.kept (.of_eq rfl rfl rfl id) rfl, fun h => h.of_eq rfl rfl rfl rfl rfl rfl (.inl rfl)⟩

theorem State.arriveCapacity_stepWork (s : State) (up down : Nat) : s.StepWork (s.arriveCapacity up down) :=
  ⟨.kept (.of_eq rfl rfl rfl id) rfl, fun h => h.of_eq rfl rfl rfl rfl rfl rfl (.inl rfl)⟩

theorem State.arriveMessage_stepWork (s : State) (l : List Byte) : s.StepWork (s.arriveMessage l) := by
  unfold State.arriveMessage
  split
  · exact (s.arriveResolve_recordWork _ _ _).settle
  split
  · exact s.arriveBacklog_stepWork _ _
  split
  · exact s.arriveCapacity_stepWork _ _
  · exact .refl s

theorem State.takeByte_stepWork (s : State) (start : Bool) (b : Byte) : s.StepWork (s.takeByte start b) := by
  unfold State.takeByte
  dsimp only
  generalize (if start then [b] else _) = bytes
  split
  · exact s.receiverIdle_stepWork.trans (State.arriveMessage_stepWork _ _)
  · exact ⟨.kept (.of_eq rfl rfl rfl id) rfl, fun h => h.of_eq rfl rfl rfl rfl rfl rfl (.inl rfl)⟩

/-! ### The cycle expiry and the emissions -/

theorem Record.refill_kept (r : Record) (f : Nat) : (r.refill f).cov = r.cov ∧ (r.refill f).code = r.code
    ∧ (r.cov.state = .free → r.refill f = r) := by
  unfold Record.refill
  split <;> simp_all

theorem State.meterExpiry_recordWork (s : State) : s.RecordWork s.meterExpiry := by
  have hslot : ∀ i, s.meterExpiry.slot i = (s.slot i).refill (scaleFactor s.meter.sumDown s.link.capDown) := by
    intro i; simp [State.slot, State.meterExpiry]
  refine .kept ⟨fun i => ?_, fun i => ?_, fun i hi => ?_, rfl, rfl, rfl, rfl, fun _ => rfl, fun _ => rfl, id⟩ rfl
  · rw [hslot]; exact ((s.slot i).refill_kept _).1
  · rw [hslot]; exact ((s.slot i).refill_kept _).2.1
  · rw [hslot]; exact ((s.slot i).refill_kept _).2.2 hi

theorem State.staleExpiry_recordWork (s : State) : s.RecordWork s.staleExpiry := by
  unfold State.staleExpiry
  split
  · exact .refl s
  split <;> exact .kept (.of_eq rfl rfl rfl id) rfl

theorem State.roundExpiry_recordWork (s : State) : s.RecordWork s.roundExpiry := by
  unfold State.roundExpiry
  split
  · exact .kept (.of_eq rfl rfl rfl id) rfl
  all_goals split <;> exact .kept (.of_eq rfl rfl rfl id) rfl

theorem State.emitGrant_recordWork (s : State) (x : Share) (rest : List Share) (e : Emission) :
    s.RecordWork (s.emitGrant x rest e) := by
  unfold State.emitGrant
  split
  · next h => exact s.sendGrant_recordWork h rest e
  · exact .kept (.of_eq rfl rfl rfl id) rfl

/-! ### Resets -/

/-- A reset clears every block: nothing is due, and the queue stays. -/
theorem State.held_stepWork (s : State) (h : Hold) : s.StepWork (s.held h) where
  run := .single (.clears rfl rfl rfl rfl)
  pending := rfl
  settled _ := by
    refine ⟨fun _ => ⟨rfl, rfl, rfl⟩, rfl, fun _ => ⟨?_, rfl, rfl⟩⟩
    simp [State.held, resetRound]

/-- Blocks that the table engine, the link and the port do not see, and the loaded settings. -/
theorem State.endReset_stepWork (s : State) (h : Hold) : s.StepWork (s.endReset h) := by
  unfold State.endReset
  dsimp only
  refine (s.held_stepWork h).trans (State.StepWork.trans ?_
    ((State.overloadCheck_localWork _).trans (State.withLadder_localWork _ _)).stepWork)
  split <;>
    exact ⟨.kept (.of_eq rfl rfl rfl id) rfl,
      fun h => h.of_eq rfl rfl rfl rfl rfl rfl (.inl rfl)⟩

/-! ### Every command -/

/-- Every command but a record disturbance and a test completion answers a state that a step's work leaves. -/
theorem exec_stepWork (c : Instr) (s : State) (hd : ∀ a, c ≠ .recordDisturbance a) (ht : c ≠ .testCompletion) :
    ∃ t, exec c s = .next t ∧ s.StepWork t := by
  have rates := argProvision_rates
  cases c with
  | admitService f => exact ⟨_, rfl, s.timedRecord_stepWork _ _ _ (decide_eq_true (rates f.args))⟩
  | amendService f => exact ⟨_, rfl, s.timedRecord_stepWork _ _ _ (decide_eq_true (rates f.args))⟩
  | retireService f => exact ⟨_, rfl, s.timedRecord_stepWork _ _ _ rfl⟩
  | retireSlot f => exact ⟨_, rfl, s.timedRecord_stepWork _ _ _ rfl⟩
  | barService f => exact ⟨_, rfl, s.timedRecord_stepWork _ _ _ rfl⟩
  | unbarService f => exact ⟨_, rfl, s.timedRecord_stepWork _ _ _ rfl⟩
  | lookUpService f => exact ⟨_, rfl, s.timedRecord_stepWork _ _ _ rfl⟩
  | probeSlot f => exact ⟨_, rfl, s.immediate_stepWork _ _ _ fun a u => by rw [actProbeSlot_state]; exact .refl u⟩
  | clearCounters f => exact ⟨_, rfl, s.immediate_stepWork _ _ _ actClearCounters_localWork⟩
  | forceCheckError f =>
    exact ⟨_, rfl, s.immediate_stepWork _ _ _ fun _ u => .quiet rfl rfl rfl ⟨rfl, rfl, rfl, rfl, rfl⟩⟩
  | readFault f =>
    exact ⟨_, rfl, s.immediate_stepWork _ _ _ fun _ u => .quiet rfl rfl rfl ⟨rfl, rfl, rfl, rfl, rfl⟩⟩
  | lightLine f => exact ⟨_, rfl, s.immediate_stepWork _ _ _ (lineCommand_localWork lightLine_localWork)⟩
  | serveLine f => exact ⟨_, rfl, s.immediate_stepWork _ _ _ (lineCommand_localWork serveLine_localWork)⟩
  | suspendLine f => exact ⟨_, rfl, s.immediate_stepWork _ _ _ (lineCommand_localWork suspendLine_localWork)⟩
  | darkenLine f => exact ⟨_, rfl, s.immediate_stepWork _ _ _ (lineCommand_localWork darkenLine_localWork)⟩
  | clearFault f => exact ⟨_, rfl, s.immediate_stepWork _ _ _ (lineCommand_localWork clearFault_localWork)⟩
  | readLine f => exact ⟨_, rfl, s.immediate_stepWork _ _ _ fun a u => by rw [actReadLine_state]; exact .refl u⟩
  | requestTest f => exact ⟨_, rfl, s.immediate_stepWork _ _ _ actRequestTest_localWork⟩
  | cancelTest f => exact ⟨_, rfl, s.immediate_stepWork _ _ _ actCancelTest_localWork⟩
  | readTestQueue f =>
    exact ⟨_, rfl, s.immediate_stepWork _ _ _ fun a u => by rw [actReadTestQueue_state]; exact .refl u⟩
  | readLadder f => exact ⟨_, rfl, s.immediate_stepWork _ _ _ fun _ u => .refl u⟩
  | readStatus f => exact ⟨_, rfl, s.immediate_stepWork _ _ _ fun _ u => .refl u⟩
  | acknowledgeEvents f =>
    exact ⟨_, rfl, s.immediate_stepWork _ _ _ fun _ u => .quiet rfl rfl rfl ⟨rfl, rfl, rfl, rfl, rfl⟩⟩
  | setEventMask f =>
    exact ⟨_, rfl, s.immediate_stepWork _ _ _ fun _ u => .quiet rfl rfl rfl ⟨rfl, rfl, rfl, rfl, rfl⟩⟩
  | readSetting f => exact ⟨_, rfl, s.immediate_stepWork _ _ _ fun a u => by rw [actReadSetting_state]; exact .refl u⟩
  | writeSetting f => exact ⟨_, rfl, s.immediate_stepWork _ _ _ actWriteSetting_localWork⟩
  | storeSettings f =>
    have waits : s.StepWork (s.endCommand.withPort { s.endCommand.port with state := .wait .store }) :=
      s.endCommand_stepWork.trans (.port _ _ (.inr rfl) fun _ => rfl)
    refine ⟨_, rfl, s.timed_stepWork _ _ _ _ (waits.trans ?_)⟩
    exact .quiet rfl rfl rfl ⟨rfl, rfl, rfl, rfl, rfl⟩
  | restart f =>
    refine ⟨_, rfl, ?_⟩
    split
    · exact s.csRise_stepWork
    · exact s.csRise_stepWork
    · exact .refl s
    · exact s.refuseBusy_stepWork
    · exact s.endCommand_stepWork.trans (State.answer_stepWork _ _ _ _)
    · exact s.endCommand_stepWork.trans (State.answer_stepWork _ _ _ _)
    · exact s.endCommand_stepWork.trans (State.held_stepWork _ _)
  | undefinedCommandCode code f => exact ⟨_, rfl, s.undefinedCode_stepWork code f⟩
  | transactionBegin =>
    refine ⟨_, rfl, ?_⟩
    split
    · exact .port s _ (.inl rfl) id
    · exact .port s _ (.inl rfl) id
  | fetch rest =>
    refine ⟨_, rfl, .unlessHeld ?_⟩
    split
    · exact .refl s
    · exact .whenDue fun _ => .port s _ (.inl rfl) id
  | fetchComplete slots =>
    refine ⟨_, rfl, ?_⟩
    split
    · exact s.csRise_stepWork
    split
    · exact s.csRise_stepWork.trans (.port _ _ (.inr rfl) fun _ => rfl)
    · exact s.csRise_stepWork
  | managementRequestTake => exact ⟨_, rfl, .unlessHeld (.whenDue fun _ => s.takeWaiting_recordWork.settle)⟩
  | managementRequestCompletion =>
    refine ⟨_, rfl, .unlessHeld ?_⟩
    split
    · exact State.RecordWork.settle (.kept (.of_eq rfl rfl rfl fun _ => rfl) rfl)
    · exact .refl s
    · exact .refl s
  | storeCompletion held =>
    refine ⟨_, rfl, .unlessHeld (.whenDue fun _ => ?_)⟩
    have stored : s.LocalWork (s.withStored { s.stored with passes := held }) :=
      .quiet rfl rfl rfl ⟨rfl, rfl, rfl, rfl, rfl⟩
    exact stored.stepWork.trans (State.answer_stepWork _ _ _ _)
  | resolve q tag len =>
    exact ⟨_, rfl, .unlessHeld (s.receiverIdle_stepWork.toRecordWork.trans (State.arriveResolve_recordWork _ _ _ _)).settle⟩
  | backlog tag credits =>
    exact ⟨_, rfl, .unlessHeld (s.receiverIdle_stepWork.trans (State.arriveBacklog_stepWork _ _ _))⟩
  | capacity up down =>
    exact ⟨_, rfl, .unlessHeld (s.receiverIdle_stepWork.trans (State.arriveCapacity_stepWork _ _ _))⟩
  | unknownInboundTypeDiscard k => exact ⟨_, rfl, .unlessHeld s.receiverIdle_stepWork⟩
  | lookupEvent => exact ⟨_, rfl, .unlessHeld (.whenDue fun _ => s.lookupHead_recordWork.settle)⟩
  | resolveCompletion => exact ⟨_, rfl, .unlessHeld (.whenDue fun _ => s.completeResolve_recordWork.settle)⟩
  | verdictEmission => exact ⟨_, rfl, .unlessHeld (.whenDue fun _ => s.sendVerdict_recordWork.settle)⟩
  | transmissionCompletion =>
    exact ⟨_, rfl, .unlessHeld (.whenDue fun _ => State.RecordWork.settle (.kept (.of_eq rfl rfl rfl id) rfl))⟩
  | cycleExpiry =>
    have expired : s.RecordWork s.meterExpiry.staleExpiry.roundExpiry :=
      (s.meterExpiry_recordWork.trans (State.staleExpiry_recordWork _)).trans (State.roundExpiry_recordWork _)
    refine ⟨_, rfl, .unlessHeld (State.RecordWork.settle (expired.trans ?_))⟩
    exact .kept (.of_eq rfl rfl rfl id) rfl
  | rosterSnapshot => exact ⟨_, rfl, .unlessHeld (.whenDue fun _ => s.snapshot_recordWork.settle)⟩
  | grantEmission =>
    refine ⟨_, rfl, .unlessHeld (.whenDue fun _ => ?_)⟩
    split
    · split
      · exact (s.emitGrant_recordWork _ _ _).settle
      · exact .refl s
    · exact .refl s
    · exact .refl s
  | roundEndEmission =>
    refine ⟨_, rfl, .unlessHeld (.whenDue fun _ => ?_)⟩
    split
    · split
      · exact (s.sendRoundEnd_recordWork _).settle
      · exact .refl s
    · exact .refl s
    · exact .refl s
  | powerChainLatch =>
    refine ⟨_, rfl, .unlessHeld ?_⟩
    exact .quiet rfl rfl rfl ⟨rfl, rfl, rfl, rfl, rfl⟩
  | relayLatchCompletion =>
    refine ⟨_, rfl, .unlessHeld ?_⟩
    split
    · exact .refl s
    · exact (s.latchRelay_localWork _).stepWork
  | relaySettleExpiry =>
    refine ⟨_, rfl, .unlessHeld ?_⟩
    split
    · exact .refl s
    · exact .whenDue fun _ => (s.settled_localWork _).stepWork
  | pathSettleExpiry capin => exact ⟨_, rfl, .unlessHeld (s.withHead_localWork _).stepWork⟩
  | converterSample code =>
    refine ⟨_, rfl, .unlessHeld ?_⟩
    split
    · dsimp only
      split
      · exact (s.completeMeasure_localWork _ _).stepWork
      · exact (s.withHead_localWork _).stepWork
    all_goals exact .refl s
  | referenceGateExpiry =>
    refine ⟨_, rfl, .unlessHeld ?_⟩
    split
    · exact (s.withHead_localWork _).stepWork
    all_goals exact .refl s
  | pairGateExpiry =>
    refine ⟨_, rfl, .unlessHeld ?_⟩
    split
    · exact (s.completeMeasure_localWork _ _).stepWork
    all_goals exact .refl s
  | oscillatorEdge =>
    refine ⟨_, rfl, .unlessHeld ?_⟩
    split
    · exact (s.withHead_localWork _).stepWork
    · exact (s.withHead_localWork _).stepWork
    all_goals exact .refl s
  | capinEdge ticks =>
    refine ⟨_, rfl, .unlessHeld ?_⟩
    split
    · exact (s.withHead_localWork _).stepWork
    all_goals exact .refl s
  | captureTimeout =>
    refine ⟨_, rfl, .unlessHeld ?_⟩
    split
    · exact (s.withHead_localWork _).stepWork
    all_goals exact .refl s
  | dischargeExpiry =>
    refine ⟨_, rfl, .unlessHeld ?_⟩
    split
    · exact (s.completeMeasure_localWork _ _).stepWork
    all_goals exact .refl s
  | cadenceExpiry =>
    refine ⟨_, rfl, .unlessHeld ?_⟩
    split
    · exact (s.withHead_localWork _).stepWork
    · exact (s.withHead_localWork _).stepWork
    all_goals exact .refl s
  | toneDurationExpiry =>
    refine ⟨_, rfl, .unlessHeld ?_⟩
    split
    · exact s.completeTone_localWork.stepWork
    · exact s.completeTone_localWork.stepWork
    all_goals exact .refl s
  | testCompletion => exact absurd rfl ht
  | minuteTickExpiry =>
    have hline : ∀ n, ((s.withLines (s.lines.map fun l => { l with condition := l.condition.map Condition.older })).line n)
        = { s.line n with condition := (s.line n).condition.map Condition.older } := by
      intro n; simp [State.line, State.withLines]
    have aged : s.TableKept (s.withLines (s.lines.map fun l => { l with condition := l.condition.map Condition.older })) :=
      ⟨fun _ => rfl, fun _ => rfl, fun _ _ => rfl, rfl, rfl, rfl, rfl, fun n => by rw [hline], fun n => by rw [hline], id⟩
    exact ⟨_, rfl, .unlessHeld (State.LocalWork.move (.kept aged) ⟨rfl, rfl, rfl, rfl, rfl⟩).stepWork⟩
  | oneSecondTickExpiry =>
    refine ⟨_, rfl, .unlessHeld ?_⟩
    split
    · exact ((s.withLadder_localWork _).trans (State.withLadder_localWork _ _)).stepWork
    · exact (s.withLadder_localWork _).stepWork
  | comparisonSettleExpiry bsense =>
    refine ⟨_, rfl, .unlessHeld ?_⟩
    split
    · exact (s.withLadder_localWork _).stepWork
    · exact (s.withLadder_localWork _).stepWork
    all_goals exact .refl s
  | sampleEnd bsense mains =>
    refine ⟨_, rfl, .unlessHeld ?_⟩
    split
    · exact (s.endSample_localWork _ _).stepWork
    all_goals exact .refl s
  | recordDisturbance a => exact absurd rfl (hd a)
  | powerOnReset =>
    have drawn : s.StepWork s.drawRelayImage := .quiet rfl rfl rfl ⟨rfl, rfl, rfl, rfl, rfl⟩
    exact ⟨_, rfl, drawn.trans (State.held_stepWork _ _)⟩
  | pinReset => exact ⟨_, rfl, s.held_stepWork _⟩
  | supplyReturn =>
    exact ⟨_, rfl, .whenDue fun _ => .quiet rfl rfl rfl ⟨rfl, rfl, rfl, rfl, rfl⟩⟩
  | resetnRise =>
    exact ⟨_, rfl, .whenDue fun _ => .quiet rfl rfl rfl ⟨rfl, rfl, rfl, rfl, rfl⟩⟩
  | settingsLoadCompletion =>
    refine ⟨_, rfl, ?_⟩
    split
    · exact .refl s
    · exact .whenDue fun _ => s.endReset_stepWork _
  | inboundByteTaken start b => exact ⟨_, rfl, .unlessHeld (s.takeByte_stepWork start b)⟩
  | nonvolatileValueLoss => exact ⟨_, rfl, .quiet rfl rfl rfl ⟨rfl, rfl, rfl, rfl, rfl⟩⟩

end Sys2Proof.Machine
end

