-- ==== Sys2Proof/Proofs/EveryStep.lean ====
section
/-! What every step keeps: nothing due is left undone, and the record table, the lists and the sums agree. -/

namespace Sys2Proof.Machine

/-! ### The two commands that work under a condition -/

/-- A record disturbance alters one record, its state and its code kept, or meets a FREE slot (R5). -/
theorem exec_recordDisturbance (a : Alteration) (s : State) :
    ((s.slot a.slot).cov.state = .free ∧ exec (.recordDisturbance a) s = .next s)
      ∨ (s.slot a.slot).cov.state ≠ .free ∧ ∃ c : Covered, c.state = (s.slot a.slot).cov.state
        ∧ c.upCir ≤ 65535 ∧ c.downCir ≤ 65535
        ∧ exec (.recordDisturbance a) s = .next (s.setSlot a.slot { s.slot a.slot with cov := c }) := by
  by_cases h : (s.slot a.slot).cov.state = .free
  · exact .inl ⟨h, by simp [exec, execRecordDisturbance, h]⟩
  · refine .inr ⟨h, ⟨a.tag, a.line.toNat, a.cls, (s.slot a.slot).cov.state, a.upCir.toNat, a.upPir.toNat, a.dcu.toNat,
      a.dpu.toNat, a.weight.toNat, a.downCir.toNat, a.downPir.toNat, a.dcd.toNat, a.dpd.toNat⟩, rfl,
      Nat.le_of_lt_succ a.upCir.isLt, Nat.le_of_lt_succ a.downCir.isLt, ?_⟩
    simp [exec, execRecordDisturbance, h]

/-- The line of the test in flight is under test (R118). -/
theorem State.underTest_of_testWell {s : State} (h : s.testWell = true) {t : Test} (ht : s.tests.current = some t) :
    (s.line t.entry.line).state ≠ .rest .inService := by
  simp only [State.testWell, ht, Bool.and_eq_true, List.all_eq_true] at h
  obtain ⟨⟨⟨⟨⟨hu, -⟩, -⟩, -⟩, -⟩, -⟩ := h
  have hline := hu t.entry.line (List.mem_finRange _)
  intro e
  simp [State.underTest, e] at hline

/-- A test completion: the queue is kept and nothing becomes due; the counted rates stay well; a line under test leaves it
by record moves. -/
theorem State.completeTest_work (s : State) (t : Test) (v : Evaluation) :
    s.ServiceKept (s.completeTest t v) ∧ (s.CountsWell → (s.completeTest t v).CountsWell)
      ∧ ((s.line t.entry.line).state ≠ .rest .inService → s.RecordRun (s.completeTest t v)) := by
  obtain ⟨l, ret, new, p, hst, hatt, after⟩ := s.completeTest_after t v
  have written : s.RecordMove (s.setLine t.entry.line l) := .line hatt (by rw [hst])
  have kept : s.ServiceKept (s.setLine t.entry.line l) := ⟨rfl, rfl, rfl, rfl, rfl⟩
  refine ⟨(kept.trans (State.leaveTest_serviceKept _ _ _ _ _)).trans after.toServiceKept, fun h => ?_, fun h => ?_⟩
  · exact after.run.countsWell ((written.countsWell h).leaveTest _ _ _ _)
  · have left := (s.setLine t.entry.line l).leaveTest_localWork t.entry.line ret new p (by simpa [hst] using h)
    exact (Relation.ReflTransGen.single written).trans (left.trans after).run

/-- A test completion outside EVALUATE, or during a reset, changes nothing. -/
theorem exec_testCompletion (s : State) : exec .testCompletion s = .next s
    ∨ ∃ t v, s.tests.current = some t ∧ exec .testCompletion s = .next (s.completeTest t v) := by
  simp only [exec, execTestCompletion, State.unlessHeld]
  split
  · exact .inl rfl
  split
  · exact .inl rfl
  split
  · exact .inl rfl
  · next _ t ht _ v _ => exact .inr ⟨t, v, ht, rfl⟩

/-! ### Every command, settled parts and the queue -/

/-- Every command answers a next state, keeps the queue's rest and leaves a settled part settled. -/
theorem exec_answers (c : Instr) (s : State) :
    ∃ t, exec c s = .next t ∧ t.pending = s.pending ∧ (s.Settled → t.Settled) := by
  by_cases hd : ∃ a, c = .recordDisturbance a
  · obtain ⟨a, rfl⟩ := hd
    rcases exec_recordDisturbance a s with ⟨-, h⟩ | ⟨-, c, -, -, -, h⟩
    · exact ⟨_, h, rfl, id⟩
    · exact ⟨_, h, rfl, fun hs => hs.of_eq rfl rfl rfl rfl rfl rfl (.inl rfl)⟩
  by_cases ht : c = .testCompletion
  · subst ht
    rcases exec_testCompletion s with h | ⟨t, v, -, h⟩
    · exact ⟨_, h, rfl, id⟩
    · obtain ⟨kept, -, -⟩ := s.completeTest_work t v
      exact ⟨_, h, kept.pending, kept.settled⟩
  obtain ⟨t, h, w⟩ := exec_stepWork c s (fun a e => hd ⟨a, e⟩) ht
  exact ⟨t, h, w.pending, w.settled⟩

/-- Settles O1. -/
theorem stepRunsTheFrontCommand : Obligations.StepRunsTheFrontCommand := by
  unfold Obligations.StepRunsTheFrontCommand
  exact ⟨fun s c rest h => by simp only [step, h]; rfl, fun s h => by simp only [step, h]⟩

/-- A step answers what its command does on the queue's rest. -/
theorem step_cases {s t : State} (h : step s = .next t) : t = s ∧ s.pending = []
    ∨ ∃ c rest, s.pending = c :: rest ∧ exec c (s.withPending rest) = .next t := by
  unfold step at h
  split at h
  · next hp => exact .inl ⟨(Host.Outcome.next.inj h).symm, hp⟩
  · next c rest hp => exact .inr ⟨c, rest, hp, h⟩

/-- Settles O55: each command leaves a settled part settled, for it settles what it made due, or makes nothing due. -/
theorem everyStepAnswersAndLeavesNothingDue : Obligations.EveryStepAnswersAndLeavesNothingDue := by
  unfold Obligations.EveryStepAnswersAndLeavesNothingDue
  constructor
  · intro s
    cases hp : s.pending with
    | nil => exact ⟨s, by simp only [step, hp], by rw [hp]; rfl⟩
    | cons c rest =>
      obtain ⟨t, h, hq, -⟩ := exec_answers c (s.withPending rest)
      exact ⟨t, by simp only [step, hp, h], hq⟩
  · intro s t hs h
    rcases step_cases h with ⟨rfl, -⟩ | ⟨c, rest, -, h⟩
    · exact hs
    · obtain ⟨u, hu, -, hw⟩ := exec_answers c (s.withPending rest)
      obtain rfl : u = t := Host.Outcome.next.inj (hu.symm.trans h)
      exact hw hs

/-! ### The record table -/

/-- A record disturbed: its state and its code are not reached (R5). -/
theorem State.RecordsWell.disturb {s : State} (h : s.RecordsWell) {i : Slot} {c : Covered}
    (hi : (s.slot i).cov.state ≠ .free) (hst : c.state = (s.slot i).cov.state) (hu : c.upCir ≤ 65535)
    (hd : c.downCir ≤ 65535) : (s.setSlot i { s.slot i with cov := c }).RecordsWell := by
  obtain ⟨-, -, hatt, -, hcov, htold⟩ := h.table
  have hr : s.Rewrites i { s.slot i with cov := c } := by
    refine ⟨hi, hst ▸ hi, rfl, fun ha n hn => ((hatt n).2 i hn).2.2.1 (hst.symm.trans ha),
      fun hs n hn => ((hatt n).2 i hn).2.2.2 (hst.symm.trans hs), fun he => ?_, hcov i,
      fun hd => (htold i (hst ▸ hd)).trans hst.symm⟩
    rw [Record.passes, beq_eq_false_iff_ne]
    intro e
    exact hcov i (by rw [show (s.slot i).code = _ from e]; exact he)
  have hs : (s.setSlot i { s.slot i with cov := c }).SumsBut i := (h.sums.but i).setSlot ⟨hu, hd⟩
  refine ⟨h.table.setSlot hr, hs.adds.1, hs.adds.2, hs.counted, hs.rates, fun j hj => ?_, hs.waiting⟩
  by_cases e : j = i
  · subst e
    exact h.sums.counted_zero (by simpa [hst] using hj)
  · exact hs.idle j e hj

/-- A record that was intact before a disturbance and is intact after it was not altered. -/
theorem State.CountsWell.disturb {s : State} (h : s.CountsWell) {i : Slot} {c : Covered}
    (hc : (s.slot i).cov = (s.slot i).code.covers) : (s.setSlot i { s.slot i with cov := c }).CountsWell := by
  intro j
  rw [State.setSlot_slot]
  split
  · next e =>
    subst e
    intro ha he
    have hsame : c = (s.slot i).cov := (show c = (s.slot i).code.covers from he).trans hc.symm
    subst hsame
    exact h i ha hc
  · exact h j

theorem exec_recordsWell {c : Instr} {s t : State} (h : s.RecordsWell) (ht : s.testWell = true)
    (he : exec c s = .next t) : t.RecordsWell := by
  by_cases hd : ∃ a, c = .recordDisturbance a
  · obtain ⟨a, rfl⟩ := hd
    rcases exec_recordDisturbance a s with ⟨-, hx⟩ | ⟨hi, c, hst, hu, hd, hx⟩ <;>
      obtain rfl := Host.Outcome.next.inj (hx.symm.trans he)
    · exact h
    · exact h.disturb hi hst hu hd
  by_cases hc : c = .testCompletion
  · subst hc
    rcases exec_testCompletion s with hx | ⟨x, v, hcur, hx⟩ <;> obtain rfl := Host.Outcome.next.inj (hx.symm.trans he)
    · exact h
    · obtain ⟨-, -, run⟩ := s.completeTest_work x v
      exact (run (State.underTest_of_testWell ht hcur)).recordsWell h
  obtain ⟨u, hx, w⟩ := exec_stepWork c s (fun a e => hd ⟨a, e⟩) hc
  obtain rfl := Host.Outcome.next.inj (hx.symm.trans he)
  exact w.run.recordsWell h

theorem exec_countsWell {c : Instr} {s t : State} (h : s.CountsWell)
    (hc : ∀ a, c = .recordDisturbance a → (s.slot a.slot).cov = (s.slot a.slot).code.covers)
    (he : exec c s = .next t) : t.CountsWell := by
  by_cases hd : ∃ a, c = .recordDisturbance a
  · obtain ⟨a, rfl⟩ := hd
    rcases exec_recordDisturbance a s with ⟨-, hx⟩ | ⟨-, c, -, -, -, hx⟩ <;>
      obtain rfl := Host.Outcome.next.inj (hx.symm.trans he)
    · exact h
    · exact h.disturb (hc a rfl)
  by_cases hc : c = .testCompletion
  · subst hc
    rcases exec_testCompletion s with hx | ⟨x, v, -, hx⟩ <;> obtain rfl := Host.Outcome.next.inj (hx.symm.trans he)
    · exact h
    · obtain ⟨-, counts, -⟩ := s.completeTest_work x v
      exact counts h
  obtain ⟨u, hx, w⟩ := exec_stepWork c s (fun a e => hd ⟨a, e⟩) hc
  obtain rfl := Host.Outcome.next.inj (hx.symm.trans he)
  exact w.run.countsWell h

/-- 128 rates of 16 bits add up to 8,388,480 at most (R49). -/
theorem vector_sum_le (v : Vector Nat 128) (h : ∀ i : Slot, v[i] ≤ 65535) : v.toList.sum ≤ 8388480 := by
  have hle : v.toList.sum ≤ v.toList.length • 65535 := by
    refine List.sum_le_card_nsmul _ _ fun x hx => ?_
    obtain ⟨k, hk, rfl⟩ := List.mem_iff_getElem.1 hx
    exact h ⟨k, by simpa using hk⟩
  simpa using hle

/-- Settles O57: the step's record moves keep the table, the lists and the sums well, and the counted rates too. -/
theorem everyStepKeepsTheRecordTable : Obligations.EveryStepKeepsTheRecordTable := by
  unfold Obligations.EveryStepKeepsTheRecordTable
  refine ⟨fun s t htable hsums htests _ _ _ h => ?_, fun s h n => h.nodup n, fun s h => ?_, fun s t hc hd h => ?_⟩
  · rcases step_cases h with ⟨rfl, -⟩ | ⟨c, rest, -, h⟩
    · exact ⟨htable, hsums⟩
    · obtain ⟨ht, hs⟩ := exec_recordsWell (s := s.withPending rest) ⟨htable, hsums⟩ htests.1 h
      exact ⟨ht, hs⟩
  · obtain ⟨hu, hd, hcount, -⟩ := h
    rw [hu, hd]
    exact ⟨vector_sum_le _ fun i => (hcount i).1, vector_sum_le _ fun i => (hcount i).2⟩
  · rcases step_cases h with ⟨rfl, -⟩ | ⟨c, rest, hp, h⟩
    · exact hc
    · exact exec_countsWell (s := s.withPending rest) hc (fun a e => hd a (by rw [hp, e]; rfl)) h

end Sys2Proof.Machine
end

