-- ==== Sys2Proof/Proofs/Search.lean ====
section
/-! The search of the record table (R2, R15) and the corrections of provisioned values (R14). -/

namespace Sys2Proof.Machine

/-! ### The search -/

/-- In an ascending list the first slot with a property is the lowest one. -/
theorem find?_eq_some_iff_lowest {l : List Slot} (hl : l.Pairwise (· < ·)) (p : Slot → Bool) (i : Slot) :
    l.find? p = some i ↔ i ∈ l ∧ p i = true ∧ ∀ j ∈ l, j < i → p j = false := by
  induction l with
  | nil => simp
  | cons a l ih =>
    obtain ⟨ha, hl⟩ := List.pairwise_cons.1 hl
    rw [List.find?_cons]
    cases hp : p a with
    | true =>
      constructor
      · intro h
        obtain rfl := Option.some.inj h
        refine ⟨List.mem_cons_self .., hp, fun j hj hlt => ?_⟩
        rcases List.mem_cons.1 hj with rfl | hj
        · exact absurd hlt (lt_irrefl _)
        · exact absurd (ha j hj) (lt_asymm hlt)
      · rintro ⟨hi, -, hlow⟩
        rcases List.mem_cons.1 hi with rfl | hi
        · rfl
        · simp [hlow a (List.mem_cons_self ..) (ha i hi)] at hp
    | false =>
      rw [ih hl]
      constructor
      · rintro ⟨hi, hpi, hlow⟩
        refine ⟨List.mem_cons_of_mem _ hi, hpi, fun j hj hlt => ?_⟩
        rcases List.mem_cons.1 hj with rfl | hj
        · exact hp
        · exact hlow j hj hlt
      · rintro ⟨hi, hpi, hlow⟩
        rcases List.mem_cons.1 hi with rfl | hi
        · simp [hp] at hpi
        · exact ⟨hi, hpi, fun j hj => hlow j (List.mem_cons_of_mem _ hj)⟩

/-- The ways of a tag are the slots of its home set (R2). -/
theorem mem_waysOf (t : Tag) (i : Slot) : i ∈ waysOf t ↔ i.val / 4 = homeSet t := by
  have h : homeSet t < 32 := (tagSet t).isLt
  simp only [waysOf, List.mem_map, ← tagSet_val]
  constructor
  · rintro ⟨w, -, rfl⟩
    simp only [slotOf]
    omega
  · intro hi
    have all : ∀ w : Fin 4, w ∈ ([0, 1, 2, 3] : List (Fin 4)) := by decide
    exact ⟨⟨i.val % 4, by omega⟩, all _, Fin.ext (by simp only [slotOf]; omega)⟩

theorem waysOf_ascending (t : Tag) : (waysOf t).Pairwise (· < ·) := by
  simp [waysOf, slotOf]

/-- Settles O5: the four ways are walked in ascending order. -/
theorem tagIsFoundInTheLowestWayOfItsSet : Obligations.TagIsFoundInTheLowestWayOfItsSet := by
  unfold Obligations.TagIsFoundInTheLowestWayOfItsSet
  intro s t i
  constructor
  · rw [State.find, find?_eq_some_iff_lowest (waysOf_ascending t)]
    simp [mem_waysOf, State.holds, and_assoc, or_iff_not_imp_left]
  · rw [State.freeWay, find?_eq_some_iff_lowest (waysOf_ascending t)]
    simp [mem_waysOf]

/-! ### Provisioning values -/

/-- A depth clamped and raised to one refill of its rate (R14 steps 2 and 4). -/
theorem raiseDepth_clamp (d rate : Nat) : raiseDepth (clampNat 1 4095 d) rate
    = (let d2 := if d = 0 then 1 else if 4095 < d then 4095 else d
       let refill := if 4095 < (rate + 15) / 16 then 4095 else (rate + 15) / 16
       if d2 < refill then refill else d2) := by
  simp only [raiseDepth, clampNat]
  split_ifs <;> omega

/-- A corrected depth needs no correction. -/
theorem raiseDepth_idem (d rate : Nat) :
    raiseDepth (clampNat 1 4095 (raiseDepth (clampNat 1 4095 d) rate)) rate = raiseDepth (clampNat 1 4095 d) rate := by
  simp only [raiseDepth, clampNat]
  omega

/-- Corrected values need no correction (R14). -/
theorem Provision.correct_correct (p : Provision) : p.correct.correct = p.correct := by
  have hw : clampNat 1 15 (clampNat 1 15 p.weight) = clampNat 1 15 p.weight := by simp only [clampNat]; omega
  have hm : ∀ a b : Nat, max (max a b) b = max a b := fun a b => by omega
  simp only [Provision.correct, hw, hm, raiseDepth_idem]

/-- Settles O6. -/
theorem provisioningValuesAreCorrected : Obligations.ProvisioningValuesAreCorrected := by
  unfold Obligations.ProvisioningValuesAreCorrected
  intro p
  refine ⟨?_, rfl, rfl, rfl, ?_, ?_, raiseDepth_clamp _ _, raiseDepth_clamp _ _, raiseDepth_clamp _ _,
    raiseDepth_clamp _ _, p.correct_correct⟩
  · simp only [Provision.correct, clampNat]
    split_ifs <;> omega
  · simp only [Provision.correct]
    split <;> omega
  · simp only [Provision.correct]
    split <;> omega

end Sys2Proof.Machine
end

