-- ==== Sys2Proof/Proofs/Words.lean ====
section
/-! Fields of response words, and the immediate record and event commands. -/

namespace Sys2Proof.Machine

/-! ### Fields of a word -/

theorem w16_toNat {n : Nat} (h : n < 65536) : (w16 n).toNat = n := by
  simp only [w16, BitVec.toNat_ofNat]
  omega

/-- A field of a word is a quotient and a remainder of the number that the word was made of. -/
theorem w16_extract {n : Nat} (h : n < 65536) (k l : Nat) : ((w16 n).extractLsb' k l).toNat = n / 2 ^ k % 2 ^ l := by
  rw [BitVec.extractLsb'_toNat, w16_toNat h, Nat.shiftRight_eq_div_pow]

/-- So is a bit. -/
theorem w16_bit {n : Nat} (h : n < 65536) (k : Nat) : (w16 n).getLsbD k = decide (n / 2 ^ k % 2 = 1) := by
  rw [BitVec.getLsbD, w16_toNat h, Nat.testBit_eq_decide_div_mod_eq]

theorem flag_eq (k : Nat) (b : Bool) : flag k b = 2 ^ k * b.toNat := by cases b <;> simp [flag]

theorem RecordState.code_le (st : RecordState) : st.code ≤ 4 := by cases st <;> decide

theorem FaultOp.code_le (op : FaultOp) : op.code ≤ 4 := by cases op <;> decide

/-- A tag in its two words (R174). -/
theorem tagWords_eq (t : Tag) : tagWords t = [0#12 ++ t.extractLsb' 16 4, t.extractLsb' 0 16] := by
  have ht := t.isLt
  have hi : w16 (t.toNat / 65536) = 0#12 ++ t.extractLsb' 16 4 := by
    apply BitVec.eq_of_toNat_eq
    rw [w16_toNat (by omega), BitVec.toNat_append, BitVec.extractLsb'_toNat, Nat.shiftRight_eq_div_pow]
    simp
    omega
  have lo : w16 t.toNat = t.extractLsb' 0 16 := by
    apply BitVec.eq_of_toNat_eq
    simp [w16]
  rw [tagWords, hi, lo]

/-- The tag of the cleared contents reads 0 (Table 6). -/
theorem tagWords_zero : tagWords 0 = [0, 0] := by decide

/-! ### Immediate commands -/

section

variable {s : State} {f : Frame}

/-- An immediate command whose act leaves `u`, beside the port, with a result and data words. -/
theorem State.immediate_leaves {c : Instr} {code : Byte} {argc : Nat} {act : Immediate} {u : State} {r : ResultCode}
    {data : List Word16} (h : s.Accepts f argc) (hx : exec c s = .next (s.immediate code argc f act))
    (ha : act f.args s.endCommand = ⟨{ u with port := s.endCommand.port }, r, data⟩) :
    s.Leaves c u (.ready (echoed code r :: data)) := by
  apply State.leaves_of_portAfter
  rw [hx, immediate_of_accepts h, ha, State.answer_eq, resultWord_eq_echoed]
  rfl

end

/-- A tag is valid unless it is all zeros or all ones (section 6.3). -/
theorem validTag_iff (t : Tag) : validTag t = true ↔ t ≠ 0 ∧ t ≠ 0xFFFFF := by
  simp [validTag]

theorem validTag_eq_false_iff (t : Tag) : validTag t = false ↔ t = 0 ∨ t = 0xFFFFF := by
  rw [← Bool.not_eq_true, validTag_iff]
  tauto

@[simp] theorem State.endCommand_find (s : State) (t : Tag) : s.endCommand.find t = s.find t := rfl
@[simp] theorem State.endCommand_slot (s : State) (i : Slot) : s.endCommand.slot i = s.slot i := rfl

/-- Settles O13. -/
theorem readFaultReturnsAndEmptiesTheCapture : Obligations.ReadFaultReturnsAndEmptiesTheCapture := by
  unfold Obligations.ReadFaultReturnsAndEmptiesTheCapture
  intro s f h
  cases hc : s.engine.capture with
  | none =>
    have hw : w16 (flag 14 s.engine.overflow) = if s.engine.overflow then 0x4000 else 0 := by
      cases s.engine.overflow <;> decide
    refine ⟨w16 (flag 14 s.engine.overflow), 0, 0, State.immediate_leaves h rfl ?_, ?_, ?_, fun _ => ⟨?_, rfl, rfl⟩,
      fun e he => by simp at he⟩
    · simp only [actReadFault, State.endCommand_eq, faultWords, hc, tagWords_zero]
      rfl
    all_goals rw [hw]; cases s.engine.overflow <;> decide
  | some e =>
    have hop := e.op.code_le
    have hslot := e.slot.isLt
    have hov := Bool.toNat_le s.engine.overflow
    have hn : 32768 + flag 14 s.engine.overflow + e.op.code * 256 + e.slot.val < 65536 := by rw [flag_eq]; omega
    refine ⟨w16 (32768 + flag 14 s.engine.overflow + e.op.code * 256 + e.slot.val), 0#12 ++ e.tag.extractLsb' 16 4,
      e.tag.extractLsb' 0 16, State.immediate_leaves h rfl ?_, ?_, ?_, fun he => by simp at he, fun e' he => ?_⟩
    · simp only [actReadFault, State.endCommand_eq, faultWords, hc, tagWords_eq]
      rfl
    · rw [w16_bit hn, flag_eq, decide_eq_true (by omega)]
      rfl
    · rw [w16_bit hn, flag_eq]
      cases s.engine.overflow <;> simp <;> omega
    · obtain rfl := Option.some.inj he
      refine ⟨BitVec.eq_of_toNat_eq ?_, ?_, ?_, ?_, rfl, rfl⟩
      · rw [w16_extract hn, flag_eq]; simp; omega
      · rw [w16_extract hn, flag_eq]; omega
      · rw [w16_bit hn, flag_eq]; simp; omega
      · rw [w16_extract hn, flag_eq]; omega

/-- Settles O14. -/
theorem probeSlotReadsWithoutChanging : Obligations.ProbeSlotReadsWithoutChanging := by
  unfold Obligations.ProbeSlotReadsWithoutChanging
  intro s f w hargs h
  have hset : argProbeSet f.args = (w.extractLsb' 8 8).toNat := by rw [hargs]; rfl
  have hway : argProbeWay f.args = (w.extractLsb' 0 8).toNat := by rw [hargs]; rfl
  refine ⟨fun hbad => State.immediate_leaves h rfl ?_, fun i hs hw hi hline => ?_⟩
  · have : ¬ (argProbeSet f.args < 32 ∧ argProbeWay f.args < 4) := by omega
    simp only [actProbeSlot, dif_neg this]
    rfl
  · have hgood : argProbeSet f.args < 32 ∧ argProbeWay f.args < 4 := by omega
    have hslot : slotOf ⟨argProbeSet f.args, hgood.1⟩ ⟨argProbeWay f.args, hgood.2⟩ = i :=
      Fin.ext (by simp only [slotOf, hset, hway, hi])
    have hcode := (s.slot i).cov.state.code_le
    have hfree := Bool.toNat_le ((s.slot i).cov.state == .free)
    have hpass := Bool.toNat_le (s.slot i).passes
    have hn : flag 15 ((s.slot i).cov.state == .free) + flag 14 (s.slot i).passes + (s.slot i).cov.state.code * 256
        + (s.slot i).cov.line < 65536 := by simp only [flag_eq]; omega
    refine ⟨w16 (flag 15 ((s.slot i).cov.state == .free) + flag 14 (s.slot i).passes + (s.slot i).cov.state.code * 256
        + (s.slot i).cov.line), 0#12 ++ (s.slot i).cov.tag.extractLsb' 16 4, (s.slot i).cov.tag.extractLsb' 0 16,
      State.immediate_leaves h rfl ?_, ?_, ?_, ?_, ?_, ?_, ?_, rfl, rfl, fun hcl => ?_⟩
    · simp only [actProbeSlot, dif_pos hgood, hslot, probeWords, tagWords_eq]
      rfl
    · rw [w16_bit hn, flag_eq, flag_eq]
      cases (s.slot i).cov.state == .free <;> simp <;> omega
    · show _ = (s.slot i).passes
      rw [w16_bit hn, flag_eq, flag_eq]
      cases (s.slot i).passes <;> simp <;> omega
    · rw [w16_extract hn, flag_eq, flag_eq]; omega
    · rw [w16_extract hn, flag_eq, flag_eq]; omega
    · apply BitVec.eq_of_toNat_eq
      rw [w16_extract hn, flag_eq, flag_eq]; simp; omega
    · apply BitVec.eq_of_toNat_eq
      rw [w16_extract hn, flag_eq, flag_eq]; simp; omega
    · rw [hcl]; decide

/-- Settles O15. -/
theorem clearCountersZeroesTheFourCounters : Obligations.ClearCountersZeroesTheFourCounters := by
  unfold Obligations.ClearCountersZeroesTheFourCounters
  intro s f w1 w2 hargs h tag
  have htag : argTag f.args 1 = tag := by rw [hargs]; rfl
  refine ⟨fun hbad => State.immediate_leaves h rfl ?_, fun h0 h1 hf => State.immediate_leaves h rfl ?_,
    fun i h0 h1 hf => State.immediate_leaves h rfl ?_⟩
  · have hv := (validTag_eq_false_iff tag).2 hbad
    simp only [actClearCounters, htag, hv]
    rfl
  all_goals
    have hv := (validTag_iff tag).2 ⟨h0, h1⟩
    simp only [actClearCounters, htag, hv, State.endCommand_find, hf]
    rfl

/-- Settles O46. -/
theorem eventCommandsAndAttention : Obligations.EventCommandsAndAttention := by
  unfold Obligations.EventCommandsAndAttention
  have hword : ∀ x : EventSet, w16 x.toNat = 0#7 ++ x := fun x => by
    have hx := x.isLt
    apply BitVec.eq_of_toNat_eq
    rw [w16_toNat (by omega), BitVec.toNat_append]
    simp
  refine ⟨fun s f h => State.immediate_leaves h rfl rfl, fun s f w hargs h => ?_, fun s f w hargs h => ?_, fun s => ?_,
    fun s e k hk => ?_⟩
  · have hset : argEvents f.args = w.extractLsb' 0 9 := by rw [hargs]; rfl
    refine ⟨{ s with events := { s.events with pending := s.events.pending &&& ~~~ w.extractLsb' 0 9 } },
      State.immediate_leaves h rfl ?_, rfl, fun k hk => ?_⟩
    · simp only [actAcknowledgeEvents, hset, hword]
      rfl
    · simp [hk]
  · have hset : argEvents f.args = w.extractLsb' 0 9 := by rw [hargs]; rfl
    refine ⟨{ s with events := { s.events with mask := w.extractLsb' 0 9 } }, State.immediate_leaves h rfl ?_, rfl,
      fun k hk => ?_⟩
    · simp only [actSetEventMask, hset, hword]
      rfl
    · simp [hk]
  · rw [State.attn_eq_true_iff]
    constructor
    · intro hne
      by_contra hno
      refine hne (BitVec.eq_of_getLsbD_eq fun k hk => ?_)
      rw [BitVec.getLsbD_and]
      by_contra hb
      exact hno ⟨k, hk, by simpa using hb⟩
    · rintro ⟨k, hk, hp, hm⟩ h0
      have := congrArg (BitVec.getLsbD · k) h0
      simp [hp, hm] at this
  · rw [State.raise_eq]
    simp [Event.bit_getLsbD e k hk]

end Sys2Proof.Machine
end

