-- ==== Sys2Proof/Proofs/Takes.lean ====
section
/-! The timed record commands: what they leave at a free table engine, and what they leave at a busy one. -/

namespace Sys2Proof.Machine

/-! ### One internal event after another -/

/-- More fuel changes nothing once nothing is due. -/
theorem settleFor_succ {k : Nat} {s : State} (h : (s.settleFor k).internal = none) :
    s.settleFor (k + 1) = s.settleFor k := by
  induction k generalizing s with
  | zero =>
    have h : s.internal = none := h
    simp [State.settleFor, h]
  | succ k ih =>
    rw [State.settleFor]
    conv_rhs => rw [State.settleFor]
    rw [State.settleFor] at h
    split
    · rfl
    · next t ht =>
      rw [ht] at h
      exact ih h

theorem State.due_le (s : State) : s.due ≤ 7 := by
  have := Bool.toNat_le s.link.sending.isNone
  have := Bool.toNat_le s.link.held.isNone
  have := Bool.toNat_le (s.engine.service == .free)
  have := Bool.toNat_le (s.round.phase == .snapshotWait)
  unfold State.due
  omega

/-- A state settles as the state after its next internal event does. -/
theorem settle_of_internal {s t : State} (h : s.internal = some t) : s.settle = t.settle := by
  have hdue := t.due_le
  have hs : s.settle = t.settleFor 9 := by simp [State.settle, State.settleFor, h]
  rw [hs]
  exact (settleFor_succ (settleFor_settled 9 t (by omega))).symm

/-- No message can be handed over: the transmitter is busy, or nothing waits for it. -/
theorem State.handover_none {s : State}
    (h : s.link.sending = none → s.link.refusals = [] ∧ s.link.held = none ∧ s.round.phase.offering = false) :
    s.verdictDue = false ∧ s.roundDue = false := by
  unfold State.verdictDue State.roundDue State.txIdle
  cases hs : s.link.sending with
  | some b => simp
  | none =>
    obtain ⟨hr, hh, ho⟩ := h hs
    simp [hr, hh, ho]

/-- The engine's next take, where no message can be handed over. -/
theorem State.internal_of_free {s : State} (hfree : s.engine.service = .free)
    (h : s.link.sending = none → s.link.refusals = [] ∧ s.link.held = none ∧ s.round.phase.offering = false) :
    s.internal = if s.round.phase = .snapshotWait then some s.snapshot
      else if s.link.queue ≠ [] then some s.lookupHead
      else if s.port.state.waiting ≠ none then some s.takeWaiting else none := by
  obtain ⟨hv, hr⟩ := State.handover_none h
  simp only [State.internal, hv, hr, State.completionDue, hfree, State.rosterDue, State.lookupDue, State.managementDue,
    State.engineFree]
  by_cases hp : s.round.phase = .snapshotWait
  · simp [hp]
  · cases hq : s.link.queue <;> cases hw : s.port.state.waiting <;> simp [hp]

/-- With a management request in service nothing is due where no message can be handed over. -/
theorem State.settled_of_management {s : State} {r : List Word16} (hs : s.engine.service = .management r)
    (h : s.link.sending = none → s.link.refusals = [] ∧ s.link.held = none ∧ s.round.phase.offering = false) :
    s.Settled := ⟨h, by simp [State.completionDue, hs], by simp [hs]⟩

/-- The take of a waiting command, which nothing comes before, settles the part. -/
theorem State.settle_take {s : State} {c : RecordCommand} (hfree : s.engine.service = .free)
    (h : s.link.sending = none → s.link.refusals = [] ∧ s.link.held = none ∧ s.round.phase.offering = false)
    (hp : s.round.phase ≠ .snapshotWait) (hq : s.link.queue = []) (hw : s.port.state.waiting = some c) :
    s.settle = s.takeManagement c ∧ (s.takeManagement c).Settled := by
  have hi : s.internal = some (s.takeManagement c) := by
    rw [State.internal_of_free hfree h, if_neg hp, if_neg (by simp [hq]), if_pos (by simp [hw])]
    simp [State.takeWaiting, hw]
  obtain ⟨hl, hr⟩ := s.takeCommand_frame c
  have hset : (s.takeManagement c).Settled := by
    refine State.settled_of_management (r := resultWord c.code (s.takeCommand c).result :: (s.takeCommand c).data) rfl ?_
    show (s.takeCommand c).state.link.sending = none → (s.takeCommand c).state.link.refusals = []
      ∧ (s.takeCommand c).state.link.held = none ∧ (s.takeCommand c).state.round.phase.offering = false
    rw [hl, hr]
    exact h
  exact ⟨(settle_of_internal hi).trans (settle_of_settled hset), hset⟩

/-! ### The port does not matter to a record command -/

theorem State.setSlot_withPort (s : State) (p : Port) (i : Slot) (r : Record) :
    (s.withPort p).setSlot i r = (s.setSlot i r).withPort p := rfl

theorem State.withArmed_withPort (s : State) (p : Port) (b : Bool) :
    (s.withPort p).withArmed b = (s.withArmed b).withPort p := rfl

theorem State.discover_withPort (s : State) (p : Port) (i : Slot) (op : FaultOp) :
    (s.withPort p).discover i op = (s.discover i op).withPort p := by
  simp only [State.discover, State.offerCapture]
  by_cases ha : (s.slot i).cov.state = .active <;> cases hc : s.engine.capture <;>
    simp only [State.withPort_slot, State.setSlot_engine, State.withPort_engine, State.exitActive_eq, ha, hc, if_true,
      if_false] <;> rfl

theorem State.reportEntry_withPort (s : State) (p : Port) (i : Slot) :
    (s.withPort p).reportEntry i = (s.reportEntry i).withPort p := by
  unfold State.reportEntry
  rw [State.withPort_slot]
  split <;> rfl

theorem State.recount_withPort (s : State) (p : Port) (i : Slot) :
    (s.withPort p).recount i = (s.recount i).withPort p := by
  unfold State.recount
  rw [State.withPort_slot]
  split <;> rfl

theorem State.retireAt_withPort (s : State) (p : Port) (i : Slot) :
    (s.withPort p).retireAt i = (s.retireAt i).withPort p := by
  unfold State.retireAt
  rw [State.withPort_slot]
  split <;> rfl

theorem State.admitAt_withPort (s : State) (p : Port) (i : Slot) (n : LineNo) (tag : Tag) (q : Provision) :
    (s.withPort p).admitAt i n tag q = (s.admitAt i n tag q).withPort p :=
  State.reportEntry_withPort (s.admitted i n tag q) p i

/-- The answer with its state's port replaced. -/
def Answered.withPort (a : Answered) (p : Port) : Answered := ⟨a.state.withPort p, a.result, a.data⟩

theorem Answered.withPort_ite (c : Prop) [Decidable c] (a b : Answered) (p : Port) :
    (if c then a else b).withPort p = if c then a.withPort p else b.withPort p := by split <;> rfl

theorem State.takeCommand_withPort (s : State) (p : Port) (c : RecordCommand) :
    (s.withPort p).takeCommand c = (s.takeCommand c).withPort p := by
  have hfind : ∀ t, (s.withPort p).find t = s.find t := fun _ => rfl
  have hway : ∀ t, (s.withPort p).freeWay t = s.freeWay t := fun _ => rfl
  cases c with
  | admission tag line q =>
    simp only [State.takeCommand, State.takeAdmit, hfind, hway, State.withPort_line]
    split
    · rfl
    simp only [Answered.withPort_ite]
    congr 3
    split
    · rfl
    · rw [State.admitAt_withPort]; rfl
  | amend tag q =>
    simp only [State.takeCommand, State.takeAmend, hfind, State.withPort_slot, Answered.withPort_ite]
    congr 1
    split
    · rfl
    · simp only [Answered.withPort_ite, State.discover_withPort]
      congr 2
      simp only [State.withPort_armed, State.setSlot_withPort, State.withArmed_withPort, State.recount_withPort]
      rfl
  | retire tag =>
    simp only [State.takeCommand, State.takeRetire, hfind, Answered.withPort_ite]
    congr 1
    split
    · rfl
    · rw [State.retireAt_withPort]; rfl
  | retireSlot k =>
    simp only [State.takeCommand, State.takeRetireSlot]
    split
    · rfl
    · simp only [Answered.withPort_ite, State.retireAt_withPort]; rfl
  | bar tag =>
    simp only [State.takeCommand, State.takeBar, hfind, State.withPort_slot, Answered.withPort_ite]
    congr 1
    split
    · rfl
    · next i _ =>
      simp only [Answered.withPort_ite, State.discover_withPort]
      congr 3
      by_cases ha : (s.slot i).cov.state = .active <;> simp only [ha, if_true, if_false] <;> rfl
  | unbar tag =>
    simp only [State.takeCommand, State.takeUnbar, hfind, State.withPort_slot, Answered.withPort_ite]
    congr 1
    split
    · rfl
    · simp only [Answered.withPort_ite, State.discover_withPort]
      congr 3
      simp only [State.setSlot_withPort, State.reportEntry_withPort]
      rfl
  | lookUp tag =>
    simp only [State.takeCommand, State.takeLookUp, hfind, State.withPort_slot, Answered.withPort_ite]
    congr 1
    split
    · rfl
    · simp only [Answered.withPort_ite, State.discover_withPort]
      rfl

/-! ### What a timed record command leaves -/

section

variable {s : State} {f : Frame} {argc : Nat} {c : Instr} {rc : RecordCommand}

/-- At a free engine of a settled part the command is taken at its arrival, with its whole effect (R11, R12). -/
theorem State.timedRecord_leaves (h : s.Accepts f argc) (hs : s.Settled) (hfree : s.engine.service = .free)
    (hx : exec c s = .next (s.timedRecord argc f rc)) {u : State} {r : ResultCode} {data : List Word16}
    (ha : s.takeCommand rc = ⟨u, r, data⟩) :
    s.Leaves c { u with engine := u.engine.serving (echoed rc.code r :: data) } (.wait .taken) := by
  obtain ⟨hsend, -, hreq⟩ := hs
  obtain ⟨hp, hq, -⟩ := hreq hfree
  have ht : (s.withPort (s.portAfter (.wait (.record rc)))).takeCommand rc
      = ⟨u.withPort (s.portAfter (.wait (.record rc))), r, data⟩ := by
    rw [State.takeCommand_withPort, ha]
    rfl
  have hsettle := (State.settle_take (s := s.withPort (s.portAfter (.wait (.record rc)))) (c := rc) hfree hsend hp hq rfl).1
  apply State.leaves_of_portAfter
  rw [hx, State.timedRecord, timed_of_accepts h]
  show Host.Outcome.next (s.withPort (s.portAfter (.wait (.record rc)))).settle = _
  rw [hsettle, State.takeManagement, ht, resultWord_eq_echoed]
  rfl

/-- At a busy engine the command waits in the port, and nothing else changes (R12). -/
theorem State.timedRecord_waits (h : s.Accepts f argc) (hs : s.Settled) (hbusy : s.engine.service ≠ .free)
    (hx : exec c s = .next (s.timedRecord argc f rc)) : s.Leaves c s (.wait (.record rc)) := by
  obtain ⟨hsend, hdone, -⟩ := hs
  have hset : (s.withPort (s.portAfter (.wait (.record rc)))).Settled := ⟨hsend, hdone, fun hf => absurd hf hbusy⟩
  apply State.leaves_of_portAfter
  rw [hx, State.timedRecord, timed_of_accepts h]
  show Host.Outcome.next (s.withPort (s.portAfter (.wait (.record rc)))).settle = _
  rw [settle_of_settled hset]
  rfl

end

end Sys2Proof.Machine
end

