-- ==== Sys2Proof/Proofs/RecordCommands.lean ====
section
/-! The timed record commands carried out at a free table engine, refused there, and waiting for a busy one. -/

namespace Sys2Proof.Machine

/-! ### The layout of Table 75 -/

/-- Stored values within the widths of their fields are answered in the layout of Table 75. -/
theorem Covered.laidOutIn {c : Covered} (hl : c.line < 32) (hw : c.weight < 32)
    (hr : c.upCir < 65536 ∧ c.upPir < 65536 ∧ c.downCir < 65536 ∧ c.downPir < 65536)
    (hd : c.dcu < 65536 ∧ c.dpu < 65536 ∧ c.dcd < 65536 ∧ c.dpd < 65536) : c.LaidOutIn (provisionWords c) := by
  obtain ⟨hu, hup, hdn, hdp⟩ := hr
  obtain ⟨h1, h2, h3, h4⟩ := hd
  have hc : classCode c.cls = (c.cls == .essential).toNat ∧ (c.cls == .essential).toNat ≤ 1 := by
    cases c.cls <;> decide
  have hn : classCode c.cls * 32768 + c.line * 256 + c.weight < 65536 := by omega
  refine ⟨_, _, _, _, _, _, _, _, _, rfl, ?_, BitVec.eq_of_toNat_eq ?_, ?_, BitVec.eq_of_toNat_eq ?_, ?_, w16_toNat hu,
    w16_toNat hup, w16_toNat h1, w16_toNat h2, w16_toNat hdn, w16_toNat hdp, w16_toNat h3, w16_toNat h4⟩
  · rw [w16_bit hn, hc.1]
    cases h : c.cls == .essential <;> simp <;> omega
  · rw [w16_extract hn]; simp; omega
  · rw [w16_extract hn]; omega
  · rw [w16_extract hn]; simp; omega
  · rw [w16_extract hn]; omega

/-- Corrected values of 16-bit rates lie within the widths of their fields (R14). -/
theorem Provision.correct_widths {p : Provision}
    (h : p.upCir < 65536 ∧ p.upPir < 65536 ∧ p.downCir < 65536 ∧ p.downPir < 65536) :
    p.correct.weight < 32
      ∧ (p.correct.upCir < 65536 ∧ p.correct.upPir < 65536 ∧ p.correct.downCir < 65536 ∧ p.correct.downPir < 65536)
      ∧ (p.correct.dcu < 65536 ∧ p.correct.dpu < 65536 ∧ p.correct.dcd < 65536 ∧ p.correct.dpd < 65536) := by
  obtain ⟨h1, h2, h3, h4⟩ := h
  simp only [Provision.correct, raiseDepth, clampNat]
  omega

/-! ### What the commands answer and leave -/

section

variable {s : State} {tag : Tag} {i : Slot}

/-- An admission into a FREE way (R15). -/
theorem State.takeAdmit_eq {n : LineNo} {p : Provision} (hv : validTag tag = true) (hf : s.find tag = none)
    (hn : (s.line n).attached.length < 8) (hw : s.freeWay tag = some i) :
    s.takeAdmit tag n.val p = ⟨s.admitAt i n tag p.correct, .ok,
      slotWord i :: provisionWords ((s.admitAt i n tag p.correct).slot i).cov⟩ := by
  simp [State.takeAdmit, lineNoOf_val, hv, hf, Nat.not_le.2 hn, hw]

/-- An admission as a record update: the state suits the line, and an entry into ACTIVE is counted. -/
theorem State.admitAt_record (s : State) (i : Slot) (n : LineNo) (tag : Tag) (p : Provision) :
    let c : Covered := ⟨tag, n.val, p.cls, if (s.line n).state = .rest .inService then .active else .standby, p.upCir,
      p.upPir, p.dcu, p.dpu, p.weight, p.downCir, p.downPir, p.dcd, p.dpd⟩
    s.admitAt i n tag p = { s with
        slots := s.slots.set i ⟨c, p.dcu * 16, p.dpu * 16, p.dcd * 16, p.dpd * 16, 0, 0, 0, 0, 0, ⟨c, s.armed⟩⟩
        lines := s.lines.set n { s.line n with attached := (s.line n).attached ++ [i] }
        meter := if (s.line n).state = .rest .inService then s.meter.afterEntry i p.upCir p.downCir else s.meter
        armed := false }
      ∧ ((s.admitAt i n tag p).slot i).cov = c := by
  intro c
  have hc : p.covered tag n.val (s.healthyState n.val) = c := by rw [State.healthyState_val]; rfl
  have hslot : (s.admitted i n tag p).slot i = admittedRecord c s.armed := by
    rw [State.admitted, hc, State.setLine_slot, State.withArmed_slot, State.setSlot_slot, if_pos rfl]
  have heq : s.admitAt i n tag p = (if (s.line n).state = .rest .inService then (s.admitted i n tag p).enterActive i
      else s.admitted i n tag p) := by
    rw [State.admitAt_eq, State.reportEntry, hslot]
    by_cases h : (s.line n).state = .rest .inService <;> simp [admittedRecord, c, h]
  have hrec : s.admitted i n tag p = { s with
      slots := s.slots.set i (admittedRecord c s.armed)
      lines := s.lines.set n { s.line n with attached := (s.line n).attached ++ [i] }
      armed := false } := by rw [State.admitted, hc]; rfl
  refine ⟨?_, ?_⟩
  · rw [heq]
    split
    · rw [State.enterActive_eq, hslot, hrec]; rfl
    · rw [hrec]; rfl
  · rw [heq]
    split
    · rw [State.enterActive_slot, hslot]; rfl
    · rw [hslot]; rfl

/-- An amendment of a found passing record (R16). -/
theorem State.takeAmend_eq {p : Provision} (hv : validTag tag = true) (hf : s.find tag = some i)
    (hd : (s.slot i).cov.state ≠ .damaged) (hp : (s.slot i).passes = true) :
    let t := ((s.setSlot i ((s.slot i).amended p.correct s.armed)).withArmed false).recount i
    s.takeAmend tag p = ⟨t, .ok, slotWord i :: provisionWords (t.slot i).cov⟩ := by
  simp [State.takeAmend, hv, hf, hd, hp]

/-- An amendment as a record update: the sums of an ACTIVE record follow (R51). -/
theorem State.amend_record (s : State) (i : Slot) (p : Provision) :
    let r := s.slot i
    let c : Covered := ⟨r.cov.tag, r.cov.line, p.cls, r.cov.state, p.upCir, p.upPir, p.dcu, p.dpu, p.weight,
      p.downCir, p.downPir, p.dcd, p.dpd⟩
    let t := ((s.setSlot i (r.amended p s.armed)).withArmed false).recount i
    t = { s with
        slots := s.slots.set i { r with
          cov := c
          kcu := min r.kcu (p.dcu * 16)
          kpu := min r.kpu (p.dpu * 16)
          kcd := min r.kcd (p.dcd * 16)
          kpd := min r.kpd (p.dpd * 16)
          code := ⟨c, s.armed⟩ }
        meter := if r.cov.state = .active then (s.meter.afterExit i).afterEntry i p.upCir p.downCir else s.meter
        armed := false }
      ∧ (t.slot i).cov = c := by
  intro r c t
  have hslot : ((s.setSlot i (r.amended p s.armed)).withArmed false).slot i = r.amended p s.armed := by
    rw [State.withArmed_slot, State.setSlot_slot, if_pos rfl]
  have ht : t = if r.cov.state = .active
      then (((s.setSlot i (r.amended p s.armed)).withArmed false).exitActive i).enterActive i
      else (s.setSlot i (r.amended p s.armed)).withArmed false := by
    simp only [t, State.recount, hslot]; rfl
  refine ⟨?_, ?_⟩
  · rw [ht]
    split
    · rw [State.enterActive_eq, State.exitActive_slot, hslot]; rfl
    · rfl
  · rw [ht]
    split
    · rw [State.enterActive_slot, State.exitActive_slot, hslot]; rfl
    · rw [hslot]; rfl

/-- A retirement as a record update (R17). -/
theorem State.retireAt_record (s : State) (i : Slot) : s.retireAt i = { s with
    slots := s.slots.set i clearedRecord
    lines := s.lines.map fun l => { l with attached := l.attached.filter (· != i) }
    meter := if (s.slot i).cov.state = .active then s.meter.afterExit i else s.meter } := by
  unfold State.retireAt
  split <;> rfl

end

/-- A retirement of a found record (R17). -/
theorem State.takeRetire_eq {s : State} {tag : Tag} {i : Slot} (hv : validTag tag = true) (hf : s.find tag = some i) :
    s.takeRetire tag = ⟨{ s with
      slots := s.slots.set i clearedRecord
      lines := s.lines.map fun l => { l with attached := l.attached.filter (· != i) }
      meter := if (s.slot i).cov.state = .active then s.meter.afterExit i else s.meter }, .ok, [slotWord i]⟩ := by
  rw [← State.retireAt_record]
  simp [State.takeRetire, hv, hf]

/-- The record of a slot with its state replaced and a new code written. -/
def State.restated (s : State) (i : Slot) (st : RecordState) (m : Meter) : State := { s with
  slots := s.slots.set i { s.slot i with
    cov := { (s.slot i).cov with state := st }
    code := ⟨{ (s.slot i).cov with state := st }, false⟩ }
  meter := m }

/-- A bar of a found passing record in STANDBY or ACTIVE (R19). -/
theorem State.takeBar_eq {s : State} {tag : Tag} {i : Slot} (hv : validTag tag = true) (hf : s.find tag = some i)
    (hst : (s.slot i).cov.state = .standby ∨ (s.slot i).cov.state = .active) (hp : (s.slot i).passes = true) :
    s.takeBar tag = ⟨s.restated i .barred (if (s.slot i).cov.state = .active then s.meter.afterExit i else s.meter), .ok,
      [slotWord i]⟩ := by
  have hd : (s.slot i).cov.state ≠ .damaged ∧ (s.slot i).cov.state ≠ .barred := by
    rcases hst with e | e <;> simp [e]
  simp only [State.takeBar, hv, hf, hd.1, hd.2, hp, Bool.not_true, Bool.false_eq_true, if_false]
  split <;> rfl

/-- An unbar of a found passing record (R20). -/
theorem State.takeUnbar_eq {s : State} {tag : Tag} {i : Slot} (hv : validTag tag = true) (hf : s.find tag = some i)
    (hst : (s.slot i).cov.state = .barred) (hp : (s.slot i).passes = true) :
    (s.healthyState (s.slot i).cov.line = .active → s.takeUnbar tag = ⟨s.restated i .active
      (s.meter.afterEntry i (s.slot i).cov.upCir (s.slot i).cov.downCir), .ok, [slotWord i]⟩)
    ∧ (s.healthyState (s.slot i).cov.line = .standby →
      s.takeUnbar tag = ⟨s.restated i .standby s.meter, .ok, [slotWord i]⟩) := by
  have ht : s.takeUnbar tag
      = ⟨(s.setSlot i (((s.slot i).withState (s.healthyState (s.slot i).cov.line)).seal false)).reportEntry i, .ok,
        [slotWord i]⟩ := by simp [State.takeUnbar, hv, hf, hst, hp]
  have hslot : ∀ st, ((s.setSlot i (((s.slot i).withState st).seal false)).slot i)
      = ((s.slot i).withState st).seal false := fun st => by rw [State.setSlot_slot, if_pos rfl]
  have hstate : ∀ st, (((s.slot i).withState st).seal false).cov.state = st := fun _ => rfl
  constructor <;> intro hh <;> rw [ht, hh, State.reportEntry, hslot, hstate]
  · rw [if_pos rfl, State.enterActive_eq, hslot]; rfl
  · rw [if_neg (by decide)]; rfl

/-- Settles O7. -/
theorem admitServiceWritesTheNewRecord : Obligations.AdmitServiceWritesTheNewRecord := by
  unfold Obligations.AdmitServiceWritesTheNewRecord
  intro s f w1 w2 w3 w4 w5 w6 w7 w8 w9 w10 w11 n i hargs hacc hset hfree tag p served hline h0 h1 hf hn hw c
  have hv := (validTag_iff tag).2 ⟨h0, h1⟩
  obtain ⟨hwt, hrates, hdepths⟩ := Provision.correct_widths (p := ⟨if w3.getLsbD 15 then .essential else .standard,
    (w3.extractLsb' 0 5).toNat, w4.toNat, w5.toNat, w6.toNat, w7.toNat, w8.toNat, w9.toNat, w10.toNat, w11.toNat⟩)
    ⟨w4.isLt, w5.isLt, w8.isLt, w9.isLt⟩
  refine ⟨Covered.laidOutIn (lt_trans n.isLt (by decide)) hwt hrates hdepths, ?_⟩
  obtain ⟨hrec, hcov⟩ := s.admitAt_record i n tag p
  have ht := State.takeAdmit_eq (p := argProvision f.args) hv hf hn hw
  rw [show (argProvision f.args).correct = p by rw [hargs]; rfl, hcov, hrec] at ht
  have hx : exec (.admitService f) s = .next (s.timedRecord 11 f (.admission tag n.val (argProvision f.args))) := by
    rw [← hline, show tag = argTag f.args 1 by rw [hargs]; rfl,
      show (w3.extractLsb' 8 5).toNat = argAdmitLine f.args by rw [hargs]; rfl]
    rfl
  exact State.timedRecord_leaves hacc hset hfree hx ht

/-- Settles O8. -/
theorem amendServiceReplacesTheProvisionedValues : Obligations.AmendServiceReplacesTheProvisionedValues := by
  unfold Obligations.AmendServiceReplacesTheProvisionedValues
  intro s f w1 w2 w3 w4 w5 w6 w7 w8 w9 w10 w11 i hargs hacc hset hfree tag p h0 h1 hf hd hp r c
  have hv := (validTag_iff tag).2 ⟨h0, h1⟩
  obtain ⟨hwt, hrates, hdepths⟩ := Provision.correct_widths (p := ⟨if w3.getLsbD 15 then .essential else .standard,
    (w3.extractLsb' 0 5).toNat, w4.toNat, w5.toNat, w6.toNat, w7.toNat, w8.toNat, w9.toNat, w10.toNat, w11.toNat⟩)
    ⟨w4.isLt, w5.isLt, w8.isLt, w9.isLt⟩
  refine ⟨fun hl => Covered.laidOutIn hl hwt hrates hdepths, ?_⟩
  obtain ⟨hrec, hcov⟩ := s.amend_record i p
  have ht := State.takeAmend_eq (p := argProvision f.args) hv hf hd hp
  dsimp only at ht
  rw [show (argProvision f.args).correct = p by rw [hargs]; rfl, hcov, hrec] at ht
  have hx : exec (.amendService f) s = .next (s.timedRecord 11 f (.amend tag (argProvision f.args))) := by
    rw [show tag = argTag f.args 1 by rw [hargs]; rfl]
    rfl
  exact State.timedRecord_leaves hacc hset hfree hx ht

/-- The state of a healthy record, by whether its line is one that is IN_SERVICE (R3). -/
theorem State.healthyState_eq_ite (s : State) (k : Nat) [Decidable (lineNoOf k ≠ none
    ∧ ∀ n, lineNoOf k = some n → (s.line n).state = .rest .inService)] :
    s.healthyState k = if lineNoOf k ≠ none ∧ ∀ n, lineNoOf k = some n → (s.line n).state = .rest .inService
      then .active else .standby := by
  unfold State.healthyState
  split <;> simp_all

/-- Settles O9. -/
theorem retireBarAndUnbarActOnTheRecord : Obligations.RetireBarAndUnbarActOnTheRecord := by
  unfold Obligations.RetireBarAndUnbarActOnTheRecord
  intro s f i hset hfree r out served answered retired moved
  constructor
  · intro w1 w2 hargs hacc tag h0 h1 hf
    have hv := (validTag_iff tag).2 ⟨h0, h1⟩
    have htag : argTag f.args 1 = tag := by rw [hargs]; rfl
    refine ⟨?_, fun hst hp => ?_, fun hst hp hs => ?_, fun hst hp hs => ?_⟩
    · have ht : s.takeCommand (.retire (argTag f.args 1)) = ⟨retired, .ok, [slotWord i]⟩ := by
        rw [htag]
        exact State.takeRetire_eq hv hf
      exact (State.timedRecord_leaves (c := .retireService f) hacc hset hfree rfl ht :)
    · have ht : s.takeCommand (.bar (argTag f.args 1)) = ⟨moved .barred out, .ok, [slotWord i]⟩ := by
        rw [htag]
        exact State.takeBar_eq hv hf hst hp
      exact (State.timedRecord_leaves (c := .barService f) hacc hset hfree rfl ht :)
    · have hh : s.healthyState (s.slot i).cov.line = .active := by
        classical rw [State.healthyState_eq_ite, if_pos hs]
      have ht : s.takeCommand (.unbar (argTag f.args 1))
          = ⟨moved .active (s.meter.afterEntry i r.cov.upCir r.cov.downCir), .ok, [slotWord i]⟩ := by
        rw [htag]
        exact (State.takeUnbar_eq hv hf hst hp).1 hh
      exact (State.timedRecord_leaves (c := .unbarService f) hacc hset hfree rfl ht :)
    · have hh : s.healthyState (s.slot i).cov.line = .standby := by
        classical rw [State.healthyState_eq_ite, if_neg hs]
      have ht : s.takeCommand (.unbar (argTag f.args 1)) = ⟨moved .standby s.meter, .ok, [slotWord i]⟩ := by
        rw [htag]
        exact (State.takeUnbar_eq hv hf hst hp).2 hh
      exact (State.timedRecord_leaves (c := .unbarService f) hacc hset hfree rfl ht :)
  · intro w hargs hacc hw hst
    have hi : slotNoOf (argNat f.args 1) = some i := by
      have : argNat f.args 1 = i.val := by rw [hargs, ← hw]; rfl
      simp [slotNoOf, this]
    have ht : s.takeCommand (.retireSlot (argNat f.args 1))
        = ⟨retired, .ok, [0#12 ++ r.cov.tag.extractLsb' 16 4, r.cov.tag.extractLsb' 0 16]⟩ := by
      simp only [State.takeCommand, State.takeRetireSlot, hi, show ¬ (s.slot i).cov.state = .free from hst, if_false,
        State.retireAt_record, tagWords_eq]
      rfl
    exact (State.timedRecord_leaves (c := .retireSlot f) hacc hset hfree rfl ht :)

end Sys2Proof.Machine
end

