-- ==== Sys2Proof/Proofs/LookUpsAndRefusals.lean ====
section
/-! LOOK UP SERVICE, the refusals of the timed record commands and their wait, and the damage discoveries they make. -/

namespace Sys2Proof.Machine

/-! ### LOOK UP SERVICE -/

/-- Two words one after another, as a number. -/
theorem toNat_append_eq {a b : Nat} (x : BitVec a) (y : BitVec b) : (x ++ y).toNat = x.toNat * 2 ^ b + y.toNat := by
  rw [BitVec.toNat_append, ← Nat.shiftLeft_add_eq_or_of_lt y.isLt, Nat.shiftLeft_eq]

/-- A 32-bit number in its two words (R174). -/
theorem words32_toNat {n : Nat} (h : n < 4294967296) : (w16 (n / 65536) ++ w16 n).toNat = n := by
  rw [toNat_append_eq, w16_toNat (by omega)]
  simp only [w16, BitVec.toNat_ofNat]
  omega

theorem State.takeLookUp_hit {s : State} {tag : Tag} {i : Slot} (hv : validTag tag = true) (hf : s.find tag = some i) :
    ((s.slot i).cov.state = .damaged → s.takeLookUp tag = ⟨s, .damaged, lookUpWords i (s.slot i)⟩)
      ∧ ((s.slot i).cov.state ≠ .damaged → (s.slot i).passes = true →
        s.takeLookUp tag = ⟨s, .ok, lookUpWords i (s.slot i)⟩) := by
  constructor
  · intro hd
    simp [State.takeLookUp, hv, hf, hd]
  · intro hd hp
    simp [State.takeLookUp, hv, hf, hd, hp]

/-- Settles O10. -/
theorem lookUpServiceReturnsTheRecord : Obligations.LookUpServiceReturnsTheRecord := by
  unfold Obligations.LookUpServiceReturnsTheRecord
  constructor
  · intro s f w1 w2 i hargs hacc hset hfree tag h0 h1 hf
    have hv := (validTag_iff tag).2 ⟨h0, h1⟩
    have htag : argTag f.args 1 = tag := by rw [hargs]; rfl
    obtain ⟨hbad, hgood⟩ := State.takeLookUp_hit hv hf
    have hx : exec (.lookUpService f) s = .next (s.timedRecord 2 f (.lookUp tag)) := by rw [← htag]; rfl
    exact ⟨fun hd hp => State.timedRecord_leaves (u := s) hacc hset hfree hx (hgood hd hp),
      fun hd => State.timedRecord_leaves (u := s) hacc hset hfree hx (hbad hd)⟩
  · rintro i r ⟨⟨hl, hw⟩, ⟨hr1, hr2, hr3, hr4⟩, ⟨hd1, hd2, hd3, hd4⟩, ⟨hk1, hk2, hk3, hk4⟩, hdem, ⟨hc1, hc2, hc3, hc4⟩⟩
    have hi := i.isLt
    have hst := r.cov.state.code_le
    have hcls : classCode r.cov.cls = (r.cov.cls == .essential).toNat ∧ (r.cov.cls == .essential).toNat ≤ 1 := by
      cases r.cov.cls <;> decide
    have n2 : 32768 + i.val * 256 + r.cov.line < 65536 := by omega
    have n9 : r.cov.weight * 4096 + r.cov.dcu < 65536 := by clear * - hw hd1; omega
    have n10 : classCode r.cov.cls * 32768 + r.cov.state.code * 4096 + r.cov.dpu < 65536 := by
      clear * - hcls hst hd2; omega
    have ht := r.cov.tag.isLt
    have n3 : r.cov.tag.toNat / 65536 * 4096 + r.demand < 65536 := by clear * - ht hdem; omega
    have word : ∀ n, n ≤ 65535 → (w16 n).toNat = n := fun n h => w16_toNat (Nat.lt_succ_of_le h)
    have pair : ∀ n, n ≤ 4294967295 → (w16 (n / 65536) ++ w16 n).toNat = n :=
      fun n h => words32_toNat (Nat.lt_succ_of_le h)
    have depth : ∀ n, n ≤ 4095 → (w16 n).toNat = n := fun n h => word n (by omega)
    have bucket : ∀ n, n ≤ 65520 → (w16 n).toNat = n := fun n h => word n (by omega)
    refine ⟨_, _, _, _, _, _, _, _, _, _, _, _, _, _, _, _, _, _, _, _, _, _, _, rfl, ⟨?_, ?_, ?_⟩, ⟨?_, ?_⟩,
      ⟨word _ hr1, word _ hr2, word _ hr3, word _ hr4⟩, ⟨?_, ?_⟩, ⟨?_, ?_, ?_⟩, ⟨depth _ hd3, depth _ hd4⟩,
      ⟨bucket _ hk1, bucket _ hk2, bucket _ hk3, bucket _ hk4⟩, ⟨pair _ hc1, pair _ hc2, pair _ hc3, pair _ hc4⟩⟩
    · rw [w16_bit n2]; simp; omega
    · rw [w16_extract n2]; omega
    · rw [w16_extract n2]; omega
    · apply BitVec.eq_of_toNat_eq
      rw [toNat_append_eq, w16_extract n3]
      simp only [w16, BitVec.toNat_ofNat]
      omega
    · rw [w16_extract n3]; omega
    · rw [w16_extract n9]; omega
    · rw [w16_extract n9]; omega
    · rw [w16_bit n10, hcls.1]
      cases h : r.cov.cls == .essential <;> simp <;> omega
    · rw [w16_extract n10]; omega
    · rw [w16_extract n10]; omega

/-! ### Refusals and waits -/

/-- The tagged record commands by their codes (Table 61). -/
theorem taggedCommand_cases {c : Instr} {code : Byte} {k : Nat} {f : Frame}
    (h : transactionOf c = some ⟨code, some k, f⟩) (hc : code ∈ [0x01, 0x02, 0x03, 0x05, 0x06, 0x07]) :
    (code = 0x01 ∧ k = 11 ∧ c = .admitService f) ∨ (code = 0x02 ∧ k = 11 ∧ c = .amendService f)
      ∨ (code = 0x03 ∧ k = 2 ∧ c = .retireService f) ∨ (code = 0x05 ∧ k = 2 ∧ c = .barService f)
      ∨ (code = 0x06 ∧ k = 2 ∧ c = .unbarService f) ∨ (code = 0x07 ∧ k = 2 ∧ c = .lookUpService f) := by
  cases c <;> simp only [transactionOf, Option.some.injEq, Transaction.mk.injEq, reduceCtorEq, false_and, and_false] at h
  all_goals
    obtain ⟨rfl, rfl, rfl⟩ := h
    revert hc
    simp

/-- The refusals of an admission, in their order (R15). -/
theorem State.takeAdmit_refusals (s : State) (tag : Tag) (k : Nat) (p : Provision) :
    (validTag tag = false → s.takeAdmit tag k p = ⟨s, .badArgument, []⟩)
      ∧ (24 ≤ k → s.takeAdmit tag k p = ⟨s, .badArgument, []⟩)
      ∧ ∀ m : LineNo, validTag tag = true → k = m.val →
        ((s.find tag).isSome = true → s.takeAdmit tag k p = ⟨s, .duplicate, []⟩)
          ∧ (s.find tag = none → 8 ≤ (s.line m).attached.length → s.takeAdmit tag k p = ⟨s, .lineFull, []⟩)
          ∧ (s.find tag = none → (s.line m).attached.length < 8 → s.freeWay tag = none →
            s.takeAdmit tag k p = ⟨s, .setFull, []⟩) := by
  refine ⟨fun hv => ?_, fun hk => ?_, fun m hv hk => ?_⟩
  · unfold State.takeAdmit
    split
    · rfl
    · rw [hv]; rfl
  · have hn : lineNoOf k = none := by simp [lineNoOf, hk]
    simp only [State.takeAdmit, hn, State.refuse]
  · subst hk
    refine ⟨fun hf => ?_, fun hf hl => ?_, fun hf hl hw => ?_⟩
    · simp [State.takeAdmit, lineNoOf_val, hv, hf, State.refuse]
    · simp [State.takeAdmit, lineNoOf_val, hv, hf, hl, State.refuse]
    · simp [State.takeAdmit, lineNoOf_val, hv, hf, Nat.not_le.2 hl, hw, State.refuse]

/-- The refusals that the commands with a tag alone have in common, and their own (R16, R17, R19 to R21). -/
theorem State.takeTagged_refusals (s : State) (tag : Tag) :
    (validTag tag = false → (∀ p, s.takeAmend tag p = ⟨s, .badArgument, []⟩) ∧ s.takeRetire tag = ⟨s, .badArgument, []⟩
        ∧ s.takeBar tag = ⟨s, .badArgument, []⟩ ∧ s.takeUnbar tag = ⟨s, .badArgument, []⟩
        ∧ s.takeLookUp tag = ⟨s, .badArgument, []⟩)
      ∧ (validTag tag = true → s.find tag = none →
        (∀ p, s.takeAmend tag p = ⟨s, .unknown, []⟩) ∧ s.takeRetire tag = ⟨s, .unknown, []⟩
          ∧ s.takeBar tag = ⟨s, .unknown, []⟩ ∧ s.takeUnbar tag = ⟨s, .unknown, []⟩
          ∧ s.takeLookUp tag = ⟨s, .unknown, [0]⟩)
      ∧ ∀ i, validTag tag = true → s.find tag = some i →
        ((s.slot i).cov.state = .damaged → (∀ p, s.takeAmend tag p = ⟨s, .damaged, []⟩)
            ∧ s.takeBar tag = ⟨s, .damaged, []⟩ ∧ s.takeUnbar tag = ⟨s, .damaged, []⟩)
          ∧ ((s.slot i).passes = true → (s.slot i).cov.state = .barred → s.takeBar tag = ⟨s, .wrongState, []⟩)
          ∧ ((s.slot i).passes = true → ((s.slot i).cov.state = .standby ∨ (s.slot i).cov.state = .active) →
            s.takeUnbar tag = ⟨s, .wrongState, []⟩) := by
  refine ⟨fun hv => ?_, fun hv hf => ?_, fun i hv hf => ⟨fun hd => ?_, fun hp hb => ?_, fun hp hb => ?_⟩⟩
  · simp [State.takeAmend, State.takeRetire, State.takeBar, State.takeUnbar, State.takeLookUp, hv, State.refuse]
  · simp [State.takeAmend, State.takeRetire, State.takeBar, State.takeUnbar, State.takeLookUp, hv, hf, State.refuse]
  · simp [State.takeAmend, State.takeBar, State.takeUnbar, hv, hf, hd, State.refuse]
  · simp [State.takeBar, hv, hf, hp, hb, State.refuse]
  · rcases hb with hb | hb <;> simp [State.takeUnbar, hv, hf, hp, hb, State.refuse]

/-- The refusals at a free engine, command by command. -/
theorem taggedCommand_refusals {c : Instr} {s : State} {code : Byte} {k : Nat} {f : Frame}
    (hc : transactionOf c = some ⟨code, some k, f⟩) (hcode : code ∈ [0x01, 0x02, 0x03, 0x05, 0x06, 0x07])
    (hacc : s.Accepts f k) (hset : s.Settled) (hfree : s.engine.service = .free) :
    let tag := argTag f.args 1
    let n := argAdmitLine f.args
    let answered := fun (r : List Word16) => s.Leaves c { s with engine := s.engine.serving r } (.wait .taken)
    (validTag tag = false → answered [echoed code .badArgument])
      ∧ (validTag tag = true → code = 0x01 → 24 ≤ n → answered [echoed code .badArgument])
      ∧ (∀ (m : LineNo), validTag tag = true → code = 0x01 → n = m.val →
        ((s.find tag).isSome = true → answered [echoed code .duplicate])
          ∧ (s.find tag = none → 8 ≤ (s.line m).attached.length → answered [echoed code .lineFull])
          ∧ (s.find tag = none → (s.line m).attached.length < 8 → s.freeWay tag = none →
            answered [echoed code .setFull]))
      ∧ (validTag tag = true → s.find tag = none →
        (code ∈ [0x02, 0x03, 0x05, 0x06] → answered [echoed code .unknown])
          ∧ (code = 0x07 → answered [echoed code .unknown, 0]))
      ∧ (∀ i, validTag tag = true → s.find tag = some i →
        (code ∈ [0x02, 0x05, 0x06] → (s.slot i).cov.state = .damaged → answered [echoed code .damaged])
          ∧ (code = 0x05 → (s.slot i).passes = true → (s.slot i).cov.state = .barred → answered [echoed code .wrongState])
          ∧ (code = 0x06 → (s.slot i).passes = true → ((s.slot i).cov.state = .standby ∨ (s.slot i).cov.state = .active) →
            answered [echoed code .wrongState])) := by
  intro tag n answered
  obtain ⟨ainv, aline, aown⟩ := s.takeAdmit_refusals tag n (argProvision f.args)
  obtain ⟨tinv, tmiss, town⟩ := s.takeTagged_refusals tag
  have ans : ∀ (rc : RecordCommand) (r : ResultCode) (data : List Word16), exec c s = .next (s.timedRecord k f rc) →
      s.takeCommand rc = ⟨s, r, data⟩ → answered (echoed rc.code r :: data) :=
    fun rc r data hx ha => (State.timedRecord_leaves hacc hset hfree hx ha :)
  rcases taggedCommand_cases hc hcode with ⟨rfl, rfl, rfl⟩ | ⟨rfl, rfl, rfl⟩ | ⟨rfl, rfl, rfl⟩ | ⟨rfl, rfl, rfl⟩
    | ⟨rfl, rfl, rfl⟩ | ⟨rfl, rfl, rfl⟩
  · have go := fun r data => ans (.admission tag n (argProvision f.args)) r data rfl
    refine ⟨fun hv => go _ _ (ainv hv), fun _ _ hl => go _ _ (aline hl), fun m hv _ hl => ?_,
      fun _ _ => ⟨by simp, by simp⟩, fun _ _ _ => ⟨by simp, by simp, by simp⟩⟩
    obtain ⟨dup, full, set⟩ := aown m hv hl
    exact ⟨fun h => go _ _ (dup h), fun h g => go _ _ (full h g),
      fun h g w => go _ _ (set h g w)⟩
  · have go := fun r data => ans (.amend tag (argProvision f.args)) r data rfl
    refine ⟨fun hv => go _ _ ((tinv hv).1 _), by simp, by simp,
      fun hv hf => ⟨fun _ => go _ _ ((tmiss hv hf).1 _), by simp⟩,
      fun i hv hf => ⟨fun _ hd => go _ _ (((town i hv hf).1 hd).1 _), by simp, by simp⟩⟩
  · have go := fun r data => ans (.retire tag) r data rfl
    refine ⟨fun hv => go _ _ (tinv hv).2.1, by simp, by simp,
      fun hv hf => ⟨fun _ => go _ _ (tmiss hv hf).2.1, by simp⟩, fun _ _ _ => ⟨by simp, by simp, by simp⟩⟩
  · have go := fun r data => ans (.bar tag) r data rfl
    refine ⟨fun hv => go _ _ (tinv hv).2.2.1, by simp, by simp,
      fun hv hf => ⟨fun _ => go _ _ (tmiss hv hf).2.2.1, by simp⟩,
      fun i hv hf => ⟨fun _ hd => go _ _ ((town i hv hf).1 hd).2.1,
        fun _ hp hb => go _ _ ((town i hv hf).2.1 hp hb), by simp⟩⟩
  · have go := fun r data => ans (.unbar tag) r data rfl
    refine ⟨fun hv => go _ _ (tinv hv).2.2.2.1, by simp, by simp,
      fun hv hf => ⟨fun _ => go _ _ (tmiss hv hf).2.2.2.1, by simp⟩,
      fun i hv hf => ⟨fun _ hd => go _ _ ((town i hv hf).1 hd).2.2, by simp,
        fun _ hp hb => go _ _ ((town i hv hf).2.2 hp hb)⟩⟩
  · have go := fun r data => ans (.lookUp tag) r data rfl
    refine ⟨fun hv => go _ _ (tinv hv).2.2.2.2, by simp, by simp,
      fun hv hf => ⟨by simp, fun _ => go _ _ (tmiss hv hf).2.2.2.2⟩, fun _ _ _ => ⟨by simp, by simp, by simp⟩⟩

/-- Settles O11. -/
theorem recordCommandsAreRefusedOrWait : Obligations.RecordCommandsAreRefusedOrWait := by
  unfold Obligations.RecordCommandsAreRefusedOrWait
  refine ⟨fun c s code k f hc hcode hacc hset hfree => taggedCommand_refusals hc hcode hacc hset hfree,
    fun s f w hargs hacc hset hfree => ⟨fun hw => ?_, fun i hw hi => ?_⟩,
    fun s f w1 w2 w3 w4 w5 w6 w7 w8 w9 w10 w11 hargs hacc hset hbusy => ?_, fun s f w1 w2 hargs hacc hset hbusy => ?_,
    fun s f w hargs hacc hset hbusy => ?_⟩
  · have hnone : slotNoOf (argNat f.args 1) = none := by
      rw [hargs]
      exact dif_neg (Nat.not_lt.2 hw)
    have ha : s.takeCommand (.retireSlot (argNat f.args 1)) = ⟨s, .badArgument, []⟩ := by
      simp [State.takeCommand, State.takeRetireSlot, hnone, State.refuse]
    exact (State.timedRecord_leaves (c := .retireSlot f) hacc hset hfree rfl ha :)
  · have hsome : slotNoOf (argNat f.args 1) = some i := by
      have : argNat f.args 1 = i.val := by rw [hargs]; exact hw
      simp [slotNoOf, this]
    have ha : s.takeCommand (.retireSlot (argNat f.args 1)) = ⟨s, .unknown, []⟩ := by
      simp [State.takeCommand, State.takeRetireSlot, hsome, hi, State.refuse]
    exact (State.timedRecord_leaves (c := .retireSlot f) hacc hset hfree rfl ha :)
  · exact ⟨State.timedRecord_waits hacc hset hbusy (by rw [exec, execAdmitService, hargs]; rfl),
      State.timedRecord_waits hacc hset hbusy (by rw [exec, execAmendService, hargs]; rfl)⟩
  · exact ⟨State.timedRecord_waits hacc hset hbusy (by rw [exec, execRetireService, hargs]; rfl),
      State.timedRecord_waits hacc hset hbusy (by rw [exec, execBarService, hargs]; rfl),
      State.timedRecord_waits hacc hset hbusy (by rw [exec, execUnbarService, hargs]; rfl),
      State.timedRecord_waits hacc hset hbusy (by rw [exec, execLookUpService, hargs]; rfl)⟩
  · exact State.timedRecord_waits hacc hset hbusy (by rw [exec, execRetireSlot, hargs]; rfl)

/-! ### Damage discoveries -/

/-- A failing check met by a command that reads it (R7). -/
theorem State.takeCommand_failing {s : State} {tag : Tag} {i : Slot} (hv : validTag tag = true) (hf : s.find tag = some i)
    (hd : (s.slot i).cov.state ≠ .damaged) (hp : (s.slot i).passes = false) :
    (∀ p, s.takeAmend tag p = ⟨s.discover i .amend, .damaged, []⟩)
      ∧ s.takeBar tag = ⟨s.discover i .bar, .damaged, []⟩
      ∧ s.takeUnbar tag = ⟨s.discover i .bar, .damaged, []⟩
      ∧ s.takeLookUp tag = ⟨s.discover i .lookup, .damaged, lookUpWords i ((s.discover i .lookup).slot i)⟩ := by
  simp [State.takeAmend, State.takeBar, State.takeUnbar, State.takeLookUp, hv, hf, hd, hp]

/-- Settles O12. -/
theorem failingCheckIsADamageDiscovery : Obligations.FailingCheckIsADamageDiscovery := by
  unfold Obligations.FailingCheckIsADamageDiscovery
  intro c s code f i hc hcode hacc hset hfree hv hf hd hp
  obtain ⟨hamend, hbar, hunbar, hlook⟩ := State.takeCommand_failing hv hf hd hp
  have found : ∀ (rc : RecordCommand) (op : FaultOp) (data : List Word16),
      exec c s = .next (s.timedRecord f.count.toNat f rc) →
      s.takeCommand rc = ⟨s.discover i op, .damaged, data⟩ →
      ∃ t, s.Leaves c t (.wait .taken) ∧ s.Discovers t i op
        ∧ t.engine.service = .management (echoed rc.code .damaged :: data) ∧ t.slot i = (s.discover i op).slot i
        ∧ t = { s with slots := t.slots, meter := t.meter, engine := t.engine, events := t.events } := by
    intro rc op data hx ha
    obtain ⟨hdis, -, hframe⟩ := s.discover_discovers i op
    refine ⟨_, State.timedRecord_leaves hacc hset hfree hx ha, hdis, rfl, rfl, ?_⟩
    rw [hframe]
  have hsub : ([0x02, 0x05, 0x06, 0x07] : List Byte) ⊆ [0x01, 0x02, 0x03, 0x05, 0x06, 0x07] := by decide
  have hmem := hsub hcode
  rcases taggedCommand_cases hc hmem with ⟨rfl, -, rfl⟩ | ⟨rfl, hk, rfl⟩ | ⟨rfl, -, rfl⟩ | ⟨rfl, hk, rfl⟩
    | ⟨rfl, hk, rfl⟩ | ⟨rfl, hk, rfl⟩
  · simp at hcode
  · obtain ⟨t, hl, hdis, hserv, -, hframe⟩ := found (.amend (argTag f.args 1) (argProvision f.args)) .amend []
      (by rw [hk]; rfl) (hamend _)
    exact ⟨t, [], hl, hdis, hserv, rfl, hframe⟩
  · simp at hcode
  · obtain ⟨t, hl, hdis, hserv, -, hframe⟩ := found (.bar (argTag f.args 1)) .bar [] (by rw [hk]; rfl) hbar
    exact ⟨t, [], hl, hdis, hserv, rfl, hframe⟩
  · obtain ⟨t, hl, hdis, hserv, -, hframe⟩ := found (.unbar (argTag f.args 1)) .bar [] (by rw [hk]; rfl) hunbar
    exact ⟨t, [], hl, hdis, hserv, rfl, hframe⟩
  · obtain ⟨t, hl, hdis, hserv, hslot, hframe⟩ := found (.lookUp (argTag f.args 1)) .lookup _ (by rw [hk]; rfl)
      hlook
    exact ⟨t, _, hl, hdis, hserv, by rw [hslot, if_pos rfl], hframe⟩

end Sys2Proof.Machine
end

