-- ==== Sys2Proof/Proofs/Resolves.lean ====
section
/-! The table engine's own events: the decision of a resolve, its completion, the arbiter's hand-over, and the completion
of a management request. -/

namespace Sys2Proof.Machine

/-! ### A decision (R60) -/

/-- The credit count of R52, as Table 22 is worded. -/
theorem creditsOf_eq (n : Nat) : creditsOf n = if n ≤ 64 then 1 else (n + 63) / 64 := by
  unfold creditsOf
  split <;> omega

theorem addCounter_eq (c n : Nat) : addCounter c n = counted c n := by
  unfold addCounter counted counterMax
  split <;> omega

/-- A decision does what Table 27 says. -/
theorem State.decide_decides (s : State) (q : Request) : s.Decides (s.decide q).1 q (s.decide q).2 := by
  have kept : s.RecordsKept s := ⟨rfl, rfl, rfl, rfl, rfl⟩
  unfold State.decide
  cases hv : validTag q.tag with
  | false => exact ⟨rfl, fun _ => ⟨rfl, kept⟩, fun i h => by simp [hv] at h⟩
  | true =>
    cases hf : s.find q.tag with
    | none => exact ⟨rfl, fun _ => ⟨rfl, kept⟩, fun i _ h => by rw [hf] at h; simp at h⟩
    | some i =>
      simp only [Bool.not_true, Bool.false_eq_true, if_false]
      have only : ∀ j, s.find q.tag = some j → j = i := fun j h => by rw [hf] at h; exact (Option.some.inj h).symm
      have hfree := (State.holds_of_find hf).1
      have found : ¬ (validTag q.tag = false ∨ s.find q.tag = none) := by simp [hv, hf]
      unfold State.decideFound
      dsimp only
      cases hst : (s.slot i).cov.state with
      | free => exact absurd hst hfree
      | damaged =>
        refine ⟨rfl, fun h => absurd h found, fun j _ hj => ?_⟩
        obtain rfl := only j hj
        simp [hst, kept]
      | barred =>
        cases hp : (s.slot i).passes with
        | false =>
          refine ⟨rfl, fun h => absurd h found, fun j _ hj => ?_⟩
          obtain rfl := only j hj
          simpa [hst, hp] using (s.discover_discovers j .resolve).1
        | true =>
          refine ⟨rfl, fun h => absurd h found, fun j _ hj => ?_⟩
          obtain rfl := only j hj
          simp [hst, hp, kept]
      | standby =>
        cases hp : (s.slot i).passes with
        | false =>
          refine ⟨rfl, fun h => absurd h found, fun j _ hj => ?_⟩
          obtain rfl := only j hj
          simpa [hst, hp] using (s.discover_discovers j .resolve).1
        | true =>
          refine ⟨rfl, fun h => absurd h found, fun j _ hj => ?_⟩
          obtain rfl := only j hj
          simp [hst, hp, kept]
      | active =>
        cases hp : (s.slot i).passes with
        | false =>
          refine ⟨rfl, fun h => absurd h found, fun j _ hj => ?_⟩
          obtain rfl := only j hj
          simpa [hst, hp] using (s.discover_discovers j .resolve).1
        | true =>
          refine ⟨rfl, fun h => absurd h found, fun j _ hj => ?_⟩
          obtain rfl := only j hj
          simp only [hst, hp, if_false, reduceCtorEq, Bool.not_true, Bool.false_eq_true, false_implies, true_implies,
            true_and, ne_eq, not_false_eq_true, implies_true, and_true, ← creditsOf_eq, ← addCounter_eq]
          have written : ∀ r, s.RecordWritten (s.setSlot j r) j r := fun r => ⟨rfl, rfl, rfl, rfl, rfl⟩
          unfold Record.meterResolve
          refine ⟨fun h1 => ?_, fun h1 h2 => ?_, fun h1 h2 => ?_⟩
          · rw [if_pos h1]; exact ⟨rfl, written _⟩
          · rw [if_neg (Nat.not_lt.2 h1), if_pos h2]; exact ⟨rfl, written _⟩
          · rw [if_neg (Nat.not_lt.2 h1), if_neg (Nat.not_lt.2 h2)]; exact ⟨rfl, written _⟩

/-- What a decision leaves is a matter of the record table, the metering unit, the capture and the events. -/
theorem State.Decides.of_eq {s t u : State} {q : Request} {v : VerdictMsg} (h : s.Decides t q v)
    (hs : u.slots = t.slots) (hm : u.meter = t.meter) (hc : u.engine.capture = t.engine.capture)
    (ho : u.engine.overflow = t.engine.overflow) (he : u.events = t.events) : s.Decides u q v := by
  simpa only [State.Decides, State.RecordsKept, State.Discovers, State.RecordWritten, hs, hm, hc, ho, he] using h

/-- A decision touches nothing but the record table, the metering unit, the capture and the events. -/
theorem State.decide_record (s : State) (q : Request) : (s.decide q).1 = { s with
      slots := (s.decide q).1.slots
      meter := (s.decide q).1.meter
      engine := (s.decide q).1.engine
      events := (s.decide q).1.events }
    ∧ (s.decide q).1.engine.service = s.engine.service := by
  unfold State.decide
  split
  · exact ⟨rfl, rfl⟩
  split
  · exact ⟨rfl, rfl⟩
  unfold State.decideFound
  dsimp only
  split
  · exact ⟨rfl, rfl⟩
  split
  · exact ⟨(s.discover_discovers _ _).2.2, (s.discover_discovers _ _).2.1⟩
  split
  · exact ⟨rfl, rfl⟩
  split <;> exact ⟨rfl, rfl⟩

/-! ### The chain of events after a lookup -/

/-- A free engine takes the resolve at the queue's head where no roster request waits (R12). -/
theorem State.internal_lookup {s : State} {q : Request} {rest : List Request} (hfree : s.engine.service = .free)
    (h : s.link.sending = none → s.link.refusals = [] ∧ s.link.held = none ∧ s.round.phase.offering = false)
    (hp : s.round.phase ≠ .snapshotWait) (hq : s.link.queue = q :: rest) : s.internal = some (s.lookup q rest) := by
  rw [State.internal_of_free hfree h, if_neg hp, if_pos (by simp [hq])]
  simp [State.lookupHead, hq]

/-- A free engine takes a waiting roster request first (R12). -/
theorem State.internal_snapshot {s : State} (hfree : s.engine.service = .free)
    (h : s.link.sending = none → s.link.refusals = [] ∧ s.link.held = none ∧ s.round.phase.offering = false)
    (hp : s.round.phase = .snapshotWait) : s.internal = some s.snapshot := by
  rw [State.internal_of_free hfree h, if_pos hp]

/-- A decided resolve completes where the held verdict is empty, and stays in service behind a held one (R62). -/
theorem State.internal_of_resolve {s : State} {v : VerdictMsg} (he : s.engine.service = .resolve v)
    (h : s.link.sending = none → s.link.refusals = [] ∧ s.link.held = none ∧ s.round.phase.offering = false) :
    s.internal = if s.link.held = none then some s.completeResolve else none := by
  obtain ⟨hv, hr⟩ := State.handover_none h
  simp only [State.internal, hv, hr, State.completionDue, he, State.rosterDue, State.lookupDue, State.managementDue,
    State.engineFree]
  cases hh : s.link.held <;> simp

theorem State.completeResolve_eq {s : State} {v : VerdictMsg} (he : s.engine.service = .resolve v) :
    s.completeResolve = { s with link := { s.link with held := some v }, engine := { s.engine with service := .free } } := by
  unfold State.completeResolve
  rw [he]
  rfl

/-- The lookup of a request: decided, out of the queue, in service. -/
theorem State.lookup_record (s : State) (q : Request) (rest : List Request) :
    let d := (s.withLink { s.link with queue := rest }).decide q
    s.lookup q rest = { s with
      slots := d.1.slots
      meter := d.1.meter
      engine := { d.1.engine with service := .resolve d.2 }
      events := d.1.events
      link := { s.link with queue := rest } } := by
  intro d
  obtain ⟨hd, -⟩ := (s.withLink { s.link with queue := rest }).decide_record q
  show d.1.withEngine _ = _
  rw [show d.1 = _ from hd]
  rfl

/-- A state with a decided resolve in service, before an idle engine could take anything else. -/
theorem State.settle_resolve {s : State} {v : VerdictMsg} (he : s.engine.service = .resolve v)
    (hp : s.round.phase ≠ .snapshotWait) (hq : s.link.queue = []) (hw : s.port.state.waiting = none) :
    (s.link.sending = none → s.link.refusals = [] → s.link.held = none → s.round.phase.offering = false →
        s.settle = { s with
          link := { s.link with sending := some (verdictBytes v) }, engine := { s.engine with service := .free } })
      ∧ (s.link.sending ≠ none → s.link.held = none →
        s.settle = { s with link := { s.link with held := some v }, engine := { s.engine with service := .free } })
      ∧ (s.link.sending ≠ none → s.link.held ≠ none → s.settle = s) := by
  refine ⟨fun hs hr hh ho => ?_, fun hs hh => ?_, fun hs hh => ?_⟩
  · have h1 : s.internal = some s.completeResolve := by
      rw [State.internal_of_resolve he (fun _ => ⟨hr, hh, ho⟩), if_pos hh]
    rw [settle_of_internal h1, State.completeResolve_eq he]
    have h2 : ({ s with link := { s.link with held := some v }, engine := { s.engine with service := .free } } : State).internal
        = some { s with
          link := { s.link with sending := some (verdictBytes v) }, engine := { s.engine with service := .free } } := by
      simp [State.internal, State.verdictDue, State.txIdle, hs, State.sendVerdict, hr, State.withLink, hh]
    rw [settle_of_internal h2]
    exact settle_of_settled ⟨fun h => by simp at h, rfl, fun _ => ⟨hp, hq, hw⟩⟩
  · have h1 : s.internal = some s.completeResolve := by
      rw [State.internal_of_resolve he (fun h => absurd h hs), if_pos hh]
    rw [settle_of_internal h1, State.completeResolve_eq he]
    exact settle_of_settled ⟨fun h => absurd h hs, rfl, fun _ => ⟨hp, hq, hw⟩⟩
  · refine settle_of_settled ⟨fun h => absurd h hs, ?_, fun h => by simp [he] at h⟩
    simpa [State.completionDue, he, Option.isSome_iff_ne_none] using hh

/-! ### VERDICT -/

/-- A VERDICT's bytes in the layout and the codes of Table 81 (R175). -/
theorem verdictBytes_layout (v : VerdictMsg) (h : v.line ≤ 255) : ∃ b2 b3 b4 : Byte,
    verdictBytes v = [0x81, v.query, b2, b3, b4, 0, 0, 0]
      ∧ ([.pass, .excess, .drop, .held, .barred, .unknown, .fault, .refused] : List Verdict)[b2.toNat]? = some v.verdict
      ∧ b3.toNat = v.line ∧ b4 = (if v.cls = .essential then 1 else 0) := by
  refine ⟨_, _, _, rfl, ?_, ?_, ?_⟩
  · cases v.verdict <;> rfl
  · simp only [byte, BitVec.toNat_ofNat]
    omega
  · cases v.cls <;> rfl

/-- Settles O16. -/
theorem resolveIsDecidedAtAFreeEngine : Obligations.ResolveIsDecidedAtAFreeEngine := by
  unfold Obligations.ResolveIsDecidedAtAFreeEngine
  refine ⟨fun s q tag len hhold hset hfree => ?_, verdictBytes_layout⟩
  obtain ⟨hsend, -, hreq⟩ := hset
  obtain ⟨hp, hq, hw⟩ := hreq hfree
  -- The part with the request queued, with nothing received, and with the request decided.
  let u : State := s.withLink { s.link with receiving := [], queue := [⟨q, tag, len.toNat⟩] }
  let idle : State := s.withLink { s.link with receiving := [] }
  let d := idle.decide ⟨q, tag, len.toNat⟩
  let v : State := { s with
    slots := d.1.slots, meter := d.1.meter, engine := { d.1.engine with service := .resolve d.2 }, events := d.1.events
    link := { s.link with receiving := [] } }
  have hu : s.receiverIdle.arriveResolve q tag len.toNat = u := by
    simp [State.arriveResolve, State.receiverIdle, hq, u, State.withLink]
  have hx : exec (.resolve q tag len) s = .next u.settle := by
    simp only [exec, execResolve, State.unlessHeld, hhold, Option.isSome_none, Bool.false_eq_true, if_false, hu]
  have hidle : u.withLink { u.link with queue := [] } = idle := by
    simp only [u, idle, State.withLink]
    rw [← hq]
  have hl : u.lookup ⟨q, tag, len.toNat⟩ [] = v := by
    rw [State.lookup_record, hidle]
    simp only [u, v, d, State.withLink, ← hq]
  have hi : u.internal = some (u.lookup ⟨q, tag, len.toNat⟩ []) := State.internal_lookup hfree hsend hp rfl
  have hvs : u.settle = v.settle := hl ▸ settle_of_internal hi
  obtain ⟨c1, c2, c3⟩ := State.settle_resolve (s := v) (v := d.2) rfl hp hq hw
  have hdec : s.Decides d.1 ⟨q, tag, len.toNat⟩ d.2 := idle.decide_decides ⟨q, tag, len.toNat⟩
  have decides : ∀ t : State, t.slots = v.slots → t.meter = v.meter → t.engine.capture = v.engine.capture →
      t.engine.overflow = v.engine.overflow → t.events = v.events → s.Decides t ⟨q, tag, len.toNat⟩ d.2 :=
    fun t => hdec.of_eq
  rw [hx, hvs]
  by_cases hs : s.link.sending = none
  · obtain ⟨hr, hh, ho⟩ := hsend hs
    rw [c1 hs hr hh ho]
    exact ⟨_, d.2, rfl, decides _ rfl rfl rfl rfl rfl, fun _ => ⟨rfl, rfl⟩, fun h => absurd hs h,
      fun h => absurd hh h, rfl⟩
  · by_cases hh : s.link.held = none
    · rw [c2 hs hh]
      exact ⟨_, d.2, rfl, decides _ rfl rfl rfl rfl rfl, fun h => absurd h hs, fun _ _ => ⟨rfl, rfl⟩,
        fun h => absurd hh h, rfl⟩
    · rw [c3 hs hh]
      exact ⟨_, d.2, rfl, decides _ rfl rfl rfl rfl rfl, fun h => absurd h hs, fun _ h => absurd h hh,
        fun _ => ⟨rfl, rfl⟩, rfl⟩

/-! ### The events where they are due -/

/-- A record command leaves the port as it is. -/
theorem State.takeCommand_port (s : State) (c : RecordCommand) : (s.takeCommand c).state.port = s.port := by
  have h := congrArg (fun a => a.state.port) (s.takeCommand_withPort s.port c)
  exact h

theorem exec_of_not_held {s : State} {f : State → State} (h : s.hold = none) : s.unlessHeld f = f s := by
  simp [State.unlessHeld, h]

/-- Settles O21. -/
theorem internalEventsActWhenDue : Obligations.InternalEventsActWhenDue := by
  unfold Obligations.InternalEventsActWhenDue
  refine ⟨fun s q hhold hfree hp hq hh hs hw => ?_, fun s v hhold he hh hs hp hq hw => ?_, fun s hhold hs he hes => ?_,
    fun s c hhold hfree hp hq hs hw => ?_⟩
  · let d := (s.withLink { s.link with queue := [] }).decide q
    have hdue : s.lookupDue = true := by simp [State.lookupDue, State.engineFree, hfree, hp, hq]
    have hx : exec .lookupEvent s = .next (s.lookup q []).settle := by
      simp only [exec, execLookupEvent, exec_of_not_held hhold, State.whenDue, hdue, if_true, State.lookupHead, hq]
    have hl := s.lookup_record q []
    dsimp only at hl
    obtain ⟨-, c2, -⟩ := State.settle_resolve (s := s.lookup q []) (v := d.2) rfl (by rw [hl]; exact hp) (by rw [hl])
      (by rw [hl]; exact hw)
    rw [hx, c2 (by rw [hl]; exact hs) (by rw [hl]; exact hh), hl]
    have hdec : s.Decides d.1 q d.2 := (s.withLink { s.link with queue := [] }).decide_decides q
    exact ⟨_, d.2, rfl, hdec.of_eq rfl rfl rfl rfl rfl, rfl, rfl, rfl⟩
  · have hdue : s.completionDue = true := by simp [State.completionDue, he, hh]
    have hx : exec .resolveCompletion s = .next s.completeResolve.settle := by
      simp only [exec, execResolveCompletion, exec_of_not_held hhold, State.whenDue, hdue, if_true]
    rw [hx, State.completeResolve_eq he]
    exact congrArg _ (settle_of_settled ⟨fun h => absurd h hs, rfl, fun _ => ⟨hp, hq, hw⟩⟩)
  · have hdone : ∀ o, (s.withLink o).completionDue = false := by
      intro o
      unfold State.completionDue
      cases h : (s.withLink o).engine.service with
      | resolve u => exact absurd h (he u)
      | free => rfl
      | management r => rfl
    have hx : s.verdictDue = true → exec .verdictEmission s = .next s.sendVerdict.settle := by
      intro hdue
      simp only [exec, execVerdictEmission, exec_of_not_held hhold, State.whenDue, hdue, if_true]
    refine ⟨fun q rest hr => ?_, fun v hr hh => ?_⟩
    · rw [hx (by simp [State.verdictDue, State.txIdle, hs, hr])]
      have hsend : s.sendVerdict = s.withLink { s.link with
          refusals := rest, sending := some (verdictBytes (refusedMsg q)) } := by simp [State.sendVerdict, hr]
      rw [hsend]
      exact congrArg _ (settle_of_settled ⟨fun h => by simp at h, hdone _, hes⟩)
    · rw [hx (by simp [State.verdictDue, State.txIdle, hs, hh])]
      have hsend : s.sendVerdict = s.withLink { s.link with held := none, sending := some (verdictBytes v) } := by
        simp [State.sendVerdict, hr, hh]
      rw [hsend]
      exact congrArg _ (settle_of_settled ⟨fun h => by simp at h, hdone _, hes⟩)
  · have hwait : s.port.state.waiting = some c := by rw [hw]; rfl
    have hdue : s.managementDue = true := by simp [State.managementDue, State.engineFree, hfree, hp, hq, hwait]
    have hx : exec .managementRequestTake s = .next (s.takeManagement c).settle := by
      simp only [exec, execManagementRequestTake, exec_of_not_held hhold, State.whenDue, hdue, if_true, State.takeWaiting,
        hwait]
    obtain ⟨-, hset⟩ := State.settle_take hfree (fun h => absurd h hs) hp hq hwait
    rw [hx, settle_of_settled hset, State.takeManagement, resultWord_eq_echoed]
    dsimp only
    rw [s.takeCommand_port c]
    rfl

/-! ### The completion of a management request -/

/-- Only a take changes the port. -/
theorem State.internal_port {s t : State} (h : s.internal = some t) (hw : s.port.state.waiting = none) :
    t.port = s.port := by
  have hround : ∀ (l : List Share) (e : Emission), (s.emitRound l e).port = s.port := by
    intro l
    induction l with
    | nil => intro e; unfold State.emitRound State.sendRoundEnd; dsimp only; split <;> rfl
    | cons x xs ih =>
      intro e
      unfold State.emitRound
      split
      · rfl
      · exact ih _
  have hdis : ∀ (l : List Slot) (u : State), (l.foldl (fun s i => s.discover i .roster) u).port = u.port := by
    intro l
    induction l with
    | nil => intro u; rfl
    | cons i l ih => intro u; rw [List.foldl_cons, ih, (u.discover_discovers i .roster).2.2]
  unfold State.internal at h
  split at h
  · obtain rfl := Option.some.inj h
    unfold State.sendVerdict
    split
    · rfl
    split <;> rfl
  split at h
  · obtain rfl := Option.some.inj h
    unfold State.sendRound
    split
    · exact hround _ _
    all_goals rfl
  split at h
  · obtain rfl := Option.some.inj h
    unfold State.completeResolve
    split <;> rfl
  split at h
  · obtain rfl := Option.some.inj h
    exact hdis _ s
  split at h
  · obtain rfl := Option.some.inj h
    unfold State.lookupHead
    split
    · rw [State.lookup_record]
    · rfl
  split at h
  · next hm => simp [State.managementDue, hw] at hm
  · simp at h

theorem State.settleFor_port (k : Nat) (s : State) (hw : s.port.state.waiting = none) : (s.settleFor k).port = s.port := by
  induction k generalizing s with
  | zero => rfl
  | succ k ih =>
    unfold State.settleFor
    split
    · rfl
    · next t h =>
      have hp := State.internal_port h hw
      rw [ih t (hp ▸ hw), hp]

/-- While the transmitter is busy and no roster request waits, the round engine is left alone. -/
theorem State.internal_round {s t : State} (h : s.internal = some t) (hs : s.link.sending ≠ none)
    (hp : s.round.phase ≠ .snapshotWait) : t.round = s.round ∧ t.link.sending = s.link.sending := by
  obtain ⟨hv, hr⟩ := State.handover_none (s := s) fun h => absurd h hs
  have hroster : s.rosterDue = false := by simp [State.rosterDue, hp]
  simp only [State.internal, hv, hr, hroster, Bool.false_eq_true, if_false] at h
  split at h
  · obtain rfl := Option.some.inj h
    unfold State.completeResolve
    split <;> exact ⟨rfl, rfl⟩
  split at h
  · obtain rfl := Option.some.inj h
    unfold State.lookupHead
    split
    · rw [State.lookup_record]
      exact ⟨rfl, rfl⟩
    · exact ⟨rfl, rfl⟩
  split at h
  · obtain rfl := Option.some.inj h
    unfold State.takeWaiting
    split
    · next c _ =>
      obtain ⟨hl, hr⟩ := s.takeCommand_frame c
      exact ⟨hr, congrArg Link.sending hl⟩
    · exact ⟨rfl, rfl⟩
  · simp at h

theorem State.settleFor_round (k : Nat) (s : State) (hs : s.link.sending ≠ none) (hp : s.round.phase ≠ .snapshotWait) :
    (s.settleFor k).round = s.round := by
  induction k generalizing s with
  | zero => rfl
  | succ k ih =>
    unfold State.settleFor
    split
    · rfl
    · next t h =>
      obtain ⟨hr, hl⟩ := State.internal_round h hs hp
      rw [ih t (hl ▸ hs) (hr ▸ hp), hr]

/-- Two queued requests at most are decided at once behind a busy transmitter: the first VERDICT is held, and the second
stays in service (R62). -/
theorem State.settle_queue {s : State} {q : Request} {rest : List Request} (hfree : s.engine.service = .free)
    (hp : s.round.phase ≠ .snapshotWait) (hq : s.link.queue = q :: rest) (hs : s.link.sending ≠ none)
    (hh : s.link.held = none) (hw : s.port.state.waiting = none) :
    ∃ v, s.settle.link.held = some v ∧ v.query = q.query ∧ s.settle.link.queue = rest.tail := by
  have look : ∀ (u : State) (r : Request) (l : List Request), u.engine.service = .free → u.round.phase ≠ .snapshotWait →
      u.link.sending ≠ none → u.link.queue = r :: l → u.settle = (u.lookup r l).settle := by
    intro u r l hf hph hse hqu
    exact settle_of_internal (State.internal_lookup hf (fun h => absurd h hse) hph hqu)
  rw [look s q rest hfree hp hs hq]
  have hl := s.lookup_record q rest
  let d := (s.withLink { s.link with queue := rest }).decide q
  have hquery : d.2.query = q.query := ((s.withLink { s.link with queue := rest }).decide_decides q).1
  have hi : (s.lookup q rest).internal = some (s.lookup q rest).completeResolve := by
    rw [State.internal_of_resolve (v := d.2) rfl (fun h => absurd h (by rw [hl]; exact hs)), if_pos (by rw [hl]; exact hh)]
  rw [settle_of_internal hi, State.completeResolve_eq (v := d.2) rfl, hl]
  cases rest with
  | nil =>
    have hset := settle_of_settled (s := { s with
      slots := d.1.slots, meter := d.1.meter, engine := { d.1.engine with service := .free }, events := d.1.events
      link := { s.link with queue := [], held := some d.2 } }) ⟨fun h => absurd h hs, rfl, fun _ => ⟨hp, rfl, hw⟩⟩
    exact ⟨d.2, congrArg (fun t => t.link.held) hset, hquery, congrArg (fun t => t.link.queue) hset⟩
  | cons r l =>
    let x : State := { s with
      slots := d.1.slots, meter := d.1.meter, engine := { d.1.engine with service := .free }, events := d.1.events
      link := { s.link with queue := r :: l, held := some d.2 } }
    have hx := x.lookup_record r l
    dsimp only at hx
    have hset : x.settle = x.lookup r l := by
      rw [look x r l rfl hp hs rfl]
      refine settle_of_settled ?_
      rw [hx]
      exact ⟨fun h => absurd h hs, rfl, fun h => by simp at h⟩
    rw [hx] at hset
    exact ⟨d.2, congrArg (fun t => t.link.held) hset, hquery, congrArg (fun t => t.link.queue) hset⟩

/-- Settles O22. -/
theorem managementCompletionDeliversAndFreesTheEngine : Obligations.ManagementCompletionDeliversAndFreesTheEngine := by
  unfold Obligations.ManagementCompletionDeliversAndFreesTheEngine
  intro s r hhold hset he
  obtain ⟨hsend, -, -⟩ := hset
  let u : State := { s with port := { s.port with state := .ready r }, engine := { s.engine with service := .free } }
  have hx : exec .managementRequestCompletion s = .next u.settle := by
    simp only [exec, execManagementRequestCompletion, exec_of_not_held hhold, he]
    rfl
  have hw : u.port.state.waiting = none := rfl
  rw [hx]
  refine ⟨⟨_, rfl, State.settleFor_port 10 u hw⟩, fun hp hq => ?_, fun hp hs => ?_, fun q rest hp hq hs hh => ?_⟩
  · exact congrArg _ (settle_of_settled (s := u) ⟨hsend, rfl, fun _ => ⟨hp, hq, hw⟩⟩)
  · have hi : u.internal = some u.snapshot := State.internal_snapshot rfl hsend hp
    obtain ⟨hl, -, -⟩ := foldl_discover_frame u.unsound .roster u
    have hr : u.snapshot.settle.round = u.snapshot.round :=
      State.settleFor_round 10 u.snapshot (by
        show (u.unsound.foldl (fun s i => s.discover i .roster) u).link.sending ≠ none
        rw [hl]; exact hs) (by simp [State.snapshot])
    rw [settle_of_internal hi]
    exact ⟨_, _, rfl, congrArg Round.phase hr, rfl, rfl⟩
  · obtain ⟨v, h1, h2, h3⟩ := State.settle_queue (s := u) rfl hp hq hs hh hw
    exact ⟨_, v, rfl, h1, h2, h3⟩

end Sys2Proof.Machine
end

