-- ==== Sys2Proof/Proofs/Rounds.lean ====
section
/-! Chapters 3 and 5: the cycle expiry, the roster snapshot and the emission of a round. -/

namespace Sys2Proof.Machine

/-! ### What is due at once around a round's messages (R12, R69) -/

/-- A roster request at a free engine is due whichever event brings it about: the snapshot's own event makes what
settling makes. -/
theorem exec_rosterSnapshot_settle {s : State} (hhold : s.hold = none) (hfree : s.engine.service = .free)
    (hp : s.round.phase = .snapshotWait)
    (h : s.link.sending = none → s.link.refusals = [] ∧ s.link.held = none ∧ s.round.phase.offering = false) :
    exec .rosterSnapshot s = .next s.settle := by
  have hdue : s.rosterDue = true := by simp [State.rosterDue, State.engineFree, hfree, hp]
  rw [settle_of_internal (State.internal_snapshot hfree h hp)]
  simp only [exec, execRosterSnapshot, exec_of_not_held hhold, State.whenDue, hdue, if_true]

/-- A state that occupies its transmitter is settled once nothing of its table engine's is due. -/
theorem State.settled_of_sending {s : State} (hs : s.link.sending ≠ none) (hc : s.completionDue = false)
    (he : s.EngineSettled) : s.Settled := ⟨fun h => absurd h hs, hc, he⟩

/-- What the round engine sends does not depend on the phase that it leaves. -/
theorem State.emitRound_withPhase (s : State) (ph : RoundPhase) (l : List Share) (e : Emission) :
    (s.withRound { s.round with phase := ph }).emitRound l e = s.emitRound l e := by
  induction l generalizing e with
  | nil => rfl
  | cons x xs ih =>
    simp only [State.emitRound, ih]
    rfl

section Offering
variable {s : State} {e : Emission} (hs : s.link.sending = none) (hr : s.link.refusals = []) (hh : s.link.held = none)
  (hp : s.round.phase = .emitting e)
include hs hr hh hp

theorem State.roundDue_of_offering : s.roundDue = true := by
  simp [State.roundDue, State.txIdle, hs, hr, hh, hp, RoundPhase.offering]

/-- An idle transmitter without a verdict to send is handed the round message on offer (R69). -/
theorem State.settle_of_offering : s.settle = (s.emitRound e.offers e).settle := by
  have hv : s.verdictDue = false := by simp [State.verdictDue, hr, hh]
  refine settle_of_internal ?_
  simp [State.internal, hv, State.roundDue_of_offering hs hr hh hp, State.sendRound, hp]

omit hp in
/-- A GRANT withheld at its event leaves the next message due at the same event (R70). -/
theorem State.settle_emitGrant (x : Share) (rest : List Share) :
    (s.emitGrant x rest e).settle = (s.emitRound (x :: rest) e).settle := by
  unfold State.emitGrant State.emitRound
  split
  · rfl
  · refine (State.settle_of_offering
      (s := s.withRound { s.round with phase := .emitting (withholdGrant x rest e) }) hs hr hh rfl).trans ?_
    rw [State.emitRound_withPhase]
    rfl

/-- The emission's own event makes what settling makes. -/
theorem exec_emission_settle (hhold : s.hold = none) :
    exec (if e.offers = [] then .roundEndEmission else .grantEmission) s = .next s.settle := by
  have hdue := State.roundDue_of_offering hs hr hh hp
  rw [State.settle_of_offering hs hr hh hp]
  cases ho : e.offers with
  | nil =>
    simp only [if_true, exec, execRoundEndEmission, exec_of_not_held hhold, State.whenDue, hdue, hp, ho]
    rfl
  | cons x rest =>
    simp only [List.cons_ne_nil, if_false, exec, execGrantEmission, exec_of_not_held hhold, State.whenDue, hdue, if_true,
      hp, ho, State.settle_emitGrant hs hr hh]

end Offering

/-! ### The cycle expiry (R44, R67, R76) -/

/-- The round engine's part of a cycle expiry, as Table 32 is worded. -/
theorem State.roundExpiry_eq (s : State) : s.roundExpiry = { s with
    round := { s.round with
      phase := if s.round.phase = .idle then .snapshotWait else s.round.phase
      number := if s.round.phase = .idle then s.round.number + 1 else s.round.number
      deferred := if s.round.phase = .idle then s.round.deferred else true
      slips := if s.round.phase ≠ .idle ∧ s.round.deferred = true then min 65535 (s.round.slips + 1) else s.round.slips }
    events := { s.events with pending := s.events.pending
      ||| (if s.round.phase ≠ .idle ∧ s.round.deferred = true then 0x080 else 0) } } := by
  have hb : Event.roundSlip.bit = 0x080 := by decide
  cases hp : s.round.phase <;> cases hd : s.round.deferred <;>
    simp [State.roundExpiry, State.startRound, State.raise, State.withRound, State.withEvents, countUp16, hp, hd, hb]

/-- The link's part of a cycle expiry, as R67 is worded. -/
theorem State.staleExpiry_eq (s : State) : s.staleExpiry = { s with
    link := { s.link with
      staleCount := if s.link.staleCount < 64 then s.link.staleCount + 1 else s.link.staleCount
      stale := s.link.stale || s.link.staleCount == 63 }
    events := { s.events with pending := s.events.pending ||| (if s.link.staleCount = 63 then 0x020 else 0) } } := by
  have hb : Event.capacityStale.bit = 0x020 := by decide
  unfold State.staleExpiry
  rcases Nat.lt_trichotomy s.link.staleCount 63 with hlt | heq | hgt
  · simp [State.withLink, hlt.ne, show ¬ 64 ≤ s.link.staleCount by omega, show s.link.staleCount < 64 by omega]
  · simp [State.withLink, State.raise, State.withEvents, heq, hb]
  · simp [hgt.ne', beq_eq_false_iff_ne.2 hgt.ne', show 64 ≤ s.link.staleCount by omega, show ¬ s.link.staleCount < 64 by omega]

/-- A record that is refilled takes each refill up to its depth (R46, R47). -/
theorem Record.refill_of_running {r : Record} (f : Nat) (h : r.cov.state ≠ .free) (hd : r.cov.state ≠ .damaged) :
    r.refill f = { r with
      kcu := min (r.cov.dcu * 16) (r.kcu + r.cov.upCir)
      kpu := min (r.cov.dpu * 16) (r.kpu + r.cov.upPir)
      kcd := min (r.cov.dcd * 16) (r.kcd + r.cov.downCir * f / 4096)
      kpd := min (r.cov.dpd * 16) (r.kpd + r.cov.downPir * f / 4096) } := by
  unfold Record.refill
  cases hs : r.cov.state with
  | free => exact absurd hs h
  | damaged => exact absurd hs hd
  | standby | active | barred => rfl

/-- The buckets of FREE and DAMAGED records stay (R44). -/
theorem Record.refill_of_resting {r : Record} (f : Nat) (h : r.cov.state = .free ∨ r.cov.state = .damaged) :
    r.refill f = r := by
  unfold Record.refill
  rcases h with h | h <;> rw [h]

/-- The state after a cycle expiry, before what is due at once. -/
def State.expired (s : State) : State :=
  let t := s.meterExpiry.staleExpiry.roundExpiry
  t.withRound { t.round with period := t.settings.cyclePeriod }

theorem State.expired_eq (s : State) : s.expired = { s with
    slots := s.slots.map fun r => r.refill (scaleFactor s.meter.sumDown s.link.capDown)
    meter := { s.meter with f := scaleFactor s.meter.sumDown s.link.capDown }
    link := { s.link with
      staleCount := if s.link.staleCount < 64 then s.link.staleCount + 1 else s.link.staleCount
      stale := s.link.stale || s.link.staleCount == 63 }
    round := { s.round with
      phase := if s.round.phase = .idle then .snapshotWait else s.round.phase
      number := if s.round.phase = .idle then s.round.number + 1 else s.round.number
      deferred := if s.round.phase = .idle then s.round.deferred else true
      slips := if s.round.phase ≠ .idle ∧ s.round.deferred = true then min 65535 (s.round.slips + 1) else s.round.slips
      period := s.settings.cyclePeriod }
    events := { s.events with pending := s.events.pending ||| (if s.link.staleCount = 63 then 0x020 else 0)
      ||| (if s.round.phase ≠ .idle ∧ s.round.deferred = true then 0x080 else 0) } } := by
  rw [State.expired, State.roundExpiry_eq, State.staleExpiry_eq]
  rfl

/-- A round that starts occupies no transmitter: what a settled state has nothing of to hand over, the state after its
cycle expiry has nothing of either. -/
theorem State.Settled.expired_handover {s : State} (h : s.Settled) : s.expired.link.sending = none →
    s.expired.link.refusals = [] ∧ s.expired.link.held = none ∧ s.expired.round.phase.offering = false := by
  rw [State.expired_eq]
  intro hn
  obtain ⟨hr, hh, hp⟩ := h.1 hn
  refine ⟨hr, hh, ?_⟩
  dsimp only
  split
  · rfl
  · exact hp

/-- Settles O23. -/
theorem cycleExpiryRefillsAndCounts : Obligations.CycleExpiryRefillsAndCounts := by
  unfold Obligations.CycleExpiryRefillsAndCounts
  intro s hhold hset f slip
  have hx : exec .cycleExpiry s = .next s.expired.settle := congrArg Host.Outcome.next (exec_of_not_held hhold)
  have hf : scaleFactor s.meter.sumDown s.link.capDown = f := rfl
  have hslot : ∀ i, s.expired.slot i = (s.slot i).refill f := by
    intro i
    rw [State.expired_eq, hf]
    exact Vector.getElem_map ..
  have heq := s.expired_eq
  refine ⟨s.expired, _, hx, fun hbusy => ?_, fun hp he => ?_, congrArg State.meter heq, fun i h1 h2 => ?_, fun i h => ?_,
    congrArg State.link heq, congrArg State.round heq, congrArg State.events heq, by rw [heq]⟩
  · refine settle_of_settled ⟨hset.expired_handover, ?_, fun hfree => ?_⟩
    · rw [heq]; exact hset.2.1
    · rw [heq] at hfree ⊢
      obtain ⟨hp, hq, hw⟩ := hset.2.2 hfree
      have hni : s.round.phase ≠ .idle := hbusy.resolve_right fun h => h hfree
      exact ⟨by simpa [hni] using hp, hq, hw⟩
  · have hfree : s.expired.engine.service = .free := by rw [heq]; exact he
    have hph : s.expired.round.phase = .snapshotWait := by rw [heq]; exact if_pos hp
    have hnh : s.expired.hold = none := by rw [heq]; exact hhold
    exact exec_rosterSnapshot_settle hnh hfree hph hset.expired_handover
  · rw [hslot, Record.refill_of_running f h1 h2]
  · rw [hslot, Record.refill_of_resting f h]

/-! ### The emission (R92 to R94) -/

/-- A GRANT's bytes in the layout of Table 81 (R175). -/
theorem grantBytes_layout (n : Byte) (tag : Tag) {credits : Nat} (h : credits ≤ 65535) : ∃ b2 b3 b4 b5 b6 : Byte,
    grantBytes n tag credits = [0x82, n, b2, b3, b4, b5, b6, 0]
      ∧ b2 ++ b3 ++ b4 = 0#4 ++ tag ∧ (b5 ++ b6).toNat = credits := by
  refine ⟨_, _, _, _, _, rfl, BitVec.eq_of_toNat_eq ?_, ?_⟩
  · have := tag.isLt
    simp only [toNat_append_eq, byte, BitVec.toNat_ofNat]
    omega
  · simp only [toNat_append_eq, byte, BitVec.toNat_ofNat]
    omega

/-- A ROUND END's bytes in the layout of Table 81 (R175). -/
theorem roundEndBytes_layout (n : Byte) {count sent withheld : Nat} (hc : count ≤ 255) (hs : sent ≤ 65535)
    (hw : withheld ≤ 65535) : ∃ b2 b3 b4 b5 b6 : Byte,
    roundEndBytes n count sent withheld = [0x83, n, b2, b3, b4, b5, b6, 0]
      ∧ b2.toNat = count ∧ (b3 ++ b4).toNat = sent ∧ (b5 ++ b6).toNat = withheld := by
  refine ⟨_, _, _, _, _, rfl, ?_, ?_, ?_⟩ <;>
  · simp only [toNat_append_eq, byte, BitVec.toNat_ofNat]
    omega

theorem State.grantPasses_iff (s : State) (x : Share) : s.grantPasses x = true ↔
    (s.slot x.entry.slot).cov.tag = x.entry.tag ∧ (s.slot x.entry.slot).cov.state = .active := by
  simp [State.grantPasses]

/-- A GRANT sent, field by field (R92). -/
theorem State.sendGrant_eq (s : State) (x : Share) (rest : List Share) (e : Emission) : s.sendGrant x rest e = { s with
    slots := s.slots.set x.entry.slot { s.slot x.entry.slot with
      kcu := (s.slot x.entry.slot).kcu - 16 * min x.grant x.entry.claim
      kpu := (s.slot x.entry.slot).kpu - 16 * x.grant
      demand := (s.slot x.entry.slot).demand - x.grant
      upGranted := counted (s.slot x.entry.slot).upGranted x.grant }
    link := { s.link with sending := some (grantBytes s.round.number x.entry.tag x.grant) }
    round := { s.round with phase := .emitting { e with
      offers := rest, sentCount := e.sentCount + 1, sentTotal := e.sentTotal + x.grant } } } := by
  simp only [State.sendGrant, Record.payGrant, addCounter_eq]
  rfl

/-- ROUND END with no round owed: the round engine is IDLE (R94). -/
theorem State.sendRoundEnd_of_clear {s : State} (h : s.round.deferred = false) (e : Emission) : s.sendRoundEnd e = { s with
    link := { s.link with sending := some (roundEndBytes s.round.number e.sentCount e.sentTotal e.withheld) }
    round := { s.round with phase := .idle } } := by
  simp [State.sendRoundEnd, h, State.withLink, State.withRound]

/-- ROUND END with a round owed: the next round starts (R78). -/
theorem State.sendRoundEnd_of_deferred {s : State} (h : s.round.deferred = true) (e : Emission) :
    s.sendRoundEnd e = { s with
      link := { s.link with sending := some (roundEndBytes s.round.number e.sentCount e.sentTotal e.withheld) }
      round := { s.round with phase := .snapshotWait, deferred := false, number := s.round.number + 1 } } := by
  simp [State.sendRoundEnd, h, State.withLink, State.withRound, State.startRound]

/-- Settles O29. -/
theorem emissionSendsOrWithholdsEachGrant : Obligations.EmissionSendsOrWithholdsEachGrant := by
  unfold Obligations.EmissionSendsOrWithholdsEachGrant
  refine ⟨fun s e hhold hs hr hh hes hcd hp => ?_, fun n tag credits h => grantBytes_layout n tag h,
    fun n count sent withheld h1 h2 h3 => roundEndBytes_layout n h1 h2 h3⟩
  intro passes sent
  have hpass : ∀ x, s.grantPasses x = true ↔ passes x := s.grantPasses_iff
  have hsent : ∀ x rest (e' : Emission), s.sendGrant x rest e' = sent x { e' with offers := rest } :=
    fun x rest e' => s.sendGrant_eq x rest e'
  have hsettled : ∀ x e', (sent x e').settle = sent x e' := fun x e' => settle_of_settled
    (State.settled_of_sending (by simp [sent]) hcd fun he => ⟨by simp [sent], (hes he).2⟩)
  have hidle : ∀ b, State.settle { s with link := { s.link with sending := some b }, round := { s.round with phase := .idle } }
      = { s with link := { s.link with sending := some b }, round := { s.round with phase := .idle } } :=
    fun b => settle_of_settled (State.settled_of_sending (by simp) hcd fun he => ⟨by simp, (hes he).2⟩)
  have hgrant : ∀ x rest, e.offers = x :: rest →
      exec .grantEmission s = .next (s.emitRound (x :: rest) e).settle := by
    intro x rest ho
    have h := exec_emission_settle hs hr hh hp hhold
    rwa [State.settle_of_offering hs hr hh hp, ho, if_neg (List.cons_ne_nil x rest)] at h
  have hend : e.offers = [] → exec .roundEndEmission s = .next (s.sendRoundEnd e).settle := by
    intro ho
    have h := exec_emission_settle hs hr hh hp hhold
    rwa [State.settle_of_offering hs hr hh hp, ho, if_pos rfl] at h
  refine ⟨fun x rest ho hx => ?_, fun x y rest ho hx hy => ?_, fun x ho hx hd => ?_, fun ho hd => ?_,
    fun ho hd hbusy => ?_, fun x rest ho hx => ?_, fun ho hd hfree => ?_⟩
  · rw [hgrant x rest ho, State.emitRound, if_pos ((hpass x).2 hx), hsent, hsettled]
  · rw [hgrant x _ ho, State.emitRound, if_neg (mt (hpass x).1 hx), State.emitRound, if_pos ((hpass y).2 hy), hsent, hsettled]
    rfl
  · rw [hgrant x _ ho, State.emitRound, if_neg (mt (hpass x).1 hx), State.emitRound, State.sendRoundEnd_of_clear hd, hidle]
    rfl
  · rw [hend ho, State.sendRoundEnd_of_clear hd, hidle]
  · rw [hend ho, State.sendRoundEnd_of_deferred hd]
    exact congrArg _ (settle_of_settled (State.settled_of_sending (by simp) hcd fun he => absurd he hbusy))
  · have h := exec_emission_settle (s := s.withRound { s.round with phase := .emitting (withholdGrant x rest e) })
      hs hr hh rfl hhold
    rw [State.settle_of_offering (s := s.withRound { s.round with phase := .emitting (withholdGrant x rest e) })
      hs hr hh rfl, State.emitRound_withPhase] at h
    rw [hgrant x _ ho, State.emitRound, if_neg (mt (hpass x).1 hx)]
    exact h.symm
  · rw [hend ho, State.sendRoundEnd_of_deferred hd]
    refine Eq.symm (exec_rosterSnapshot_settle hhold hfree rfl fun h => ?_)
    cases h

end Sys2Proof.Machine
end

