-- ==== Sys2Proof/Proofs/RosterSnapshot.lean ====
section
/-! The roster snapshot: the discoveries of a whole list of failing records, and the start pointer. -/

namespace Sys2Proof.Machine

/-! ### The damage discoveries of a snapshot (R7, R8, R80) -/

/-- `t` is `s` after the damage discoveries of the roster snapshot on the slots of a list, in order. -/
structure State.RosterDamage (s : State) (l : List Slot) (t : State) : Prop where
  slot : ∀ i, t.slot i = if i ∈ l then (s.slot i).withState .damaged else s.slot i
  counted : ∀ i : Slot, t.meter.countedUp[i] = (if i ∈ l then 0 else s.meter.countedUp[i])
    ∧ t.meter.countedDown[i] = (if i ∈ l then 0 else s.meter.countedDown[i])
  sumUp : t.meter.sumUp = s.meter.sumUp - (l.map fun i => s.meter.countedUp[i]).sum
  sumDown : t.meter.sumDown = s.meter.sumDown - (l.map fun i => s.meter.countedDown[i]).sum
  scale : t.meter.f = s.meter.f
  service : t.engine.service = s.engine.service
  capture : t.engine.capture = s.engine.capture.or (l.head?.map fun i => ⟨i, (s.slot i).cov.tag, .roster⟩)
  overflow : t.engine.overflow =
    (s.engine.overflow || Decidable.decide (1 < l.length + (if s.engine.capture.isSome then 1 else 0) ∧ l ≠ []))
  events : t.events = { s.events with pending := if l = [] then s.events.pending else s.events.pending ||| 0x010 }
  frame : t = { s with slots := t.slots, meter := t.meter, engine := t.engine, events := t.events }

/-- No discovery, no change. -/
theorem State.RosterDamage.nil (s : State) : s.RosterDamage [] s :=
  ⟨fun _ => rfl, fun _ => ⟨rfl, rfl⟩, rfl, rfl, rfl, rfl, Option.or_none.symm, by simp, rfl, rfl⟩

/-- A discovery on an ACTIVE record followed by those on other slots. -/
theorem State.RosterDamage.cons {s t : State} {i : Slot} {l : List Slot} (ha : (s.slot i).cov.state = .active)
    (hi : i ∉ l) (h : (s.discover i .roster).RosterDamage l t) : s.RosterDamage (i :: l) t := by
  obtain ⟨⟨hslots, hmeter, hcapture, hoverflow, hevents⟩, hservice, hframe⟩ := s.discover_discovers i .roster
  rw [if_pos ha] at hmeter
  have hslot : ∀ j, (s.discover i .roster).slot j = if i = j then (s.slot i).withState .damaged else s.slot j := by
    intro j
    simp only [State.slot, hslots, Fin.getElem_fin, Vector.getElem_set, Fin.ext_iff]
    rfl
  have hcounted : ∀ j : Slot, (s.discover i .roster).meter.countedUp[j] = (if i = j then 0 else s.meter.countedUp[j])
      ∧ (s.discover i .roster).meter.countedDown[j] = (if i = j then 0 else s.meter.countedDown[j]) := by
    intro j; rw [hmeter]; exact Meter.afterExit_counted _ i j
  have hother : ∀ j ∈ l, i ≠ j := fun j hj he => hi (he ▸ hj)
  refine ⟨fun j => ?_, fun j => ?_, ?_, ?_, ?_, h.service.trans hservice, ?_, ?_, ?_, ?_⟩
  · rw [h.slot, hslot]
    by_cases hj : i = j
    · subst hj; simp [hi]
    · simp [hj, Ne.symm hj]
  · rw [(h.counted j).1, (h.counted j).2, (hcounted j).1, (hcounted j).2]
    by_cases hj : i = j
    · subst hj; simp [hi]
    · simp [hj, Ne.symm hj]
  · have hrest : (l.map fun j => (s.discover i .roster).meter.countedUp[j]) = l.map fun j => s.meter.countedUp[j] :=
      List.map_congr_left fun j hj => (hcounted j).1.trans (if_neg (hother j hj))
    rw [h.sumUp, hrest, hmeter, List.map_cons, List.sum_cons, ← Nat.sub_sub]
    rfl
  · have hrest : (l.map fun j => (s.discover i .roster).meter.countedDown[j]) = l.map fun j => s.meter.countedDown[j] :=
      List.map_congr_left fun j hj => (hcounted j).2.trans (if_neg (hother j hj))
    rw [h.sumDown, hrest, hmeter, List.map_cons, List.sum_cons, ← Nat.sub_sub]
    rfl
  · rw [h.scale, hmeter]; rfl
  · rw [h.capture, hcapture]
    cases s.engine.capture <;> rfl
  · rw [h.overflow, hcapture, hoverflow]
    cases s.engine.capture <;> cases l <;> simp
  · rw [h.events, hevents]
    cases l <;> simp [BitVec.or_assoc]
  · have := h.frame
    rw [hframe] at this
    exact this

/-- The discoveries of a snapshot on distinct ACTIVE records (R80). -/
theorem State.foldl_discover_rosterDamage (l : List Slot) (s : State) (hl : l.Nodup)
    (ha : ∀ i ∈ l, (s.slot i).cov.state = .active) :
    s.RosterDamage l (l.foldl (fun s i => s.discover i .roster) s) := by
  induction l generalizing s with
  | nil => exact .nil s
  | cons i l ih =>
    obtain ⟨hi, hl⟩ := List.nodup_cons.1 hl
    refine .cons (ha i (List.mem_cons_self ..)) hi (ih _ hl fun j hj => ?_)
    obtain ⟨⟨hslots, -⟩, -⟩ := s.discover_discovers i .roster
    have hij : (i : Nat) ≠ j := fun he => hi (Fin.ext he ▸ hj)
    have hkept : (s.discover i .roster).slot j = s.slot j := by
      simp only [State.slot, hslots, Fin.getElem_fin, Vector.getElem_set_ne _ _ hij]
    rw [hkept]
    exact ha j (List.mem_cons_of_mem _ hj)

/-! ### The start pointer (R82, R84) -/

/-- The slots of a roster in ascending order. -/
theorem State.sound_ascending (s : State) : s.sound.Pairwise (· < ·) :=
  (List.pairwise_lt_finRange 128).filter _

/-- The pointer moves to one past the slot that is first in rotating order from it (R82). -/
theorem nextPointer_rotating {l : List Slot} (hl : l.Pairwise (· < ·)) (p : Slot) {f : Slot → RosterEntry}
    (hf : ∀ i, (f i).slot = i) (hne : l ≠ []) :
    ∃ i ∈ l, nextPointer p (l.map f) = i + 1 ∧ ∀ j ∈ l, (i - p).val ≤ (j - p).val := by
  have hfind : (l.map f).find? (fun e => decide (p ≤ e.slot)) = (l.find? fun i => decide (p ≤ i)).map f := by
    rw [List.find?_map]
    congr 2
    funext i
    simp [hf]
  unfold nextPointer
  rw [hfind]
  cases hq : l.find? fun i => decide (p ≤ i) with
  | some i =>
    obtain ⟨hi, hpi, hlow⟩ := (find?_eq_some_iff_lowest hl _ i).1 hq
    refine ⟨i, hi, by simp [hf], fun j hj => ?_⟩
    have hpi : p ≤ i := of_decide_eq_true hpi
    have hpj : p ≤ j → i ≤ j := fun h => not_lt.1 fun hlt => absurd h (of_decide_eq_false (hlow j hj hlt))
    simp only [Fin.sub_def, Fin.le_def] at hpi hpj ⊢
    omega
  | none =>
    obtain ⟨i, rest, rfl⟩ := List.exists_cons_of_ne_nil hne
    refine ⟨i, List.mem_cons_self .., by simp [hf], fun j hj => ?_⟩
    have hbelow : ∀ k ∈ i :: rest, ¬ p ≤ k := by simpa using List.find?_eq_none.1 hq
    have hi := hbelow i (List.mem_cons_self ..)
    have hpj := hbelow j hj
    have hij : i ≤ j := by
      rcases List.mem_cons.1 hj with rfl | hj
      · exact le_refl _
      · exact le_of_lt ((List.pairwise_cons.1 hl).1 j hj)
    simp only [Fin.sub_def, Fin.le_def] at hi hpj hij ⊢
    omega

/-! ### The snapshot -/

/-- The state of an ACTIVE record that fails its check, and that each such slot is listed once. -/
theorem State.unsound_spec (s : State) : s.unsound.Nodup ∧ ∀ i ∈ s.unsound, (s.slot i).cov.state = .active := by
  refine ⟨(List.nodup_finRange 128).filter _, fun i hi => ?_⟩
  have h := (List.mem_filter.1 hi).2
  simp only [State.isActive, Bool.and_eq_true, beq_iff_eq] at h
  exact h.1

/-- Settles O28. -/
theorem rosterSnapshotTakesTheActiveRecords : Obligations.RosterSnapshotTakesTheActiveRecords := by
  unfold Obligations.RosterSnapshotTakesTheActiveRecords
  intro s hhold hfree hp hq hw good bad roster shares offers
  obtain ⟨hnodup, hactive⟩ := s.unsound_spec
  have hd : s.RosterDamage bad (s.unsound.foldl (fun s i => s.discover i .roster) s) :=
    State.foldl_discover_rosterDamage _ s hnodup hactive
  generalize hv : s.unsound.foldl (fun s i => s.discover i .roster) s = v at hd
  have hframe := hd.frame
  have hsnap : s.snapshot = v.withRound { s.round with
      pointer := nextPointer s.round.pointer roster
      phase := .emitting ⟨s.link.capUp, s.round.pointer, shares, offers, 0, 0, 0⟩ } := by
    rw [State.snapshot, hv]
    rfl
  have hlink : s.snapshot.link = s.link := by rw [hsnap]; exact (congrArg State.link hframe :)
  have hround := congrArg State.round hsnap
  have hservice : s.snapshot.engine.service = .free := by rw [hsnap]; exact hd.service.trans hfree
  have hport : s.snapshot.port = s.port := by rw [hsnap]; exact (congrArg State.port hframe :)
  have hnh : s.snapshot.hold = none := by rw [hsnap]; exact (congrArg State.hold hframe).trans hhold
  have hdue : s.rosterDue = true := by simp [State.rosterDue, State.engineFree, hfree, hp]
  have hx : exec .rosterSnapshot s = .next s.snapshot.settle := by
    simp only [exec, execRosterSnapshot, exec_of_not_held hhold, State.whenDue, hdue, if_true]
  refine ⟨s.snapshot, _, hx, fun hs => ?_, fun hs hr hh => ?_, hround.trans (by rw [hround]; rfl), fun hg => ?_, fun hg => ?_,
    hsnap ▸ hd.slot, hsnap ▸ hd.counted, hsnap ▸ hd.sumUp, hsnap ▸ hd.sumDown, hsnap ▸ hd.scale, ?_, hsnap ▸ hd.events, ?_⟩
  · refine settle_of_settled (State.settled_of_sending (by rw [hlink]; exact hs) ?_ fun _ => ⟨?_, ?_, ?_⟩)
    · simp [State.completionDue, hservice]
    · rw [hround]; simp
    · rw [hlink]; exact hq
    · rw [hport]; exact hw
  · have h := exec_emission_settle (s := s.snapshot) (by rw [hlink]; exact hs) (by rw [hlink]; exact hr)
      (by rw [hlink]; exact hh) (congrArg Round.phase hround) hnh
    exact h
  · rw [hround]
    have : roster = [] := by simp [roster, hg]
    simp [this, nextPointer]
  · rw [hround]
    exact nextPointer_rotating s.sound_ascending s.round.pointer (fun _ => rfl) hg
  · rw [hsnap, ← hd.capture, ← hd.overflow, ← hfree, ← hd.service]
    rfl
  · rw [hsnap, hframe]
    rfl

end Sys2Proof.Machine
end

