-- ==== Sys2Proof/Proofs/Disturbances.lean ====
section
/-! Record disturbances and line-driven moves against the check code (R4, R5). -/

namespace Sys2Proof.Machine

/-- Contents that agree on the state agree whole exactly when they do with another state written into both. -/
theorem Covered.withState_inj {a b : Covered} (st : RecordState) (h : a.state = b.state) :
    ({ a with state := st } : Covered) = { b with state := st } ↔ a = b := by
  cases a; cases b
  simp only at h
  simp [h]

/-- A sound record passes with other contents exactly when they are the contents it had. -/
theorem Record.passes_withCov {r : Record} (h : r.passes = true) (c : Covered) :
    ({ r with cov := c } : Record).passes = true ↔ c = r.cov := by
  rw [Record.passes_iff, (Record.passes_iff r).1 h]
  simp [eq_comm]

/-- A line-driven move keeps the result of the check (R4). -/
theorem Record.moveState_passes {r : Record} (st : RecordState) (h : r.code.covers.state = r.cov.state) :
    (r.moveState st).passes = r.passes := by
  rw [Bool.eq_iff_iff, Record.passes_iff, Record.passes_iff]
  rcases hc : r.code with ⟨covers, inverted⟩
  rw [hc] at h
  simp only [Record.moveState, hc, CheckCode.mk.injEq, Covered.withState_inj st h]

/-- Settles O54. -/
theorem disturbanceAndMovesAgainstTheCheck : Obligations.DisturbanceAndMovesAgainstTheCheck := by
  unfold Obligations.DisturbanceAndMovesAgainstTheCheck
  refine ⟨fun s a hf => ?_, fun s a hf => ⟨?_, fun hp => Record.passes_withCov hp _⟩,
    fun r st h => ⟨Record.moveState_passes st h, rfl⟩⟩
  · simp only [exec, execRecordDisturbance, hf, if_true]
  · simp only [exec, execRecordDisturbance, hf, if_false]
    rfl

end Sys2Proof.Machine
end

