-- ==== Sys2Proof/Proofs/Resets.lean ====
section
/-! The end of a reset: the settings load, the overload check that finds nothing lit, and the state of Table 69. -/

namespace Sys2Proof.Machine

/-! ### The settings load (R171) -/

theorem clampNat_mem {lo hi v : Nat} (h : lo ≤ hi) : lo ≤ clampNat lo hi v ∧ clampNat lo hi v ≤ hi := by
  unfold clampNat
  omega

theorem clampNat_of_mem {lo hi v : Nat} (h : lo ≤ v ∧ v ≤ hi) : clampNat lo hi v = v := by
  unfold clampNat
  omega

theorem coe_clampNat (lo hi v : Nat) : (clampNat lo hi v : Int) = max (lo : Int) (min hi v) := by
  unfold clampNat
  omega

theorem Window.clamp_inRange (w : Window) : w.clamp.InRange := by
  simp only [Window.InRange, Window.clamp, clampLimit, clampInt]
  omega

theorem Window.clamp_of_inRange {w : Window} (h : w.InRange) : w.clamp = w := by
  obtain ⟨low, high, mode, severity⟩ := w
  simp only [Window.InRange] at h
  simp only [Window.clamp, clampLimit, clampInt, Window.mk.injEq, and_true]
  omega

/-- A vector of clamped values within the range already is left as it is. -/
theorem vector_map_of_fixed {α : Type} {n : Nat} {f : α → α} {v : Vector α n} (h : ∀ i : Fin n, f v[i] = v[i]) :
    v.map f = v :=
  Vector.ext fun i hi => (Vector.getElem_map ..).trans (h ⟨i, hi⟩)

/-- A settings load clamps every value to its range (R171). -/
theorem Settings.clamp_inRange (g : Settings) : g.clamp.InRange := by
  refine ⟨clampNat_mem (by decide), fun l => ?_, fun k => ?_, clampNat_mem (by decide), clampNat_mem (by decide),
    clampNat_mem (by decide), clampNat_mem (by decide), clampNat_mem (by decide), clampNat_mem (by decide),
    clampNat_mem (by decide), (clampNat_mem (by decide)).2, fun n => ?_, fun n => ?_, fun k m => ?_⟩ <;>
    simp only [Settings.clamp, Fin.getElem_fin, Vector.getElem_map]
  · exact (clampNat_mem (by decide)).2
  · exact (clampNat_mem (by decide)).2
  · exact clampNat_mem (by decide)
  · exact (clampNat_mem (by decide)).2
  · exact Window.clamp_inRange _

theorem Settings.clamp_of_inRange {g : Settings} (h : g.InRange) : g.clamp = g := by
  obtain ⟨hcycle, hbudget, hthreshold, hrise, hfall, hsample, hsettle, hgate, hrref, hkc, hhead, hclass, hcost, hwin⟩ := h
  have hbudget := vector_map_of_fixed (v := g.budget) fun l => clampNat_of_mem ⟨Nat.zero_le _, hbudget l⟩
  have hthreshold := vector_map_of_fixed (v := g.thresholds) fun k => clampNat_of_mem ⟨Nat.zero_le _, hthreshold k⟩
  have hclass := vector_map_of_fixed (v := g.shedClass) fun n => clampNat_of_mem (hclass n)
  have hcost := vector_map_of_fixed (v := g.cost) fun n => clampNat_of_mem ⟨Nat.zero_le _, hcost n⟩
  have hwin := vector_map_of_fixed (v := g.limits) fun k =>
    vector_map_of_fixed (v := g.limits[k]) fun m => Window.clamp_of_inRange (hwin k m)
  simp only [Settings.clamp, hbudget, hthreshold, hclass, hcost, clampNat_of_mem hcycle, clampNat_of_mem hrise,
    clampNat_of_mem hfall, clampNat_of_mem hsample, clampNat_of_mem hsettle, clampNat_of_mem hgate,
    clampNat_of_mem hrref, clampNat_of_mem hkc, clampNat_of_mem ⟨Nat.zero_le _, hhead⟩]
  exact congrArg (fun l => { g with limits := l }) hwin

/-- A value read from a clamped copy is the value clamped to its setting's range (Table 67). -/
theorem Settings.read_clamp (g : Settings) (x : SettingId) :
    g.clamp.read x = max x.range.1 (min x.range.2 (g.read x)) := by
  cases x with
  | window k m f =>
    cases f with
    | low => simp [Settings.read, Settings.clamp, SettingId.range, Window.readField, Window.clamp, clampLimit, clampInt]
    | high => simp [Settings.read, Settings.clamp, SettingId.range, Window.readField, Window.clamp, clampLimit, clampInt]
    | mode =>
      cases hm : (g.limits[k][m]).mode <;>
        simp_all [Settings.read, Settings.clamp, SettingId.range, Window.readField, Window.clamp, modeCode]
    | severity =>
      cases hm : (g.limits[k][m]).severity <;>
        simp_all [Settings.read, Settings.clamp, SettingId.range, Window.readField, Window.clamp, severityCode]
  | bandMap b =>
    have := (g.bandMap[b]).isLt
    simp [Settings.read, Settings.clamp, SettingId.range]
    omega
  | cyclePeriod | budget | threshold | riseCount | fallCount | samplePeriod | relaySettle | gateTime | rref | kc
  | headCost | shedClass | cost => simp [Settings.read, Settings.clamp, SettingId.range, coe_clampNat]

theorem defaultSettings_inRange : defaultSettings.InRange := by decide

theorem Stored.load_inRange (b : Stored) : b.load.InRange := by
  unfold Stored.load
  split
  · exact b.values.clamp_inRange
  · exact defaultSettings_inRange

/-! ### The end of a reset (R172) -/

/-- With every line in its reset record and the head off, nothing draws current (R141). -/
theorem State.load_of_reset {s : State} (hl : s.lines = Vector.replicate 24 resetLine) (hh : s.head = resetHead) :
    s.load = 0 := by
  have hdark : ∀ n, s.lit n = false := fun n => by simp [State.lit, State.line, hl, resetLine, LineState.lit, RestState.lit]
  simp [State.load, hdark, hh, resetHead]

/-- The overload check finds nothing to shed where the budget holds the load (R143). -/
theorem State.overloadCheck_of_within {s : State} (h : s.load ≤ s.budgetNow) : s.overloadCheck = s := by
  simp [State.overloadCheck, State.overloadFor, h]

/-- The end of every reset leaves the state of Table 69 with the loaded working copy. -/
theorem State.endReset_eq (s : State) (h : Hold) : s.endReset h = s.afterReset s.stored.load h.cause := by
  have hcheck : ∀ u : State, u.lines = Vector.replicate 24 resetLine → u.head = resetHead → u.overloadCheck = u :=
    fun u hl hh => State.overloadCheck_of_within (by rw [State.load_of_reset hl hh]; exact Nat.zero_le _)
  have hb : Event.settingsDefaulted.bit = 0x100 := by decide
  dsimp only [State.endReset]
  cases hp : s.stored.passes
  · rw [hcheck _ rfl rfl]
    simp only [State.afterReset, hp, State.raise, hb, Bool.false_eq_true, if_false, State.withEvents_events]
    rfl
  · rw [hcheck _ rfl rfl]
    simp only [State.afterReset, hp]
    rfl

theorem exec_settingsLoadCompletion {s : State} {h : Hold} (hh : s.hold = some h) (hl : h.loading = true) :
    exec .settingsLoadCompletion s = .next (s.afterReset s.stored.load h.cause) := by
  simp only [exec, execSettingsLoadCompletion, hh, State.whenDue, hl, if_true, State.endReset_eq]

/-! ### Runs of overlapping resets (R172) -/

theorem State.runs_cons {s t : State} {c : Instr} (h : exec c s = .next t) (l : List Instr) :
    s.runs (c :: l) = t.runs l := by
  simp only [State.runs, h]

/-- A run that ends with the settings load of a reset. -/
theorem State.runs_load {s : State} {h : Hold} (hh : s.hold = some h) (hl : h.loading = true) :
    s.runs [.settingsLoadCompletion] = .next (s.afterReset s.stored.load h.cause) := by
  rw [State.runs_cons (exec_settingsLoadCompletion hh hl)]
  rfl

/-- A pin reset that joins another reset (R172). -/
theorem State.runs_pinReset {s : State} {h : Hold} (hh : s.hold = some h) (l : List Instr) :
    s.runs (.pinReset :: l) = (s.held { h with resetnLow := true, loading := false }).runs l :=
  State.runs_cons (by simp only [exec, execPinReset, State.conditions, hh, Option.getD_some]) l

/-- The supply's return, while its condition stands (R172). -/
theorem State.runs_supplyReturn {s : State} {h : Hold} (hh : s.hold = some h) (hl : h.supplyLow = true) (l : List Instr) :
    s.runs (.supplyReturn :: l) = (s.withHold (some ({ h with supplyLow := false }.cleared .powerOn))).runs l :=
  State.runs_cons (by
    simp only [exec, execSupplyReturn, State.conditions, hh, Option.getD_some, State.whenDue, hl, if_true]) l

/-- RESETn's rise, while its condition stands (R172). -/
theorem State.runs_resetnRise {s : State} {h : Hold} (hh : s.hold = some h) (hl : h.resetnLow = true) (l : List Instr) :
    s.runs (.resetnRise :: l) = (s.withHold (some ({ h with resetnLow := false }.cleared .pin))).runs l :=
  State.runs_cons (by
    simp only [exec, execResetnRise, State.conditions, hh, Option.getD_some, State.whenDue, hl, if_true]) l

/-- With no reset in progress no condition stands. -/
theorem State.conditions_of_none {s : State} (h : s.hold = none) : s.conditions = ⟨false, false, false, s.events.cause⟩ := by
  rw [State.conditions, h]
  rfl

/-- Settles O53. -/
theorem resetEndLeavesTheResetState : Obligations.ResetEndLeavesTheResetState := by
  unfold Obligations.ResetEndLeavesTheResetState
  refine ⟨fun s h hh hl => ⟨s.stored.load, exec_settingsLoadCompletion hh hl, fun hp => ?_, fun hp x => ?_, fun hp hr => ?_,
    s.stored.load_inRange⟩, fun s hs => ?_⟩
  · simp [Stored.load, hp]
  · simp only [Stored.load, hp, if_true, Settings.read_clamp]
  · simp only [Stored.load, hp, if_true, Settings.clamp_of_inRange hr]
  have hpower : exec .powerOnReset s = .next (s.drawRelayImage.held ⟨true, false, false, s.events.cause⟩) := by
    simp only [exec, execPowerOnReset, State.conditions_of_none hs]
  have hpin : exec .pinReset s = .next (s.held ⟨false, true, false, s.events.cause⟩) := by
    simp only [exec, execPinReset, State.conditions_of_none hs]
  refine ⟨⟨_, (State.runs_cons hpower _).trans ((State.runs_pinReset rfl _).trans
      ((State.runs_supplyReturn rfl rfl _).trans ((State.runs_resetnRise rfl rfl _).trans (State.runs_load rfl rfl)))), rfl, rfl⟩,
    ⟨_, (State.runs_cons hpower _).trans ((State.runs_pinReset rfl _).trans
      ((State.runs_resetnRise rfl rfl _).trans ((State.runs_supplyReturn rfl rfl _).trans (State.runs_load rfl rfl)))), rfl, rfl⟩,
    ⟨_, (State.runs_cons hpin _).trans ((State.runs_resetnRise rfl rfl _).trans (State.runs_load rfl rfl)), rfl, rfl⟩,
    fun f ha => ?_⟩
  have hrestart : exec (.restart f) s = .next (s.endCommand.held ⟨false, false, true, .command⟩) := by
    simp only [exec, execRestart, arrival_of_accepts ha]
  exact ⟨_, (State.runs_cons hrestart _).trans (State.runs_load rfl rfl), rfl, rfl, rfl⟩

/-! ### The state after reset -/

/-- Settles O60. -/
theorem resetHasEveryProperty : Obligations.ResetHasEveryProperty := by
  unfold Obligations.ResetHasEveryProperty
  have hrecords : State.reset.RecordsWell := State.recordsWell_of_cleared rfl rfl rfl rfl
  have hslot : ∀ i, State.reset.slot i = clearedRecord := fun i => by simp [State.slot, State.reset]
  have hline : ∀ n, State.reset.line n = resetLine := fun n => by simp [State.line, State.reset]
  have hlit : ∀ n, State.reset.lit n = false := fun n => by simp only [State.lit, hline]; rfl
  have htest : ∀ n, State.reset.underTest n = false := fun n => by simp only [State.underTest, hline]; rfl
  have hrange : clearedRecord.InRange := by decide
  have hbuckets : clearedRecord.BucketsWithin := by decide
  refine ⟨⟨fun _ => ⟨rfl, rfl, rfl⟩, rfl, fun _ => ⟨by decide, rfl, rfl⟩⟩, ?_, defaultSettings_inRange, ⟨rfl, by decide⟩,
    hrecords.table, hrecords.sums, fun i hi => ?_, ⟨fun n hn => ?_, ?_, fun _ => ⟨rfl, rfl⟩⟩, ?_, ?_, fun i => ?_, rfl, rfl⟩
  · refine ⟨by decide, by decide, by decide, by decide, fun h => absurd h Bool.false_ne_true, le_refl _, by decide,
      Nat.zero_le _, by decide, ⟨rfl, rfl⟩, fun n c hc => ?_, fun i => ?_, rfl, fun b hb => absurd hb (Option.not_mem_none b)⟩
    · rw [hline] at hc
      cases hc
    · rw [hslot]
      exact hrange
  · rw [hslot] at hi
    cases hi
  · rw [hline] at hn
    exact absurd rfl hn
  · rw [State.litSet, show State.reset.lit = fun _ => false from funext hlit]
    decide
  · refine ⟨?_, Nat.zero_le _, List.nodup_nil, fun e he => absurd he List.not_mem_nil, fun h => absurd h Bool.false_ne_true,
      fun _ => ⟨rfl, rfl, rfl⟩⟩
    show (!false && true && true && (List.finRange 24).all fun n => !State.reset.underTest n) = true
    simp [htest]
  · rw [State.LoadWithinBudget, State.load_of_reset rfl rfl]
    exact Nat.zero_le _
  · rw [hslot]
    exact hbuckets

end Sys2Proof.Machine
end

