-- ==== Sys2Proof/Proofs/Board.lean ====
section
/-! The board: what the lines, the chains, the tests and the ladder are judged by, and the changes of it that keep it well. -/

namespace Sys2Proof.Machine

/-! ### The board -/

/-- The fields on which the agreement of lines, chains, tests and load depends. -/
structure Board where
  state : LineNo → LineState
  shed : LineNo → Option PreShed
  power : Chain
  relay : Chain
  head : Head
  tests : Tests
  ladder : Ladder
  settings : Settings
  held : Bool

/-- The board of a state. -/
def State.board (s : State) : Board where
  state n := (s.line n).state
  shed n := (s.line n).shed
  power := s.power
  relay := s.relay
  head := s.head
  tests := s.tests
  ladder := s.ladder
  settings := s.settings
  held := s.hold.isSome

theorem LineState.saved_lit (st : LineState) : st.saved.lit = st.lit := by cases st <;> rfl

/-- A line state is UNDER_TEST. -/
def LineState.isTested : LineState → Bool
  | .rest _ => false
  | .underTest _ => true

theorem State.underTest_eq (s : State) (n : LineNo) : s.underTest n = (s.line n).state.isTested := by
  unfold State.underTest
  cases (s.line n).state <;> rfl

section

variable {s t : State}

theorem State.lit_of_board (h : t.board = s.board) (n : LineNo) : t.lit n = s.lit n :=
  congrArg (fun b : Board => (b.state n).lit) h

theorem State.load_of_board (h : t.board = s.board) : t.load = s.load :=
  load_congr (State.lit_of_board h) (congrArg (fun b : Board => b.settings.cost) h)
    (congrArg (fun b : Board => b.head.headen) h) (congrArg (fun b : Board => b.settings.headCost) h)

theorem State.budgetNow_of_board (h : t.board = s.board) : t.budgetNow = s.budgetNow :=
  congrArg (fun b : Board => b.settings.budget[b.ladder.level]) h

/-! ### Tests -/

/-- With no test in flight the head rests unpowered, the all-off relay image is commanded and no line is UNDER_TEST. -/
theorem testWell_idle_iff (h : s.tests.current = none) : s.testWell = true ↔
    s.head.headen = false ∧ s.head.phase = .idle ∧ s.relay.commanded = 0 ∧ ∀ n, s.underTest n = false := by
  simp [State.testWell, h, and_assoc]

/-- The test in flight, its line, the head and the relay image. -/
structure State.Carries (s : State) (x : Test) : Prop where
  line : ∀ n, s.underTest n = (n == x.entry.line)
  headen : s.head.headen = x.stage.holdsPair
  suits : s.head.suits x.stage = true
  relay : s.relay.commanded = if x.stage.holdsPair then lineBit x.entry.line else 0
  evaluation : x.evaluation.isSome = (x.stage == .evaluate)
  settle : x.settle = none ∨ x.stage = .connect ∨ x.stage = .disconnect

theorem testWell_flight_iff {x : Test} (h : s.tests.current = some x) : s.testWell = true ↔ s.Carries x := by
  simp only [State.testWell, h, Bool.and_eq_true, List.all_eq_true, List.mem_finRange, true_implies, beq_iff_eq,
    Bool.or_eq_true]
  constructor
  · rintro ⟨⟨⟨⟨⟨h1, h2⟩, h3⟩, h4⟩, h5⟩, h6⟩
    exact ⟨h1, h2, h3, h4, h5, or_assoc.1 h6⟩
  · rintro ⟨h1, h2, h3, h4, h5, h6⟩
    exact ⟨⟨⟨⟨⟨h1, h2⟩, h3⟩, h4⟩, h5⟩, or_assoc.2 h6⟩

/-- `TestsWell` depends on the lines under test, the head, the relay image, the tests and the ladder alone. -/
theorem State.TestsWell.congr (h : s.TestsWell) (hu : ∀ n, t.underTest n = s.underTest n) (hh : t.head = s.head)
    (hr : t.relay.commanded = s.relay.commanded) (ht : t.tests = s.tests) (hl : t.ladder = s.ladder) : t.TestsWell := by
  simpa only [State.TestsWell, State.testWell, hu, hh, hr, ht, hl] using h

theorem State.TestsWell.flight (h : s.TestsWell) {x : Test} (hx : s.tests.current = some x) : s.Carries x :=
  (testWell_flight_iff hx).1 h.1

/-- A powered head belongs to a test in flight (R102). -/
theorem State.TestsWell.current_of_powered (h : s.TestsWell) (hh : s.head.headen = true) :
    ∃ x, s.tests.current = some x := by
  cases hx : s.tests.current with
  | none =>
    obtain ⟨hoff, -⟩ := (testWell_idle_iff hx).1 h.1
    simp [hoff] at hh
  | some x => exact ⟨x, rfl⟩

/-- Above level 0 the head is not powered (R102). -/
theorem State.TestsWell.unpowered (h : s.TestsWell) (hl : s.ladder.level ≠ 0) : s.head.headen = false := by
  obtain ⟨-, -, -, -, hlevel, -⟩ := h
  exact Bool.eq_false_iff.2 fun hh => hl (hlevel hh)

/-- The test in flight goes on: its new stage agrees with the head and the relay image, its line is kept. -/
theorem State.TestsWell.goOn (h : s.TestsWell) {y : Test} (hy : t.Carries y)
    (htests : t.tests = { s.tests with current := some y }) (hu : ∀ n, t.underTest n = s.underTest n)
    (hladder : t.ladder = s.ladder) (hpower : t.head.headen = true → s.head.headen = true) : t.TestsWell := by
  obtain ⟨-, hlen, hnodup, hqueue, hlevel, hsampled⟩ := h
  refine ⟨(testWell_flight_iff (by rw [htests])).2 hy, ?_, ?_, ?_, ?_, ?_⟩
  · rw [htests]; exact hlen
  · rw [htests]; exact hnodup
  · rw [htests]
    intro e he
    rw [hu]
    exact hqueue e he
  · rw [hladder]; exact fun hh => hlevel (hpower hh)
  · rw [hladder]; exact hsampled

end

/-! ### The board's agreement -/

/-- Lines, chains and tests agree, but that the power chain may not yet carry the lit set. -/
structure State.BoardBut (s : State) : Prop where
  marks : ∀ n, (s.line n).shed ≠ none → (s.line n).state = .rest .dark ∨ (s.line n).state = .underTest .dark
  chains : s.hold = none → s.power.carries = true ∧ s.relay.carries = true
  tests : s.TestsWell

/-- Lines, chains and tests agree. -/
structure State.BoardWell (s : State) : Prop where
  lines : s.LinesWell
  tests : s.TestsWell

section

variable {s t : State}

theorem State.BoardWell.but (h : s.BoardWell) : s.BoardBut := by
  obtain ⟨⟨hm, -, hc⟩, ht⟩ := h
  exact ⟨hm, hc, ht⟩

theorem State.BoardBut.well (h : s.BoardBut) (hi : s.power.commanded = s.litSet) : s.BoardWell :=
  ⟨⟨h.marks, hi, h.chains⟩, h.tests⟩

theorem State.BoardWell.image (h : s.BoardWell) : s.power.commanded = s.litSet := by
  obtain ⟨⟨-, hi, -⟩, -⟩ := h
  exact hi

theorem State.BoardBut.of_board (h : s.BoardBut) (hb : t.board = s.board) : t.BoardBut where
  marks n := by
    have hs : (t.line n).state = (s.line n).state := congrArg (fun b : Board => b.state n) hb
    have hm : (t.line n).shed = (s.line n).shed := congrArg (fun b : Board => b.shed n) hb
    rw [hs, hm]
    exact h.marks n
  chains hn := by
    have hh : t.hold.isSome = s.hold.isSome := congrArg Board.held hb
    have hs : s.hold = none := by simpa [hn] using hh.symm
    rw [show t.power = s.power from congrArg Board.power hb, show t.relay = s.relay from congrArg Board.relay hb]
    exact h.chains hs
  tests := by
    refine h.tests.congr (fun n => ?_) (congrArg Board.head hb) (congrArg (fun b : Board => b.relay.commanded) hb)
      (congrArg Board.tests hb) (congrArg Board.ladder hb)
    rw [State.underTest_eq, State.underTest_eq]
    exact congrArg (fun b : Board => (b.state n).isTested) hb

theorem State.BoardWell.of_board (h : s.BoardWell) (hb : t.board = s.board) : t.BoardWell := by
  refine (h.but.of_board hb).well ?_
  rw [litSet_congr (State.lit_of_board hb), ← h.image]
  exact congrArg (fun b : Board => b.power.commanded) hb

end

/-! ### One line's change -/

theorem State.setLineState_line (s : State) (n m : LineNo) (st : LineState) (p : Option PreShed) :
    (s.setLineState n st p).line m = if n = m then { s.line n with state := st, shed := p } else s.line m :=
  s.setLine_line n m _

theorem State.setLineState_lit (s : State) (n m : LineNo) (st : LineState) (p : Option PreShed) :
    (s.setLineState n st p).lit m = if n = m then st.lit else s.lit m := by
  simp only [State.lit, State.setLineState_line]
  split <;> rfl

/-- A line's change that keeps it lit or unlit keeps the lit set. -/
theorem State.setLineState_lit_same {s : State} {n : LineNo} {st : LineState} (h : st.lit = s.lit n) (p : Option PreShed)
    (m : LineNo) : (s.setLineState n st p).lit m = s.lit m := by
  rw [State.setLineState_lit]
  split
  · next e => rw [← e, h]
  · rfl

theorem State.setLineState_underTest (s : State) (n m : LineNo) (st : LineState) (p : Option PreShed) :
    (s.setLineState n st p).underTest m = if n = m then st.isTested else s.underTest m := by
  simp only [State.underTest_eq, State.setLineState_line]
  split <;> rfl

@[simp] theorem State.enterService_board (s : State) (n : LineNo) : (s.enterService n).board = s.board := by
  unfold State.enterService
  rw [foldl_moveIn_frame]
  rfl

@[simp] theorem State.leaveService_board (s : State) (n : LineNo) : (s.leaveService n).board = s.board := by
  unfold State.leaveService
  rw [foldl_moveOut_frame]
  rfl

section

variable {s : State}

/-- A line's state and mark change, UNDER_TEST or not as before. -/
theorem State.BoardBut.setLineState (h : s.BoardBut) (n : LineNo) {st : LineState} {p : Option PreShed}
    (hm : p ≠ none → st = .rest .dark ∨ st = .underTest .dark) (hu : st.isTested = s.underTest n) :
    (s.setLineState n st p).BoardBut where
  marks m := by
    rw [State.setLineState_line]
    split
    · exact hm
    · exact h.marks m
  chains := h.chains
  tests := by
    refine h.tests.congr (fun m => ?_) rfl rfl rfl rfl
    rw [State.setLineState_underTest]
    split
    · next e => rw [← e, hu]
    · rfl

/-- A line that stays lit or unlit needs no new image. -/
theorem State.BoardWell.setLineState (h : s.BoardWell) (n : LineNo) {st : LineState} {p : Option PreShed}
    (hm : p ≠ none → st = .rest .dark ∨ st = .underTest .dark) (hu : st.isTested = s.underTest n)
    (hl : st.lit = s.lit n) : (s.setLineState n st p).BoardWell := by
  refine (h.but.setLineState n hm hu).well ?_
  rw [litSet_congr (State.setLineState_lit_same hl p)]
  exact h.image

/-- The new image commanded, the chain carries the lit set (R33). -/
theorem State.BoardBut.commandPower (h : s.BoardBut) : s.commandPower.BoardWell := by
  refine State.BoardBut.well ⟨h.marks, fun hn => ?_, h.tests.congr (fun _ => rfl) rfl rfl rfl rfl⟩ ?_
  · obtain ⟨hp, hr⟩ := h.chains hn
    exact ⟨Chain.command_carries hp _, hr⟩
  · exact Chain.command_commanded _ _

/-- A line that is not DARK bears no mark (R28). -/
theorem State.BoardBut.unmarked (h : s.BoardBut) {n : LineNo} (h1 : (s.line n).state ≠ .rest .dark)
    (h2 : (s.line n).state ≠ .underTest .dark) : (s.line n).shed = none := by
  by_contra hne
  rcases h.marks n hne with e | e
  · exact h1 e
  · exact h2 e

end

end Sys2Proof.Machine
end

