-- ==== Sys2Proof/Proofs/Sheds.lean ====
section
/-! Dispatches, aborts, sheds and relights: what each leaves on the board, and that each keeps it well. -/

namespace Sys2Proof.Machine

/-! ### The frame of an operation below the level changes -/

/-- The ladder, the working copy, the reset in progress and the image that the power chain has latched are kept. -/
structure State.LadderKept (s t : State) : Prop where
  ladder : t.ladder = s.ladder
  settings : t.settings = s.settings
  held : t.hold.isSome = s.hold.isSome
  latched : t.power.latched = s.power.latched

section

variable {s t u : State}

theorem State.LadderKept.refl (s : State) : s.LadderKept s := ⟨rfl, rfl, rfl, rfl⟩

theorem State.LadderKept.trans (h : s.LadderKept t) (g : t.LadderKept u) : s.LadderKept u :=
  ⟨g.ladder.trans h.ladder, g.settings.trans h.settings, g.held.trans h.held, g.latched.trans h.latched⟩

theorem State.LadderKept.of_board (h : t.board = s.board) : s.LadderKept t :=
  ⟨congrArg Board.ladder h, congrArg Board.settings h, congrArg Board.held h,
    congrArg (fun b : Board => b.power.latched) h⟩

theorem State.LadderKept.budgetNow (h : s.LadderKept t) : t.budgetNow = s.budgetNow := by
  simp only [State.budgetNow, h.ladder, h.settings]

theorem State.LadderKept.foldl {α : Type} {f : State → α → State} (h : ∀ (s : State) a, s.LadderKept (f s a))
    (l : List α) (s : State) : s.LadderKept (l.foldl f s) := by
  induction l generalizing s with
  | nil => exact .refl s
  | cons a l ih => exact (h s a).trans (ih (f s a))

/-- The load depends on the lit lines and the head's power, the settings being kept. -/
theorem State.LadderKept.load (h : s.LadderKept t) (hl : ∀ n, t.lit n = s.lit n)
    (hh : t.head.headen = s.head.headen) : t.load = s.load :=
  load_congr hl (by rw [h.settings]) hh (by rw [h.settings])

/-- The head's power is worth the head cost (R141). -/
theorem State.LadderKept.load_unpowered (h : s.LadderKept t) (hl : ∀ n, t.lit n = s.lit n)
    (hs : s.head.headen = true) (ht : t.head.headen = false) : t.load + s.settings.headCost = s.load := by
  simp [State.load, hl, h.settings, hs, ht]

/-- A line taken from the lit set takes its cost from the load, whatever the head does at most (R141). -/
theorem State.LadderKept.load_unlit (h : s.LadderKept t) {n : LineNo} (hn : s.lit n = true)
    (hl : ∀ m, t.lit m = (s.lit m && m != n)) (hh : t.head.headen = s.head.headen) :
    t.load + s.settings.cost[n] = s.load :=
  load_of_unlit hn (by simp [hl]) (fun m hm => by simp [hl, hm]) (by rw [h.settings]) hh (by rw [h.settings])

theorem State.LadderKept.load_lit (h : s.LadderKept t) {n : LineNo} (hn : s.lit n = false)
    (hl : ∀ m, t.lit m = (s.lit m || m == n)) (hh : t.head.headen = s.head.headen) :
    t.load = s.load + s.settings.cost[n] :=
  load_of_lit hn (by simp [hl]) (fun m hm => by simp [hl, hm]) (by rw [h.settings]) hh (by rw [h.settings])

end

/-! ### Dispatch (R121, R122) -/

theorem State.dispatch_board (s : State) (e : TestEntry) (rest : List TestEntry) :
    (s.dispatch e rest).board = { s.board with
      state := fun m => if e.line = m then .underTest (s.line e.line).state.saved else (s.line m).state
      head := { s.head with headen := true }
      relay := s.relay.command (lineBit e.line)
      tests := ⟨rest, some (dispatchedTest e)⟩ } := by
  have under : ((s.withTests ⟨rest, some (dispatchedTest e)⟩).setLine e.line
      { s.line e.line with state := .underTest (s.line e.line).state.saved }).board = { s.board with
        state := fun m => if e.line = m then .underTest (s.line e.line).state.saved else (s.line m).state
        tests := ⟨rest, some (dispatchedTest e)⟩ } := by
    simp only [State.board, State.setLine_line, State.withTests_line, Board.mk.injEq]
    refine ⟨funext fun m => ?_, funext fun m => ?_, rfl, rfl, rfl, rfl, rfl, rfl, rfl⟩
    · split <;> rfl
    · split
      · next h => rw [← h]
      · rfl
  have powered : ∀ u : State, ((u.withHead { u.head with headen := true }).withRelay
      (u.relay.command (lineBit e.line))).board
        = { u.board with head := { u.board.head with headen := true }, relay := u.board.relay.command (lineBit e.line) } :=
    fun _ => rfl
  unfold State.dispatch
  dsimp only
  split
  · exact (powered _).trans (by rw [State.leaveService_board, under]; rfl)
  · exact (powered _).trans (by rw [under]; rfl)

theorem State.dispatch_kept (s : State) (e : TestEntry) (rest : List TestEntry) : s.LadderKept (s.dispatch e rest) := by
  have h := s.dispatch_board e rest
  exact ⟨congrArg Board.ladder h, congrArg Board.settings h, congrArg Board.held h,
    congrArg (fun b : Board => b.power.latched) h⟩

theorem State.dispatch_lit (s : State) (e : TestEntry) (rest : List TestEntry) (m : LineNo) :
    (s.dispatch e rest).lit m = s.lit m := by
  have hst : ((s.dispatch e rest).line m).state
      = if e.line = m then .underTest (s.line e.line).state.saved else (s.line m).state :=
    congrArg (fun b : Board => b.state m) (s.dispatch_board e rest)
  rw [State.lit, hst]
  split
  · next h => rw [← h]; exact LineState.saved_lit _
  · rfl

theorem State.canDispatch_iff (s : State) : s.canDispatch = true ↔
    s.tests.current = none ∧ s.ladder.level = 0 ∧ s.load + s.settings.headCost ≤ s.settings.budget[0] := by
  simp [State.canDispatch, and_assoc]

/-- A dispatch retry either dispatches the queue's head or leaves the state (R121). -/
theorem State.dispatchRetry_cases (s : State) : s.dispatchRetry = s
    ∨ ∃ e rest, s.tests.queue = e :: rest ∧ s.canDispatch = true ∧ s.dispatchRetry = s.dispatch e rest := by
  unfold State.dispatchRetry
  split
  · exact .inl rfl
  · next e rest hq =>
    split
    · next hc => exact .inr ⟨e, rest, hq, hc, rfl⟩
    · exact .inl rfl

theorem State.dispatchRetry_of_noDispatch {s : State} (h : s.NoDispatch) : s.dispatchRetry = s := by
  rcases s.dispatchRetry_cases with e | ⟨e, rest, hq, hc, -⟩
  · exact e
  · obtain ⟨hcur, hlevel, -⟩ := s.canDispatch_iff.1 hc
    rcases h with h | h | h
    · exact absurd hcur h
    · exact absurd hlevel h
    · simp [h] at hq

theorem State.dispatchRetry_kept (s : State) : s.LadderKept s.dispatchRetry := by
  rcases s.dispatchRetry_cases with e | ⟨e, rest, -, -, h⟩
  · rw [e]; exact .refl s
  · rw [h]; exact s.dispatch_kept e rest

theorem State.dispatchRetry_lit (s : State) (m : LineNo) : s.dispatchRetry.lit m = s.lit m := by
  rcases s.dispatchRetry_cases with e | ⟨e, rest, -, -, h⟩
  · rw [e]
  · rw [h, State.dispatch_lit]

/-- A dispatch happens within the budget alone, the head's cost included (R121). -/
theorem State.dispatch_load {s : State} (h : s.canDispatch = true) (e : TestEntry) (rest : List TestEntry) :
    (s.dispatch e rest).LoadWithinBudget := by
  obtain ⟨-, hlevel, hload⟩ := s.canDispatch_iff.1 h
  have kept := s.dispatch_kept e rest
  have hle : (s.dispatch e rest).load ≤ s.load + s.settings.headCost := by
    simp only [State.load, State.dispatch_lit, kept.settings]
    split <;> omega
  have hb : s.budgetNow = s.settings.budget[0] := by simp only [State.budgetNow, hlevel]; rfl
  rw [State.LoadWithinBudget, kept.budgetNow, hb]
  omega

/-- After a retry the head's power is as it was, or the load is within the budget. -/
theorem State.dispatchRetry_power (s : State) :
    s.dispatchRetry.head.headen = s.head.headen ∨ s.dispatchRetry.LoadWithinBudget := by
  rcases s.dispatchRetry_cases with e | ⟨e, rest, -, hc, h⟩
  · rw [e]; exact .inl rfl
  · rw [h]; exact .inr (State.dispatch_load hc e rest)

theorem State.dispatchRetry_load {s : State} (h : s.LoadWithinBudget) : s.dispatchRetry.LoadWithinBudget := by
  rcases s.dispatchRetry_power with e | e
  · rw [State.LoadWithinBudget, s.dispatchRetry_kept.budgetNow, s.dispatchRetry_kept.load s.dispatchRetry_lit e]
    exact h
  · exact e

/-- A dispatch from the queue of a board that agrees. -/
theorem State.BoardWell.dispatch {s : State} (h : s.BoardWell) {e : TestEntry} {rest : List TestEntry}
    (hq : s.tests.queue = e :: rest) (hc : s.canDispatch = true) : (s.dispatch e rest).BoardWell := by
  obtain ⟨hcur, hlevel, -⟩ := s.canDispatch_iff.1 hc
  obtain ⟨htest, hlen, hnodup, hqueue, -, hsampled⟩ := h.tests
  obtain ⟨-, hphase, -, hno⟩ := (testWell_idle_iff hcur).1 htest
  have hb := s.dispatch_board e rest
  have kept := s.dispatch_kept e rest
  have hstate : ∀ m, ((s.dispatch e rest).line m).state
      = if e.line = m then .underTest (s.line e.line).state.saved else (s.line m).state :=
    fun m => congrArg (fun b : Board => b.state m) hb
  have hshed : ∀ m, ((s.dispatch e rest).line m).shed = (s.line m).shed := fun m => congrArg (fun b : Board => b.shed m) hb
  have htests : (s.dispatch e rest).tests = ⟨rest, some (dispatchedTest e)⟩ := congrArg Board.tests hb
  have hhead : (s.dispatch e rest).head = { s.head with headen := true } := congrArg Board.head hb
  have hrelay : (s.dispatch e rest).relay = s.relay.command (lineBit e.line) := congrArg Board.relay hb
  have hpower : (s.dispatch e rest).power = s.power := congrArg Board.power hb
  have hunder : ∀ m, (s.dispatch e rest).underTest m = (m == e.line) := by
    intro m
    rw [State.underTest_eq, hstate]
    by_cases hm : e.line = m
    · simp [hm, LineState.isTested]
    · rw [if_neg hm, ← State.underTest_eq, hno, eq_comm, beq_eq_false_iff_ne]
      exact Ne.symm hm
  rw [hq, List.map_cons, List.nodup_cons] at hnodup
  refine State.BoardBut.well ⟨fun m hm => ?_, fun hh => ?_, ?_, ?_, ?_, ?_, ?_, ?_⟩ ?_
  · rw [hshed] at hm
    have hdark : (s.line m).state = .rest .dark := by
      rcases h.but.marks m hm with hd | hd
      · exact hd
      · have := hno m
        simp [State.underTest_eq, hd, LineState.isTested] at this
    rw [hstate]
    split
    · next he => rw [he, hdark]; exact .inr rfl
    · exact .inl hdark
  · have hs : s.hold = none := by simpa [hh] using kept.held.symm
    obtain ⟨hp, hr⟩ := h.but.chains hs
    rw [hpower, hrelay]
    exact ⟨hp, Chain.command_carries hr _⟩
  · refine (testWell_flight_iff (by rw [htests])).2 ⟨hunder, by rw [hhead]; rfl, ?_, ?_, rfl, .inl rfl⟩
    · rw [hhead]
      simp [Head.suits, hphase, dispatchedTest]
    · rw [hrelay, Chain.command_commanded]
      rfl
  · rw [htests]
    rw [hq] at hlen
    exact Nat.le_of_succ_le hlen
  · rw [htests]; exact hnodup.2
  · rw [htests]
    intro x hx
    rw [hunder, beq_eq_false_iff_ne]
    rintro he
    exact hnodup.1 (he ▸ List.mem_map_of_mem hx)
  · rw [kept.ladder]; exact fun _ => hlevel
  · rw [kept.ladder]; exact hsampled
  · rw [hpower, litSet_congr (s.dispatch_lit e rest)]
    exact h.image

theorem State.BoardWell.dispatchRetry {s : State} (h : s.BoardWell) : s.dispatchRetry.BoardWell := by
  rcases s.dispatchRetry_cases with e | ⟨e, rest, hq, hc, hd⟩
  · rw [e]; exact h
  · rw [hd]; exact h.dispatch hq hc

/-! ### Aborts (R125) -/

/-- An abort works on the head, the relay chain and the test in flight alone. -/
theorem State.abort_eq (s : State) (c : Cause) : s.abort c = { s with
    head := s.head.powerOff
    relay := s.relay.command 0
    tests := (s.abort c).tests } := by
  unfold State.abort
  split <;> rfl

theorem State.abort_kept (s : State) (c : Cause) : s.LadderKept (s.abort c) := by
  rw [State.abort_eq]
  exact ⟨rfl, rfl, rfl, rfl⟩

theorem State.abort_lit (s : State) (c : Cause) (m : LineNo) : (s.abort c).lit m = s.lit m := by
  rw [State.abort_eq]
  rfl

theorem State.abort_headen (s : State) (c : Cause) : (s.abort c).head.headen = false := by
  rw [State.abort_eq]
  rfl

/-- An abort of a powered test. -/
theorem State.BoardWell.abort {s : State} (h : s.BoardWell) (hh : s.head.headen = true) (c : Cause) :
    (s.abort c).BoardWell := by
  obtain ⟨x, hx⟩ := h.tests.current_of_powered hh
  have flight := h.tests.flight hx
  have hholds : x.stage.holdsPair = true := flight.headen ▸ hh
  have heval : x.evaluation.isSome = false := by
    rw [flight.evaluation]
    cases hst : x.stage <;> simp_all [Stage.holdsPair]
  rw [State.abort_eq_aborted hx]
  refine State.BoardBut.well ⟨h.but.marks, fun hn => ?_, ?_⟩ h.image
  · obtain ⟨hp, hr⟩ := h.but.chains hn
    exact ⟨hp, Chain.command_carries hr 0⟩
  · refine h.tests.goOn (y := { x with stage := .disconnect, settle := none, abort := some c })
      ⟨flight.line, rfl, rfl, Chain.command_commanded _ _, heval, .inl rfl⟩ rfl (fun _ => rfl) rfl ?_
    exact fun hp => hh

/-! ### The lit set's hand-ons and sheds (R29, R32, R142) -/

theorem State.commandPower_kept (s : State) : s.LadderKept s.commandPower :=
  ⟨rfl, rfl, rfl, Chain.command_latched _ _⟩

theorem State.leftLit_kept (s : State) : s.LadderKept s.leftLit :=
  s.commandPower_kept.trans (State.dispatchRetry_kept _)

theorem State.BoardBut.leftLit {s : State} (h : s.BoardBut) : s.leftLit.BoardWell := h.commandPower.dispatchRetry

/-- The mark that a shed leaves on a lit line: the state that it had (R29). -/
def LineState.preShed (st : LineState) : Option PreShed := st.saved.preShed

/-- The state that a shed leaves a lit line in: DARK, or UNDER_TEST with return state DARK (R29). -/
def LineState.darkened : LineState → LineState
  | .rest _ => .rest .dark
  | .underTest _ => .underTest .dark

theorem Line.shedOf_of_lit {l : Line} (h : l.state.lit = true) :
    l.shedOf = { l with state := l.state.darkened, shed := l.state.preShed } := by
  obtain ⟨st, shed, att, cond⟩ := l
  rcases st with r | r <;> cases r <;> simp_all [LineState.lit, RestState.lit, Line.shedOf] <;> exact ⟨rfl, rfl⟩

/-- A shed of a lit line changes its record, and moves its records where it was IN_SERVICE (R29). -/
theorem State.darkenMarked_of_lit {s : State} {n : LineNo} (h : s.lit n = true) :
    s.darkenMarked n = (if (s.line n).state = .rest .inService then (s.setLine n (s.line n).shedOf).leaveService n
      else s.setLine n (s.line n).shedOf) := by
  have hl : (s.line n).state.lit = true := h
  rw [Line.shedOf_of_lit hl]
  unfold State.darkenMarked
  rcases hst : (s.line n).state with r | r <;> cases r <;> simp_all [LineState.lit, RestState.lit] <;> rfl

theorem State.darkenMarked_of_unlit {s : State} {n : LineNo} (h : s.lit n = false) : s.darkenMarked n = s := by
  have hl : (s.line n).state.lit = false := h
  unfold State.darkenMarked
  rcases hst : (s.line n).state with r | r <;> cases r <;> simp_all [LineState.lit, RestState.lit] <;> rfl

theorem State.darkenMarked_board {s : State} {n : LineNo} (h : s.lit n = true) : (s.darkenMarked n).board
    = (s.setLineState n (s.line n).state.darkened (s.line n).state.preShed).board := by
  have hl : (s.line n).state.lit = true := h
  rw [State.darkenMarked_of_lit h, Line.shedOf_of_lit hl]
  split
  · exact State.leaveService_board _ _
  · rfl

theorem State.darkenMarked_kept (s : State) (n : LineNo) : s.LadderKept (s.darkenMarked n) := by
  cases h : s.lit n with
  | true =>
    have set : s.LadderKept (s.setLineState n (s.line n).state.darkened (s.line n).state.preShed) := ⟨rfl, rfl, rfl, rfl⟩
    exact set.trans (.of_board (State.darkenMarked_board h))
  | false => rw [State.darkenMarked_of_unlit h]; exact .refl s

theorem State.darkenMarked_lit {s : State} {n : LineNo} (h : s.lit n = true) (m : LineNo) :
    (s.darkenMarked n).lit m = (s.lit m && m != n) := by
  rw [State.lit_of_board (State.darkenMarked_board h), State.setLineState_lit]
  by_cases hm : n = m
  · subst hm
    cases hst : (s.line n).state <;> simp [LineState.darkened, LineState.lit, RestState.lit]
  · simp [hm, Ne.symm hm]

theorem State.darkenMarked_headen (s : State) (n : LineNo) : (s.darkenMarked n).head = s.head := by
  cases h : s.lit n with
  | true => exact congrArg Board.head (State.darkenMarked_board h)
  | false => rw [State.darkenMarked_of_unlit h]

theorem State.BoardWell.darkenMarked {s : State} (h : s.BoardWell) (n : LineNo) : (s.darkenMarked n).BoardBut := by
  cases hn : s.lit n with
  | true =>
    refine (h.but.setLineState n (fun _ => ?_) ?_).of_board (State.darkenMarked_board hn)
    · cases (s.line n).state <;> simp [LineState.darkened]
    · rw [State.underTest_eq]
      cases (s.line n).state <;> rfl
  | false => rw [State.darkenMarked_of_unlit hn]; exact h.but

theorem State.shedLine_kept (s : State) (n : LineNo) : s.LadderKept (s.shedLine n) :=
  ((s.darkenMarked_kept n).trans (State.leftLit_kept _)).trans (.of_board rfl)

theorem State.BoardWell.shedLine {s : State} (h : s.BoardWell) (n : LineNo) : (s.shedLine n).BoardWell :=
  (h.darkenMarked n).leftLit.of_board rfl

theorem State.shedLine_lit {s : State} {n : LineNo} (h : s.lit n = true) (m : LineNo) :
    (s.shedLine n).lit m = (s.lit m && m != n) := by
  rw [← State.darkenMarked_lit h]
  exact (s.darkenMarked n).commandPower.dispatchRetry_lit m

/-- A shed leaves the head's power, or a dispatch in it leaves the load within the budget. -/
theorem State.shedLine_power (s : State) (n : LineNo) :
    (s.shedLine n).head.headen = s.head.headen ∨ (s.shedLine n).LoadWithinBudget := by
  rw [← s.darkenMarked_headen n]
  exact (s.darkenMarked n).commandPower.dispatchRetry_power

end Sys2Proof.Machine
end

