-- ==== Sys2Proof/Proofs/Overload.lean ====
section
/-! The overload check (R143): what each of its turns does, and that 25 turns restore the budget. -/

namespace Sys2Proof.Machine

/-! ### The order of the check -/

/-- Every shed class is a class of Table 67. -/
def Settings.ClassesInRange (g : Settings) : Prop := ∀ n : LineNo, 1 ≤ g.shedClass[n] ∧ g.shedClass[n] ≤ 4

theorem Settings.InRange.classes {g : Settings} (h : g.InRange) : g.ClassesInRange := by
  obtain ⟨-, -, -, -, -, -, -, -, -, -, -, hclass, -⟩ := h
  exact hclass

section

variable {s : State}

theorem State.mem_linesOfClass (s : State) (c : Nat) (n : LineNo) :
    n ∈ s.linesOfClass c ↔ s.settings.shedClass[n] = c := by
  simp [State.linesOfClass, List.mem_finRange]

theorem State.mem_shedOrder (h : s.settings.ClassesInRange) (n : LineNo) : n ∈ s.shedOrder := by
  obtain ⟨h1, h4⟩ := h n
  simp only [State.shedOrder, List.mem_flatMap, List.mem_reverse, State.mem_linesOfClass]
  refine ⟨s.settings.shedClass[n], ?_, rfl⟩
  simp only [List.mem_cons, List.not_mem_nil]
  omega

/-- Line `m` is shed before line `n`: the lower class first, then the higher number (R143). -/
def State.ShedsBefore (s : State) (m n : LineNo) : Prop :=
  s.settings.shedClass[m] < s.settings.shedClass[n] ∨ (s.settings.shedClass[m] = s.settings.shedClass[n] ∧ n < m)

theorem State.shedOrder_pairwise (s : State) : s.shedOrder.Pairwise s.ShedsBefore := by
  refine List.pairwise_flatMap.2 ⟨fun c _ => ?_, ?_⟩
  · have hup : (s.linesOfClass c).Pairwise (· < ·) := List.Pairwise.filter _ (List.pairwise_lt_finRange 24)
    refine List.Pairwise.imp_of_mem (fun hm hn hlt => ?_) (List.pairwise_reverse.2 hup)
    rw [List.mem_reverse, State.mem_linesOfClass] at hm hn
    exact .inr ⟨hm.trans hn.symm, hlt⟩
  · refine List.Pairwise.imp (fun {c d} hcd m hm n hn => ?_) (show [1, 2, 3, 4].Pairwise (· < ·) by decide)
    rw [List.mem_reverse, State.mem_linesOfClass] at hm hn
    exact .inl (by rw [hm, hn]; exact hcd)

/-- The check sheds the line that no other lit line precedes. -/
theorem State.find?_shedOrder (h : s.settings.ClassesInRange) {n : LineNo} (hn : s.lit n = true)
    (hfirst : ∀ m, s.lit m = true → s.settings.shedClass[n] < s.settings.shedClass[m]
      ∨ (s.settings.shedClass[n] = s.settings.shedClass[m] ∧ m ≤ n)) : s.shedOrder.find? s.lit = some n := by
  cases hf : s.shedOrder.find? s.lit with
  | none => exact absurd hn (by simpa using List.find?_eq_none.1 hf n (State.mem_shedOrder h n))
  | some k =>
    obtain ⟨hk, as, bs, hsplit, has⟩ := List.find?_eq_some_iff_append.1 hf
    have hpair := s.shedOrder_pairwise
    have hmem := State.mem_shedOrder h n
    rw [hsplit] at hpair hmem
    rcases List.mem_append.1 hmem with hin | hin
    · simpa [hn] using has n hin
    rcases List.mem_cons.1 hin with e | hin
    · rw [e]
    · have hkn : s.ShedsBefore k n := (List.pairwise_cons.1 (List.pairwise_append.1 hpair).2.1).1 n hin
      rcases hkn with hkn | ⟨he, hkn⟩ <;> rcases hfirst k hk with hnk | ⟨hq, hnk⟩
      · exact absurd hnk (Nat.lt_asymm hkn)
      · exact absurd hkn (Nat.not_lt.2 hq.le)
      · exact absurd hnk (Nat.not_lt.2 he.le)
      · exact absurd hkn (not_lt.2 hnk)

/-! ### How many turns the check can need -/

/-- The lit lines, and one for a powered head: each turn of the check takes one away. -/
def State.burden (s : State) : Nat := (Finset.univ.filter fun n => s.lit n = true).card + s.head.headen.toNat

theorem State.burden_le (s : State) : s.burden ≤ 24 + s.head.headen.toNat := by
  have : (Finset.univ.filter fun n => s.lit n = true).card ≤ 24 := (Finset.card_le_univ _).trans_eq (Fintype.card_fin 24)
  unfold State.burden
  omega

/-- With no line lit and the head off there is no load. -/
theorem State.load_of_unburdened (hl : ∀ n, s.lit n = false) (hh : s.head.headen = false) : s.load = 0 := by
  simp [State.load, hl, hh]

theorem State.abort_burden (h : s.head.headen = true) (c : Cause) : (s.abort c).burden + 1 = s.burden := by
  simp [State.burden, State.abort_lit, State.abort_headen, h]

theorem State.shedLine_burden {n : LineNo} (hn : s.lit n = true) (hh : (s.shedLine n).head.headen = s.head.headen) :
    (s.shedLine n).burden + 1 = s.burden := by
  have herase : (Finset.univ.filter fun m => (s.shedLine n).lit m = true)
      = (Finset.univ.filter fun m => s.lit m = true).erase n := by
    ext m
    simp [State.shedLine_lit hn, and_comm]
  have hmem : n ∈ Finset.univ.filter fun m => s.lit m = true := by simp [hn]
  have := Finset.card_erase_add_one hmem
  simp only [State.burden, herase, hh]
  omega

/-! ### One turn -/

theorem State.overloadFor_of_within (h : s.LoadWithinBudget) (k : Nat) : s.overloadFor k = s := by
  cases k with
  | zero => rfl
  | succ k => exact if_pos h

theorem State.overloadFor_abort (h : s.budgetNow < s.load) (hh : s.head.headen = true) (k : Nat) :
    s.overloadFor (k + 1) = (s.abort .power).overloadFor k := by
  rw [State.overloadFor, if_neg (Nat.not_le.2 h), if_pos hh]

theorem State.overloadFor_shed (h : s.budgetNow < s.load) (hh : s.head.headen = false) {n : LineNo}
    (hf : s.shedOrder.find? s.lit = some n) (k : Nat) : s.overloadFor (k + 1) = (s.shedLine n).overloadFor k := by
  rw [State.overloadFor, if_neg (Nat.not_le.2 h), if_neg (by simp [hh])]
  simp only [hf]

/-- Above the budget a turn aborts or sheds: with the head off some line is lit (R143). -/
theorem State.exists_shed (hc : s.settings.ClassesInRange) (h : s.budgetNow < s.load) (hh : s.head.headen = false) :
    ∃ n, s.shedOrder.find? s.lit = some n ∧ s.lit n = true := by
  cases hf : s.shedOrder.find? s.lit with
  | none =>
    have hdark : ∀ n, s.lit n = false := fun n => by simpa using List.find?_eq_none.1 hf n (State.mem_shedOrder hc n)
    have := State.load_of_unburdened hdark hh
    omega
  | some n => exact ⟨n, rfl, List.find?_some hf⟩

/-- The cases of a turn: nothing within the budget, an abort, or a shed; each leaves less to shed, or the load within the
budget. -/
theorem State.overload_turn (hc : s.settings.ClassesInRange) : s.LoadWithinBudget
    ∨ ∃ t : State, (∀ k, s.overloadFor (k + 1) = t.overloadFor k) ∧ s.LadderKept t
      ∧ (t.burden + 1 = s.burden ∨ t.LoadWithinBudget) ∧ (s.BoardWell → t.BoardWell) := by
  by_cases h : s.LoadWithinBudget
  · exact .inl h
  have h : s.budgetNow < s.load := Nat.not_le.1 h
  cases hh : s.head.headen with
  | true =>
    exact .inr ⟨s.abort .power, State.overloadFor_abort h hh, s.abort_kept .power, .inl (State.abort_burden hh .power),
      fun hb => hb.abort hh .power⟩
  | false =>
    obtain ⟨n, hf, hn⟩ := State.exists_shed hc h hh
    exact .inr ⟨s.shedLine n, State.overloadFor_shed h hh hf, s.shedLine_kept n,
      (s.shedLine_power n).imp_left (State.shedLine_burden hn), fun hb => hb.shedLine n⟩

/-! ### The whole check -/

theorem State.LadderKept.classes {t : State} (h : s.LadderKept t) (hc : s.settings.ClassesInRange) :
    t.settings.ClassesInRange := h.settings ▸ hc

/-- With turns for all that can be shed, the check ends within the budget. -/
theorem State.overloadFor_load (k : Nat) (hc : s.settings.ClassesInRange) (hk : s.burden ≤ k) :
    (s.overloadFor k).LoadWithinBudget := by
  induction k generalizing s with
  | zero =>
    rcases State.overload_turn hc with h | ⟨t, ht, kept, hb, -⟩
    · exact h
    · have hzero : s.burden = 0 := Nat.le_zero.1 hk
      simp only [State.burden, Nat.add_eq_zero_iff, Finset.card_eq_zero, Finset.filter_eq_empty_iff, Finset.mem_univ,
        true_implies, Bool.not_eq_true, Bool.toNat_eq_zero] at hzero
      exact (State.load_of_unburdened hzero.1 hzero.2).le.trans (Nat.zero_le _)
  | succ k ih =>
    rcases State.overload_turn hc with h | ⟨t, ht, kept, hb, -⟩
    · rw [State.overloadFor_of_within h]; exact h
    · rw [ht]
      rcases hb with hb | hb
      · exact ih (kept.classes hc) (by omega)
      · rw [State.overloadFor_of_within hb]; exact hb

/-- More turns than there is to shed change nothing. -/
theorem State.overloadFor_succ (k : Nat) (hc : s.settings.ClassesInRange) (hk : s.burden ≤ k) :
    s.overloadFor (k + 1) = s.overloadFor k := by
  induction k generalizing s with
  | zero =>
    have h : s.LoadWithinBudget := State.overloadFor_load 0 hc hk
    rw [State.overloadFor_of_within h, State.overloadFor_of_within h]
  | succ k ih =>
    rcases State.overload_turn hc with h | ⟨t, ht, kept, hb, -⟩
    · rw [State.overloadFor_of_within h, State.overloadFor_of_within h]
    · rw [ht, ht]
      rcases hb with hb | hb
      · exact ih (kept.classes hc) (by omega)
      · rw [State.overloadFor_of_within hb, State.overloadFor_of_within hb]

theorem State.overloadCheck_load (hc : s.settings.ClassesInRange) : s.overloadCheck.LoadWithinBudget := by
  have := s.burden_le
  have := Bool.toNat_le s.head.headen
  unfold State.overloadCheck
  exact State.overloadFor_load 25 hc (by omega)

theorem State.overloadFor_kept (k : Nat) (s : State) : s.LadderKept (s.overloadFor k) := by
  induction k generalizing s with
  | zero => exact .refl s
  | succ k ih =>
    unfold State.overloadFor
    split
    · exact .refl s
    split
    · exact (s.abort_kept .power).trans (ih _)
    split
    · exact .refl s
    · exact (s.shedLine_kept _).trans (ih _)

theorem State.overloadCheck_kept (s : State) : s.LadderKept s.overloadCheck := s.overloadFor_kept 25

theorem State.BoardWell.overloadFor (h : s.BoardWell) (k : Nat) : (s.overloadFor k).BoardWell := by
  induction k generalizing s with
  | zero => exact h
  | succ k ih =>
    unfold State.overloadFor
    split
    · exact h
    split
    · next hh => exact ih (h.abort hh .power)
    split
    · exact h
    · exact ih (h.shedLine _)

theorem State.BoardWell.overloadCheck (h : s.BoardWell) : s.overloadCheck.BoardWell := h.overloadFor 25

/-- The check goes on after an abort with all its turns. -/
theorem State.overloadCheck_abort (hc : s.settings.ClassesInRange) (h : s.budgetNow < s.load)
    (hh : s.head.headen = true) : s.overloadCheck = (s.abort .power).overloadCheck := by
  have hb := (s.abort .power).burden_le
  rw [State.abort_headen] at hb
  exact (State.overloadFor_abort h hh 24).trans
    (State.overloadFor_succ 24 ((s.abort_kept .power).classes hc) hb).symm

/-- So it does after a shed. -/
theorem State.overloadCheck_shed (hc : s.settings.ClassesInRange) (h : s.budgetNow < s.load)
    (hh : s.head.headen = false) {n : LineNo} (hf : s.shedOrder.find? s.lit = some n) :
    s.overloadCheck = (s.shedLine n).overloadCheck := by
  have hn : s.lit n = true := List.find?_some hf
  refine (State.overloadFor_shed h hh hf 24).trans ?_
  rcases s.shedLine_power n with hp | hw
  · have hb := (s.shedLine n).burden_le
    rw [hp, hh] at hb
    exact (State.overloadFor_succ 24 ((s.shedLine_kept n).classes hc) hb).symm
  · rw [State.overloadFor_of_within hw]
    exact (State.overloadCheck_of_within hw).symm

/-! ### One shed whole (R142) -/

/-- A shed without a dispatch: the line's record, its records, the image and the event (R29, R32, R142). -/
theorem State.shedLine_of_lit {n : LineNo} (hn : s.lit n = true) (hd : s.NoDispatch) :
    s.shedLine n = (s.darkenMarked n).commandPower.raise .lineShed := by
  have hsame : (s.darkenMarked n).commandPower.NoDispatch := by
    have hb := State.darkenMarked_board hn
    have ht : (s.darkenMarked n).tests = s.tests := congrArg Board.tests hb
    have hl : (s.darkenMarked n).ladder = s.ladder := congrArg Board.ladder hb
    show (s.darkenMarked n).tests.current ≠ none ∨ (s.darkenMarked n).ladder.level ≠ 0 ∨ (s.darkenMarked n).tests.queue = []
    rwa [ht, hl]
  rw [State.shedLine, State.leftLit, State.dispatchRetry_of_noDispatch hsame]

/-- The records of a line's exit depend on the records and the line's list alone. -/
theorem State.LeavesService.of_eq {t u : State} {n : LineNo} (h : s.LeavesService t n) (hs : u.slots = s.slots)
    (hm : u.meter = s.meter) (ha : (u.line n).attached = (s.line n).attached) : u.LeavesService t n := by
  have hslot : ∀ i, u.slot i = s.slot i := fun i => by simp only [State.slot, hs]
  have hmoved : u.movedOut n = s.movedOut n := by simp only [State.movedOut, hslot, ha]
  unfold State.LeavesService
  rw [hmoved, hm]
  simp only [hslot]
  exact h

theorem State.EntersService.of_eq {t u : State} {n : LineNo} (h : s.EntersService t n) (hs : u.slots = s.slots)
    (hm : u.meter = s.meter) (ha : (u.line n).attached = (s.line n).attached) : u.EntersService t n := by
  have hslot : ∀ i, u.slot i = s.slot i := fun i => by simp only [State.slot, hs]
  have hmoved : u.movedIn n = s.movedIn n := by simp only [State.movedIn, hslot, ha]
  unfold State.EntersService
  rw [hmoved, hm]
  simp only [hslot]
  exact h

/-- A line's exit from IN_SERVICE after its record is replaced, over an attached list without repeats (R4). -/
theorem State.setLine_leaves (s : State) {n : LineNo} {l : Line} (hl : l.attached = (s.line n).attached)
    (hn : (s.line n).attached.Nodup) : s.LeavesService ((s.setLine n l).leaveService n) n := by
  have ha : ((s.setLine n l).line n).attached = (s.line n).attached := by simp [hl]
  exact ((s.setLine n l).leaveService_leaves n (ha ▸ hn)).1.of_eq rfl rfl ha.symm

theorem State.setLine_enters (s : State) {n : LineNo} {l : Line} (hl : l.attached = (s.line n).attached)
    (hn : (s.line n).attached.Nodup) : s.EntersService ((s.setLine n l).enterService n) n := by
  have ha : ((s.setLine n l).line n).attached = (s.line n).attached := by simp [hl]
  exact ((s.setLine n l).enterService_enters n (ha ▸ hn)).1.of_eq rfl rfl ha.symm

theorem Line.shedOf_attached (l : Line) : l.shedOf.attached = l.attached := by
  unfold Line.shedOf
  split <;> rfl

/-- A darkened line's frame: the line's record, and the record table and the sums where it was IN_SERVICE. -/
theorem State.darkenMarked_frame {n : LineNo} (hn : s.lit n = true) : s.darkenMarked n = { s with
    slots := (s.darkenMarked n).slots
    meter := (s.darkenMarked n).meter
    lines := s.lines.set n (s.line n).shedOf } := by
  rw [State.darkenMarked_of_lit hn]
  split
  · rw [State.leaveService, foldl_moveOut_frame]
    rfl
  · rfl

end

/-- Settles O44: a turn of the check takes a lit line or the head's power away, so that 25 turns are enough. -/
theorem overloadCheckRestoresTheBudget : Obligations.OverloadCheckRestoresTheBudget := by
  unfold Obligations.OverloadCheckRestoresTheBudget
  refine ⟨fun s hr => ⟨State.overloadCheck_of_within, fun h hh x hx => ?_, fun h hh n hn hfirst => ?_,
    State.overloadCheck_load hr.classes⟩, fun s n hn hd => ?_⟩
  · rw [← State.abort_eq_aborted hx]
    exact State.overloadCheck_abort hr.classes h hh
  · exact State.overloadCheck_shed hr.classes h hh (State.find?_shedOrder hr.classes hn hfirst)
  · have kept := s.shedLine_kept n
    have hhead : (s.shedLine n).head = s.head := by rw [State.shedLine_of_lit hn hd]; exact s.darkenMarked_headen n
    have hbit : Event.lineShed.bit = 0x008 := by decide
    refine ⟨?_, fun hs hnodup => ?_, fun hs => ?_, State.shedLine_lit hn,
      kept.load_unlit hn (State.shedLine_lit hn) (by rw [hhead])⟩
    · rw [State.shedLine_of_lit hn hd, State.raise_eq, hbit, State.commandPower, State.darkenMarked_frame hn]
      rfl
    · rw [State.shedLine_of_lit hn hd, State.darkenMarked_of_lit hn, if_pos hs]
      exact s.setLine_leaves (Line.shedOf_attached _) hnodup
    · rw [State.shedLine_of_lit hn hd, State.darkenMarked_of_lit hn, if_neg hs]
      exact ⟨rfl, rfl⟩

end Sys2Proof.Machine
end

