-- ==== Sys2Proof/Proofs/Relight.lean ====
section
/-! The relight pass (R145): what it makes of each line when it comes to it, and the load it leaves. -/

namespace Sys2Proof.Machine

/-! ### One candidate -/

/-- A relight with its cases: a marked DARK line of a class above the level whose cost the budget holds (R145). -/
theorem State.tryRelight_cases (s : State) (n : LineNo) : s.tryRelight n = s
    ∨ ∃ p, (s.line n).state = .rest .dark ∧ (s.line n).shed = some p ∧ s.ladder.level.val < s.settings.shedClass[n]
      ∧ s.load + s.settings.cost[n] ≤ s.budgetNow ∧ s.tryRelight n = s.relight n p := by
  unfold State.tryRelight
  split
  · next p hd hp =>
    split
    · next h => exact .inr ⟨p, hd, hp, h.1, h.2, rfl⟩
    · exact .inl rfl
  · exact .inl rfl

section

variable {s : State}

/-- A candidate is relit exactly where the budget holds its cost (R145). -/
theorem State.tryRelight_of_fits {n : LineNo} {p : PreShed} (hc : s.Candidate n) (hp : (s.line n).shed = some p)
    (h : s.load + s.settings.cost[n] ≤ s.budgetNow) : s.tryRelight n = s.relight n p := by
  obtain ⟨hd, -, hl⟩ := hc
  simp only [State.tryRelight, hd, hp]
  exact if_pos ⟨hl, h⟩

theorem State.relight_board (s : State) (n : LineNo) (p : PreShed) :
    (s.relight n p).board = (s.setLineState n (.rest p.rest) none).commandPower.board := by
  unfold State.relight
  dsimp only
  split
  · exact State.enterService_board _ n
  · rfl

/-- A relight touches the lines, the power chain, the records and the sums alone. -/
theorem State.relight_frame (s : State) (n : LineNo) (p : PreShed) : s.relight n p = { s with
    slots := (s.relight n p).slots
    meter := (s.relight n p).meter
    lines := s.lines.set n { s.line n with state := .rest p.rest, shed := none }
    power := s.power.command (s.setLineState n (.rest p.rest) none).litSet } := by
  unfold State.relight
  dsimp only
  split
  · rw [State.enterService, foldl_moveIn_frame]
    rfl
  · rfl

theorem Line.relitOf_of_shed {l : Line} {p : PreShed} (h : l.shed = some p) :
    l.relitOf = { l with state := .rest p.rest, shed := none } := by
  unfold Line.relitOf
  cases p <;> rw [h] <;> rfl

theorem State.relight_line {n : LineNo} {p : PreShed} (hp : (s.line n).shed = some p) (m : LineNo) :
    (s.relight n p).line m = if n = m then (s.line n).relitOf else s.line m := by
  rw [State.relight_frame, Line.relitOf_of_shed hp]
  exact s.setLine_line n m _

theorem State.relight_lit (n : LineNo) (p : PreShed) (m : LineNo) :
    (s.relight n p).lit m = (s.lit m || m == n) := by
  rw [State.lit_of_board (s.relight_board n p)]
  refine (s.setLineState_lit n m _ _).trans ?_
  by_cases hm : n = m
  · subst hm
    cases p <;> simp [LineState.lit, PreShed.rest, RestState.lit]
  · simp [hm, Ne.symm hm]

theorem State.relight_kept (s : State) (n : LineNo) (p : PreShed) : s.LadderKept (s.relight n p) := by
  have lit : s.LadderKept (s.setLineState n (.rest p.rest) none).commandPower :=
    State.LadderKept.trans (t := s.setLineState n (.rest p.rest) none) ⟨rfl, rfl, rfl, rfl⟩ (State.commandPower_kept _)
  exact lit.trans (.of_board (s.relight_board n p))

theorem State.relight_load {n : LineNo} (hd : (s.line n).state = .rest .dark) (p : PreShed) :
    (s.relight n p).load = s.load + s.settings.cost[n] := by
  refine (s.relight_kept n p).load_lit ?_ (State.relight_lit n p) (by rw [State.relight_frame])
  rw [State.lit, hd]
  rfl

theorem State.BoardWell.relight (h : s.BoardWell) {n : LineNo} (hd : (s.line n).state = .rest .dark) (p : PreShed) :
    (s.relight n p).BoardWell := by
  refine State.BoardWell.of_board ?_ (s.relight_board n p)
  refine (h.but.setLineState n (fun hp => absurd rfl hp) ?_).commandPower
  rw [State.underTest_eq, hd]
  rfl

theorem State.tryRelight_kept (s : State) (n : LineNo) : s.LadderKept (s.tryRelight n) := by
  rcases s.tryRelight_cases n with e | ⟨p, -, -, -, -, e⟩ <;> rw [e]
  · exact .refl s
  · exact s.relight_kept n p

theorem State.BoardWell.tryRelight (h : s.BoardWell) (n : LineNo) : (s.tryRelight n).BoardWell := by
  rcases s.tryRelight_cases n with e | ⟨p, hd, -, -, -, e⟩ <;> rw [e]
  · exact h
  · exact h.relight hd p

theorem State.tryRelight_load (h : s.LoadWithinBudget) (n : LineNo) : (s.tryRelight n).LoadWithinBudget := by
  rcases s.tryRelight_cases n with e | ⟨p, hd, -, -, hb, e⟩ <;> rw [e]
  · exact h
  · rw [State.LoadWithinBudget, State.relight_load hd, (s.relight_kept n p).budgetNow]
    exact hb

/-! ### The pass over a list of lines -/

/-- `t` is `s` but for the records, the sums, the lines and the power chain. -/
def State.LinesPowerOnly (s t : State) : Prop :=
  ∃ slots meter lines power, t = { s with slots := slots, meter := meter, lines := lines, power := power }

theorem State.tryRelight_only (s : State) (n : LineNo) : s.LinesPowerOnly (s.tryRelight n) := by
  rcases s.tryRelight_cases n with e | ⟨p, -, -, -, -, e⟩ <;> rw [e]
  · exact ⟨_, _, _, _, rfl⟩
  · exact ⟨_, _, _, _, s.relight_frame n p⟩

theorem State.foldl_tryRelight_only (l : List LineNo) (s : State) : s.LinesPowerOnly (l.foldl State.tryRelight s) := by
  induction l generalizing s with
  | nil => exact ⟨_, _, _, _, rfl⟩
  | cons n l ih =>
    obtain ⟨a, b, c, d, he⟩ := s.tryRelight_only n
    obtain ⟨a', b', c', d', hf⟩ := ih (s.tryRelight n)
    exact ⟨a', b', c', d', by rw [List.foldl_cons, hf, he]⟩

theorem State.foldl_tryRelight_kept (l : List LineNo) (s : State) : s.LadderKept (l.foldl State.tryRelight s) :=
  .foldl State.tryRelight_kept l s

/-- A line that is not visited is left as it is. -/
theorem State.foldl_tryRelight_line {l : List LineNo} {m : LineNo} (h : m ∉ l) (s : State) :
    (l.foldl State.tryRelight s).line m = s.line m := by
  induction l generalizing s with
  | nil => rfl
  | cons n l ih =>
    obtain ⟨hne, hl⟩ := not_or.1 (List.mem_cons.not.1 h)
    refine (ih hl _).trans ?_
    rcases s.tryRelight_cases n with e | ⟨p, -, hp, -, -, e⟩ <;> rw [e]
    rw [State.relight_line hp, if_neg (Ne.symm hne)]

/-- No line goes dark. -/
theorem State.foldl_tryRelight_lit (l : List LineNo) {s : State} {m : LineNo} (h : s.lit m = true) :
    (l.foldl State.tryRelight s).lit m = true := by
  induction l generalizing s with
  | nil => exact h
  | cons n l ih =>
    refine ih ?_
    rcases s.tryRelight_cases n with e | ⟨p, -, -, -, -, e⟩ <;> rw [e]
    · exact h
    · rw [State.relight_lit, h]; rfl

/-- Where no line goes dark and the head is as it was, the load grows by the costs of the lines newly lit (R141). -/
theorem State.LadderKept.load_newly_lit {t : State} (h : s.LadderKept t) (hl : ∀ m, s.lit m = true → t.lit m = true)
    (hh : t.head = s.head) : t.load = s.load + ((List.finRange 24).map fun m =>
      if s.lit m = false ∧ t.lit m = true then s.settings.cost[m] else 0).sum := by
  have hsum : ((List.finRange 24).map fun m => if t.lit m then s.settings.cost[m] else 0).sum
      = ((List.finRange 24).map fun m => if s.lit m then s.settings.cost[m] else 0).sum
        + ((List.finRange 24).map fun m => if s.lit m = false ∧ t.lit m = true then s.settings.cost[m] else 0).sum := by
    rw [← List.sum_map_add]
    refine congrArg List.sum (List.map_congr_left fun m _ => ?_)
    have := hl m
    cases hs : s.lit m <;> cases ht : t.lit m <;> simp_all
  simp only [State.load, h.settings, hh, hsum]
  omega

theorem State.foldl_tryRelight_load (l : List LineNo) (s : State) : (l.foldl State.tryRelight s).load
    = s.load + ((List.finRange 24).map fun m =>
      if s.lit m = false ∧ (l.foldl State.tryRelight s).lit m = true then s.settings.cost[m] else 0).sum := by
  refine (s.foldl_tryRelight_kept l).load_newly_lit (fun m => State.foldl_tryRelight_lit l) ?_
  obtain ⟨a, b, c, d, e⟩ := s.foldl_tryRelight_only l
  rw [e]

/-! ### The order of the pass -/

theorem State.mem_relightOrder (h : s.settings.ClassesInRange) (n : LineNo) : n ∈ s.relightOrder := by
  obtain ⟨h1, h4⟩ := h n
  simp only [State.relightOrder, List.mem_flatMap, State.mem_linesOfClass]
  refine ⟨s.settings.shedClass[n], ?_, rfl⟩
  simp only [List.mem_cons, List.not_mem_nil]
  omega

theorem State.relightOrder_pairwise (s : State) : s.relightOrder.Pairwise s.Before := by
  refine List.pairwise_flatMap.2 ⟨fun c _ => ?_, ?_⟩
  · have hup : (s.linesOfClass c).Pairwise (· < ·) := List.Pairwise.filter _ (List.pairwise_lt_finRange 24)
    refine List.Pairwise.imp_of_mem (fun hm hn hlt => ?_) hup
    rw [State.mem_linesOfClass] at hm hn
    exact .inr ⟨hn.trans hm.symm, hlt⟩
  · refine List.Pairwise.imp (fun {c d} hcd m hm n hn => ?_) (show [4, 3, 2, 1].Pairwise (· > ·) by decide)
    rw [State.mem_linesOfClass] at hm hn
    exact .inl (by rw [hm, hn]; exact hcd)

theorem State.not_before_of_before {m n : LineNo} (h : s.Before m n) : ¬ s.Before n m := by
  rintro (hb | ⟨he, hb⟩) <;> rcases h with h | ⟨hq, h⟩
  · exact absurd h (Nat.lt_asymm hb)
  · exact absurd hb (Nat.not_lt.2 hq.le)
  · exact absurd h (Nat.not_lt.2 he.le)
  · exact absurd hb (not_lt.2 h.le)

theorem State.not_before_self (n : LineNo) : ¬ s.Before n n := fun h => State.not_before_of_before h h

/-- The state in which the pass comes to a line: the line as it was, and on the load the costs of the lines relit before
it. -/
theorem State.relightPass_at (hc : s.settings.ClassesInRange) (n : LineNo) : ∃ u : State, s.LadderKept u
    ∧ u.line n = s.line n ∧ s.relightPass.line n = (u.tryRelight n).line n
    ∧ u.load = s.load + ((List.finRange 24).map fun m =>
      if s.lit m = false ∧ s.relightPass.lit m = true ∧ s.Before m n then s.settings.cost[m] else 0).sum := by
  obtain ⟨as, bs, hsplit⟩ := List.append_of_mem (State.mem_relightOrder hc n)
  have hpair := s.relightOrder_pairwise
  have hall : ∀ m, m ∈ as ++ n :: bs := fun m => hsplit ▸ State.mem_relightOrder hc m
  rw [hsplit, List.pairwise_append, List.pairwise_cons] at hpair
  obtain ⟨-, ⟨hbs, -⟩, has⟩ := hpair
  have hpass : s.relightPass = bs.foldl State.tryRelight ((as.foldl State.tryRelight s).tryRelight n) := by
    rw [State.relightPass, hsplit, List.foldl_append, List.foldl_cons]
  have hna : n ∉ as := fun h => State.not_before_self n (has n h n (List.mem_cons_self ..))
  have hnb : n ∉ bs := fun h => State.not_before_self n (hbs n h)
  refine ⟨as.foldl State.tryRelight s, s.foldl_tryRelight_kept as, State.foldl_tryRelight_line hna s, ?_, ?_⟩
  · rw [hpass, State.foldl_tryRelight_line hnb]
  · rw [State.foldl_tryRelight_load]
    refine congrArg (fun l => s.load + List.sum l) (List.map_congr_left fun m _ => ?_)
    by_cases hm : m ∈ as
    · have hb : s.Before m n := has m hm n (List.mem_cons_self ..)
      have hlater : m ∉ n :: bs := fun h => State.not_before_self m (has m hm m h)
      have hline : s.relightPass.line m = (as.foldl State.tryRelight s).line m := by
        rw [hpass, ← List.foldl_cons, State.foldl_tryRelight_line hlater]
      exact if_congr (by simp only [State.lit, hline, hb, and_true]) rfl rfl
    · have hb : ¬ s.Before m n := by
        rcases List.mem_append.1 (hall m) with h | h
        · exact absurd h hm
        rcases List.mem_cons.1 h with rfl | h
        · exact State.not_before_self m
        · exact State.not_before_of_before (hbs m h)
      have hlit : (as.foldl State.tryRelight s).lit m = s.lit m := by
        rw [State.lit, State.foldl_tryRelight_line hm, State.lit]
      rw [hlit]
      cases s.lit m <;> simp [hb]

theorem State.relightPass_kept (s : State) : s.LadderKept s.relightPass := s.foldl_tryRelight_kept _

theorem State.relightPass_load (h : s.LoadWithinBudget) : s.relightPass.LoadWithinBudget :=
  List.foldlRecOn _ _ h fun _ hs n _ => State.tryRelight_load hs n

theorem State.BoardWell.relightPass (h : s.BoardWell) : s.relightPass.BoardWell :=
  List.foldlRecOn _ _ h fun _ hs n _ => hs.tryRelight n

end

/-- Settles O45: the pass comes to each line once, with the costs of the lines relit before it on the load. -/
theorem relightPassFillsTheBudgetInOrder : Obligations.RelightPassFillsTheBudgetInOrder := by
  unfold Obligations.RelightPassFillsTheBudgetInOrder
  intro s hr
  refine ⟨fun n => ?_, fun n hn => ?_, s.foldl_tryRelight_load _, State.relightPass_load, ?_⟩
  · obtain ⟨u, kept, hline, hpass, -⟩ := State.relightPass_at hr.classes n
    rcases u.tryRelight_cases n with e | ⟨p, hd, hp, hl, -, e⟩
    · exact .inr (by rw [hpass, e, hline])
    · have hrelit : s.relightPass.line n = (s.line n).relitOf := by
        rw [hpass, e, State.relight_line hp, if_pos rfl, hline]
      rw [hline] at hd hp
      rw [kept.ladder, kept.settings] at hl
      exact .inl ⟨⟨hd, by simp [hp], hl⟩, hrelit⟩
  · obtain ⟨u, kept, hline, hpass, hload⟩ := State.relightPass_at hr.classes n
    have hu : u.Candidate n := by rw [State.Candidate, hline, kept.ladder, kept.settings]; exact hn
    obtain ⟨p, hp⟩ := Option.ne_none_iff_exists'.1 hu.2.1
    rw [← hload, ← kept.budgetNow, ← kept.settings]
    constructor
    · rintro ⟨-, hrelit⟩
      rw [hpass, ← hline] at hrelit
      rcases u.tryRelight_cases n with e | ⟨-, -, -, -, hb, -⟩
      · have hshed := congrArg Line.shed hrelit
        rw [e, Line.relitOf_of_shed hp, hp] at hshed
        cases hshed
      · exact hb
    · intro hb
      refine ⟨hn, hpass.trans ?_⟩
      rw [State.tryRelight_of_fits hu hp hb, State.relight_line hp, if_pos rfl, hline]
  · obtain ⟨slots, meter, lines, power, e⟩ := s.foldl_tryRelight_only s.relightOrder
    rw [State.relightPass, e]

end Sys2Proof.Machine
end

