-- ==== Sys2Proof/Proofs/BoardWork.lean ====
section
/-! The operations of the tests, the head and the ladder: what each keeps of the board and of the budget. -/

namespace Sys2Proof.Machine

/-! ### What every step keeps -/

/-- Lines, chains and tests agree, every shed class is one of Table 67, and the load is within the budget. -/
structure State.Safe (s : State) : Prop where
  board : s.BoardWell
  classes : s.settings.ClassesInRange
  load : s.LoadWithinBudget

/-- The latched image of the power chain is kept, and a safe state left safe. -/
structure State.BoardWork (s t : State) : Prop where
  latched : t.power.latched = s.power.latched
  safe : s.Safe → t.Safe

section

variable {s t u : State}

theorem State.BoardWork.refl (s : State) : s.BoardWork s := ⟨rfl, id⟩

theorem State.BoardWork.trans (h : s.BoardWork t) (g : t.BoardWork u) : s.BoardWork u :=
  ⟨g.latched.trans h.latched, fun hs => g.safe (h.safe hs)⟩

theorem State.Safe.of_board (h : s.Safe) (hb : t.board = s.board) : t.Safe where
  board := h.board.of_board hb
  classes := by rw [show t.settings = s.settings from congrArg Board.settings hb]; exact h.classes
  load := by rw [State.LoadWithinBudget, State.load_of_board hb, State.budgetNow_of_board hb]; exact h.load

/-- An operation of another block: the board is as it was. -/
theorem State.BoardWork.of_board (h : t.board = s.board) : s.BoardWork t :=
  ⟨congrArg (fun b : Board => b.power.latched) h, fun hs => hs.of_board h⟩

theorem State.LadderKept.safe (h : s.LadderKept t) (hs : s.Safe) (hb : t.BoardWell) (hl : t.LoadWithinBudget) : t.Safe :=
  ⟨hb, h.classes hs.classes, hl⟩

theorem State.BoardWork.unlessHeld {f : State → State} (h : s.BoardWork (f s)) : s.BoardWork (s.unlessHeld f) := by
  unfold State.unlessHeld
  split
  · exact .refl s
  · exact h

theorem State.BoardWork.whenDue {b : Bool} {f : State → State} (h : b = true → s.BoardWork (f s)) :
    s.BoardWork (s.whenDue b f) := by
  unfold State.whenDue
  split
  · next hb => exact h hb
  · exact .refl s

/-! ### Tests and the head -/

/-- An operation on the head, the relay chain and the tests alone, which does not power the head. -/
structure State.TestWork (s t : State) : Prop where
  lines : t.lines = s.lines
  power : t.power = s.power
  hold : t.hold = s.hold
  ladder : t.ladder = s.ladder
  settings : t.settings = s.settings
  relay : s.relay.carries = true → t.relay.carries = true
  headen : t.head.headen = true → s.head.headen = true

theorem State.TestWork.lit (h : s.TestWork t) (n : LineNo) : t.lit n = s.lit n := by
  simp only [State.lit, State.line, h.lines]

theorem State.TestWork.underTest (h : s.TestWork t) (n : LineNo) : t.underTest n = s.underTest n := by
  simp only [State.underTest_eq, State.line, h.lines]

theorem State.TestWork.load (h : s.TestWork t) (hl : s.LoadWithinBudget) : t.LoadWithinBudget := by
  have hle : t.load ≤ s.load := by
    have := h.headen
    simp only [State.load, h.lit, h.settings]
    split <;> simp_all
  have hb : t.budgetNow = s.budgetNow := by simp only [State.budgetNow, h.ladder, h.settings]
  rw [State.LoadWithinBudget, hb]
  exact hle.trans hl

/-- What is left to show of such an operation is that the test in flight agrees with the head and the relay image. -/
theorem State.TestWork.boardWork (h : s.TestWork t) (ht : s.TestsWell → t.TestsWell) : s.BoardWork t := by
  refine ⟨by rw [h.power], fun hs => ⟨State.BoardBut.well ⟨fun n => ?_, fun hn => ?_, ht hs.board.tests⟩ ?_, ?_, h.load hs.load⟩⟩
  · simp only [State.line, h.lines]
    exact hs.board.but.marks n
  · obtain ⟨hp, hr⟩ := hs.board.but.chains (h.hold ▸ hn)
    exact ⟨h.power ▸ hp, h.relay hr⟩
  · rw [h.power, litSet_congr h.lit]
    exact hs.board.image
  · rw [h.settings]; exact hs.classes

/-- A stage in which the test holds the pair is not EVALUATE. -/
theorem State.Carries.no_evaluation {x : Test} (h : s.Carries x) (hx : x.stage.holdsPair = true) :
    x.evaluation.isSome = false := by
  rw [h.evaluation]
  cases hst : x.stage <;> simp_all [Stage.holdsPair]

/-- The head starts what the measurement calls for (R104). -/
theorem Head.start_suits (h : Head) (g : Settings) (m : Meas) :
    (h.start (startOf g m)).suits (.measure m) = true := by
  cases m <;> rfl

theorem State.enterDisconnect_testWork (s : State) (h : Head) (y : Test) :
    s.TestWork ((s.withHead h).enterDisconnect y) :=
  ⟨rfl, rfl, rfl, rfl, rfl, fun hr => Chain.command_carries hr 0, fun hh => absurd hh Bool.false_ne_true⟩

/-- The test in flight holds the pair and goes to DISCONNECT, whatever the head did (R123). -/
theorem State.TestsWell.enterDisconnect (hs : s.TestsWell) {x y : Test} (hx : s.tests.current = some x)
    (hp : x.stage.holdsPair = true) (he : y.entry = x.entry) (hv : y.evaluation = x.evaluation) (h : Head) :
    ((s.withHead h).enterDisconnect y).TestsWell := by
  have flight := hs.flight hx
  have work := s.enterDisconnect_testWork h y
  refine hs.goOn (y := y.atStage .disconnect) ⟨fun n => ?_, rfl, rfl, Chain.command_commanded _ _, ?_, .inl rfl⟩ rfl
    work.underTest rfl work.headen
  · rw [work.underTest, flight.line, Test.atStage, he]
  · rw [Test.atStage, hv]
    exact flight.no_evaluation hp

theorem State.proceed_testWork (s : State) (h : Head) (hh : h.headen = s.head.headen) (y : Test) (k : Nat) :
    s.TestWork ((s.withHead h).proceed y k) := by
  have started : ∀ (w : Work × Path) (z : Test), s.TestWork ((s.withHead (h.start w)).withTest z) :=
    fun w z => ⟨rfl, rfl, rfl, rfl, rfl, id, fun hp => hh ▸ hp⟩
  unfold State.proceed
  split
  · exact started _ _
  split
  · exact started _ _
  · exact s.enterDisconnect_testWork h y

/-- The test in flight holds the pair and goes on with its next item (R123). -/
theorem State.TestsWell.proceed (hs : s.TestsWell) {x y : Test} (hx : s.tests.current = some x)
    (hp : x.stage.holdsPair = true) (he : y.entry = x.entry) (hv : y.evaluation = x.evaluation) {h : Head}
    (hh : h.headen = s.head.headen) (k : Nat) : ((s.withHead h).proceed y k).TestsWell := by
  have flight := hs.flight hx
  have started : ∀ (w : Work × Path) (g : Stage), g.holdsPair = true → g ≠ .evaluate → (h.start w).suits g = true →
      ((s.withHead (h.start w)).withTest (y.atStage g)).TestsWell := by
    intro w g hg hne hsuits
    refine hs.goOn (y := y.atStage g) ⟨fun n => ?_, ?_, hsuits, ?_, ?_, .inl rfl⟩ rfl (fun _ => rfl) rfl (fun hp => hh ▸ hp)
    · exact (flight.line n).trans (by rw [Test.atStage, he])
    · exact hh.trans (flight.headen.trans (hp.trans hg.symm))
    · refine flight.relay.trans ?_
      rw [if_pos hp, Test.atStage, he]
      exact (if_pos hg).symm
    · rw [Test.atStage, hv, flight.no_evaluation hp]
      exact (beq_eq_false_iff_ne.2 hne).symm
  unfold State.proceed
  split
  · next m _ => exact started _ (.measure m) rfl (by simp) (h.start_suits s.settings m)
  split
  · next v _ => exact started (.tone v, .drive) .tone rfl (by simp) rfl
  · exact hs.enterDisconnect hx hp he hv h

/-- The head works on a measurement. -/
theorem State.TestsWell.measuring (hs : s.TestsWell) {m : Meas} (hm : ∀ g, s.head.suits g = (g == .measure m)) :
    ∃ x, s.tests.current = some x ∧ x.stage = .measure m := by
  cases hx : s.tests.current with
  | none =>
    obtain ⟨-, hidle, -⟩ := (testWell_idle_iff hx).1 hs.1
    have := hm .connect
    simp [Head.suits, hidle] at this
  | some x =>
    have := (hs.flight hx).suits
    rw [hm] at this
    exact ⟨x, rfl, beq_iff_eq.1 this⟩

theorem State.completeMeasure_boardWork (s : State) (m : Meas) (r : Result)
    (hm : ∀ g, s.head.suits g = (g == .measure m)) : s.BoardWork (s.completeMeasure m r) := by
  unfold State.completeMeasure
  dsimp only
  split
  · next hx =>
    refine State.TestWork.boardWork ⟨rfl, rfl, rfl, rfl, rfl, id, id⟩ fun hs => ?_
    obtain ⟨x, hx', -⟩ := hs.measuring hm
    rw [show s.tests.current = none from hx] at hx'
    cases hx'
  · next x hx =>
    have hx : s.tests.current = some x := hx
    refine (s.proceed_testWork s.head.toIdle rfl _ _).boardWork fun hs => ?_
    obtain ⟨z, hz, hst⟩ := hs.measuring hm
    obtain rfl := Option.some.inj (hx.symm.trans hz)
    refine hs.proceed (x := x) hx ?_ ?_ ?_ ?_ _
    · rw [hst]; rfl
    all_goals rfl

/-- The head plays the tone of the test in flight. -/
theorem State.TestsWell.playing (hs : s.TestsWell) (hm : ∀ g, s.head.suits g = (g == .tone)) :
    ∃ x, s.tests.current = some x ∧ x.stage = .tone := by
  cases hx : s.tests.current with
  | none =>
    obtain ⟨-, hidle, -⟩ := (testWell_idle_iff hx).1 hs.1
    have := hm .connect
    simp [Head.suits, hidle] at this
  | some x =>
    have := (hs.flight hx).suits
    rw [hm] at this
    exact ⟨x, rfl, beq_iff_eq.1 this⟩

theorem State.completeTone_boardWork (s : State) (hm : ∀ g, s.head.suits g = (g == .tone)) :
    s.BoardWork s.completeTone := by
  unfold State.completeTone
  dsimp only
  split
  · next hx =>
    refine State.TestWork.boardWork ⟨rfl, rfl, rfl, rfl, rfl, id, id⟩ fun hs => ?_
    obtain ⟨x, hx', -⟩ := hs.playing hm
    rw [show s.tests.current = none from hx] at hx'
    cases hx'
  · next x hx =>
    have hx : s.tests.current = some x := hx
    refine (s.enterDisconnect_testWork s.head.toIdle _).boardWork fun hs => ?_
    obtain ⟨z, hz, hst⟩ := hs.playing hm
    obtain rfl := Option.some.inj (hx.symm.trans hz)
    refine hs.enterDisconnect (x := x) hx ?_ ?_ ?_ _
    · rw [hst]; rfl
    all_goals rfl

/-- Only an idle head suits CONNECT. -/
theorem Head.suits_connect_iff (h : Head) : h.suits .connect = true ↔ h.phase = .idle := by
  unfold Head.suits
  split <;> simp_all

/-- The head's work goes on within its item. -/
theorem State.withHead_boardWork (s : State) (h : Head) (hh : h.headen = s.head.headen)
    (hsuits : ∀ g, h.suits g = s.head.suits g) : s.BoardWork (s.withHead h) := by
  refine State.TestWork.boardWork ⟨rfl, rfl, rfl, rfl, rfl, id, fun hp => hh ▸ hp⟩ fun hs => ?_
  have hlevel : h.headen = true → s.ladder.level = 0 := by
    obtain ⟨-, -, -, -, hlevel, -⟩ := hs
    exact fun hp => hlevel (hh ▸ hp)
  obtain ⟨htest, hlen, hnodup, hqueue, -, hsampled⟩ := hs
  refine ⟨?_, hlen, hnodup, hqueue, hlevel, hsampled⟩
  cases hx : s.tests.current with
  | none =>
    obtain ⟨hoff, hidle, hrelay, hno⟩ := (testWell_idle_iff hx).1 htest
    refine (testWell_idle_iff (s := s.withHead h) hx).2 ⟨hh.trans hoff, ?_, hrelay, hno⟩
    exact h.suits_connect_iff.1 ((hsuits .connect).trans (s.head.suits_connect_iff.2 hidle))
  | some x =>
    have flight := (testWell_flight_iff hx).1 htest
    exact (testWell_flight_iff (s := s.withHead h) hx).2 ⟨flight.line, hh.trans flight.headen,
      (hsuits _).trans flight.suits, flight.relay, flight.evaluation, flight.settle⟩

theorem Head.pathSettled_suits (h : Head) (capin : Bool) (g : Stage) : (h.pathSettled capin).suits g = h.suits g := by
  rcases h with ⟨headen, phase, path, tchg, tone, osc, timer⟩
  cases phase with
  | pathSettle w => cases w <;> cases capin <;> rfl
  | idle | sampling | refGate | pairGate | charge | discharge | toneOn | toneOff => rfl

theorem Head.pathSettled_headen (h : Head) (capin : Bool) : (h.pathSettled capin).headen = h.headen := by
  unfold Head.pathSettled
  cases capin <;> split <;> rfl

/-! ### The relay chain -/

/-- The strobe, and the settle wait that it begins (R99, R101). -/
theorem State.latchRelay_boardWork (s : State) (image : Image) : s.BoardWork (s.latchRelay image) := by
  have strobed : ∀ u : Tests, s.TestWork ((s.withRelay s.relay.strobe).withTests u) :=
    fun u => ⟨rfl, rfl, rfl, rfl, rfl, Chain.strobe_carries, id⟩
  have kept : s.TestsWell → (s.withRelay s.relay.strobe).TestsWell := fun hs =>
    hs.congr (fun _ => rfl) rfl (Chain.strobe_commanded _) rfl rfl
  unfold State.latchRelay
  dsimp only
  split
  · exact (strobed s.tests).boardWork kept
  next x hx =>
  split
  · next ha =>
    refine (strobed _).boardWork fun hs => ?_
    have flight := hs.flight hx
    refine hs.goOn (y := { x with settle := some s.settings.relaySettle }) ⟨flight.line, flight.headen, flight.suits, ?_,
      flight.evaluation, ?_⟩ rfl (fun _ => rfl) rfl id
    · exact (Chain.strobe_commanded _).trans flight.relay
    · refine .inr ?_
      unfold Test.awaits at ha
      cases hst : x.stage <;> simp_all
  · exact (strobed s.tests).boardWork kept

/-- The end of a settle wait (R101, R123, R124). -/
theorem State.settled_boardWork (s : State) {x : Test} (hx : s.tests.current = some x) : s.BoardWork (s.settled x) := by
  unfold State.settled
  split
  · next hst =>
    refine (s.proceed_testWork s.head rfl x 0).boardWork fun hs => ?_
    exact hs.proceed hx (by rw [hst]; rfl) rfl rfl rfl 0
  · next hst =>
    refine State.TestWork.boardWork ⟨rfl, rfl, rfl, rfl, rfl, id, id⟩ fun hs => ?_
    have flight := hs.flight hx
    rw [State.withTest]
    refine hs.goOn (y := { x.atStage .evaluate with evaluation := some (x.evaluate s.settings) })
      ⟨flight.line, flight.headen.trans ?_, ?_, flight.relay.trans ?_, rfl, .inl rfl⟩ rfl (fun _ => rfl) rfl id
    · rw [hst]; rfl
    · have hidle := flight.suits
      rw [hst] at hidle
      unfold Head.suits at hidle ⊢
      split at hidle <;> simp_all [Test.atStage]
    · rw [hst]; rfl
  all_goals exact .refl s

/-! ### The test queue -/

theorem State.dispatchRetry_boardWork (s : State) : s.BoardWork s.dispatchRetry :=
  ⟨s.dispatchRetry_kept.latched, fun hs =>
    s.dispatchRetry_kept.safe hs hs.board.dispatchRetry (State.dispatchRetry_load hs.load)⟩

/-- The queue replaced by entries that wait for lines not under test, each once (R118, R119). -/
theorem State.withQueue_boardWork (s : State) (q : List TestEntry) (hlen : s.tests.queue.length ≤ 8 → q.length ≤ 8)
    (hnodup : (s.tests.queue.map TestEntry.line).Nodup → (q.map TestEntry.line).Nodup)
    (hq : ∀ e ∈ q, e ∈ s.tests.queue ∨ s.underTest e.line = false) :
    s.BoardWork (s.withTests { s.tests with queue := q }) := by
  refine State.TestWork.boardWork ⟨rfl, rfl, rfl, rfl, rfl, id, id⟩ fun hs => ?_
  obtain ⟨htest, hl, hn, hqueue, hlevel, hsampled⟩ := hs
  exact ⟨htest, hlen hl, hnodup hn, fun e he => (hq e he).elim (hqueue e) id, hlevel, hsampled⟩

theorem actRequestTest_boardWork (args : List Word16) (s : State) : s.BoardWork (actRequestTest args s).state := by
  unfold actRequestTest
  split
  · exact .refl s
  split
  · exact .refl s
  split
  · exact .refl s
  split
  · exact .refl s
  next n _ _ hdup hfull =>
  obtain ⟨hnq, hnu⟩ : s.queued n = false ∧ s.underTest n = false := by simpa using hdup
  refine State.BoardWork.trans ?_ (State.dispatchRetry_boardWork _)
  refine s.withQueue_boardWork _ (fun _ => ?_) (fun hn => ?_) fun e he => ?_
  · rw [List.length_append, List.length_singleton]
    omega
  · rw [List.map_append, List.nodup_append]
    refine ⟨hn, List.nodup_singleton _, fun a ha b hb => ?_⟩
    obtain ⟨e, he, rfl⟩ := List.mem_map.1 ha
    obtain rfl : b = n := by simpa [requestedEntry] using hb
    simp only [State.queued, List.any_eq_false, beq_iff_eq] at hnq
    exact hnq e he
  · rcases List.mem_append.1 he with he | he
    · exact .inl he
    · rw [List.mem_singleton.1 he]
      exact .inr hnu

theorem State.abort_testWork (s : State) (c : Cause) : s.TestWork (s.abort c) := by
  rw [State.abort_eq]
  exact ⟨rfl, rfl, rfl, rfl, rfl, fun hr => Chain.command_carries hr 0, fun hh => absurd hh Bool.false_ne_true⟩

/-- An abort of a test that holds the pair (R125). -/
theorem State.TestsWell.abort (hs : s.TestsWell) {x : Test} (hx : s.tests.current = some x)
    (hp : x.stage.holdsPair = true) (c : Cause) : (s.abort c).TestsWell := by
  have flight := hs.flight hx
  rw [State.abort_eq_aborted hx]
  refine hs.goOn (y := { x with stage := .disconnect, settle := none, abort := some c })
    ⟨flight.line, rfl, rfl, Chain.command_commanded _ _, flight.no_evaluation hp, .inl rfl⟩ rfl (fun _ => rfl) rfl ?_
  exact fun hh => absurd hh Bool.false_ne_true

theorem State.cancelTest_boardWork (s : State) (n : LineNo) : s.BoardWork (s.cancelTest n).1 := by
  unfold State.cancelTest
  split
  · refine s.withQueue_boardWork _ (fun h => (List.length_filter_le ..).trans h) (fun h => ?_)
      fun e he => .inl (List.mem_filter.1 he).1
    exact h.sublist (List.filter_sublist.map _)
  split
  · exact .refl s
  next x hx =>
  split
  · split
    · next hp => exact (s.abort_testWork .host).boardWork fun hs => hs.abort hx hp .host
    · exact .refl s
  · exact .refl s

/-! ### The ladder -/

/-- The ladder's registers change, its level does not. -/
theorem State.withLadder_safe (h : s.Safe) {d : Ladder} (hlevel : d.level = s.ladder.level)
    (hsampled : d.sampled = false → d.level = 3 ∧ d.rise = 0 ∧ d.fall = 0) : (s.withLadder d).Safe := by
  obtain ⟨htest, hl, hn, hqueue, hpowered, -⟩ := h.board.tests
  refine ⟨⟨h.board.lines, htest, hl, hn, hqueue, fun hp => hlevel.trans (hpowered hp), hsampled⟩, h.classes, ?_⟩
  have hb : (s.withLadder d).budgetNow = s.budgetNow := by simp [State.budgetNow, hlevel]
  rw [State.LoadWithinBudget, hb]
  exact h.load

/-- Outside the level, the counters and the sampled flag nothing of the ladder matters. -/
theorem State.withLadder_boardWork (s : State) {d : Ladder} (hlevel : d.level = s.ladder.level)
    (hsampled : d.sampled = s.ladder.sampled) (hrise : d.rise = s.ladder.rise) (hfall : d.fall = s.ladder.fall) :
    s.BoardWork (s.withLadder d) := by
  refine ⟨rfl, fun h => State.withLadder_safe h hlevel fun hd => ?_⟩
  obtain ⟨-, -, -, -, -, hs⟩ := h.board.tests
  obtain ⟨h3, hr, hf⟩ := hs (hsampled ▸ hd)
  exact ⟨hlevel.trans h3, hrise.trans hr, hfall.trans hf⟩

/-- The level changes with the head off, after the initial sample. -/
theorem State.BoardWell.atLevel (h : s.BoardWell) (hoff : s.head.headen = false) (hsampled : s.ladder.sampled = true)
    (l : Level) : (s.atLevel l).BoardWell := by
  obtain ⟨htest, hl, hn, hqueue, -, -⟩ := h.tests
  refine ⟨h.lines, htest, hl, hn, hqueue, fun hp => ?_, fun hs => ?_⟩
  · exact absurd ((show s.head.headen = true from hp).symm.trans hoff) (by simp)
  · exact absurd ((show s.ladder.sampled = false from hs).symm.trans hsampled) (by simp)

theorem State.abort_atLevel (s : State) (l : Level) (c : Cause) : (s.atLevel l).abort c = (s.abort c).atLevel l := by
  have ht : (s.atLevel l).tests = s.tests := rfl
  unfold State.abort
  rw [ht]
  split <;> rfl

theorem State.riseShed_kept (s : State) (n : LineNo) : s.LadderKept (s.riseShed n) := by
  unfold State.riseShed
  split
  · exact s.shedLine_kept n
  · exact .refl s

theorem State.BoardWell.riseShed (h : s.BoardWell) (n : LineNo) : (s.riseShed n).BoardWell := by
  unfold State.riseShed
  split
  · exact h.shedLine n
  · exact h

/-- The head is off before the sheds of a rise (R146). -/
def State.unpowered (s : State) : State := if s.head.headen then s.abort .power else s

theorem State.unpowered_kept (s : State) : s.LadderKept s.unpowered := by
  unfold State.unpowered
  split
  · exact s.abort_kept .power
  · exact .refl s

theorem State.unpowered_headen (s : State) : s.unpowered.head.headen = false := by
  unfold State.unpowered
  split
  · exact s.abort_headen .power
  · next h => exact Bool.eq_false_iff.2 h

theorem State.BoardWell.unpowered (h : s.BoardWell) : s.unpowered.BoardWell := by
  unfold State.unpowered
  split
  · next hh => exact h.abort hh .power
  · exact h

theorem State.levelRise_eq (s : State) (l : Level) : s.levelRise l
    = ((((List.finRange 24).foldl State.riseShed (s.unpowered.atLevel l)).overloadCheck).raise
      .levelChanged).dispatchRetry := by
  have h : (if s.head.headen then (s.atLevel l).abort .power else s.atLevel l) = s.unpowered.atLevel l := by
    unfold State.unpowered
    split
    · exact s.abort_atLevel l .power
    · rfl
  unfold State.levelRise
  rw [h]

/-- The overload check leaves a board that agrees safe. -/
theorem State.BoardWell.overloadCheck_safe (h : s.BoardWell) (hc : s.settings.ClassesInRange) : s.overloadCheck.Safe :=
  ⟨h.overloadCheck, s.overloadCheck_kept.classes hc, State.overloadCheck_load hc⟩

theorem State.raise_board (s : State) (e : Event) : (s.raise e).board = s.board := rfl

theorem State.levelRise_latched (s : State) (l : Level) : (s.levelRise l).power.latched = s.power.latched := by
  rw [State.levelRise_eq]
  have sheds := State.LadderKept.foldl State.riseShed_kept (List.finRange 24) (s.unpowered.atLevel l)
  generalize (List.finRange 24).foldl State.riseShed (s.unpowered.atLevel l) = u at sheds ⊢
  have retried := (u.overloadCheck.raise .levelChanged).dispatchRetry_kept
  have told : u.overloadCheck.LadderKept (u.overloadCheck.raise .levelChanged) := .of_board (State.raise_board _ _)
  exact ((sheds.trans u.overloadCheck_kept).trans (told.trans retried)).latched.trans s.unpowered_kept.latched

theorem State.Safe.levelRise (h : s.Safe) (hsampled : s.ladder.sampled = true) (l : Level) : (s.levelRise l).Safe := by
  rw [State.levelRise_eq]
  have hlevel : (s.unpowered.atLevel l).BoardWell :=
    h.board.unpowered.atLevel s.unpowered_headen (by rw [s.unpowered_kept.ladder, hsampled]) l
  have hsheds : ((List.finRange 24).foldl State.riseShed (s.unpowered.atLevel l)).BoardWell :=
    List.foldlRecOn _ _ hlevel fun _ hu n _ => hu.riseShed n
  have hclasses : ((List.finRange 24).foldl State.riseShed (s.unpowered.atLevel l)).settings.ClassesInRange :=
    (State.LadderKept.foldl State.riseShed_kept _ _).classes (s := s.unpowered.atLevel l)
      (s.unpowered_kept.classes h.classes)
  exact (State.dispatchRetry_boardWork _).safe ((hsheds.overloadCheck_safe hclasses).of_board (State.raise_board _ _))

theorem State.relightPass_boardWork (s : State) : s.BoardWork s.relightPass :=
  ⟨s.relightPass_kept.latched, fun hs =>
    s.relightPass_kept.safe hs hs.board.relightPass (State.relightPass_load hs.load)⟩

theorem State.levelFall_latched (s : State) (l : Level) : (s.levelFall l).power.latched = s.power.latched :=
  (State.dispatchRetry_kept _).latched.trans
    ((State.relightPass_kept _).latched.trans (State.overloadCheck_kept _).latched)

theorem State.Safe.levelFall (h : s.Safe) (hsampled : s.ladder.sampled = true) (hoff : s.head.headen = false)
    (l : Level) : (s.levelFall l).Safe := by
  have checked : (s.atLevel l).overloadCheck.Safe := (h.board.atLevel hoff hsampled l).overloadCheck_safe h.classes
  have relit := (State.relightPass_boardWork _).safe checked
  exact (State.dispatchRetry_boardWork _).safe (relit.of_board (State.raise_board _ _))

theorem State.hysteresis_latched (s : State) (target : Level) :
    (s.hysteresis target).power.latched = s.power.latched := by
  unfold State.hysteresis
  dsimp only
  split
  · split
    · exact s.levelRise_latched target
    · exact (State.relightPass_kept _).latched
  split
  · split
    · exact s.levelFall_latched target
    · exact (State.relightPass_kept _).latched
  · exact (State.relightPass_kept _).latched

theorem State.Safe.hysteresis (h : s.Safe) (hsampled : s.ladder.sampled = true) (target : Level) :
    (s.hysteresis target).Safe := by
  have counted : ∀ rise fall, (s.withLadder { s.ladder with rise := rise, fall := fall }).relightPass.Safe :=
    fun rise fall => (State.relightPass_boardWork _).safe
      (State.withLadder_safe h rfl fun hs => absurd (hs.symm.trans hsampled) (by simp))
  unfold State.hysteresis
  dsimp only
  split
  · split
    · exact h.levelRise hsampled target
    · exact counted _ _
  split
  · next hlt =>
    split
    · exact h.levelFall hsampled (h.board.tests.unpowered (Fin.ne_of_gt ((Fin.zero_le _).trans_lt hlt))) target
    · exact counted _ _
  · exact counted _ _

theorem State.initialSample_latched (s : State) (target : Level) :
    (s.initialSample target).power.latched = s.power.latched := by
  unfold State.initialSample
  split
  · exact s.levelFall_latched target
  · exact s.relightPass_kept.latched

theorem State.Safe.initialSample (h : s.Safe) (hsampled : s.ladder.sampled = true) (hoff : s.head.headen = false)
    (target : Level) : (s.initialSample target).Safe := by
  unfold State.initialSample
  split
  · exact h.levelFall hsampled hoff target
  · exact s.relightPass_boardWork.safe h

/-- The ladder's registers as a sample end keeps them, before the level follows (R138). -/
def State.sampled (s : State) (band : Fin 8) (mains : Bool) : State := s.withLadder { s.ladder with
  band := band, mains := mains, target := targetOf s.settings band mains, sampled := true, sampler := .idle }

theorem State.endSample_eq (s : State) (band : Fin 8) (mains : Bool) : s.endSample band mains
    = if s.ladder.sampled then (s.sampled band mains).hysteresis (targetOf s.settings band mains)
      else (s.sampled band mains).initialSample (targetOf s.settings band mains) := rfl

theorem State.endSample_boardWork (s : State) (band : Fin 8) (mains : Bool) : s.BoardWork (s.endSample band mains) := by
  have kept : s.Safe → (s.sampled band mains).Safe := fun h =>
    State.withLadder_safe h rfl fun hs => absurd hs.symm (by simp)
  have flag : (s.sampled band mains).ladder.sampled = true := rfl
  rw [State.endSample_eq]
  split
  · exact ⟨(s.sampled band mains).hysteresis_latched _, fun h => (kept h).hysteresis flag _⟩
  · next hfirst =>
    refine ⟨(s.sampled band mains).initialSample_latched _, fun h => (kept h).initialSample flag ?_ _⟩
    obtain ⟨-, -, -, -, -, hs⟩ := h.board.tests
    obtain ⟨h3, -⟩ := hs (Bool.eq_false_iff.2 hfirst)
    exact h.board.tests.unpowered (by rw [h3]; decide)

end

end Sys2Proof.Machine
end

