-- ==== Sys2Proof/Proofs/BoardSteps.lean ====
section
/-! Every command keeps the lines, the chains, the tests and the load in agreement. -/

namespace Sys2Proof.Machine

section

variable {s t : State}

/-! ### The line commands (R35 to R39) -/

/-- A line that LIGHT LINE lights becomes SUSPENDED as a relit one does (R29, R35). -/
theorem State.relight_suspended (s : State) (n : LineNo) :
    s.relight n .suspended = (s.setLineState n (.rest .suspended) none).commandPower := rfl

/-- A line enters the lit set with a new image, its cost within the budget (R32, R35). -/
theorem lightLine_boardWork (n : LineNo) (s : State) : s.BoardWork (lightLine n s).1 := by
  unfold lightLine
  split
  · next hd =>
    split
    · exact .refl s
    split
    · exact .refl s
    next hb =>
    have kept := s.relight_kept n .suspended
    refine ⟨kept.latched, fun hs => kept.safe hs (hs.board.relight hd .suspended) ?_⟩
    rw [State.LoadWithinBudget, kept.budgetNow, State.relight_load hd]
    exact Nat.not_lt.1 hb
  · exact .refl s

/-- A line's record changes, lit or not and UNDER_TEST or not as before. -/
theorem State.setLineState_boardWork (s : State) (n : LineNo) {st : LineState} {p : Option PreShed}
    (hm : s.BoardBut → p ≠ none → st = .rest .dark ∨ st = .underTest .dark) (hu : st.isTested = s.underTest n)
    (hl : st.lit = s.lit n) : s.BoardWork (s.setLineState n st p) := by
  have kept : s.LadderKept (s.setLineState n st p) := ⟨rfl, rfl, rfl, rfl⟩
  refine ⟨rfl, fun hs => kept.safe hs (hs.board.setLineState n (hm hs.board.but) hu hl) ?_⟩
  rw [State.LoadWithinBudget, kept.budgetNow, kept.load (State.setLineState_lit_same hl p) rfl]
  exact hs.load

/-- A lit line goes dark without a mark and leaves the lit set (R32, R38). -/
theorem State.darken_boardWork {n : LineNo} {st : LineState} (hlit : s.lit n = true) (hdark : st.lit = false)
    (hu : st.isTested = s.underTest n) (hb : t.board = (s.setLineState n st none).board) : s.BoardWork t.leftLit := by
  have kept : s.LadderKept t.commandPower :=
    State.LadderKept.trans (t := s.setLineState n st none) ⟨rfl, rfl, rfl, rfl⟩
      ((State.LadderKept.of_board hb).trans t.commandPower_kept)
  have hunlit : ∀ m, t.commandPower.lit m = (s.lit m && m != n) := by
    intro m
    refine (State.lit_of_board hb m).trans ((s.setLineState_lit n m _ _).trans ?_)
    by_cases hm : n = m
    · simp [hm, hdark]
    · simp [hm, Ne.symm hm]
  have dark : s.BoardWork t.commandPower := by
    refine ⟨kept.latched, fun hs => kept.safe hs ?_ ?_⟩
    · exact ((hs.board.but.setLineState n (fun hp => absurd rfl hp) hu).of_board hb).commandPower
    · have hload := kept.load_unlit hlit hunlit (congrArg (fun b : Board => b.head.headen) hb)
      have hs := hs.load
      rw [State.LoadWithinBudget] at hs ⊢
      rw [kept.budgetNow]
      omega
  exact dark.trans t.commandPower.dispatchRetry_boardWork

theorem serveLine_boardWork (n : LineNo) (s : State) : s.BoardWork (serveLine n s).1 := by
  unfold serveLine
  split
  · next h =>
    refine State.BoardWork.trans (s.setLineState_boardWork n (fun hb hp => ?_) ?_ ?_) (.of_board (State.enterService_board _ n))
    · exact absurd (hb.unmarked (by simp [h]) (by simp [h])) hp
    · rw [State.underTest_eq, h]; rfl
    · rw [State.lit, h]; rfl
  · exact .refl s

theorem suspendLine_boardWork (n : LineNo) (s : State) : s.BoardWork (suspendLine n s).1 := by
  unfold suspendLine
  split
  · next h =>
    refine State.BoardWork.trans (s.setLineState_boardWork n (fun hb hp => ?_) ?_ ?_) (.of_board (State.leaveService_board _ n))
    · exact absurd (hb.unmarked (by simp [h]) (by simp [h])) hp
    · rw [State.underTest_eq, h]; rfl
    · rw [State.lit, h]; rfl
  · next h =>
    refine s.setLineState_boardWork n (fun hb hp => ?_) ?_ ?_
    · exact absurd (hb.unmarked (by simp [h]) (by simp [h])) hp
    · rw [State.underTest_eq, h]; rfl
    · rw [State.lit, h]; rfl
  all_goals exact .refl s

theorem darkenLine_boardWork (n : LineNo) (s : State) : s.BoardWork (darkenLine n s).1 := by
  have unmark : ∀ st, (s.line n).state = st → s.BoardWork (s.setLineState n st none) := by
    intro st h
    refine s.setLineState_boardWork n (fun _ hp => absurd rfl hp) ?_ ?_
    · rw [State.underTest_eq, h]
    · rw [State.lit, h]
  unfold darkenLine
  split
  · next h =>
    exact State.darken_boardWork (by rw [State.lit, h]; rfl) rfl (by rw [State.underTest_eq, h]; rfl) rfl
  · next h =>
    exact State.darken_boardWork (by rw [State.lit, h]; rfl) rfl (by rw [State.underTest_eq, h]; rfl)
      (State.leaveService_board _ n)
  · next h =>
    split
    · exact unmark _ h
    · exact .refl s
  · next h =>
    exact State.darken_boardWork (by rw [State.lit, h]; rfl) rfl (by rw [State.underTest_eq, h]; rfl) rfl
  · next h =>
    exact State.darken_boardWork (by rw [State.lit, h]; rfl) rfl (by rw [State.underTest_eq, h]; rfl) rfl
  · next h =>
    split
    · exact unmark _ h
    · exact .refl s
  all_goals exact .refl s

theorem clearFault_boardWork (n : LineNo) (s : State) : s.BoardWork (clearFault n s).1 := by
  unfold clearFault
  split
  · next h =>
    refine s.setLineState_boardWork n (fun _ hp => absurd rfl hp) ?_ ?_
    · rw [State.underTest_eq, h]; rfl
    · rw [State.lit, h]; rfl
  · exact .refl s

theorem lineCommand_boardWork {act : LineAct} (h : ∀ (n : LineNo) (u : State), u.BoardWork (act n u).1)
    (args : List Word16) (u : State) : u.BoardWork (lineCommand act args u).state := by
  unfold lineCommand
  split
  · exact .refl u
  · exact h _ u

/-! ### The settings (R144, R168) -/

/-- A written shed class is one of Table 67, and no other setting changes one. -/
theorem Settings.ClassesInRange.write {g : Settings} (h : g.ClassesInRange) (id : SettingId) (v : BitVec 32) :
    (g.write id v).ClassesInRange := by
  cases id with
  | shedClass k =>
    intro n
    simp only [Settings.write, Fin.getElem_fin, Vector.getElem_set]
    split
    · exact clampNat_mem (by decide)
    · exact h n
  | cyclePeriod | budget | bandMap | threshold | riseCount | fallCount | samplePeriod | relaySettle | gateTime | rref | kc
  | headCost | cost | window => exact h

/-- A setting that the load check does not watch changes no cost and no budget (R141, R144). -/
theorem SettingId.write_of_unchecked {id : SettingId} (h : id.checksLoad = false) (g : Settings) (v : BitVec 32) :
    (g.write id v).budget = g.budget ∧ (g.write id v).cost = g.cost ∧ (g.write id v).headCost = g.headCost := by
  cases id with
  | budget | cost | headCost => exact absurd h (by simp [SettingId.checksLoad])
  | cyclePeriod | bandMap | threshold | riseCount | fallCount | samplePeriod | relaySettle | gateTime | rref | kc
  | shedClass | window => exact ⟨rfl, rfl, rfl⟩

theorem State.writeSetting_boardWork (s : State) (id : SettingId) (v : BitVec 32) : s.BoardWork (s.writeSetting id v) := by
  have written : s.BoardWell → (s.withSettings (s.settings.write id v)).BoardWell := fun h => ⟨h.lines, h.tests⟩
  unfold State.writeSetting
  dsimp only
  cases hid : id.checksLoad with
  | true =>
    rw [if_pos rfl]
    refine ⟨(State.dispatchRetry_kept _).latched.trans (State.overloadCheck_kept _).latched, fun hs => ?_⟩
    exact (State.dispatchRetry_boardWork _).safe ((written hs.board).overloadCheck_safe (hs.classes.write id v))
  | false =>
    rw [if_neg Bool.false_ne_true]
    obtain ⟨hb, hc, hh⟩ := SettingId.write_of_unchecked hid s.settings v
    refine ⟨rfl, fun hs => ⟨written hs.board, hs.classes.write id v, ?_⟩⟩
    have hload : (s.withSettings (s.settings.write id v)).load = s.load := load_congr (fun _ => rfl) hc rfl hh
    have hbudget : (s.withSettings (s.settings.write id v)).budgetNow = s.budgetNow := by simp [State.budgetNow, hb]
    rw [State.LoadWithinBudget, hload, hbudget]
    exact hs.load

theorem actWriteSetting_boardWork (args : List Word16) (u : State) : u.BoardWork (actWriteSetting args u).state := by
  unfold actWriteSetting
  split
  · exact .refl u
  · exact u.writeSetting_boardWork _ _

end

/-! ### The test completion (R132, R133) -/

section

variable {s : State}

/-- Table 54 lights no line that its return state leaves unlit, and keeps a lit one lit unless the line is held. -/
theorem stateAfterTest_lit (holds : Bool) (verdict : TestVerdict) (ret : RestState) :
    (stateAfterTest holds verdict ret).lit = (ret.lit && !holds) := by
  unfold stateAfterTest
  cases holds <;> cases ret
  case false.faulted =>
    by_cases h : verdict = .good ∨ verdict = .marginal <;> simp [h, RestState.lit]
  all_goals rfl

/-- A lit line that a test leaves unlit is FAULTED (R132). -/
theorem stateAfterTest_faulted {holds : Bool} {verdict : TestVerdict} {ret : RestState} (h : ret.lit = true)
    (hu : (stateAfterTest holds verdict ret).lit = false) : stateAfterTest holds verdict ret = .faulted := by
  rw [stateAfterTest_lit, h] at hu
  have : holds = true := by simpa using hu
  simp [stateAfterTest, this]

/-- The mark that a test leaves stands on a DARK line (R28, R132). -/
theorem shedAfterTest_dark {holds : Bool} {ret : RestState} {shed : Option PreShed}
    (h : shedAfterTest holds ret shed ≠ none) (verdict : TestVerdict) : stateAfterTest holds verdict ret = .dark := by
  unfold shedAfterTest at h
  cases holds <;> simp_all [stateAfterTest]

/-- The test in flight discarded (R133). -/
def State.withoutTest (s : State) : State := s.withTests { s.tests with current := none }

theorem State.withoutTest_board (s : State) :
    s.withoutTest.board = { s.board with tests := { s.board.tests with current := none } } := rfl

/-- A line with a new state and mark, and no test in flight. -/
def State.rested (s : State) (n : LineNo) (new : RestState) (p : Option PreShed) : State :=
  (s.setLineState n (.rest new) p).withoutTest

theorem State.rested_lit (s : State) (n m : LineNo) (new : RestState) (p : Option PreShed) :
    (s.rested n new p).lit m = if n = m then new.lit else s.lit m := s.setLineState_lit n m _ p

theorem State.rested_kept (s : State) (n : LineNo) (new : RestState) (p : Option PreShed) :
    s.LadderKept (s.rested n new p) := ⟨rfl, rfl, rfl, rfl⟩

/-- The line's new state with its hand-ons: a new image where it leaves the lit set (R133 step 2). -/
theorem State.leaveTest_board (h : s.tests.current ≠ none) (n : LineNo) (ret new : RestState) (p : Option PreShed) :
    (s.leaveTest n ret new p).withoutTest.board
      = if ret.lit = true ∧ new = .faulted then (s.rested n new p).commandPower.board else (s.rested n new p).board := by
  unfold State.leaveTest
  dsimp only
  split
  · next e =>
    subst e
    rw [if_neg (by simp)]
    rw [State.withoutTest_board, State.enterService_board]
    rfl
  split
  · have hno : (s.setLineState n (.rest new) p).commandPower.NoDispatch := .inl h
    rw [State.leftLit, State.dispatchRetry_of_noDispatch hno]
    rfl
  · rfl

/-- The test is discarded and its line rests: no test is in flight (R118, R133). -/
theorem State.BoardWell.rested (h : s.BoardWell) {x : Test} (hx : s.tests.current = some x)
    (hv : x.evaluation.isSome = true) {new : RestState} {p : Option PreShed} (hp : p ≠ none → new = .dark) :
    (s.rested x.entry.line new p).BoardBut := by
  have flight := h.tests.flight hx
  have hst : x.stage = .evaluate := beq_iff_eq.1 (flight.evaluation.symm.trans hv)
  obtain ⟨-, hlen, hnodup, hqueue, hlevel, hsampled⟩ := h.tests
  have hno : ∀ m, (s.rested x.entry.line new p).underTest m = false := by
    intro m
    refine (s.setLineState_underTest _ m _ _).trans ?_
    split
    · rfl
    · next hm => rw [flight.line, beq_eq_false_iff_ne]; exact Ne.symm hm
  have hoff : s.head.headen = false := by rw [flight.headen, hst]; rfl
  have hidle : s.head.phase = .idle := by
    have hsuits := flight.suits
    rw [hst] at hsuits
    unfold Head.suits at hsuits
    split at hsuits <;> simp_all
  refine ⟨fun m => ?_, h.but.chains, (testWell_idle_iff rfl).2 ⟨hoff, hidle, ?_, hno⟩, hlen, hnodup, fun e _ => hno _, hlevel,
    hsampled⟩
  · rw [show (s.rested x.entry.line new p).line m = _ from s.setLineState_line _ m _ _]
    split
    · exact fun hne => .inl (by rw [hp hne])
    · exact h.but.marks m
  · exact flight.relay.trans (by rw [hst]; rfl)

/-- Fewer lit lines, fewer costs (R141). -/
theorem State.LadderKept.load_le {t : State} (h : s.LadderKept t) (hl : ∀ m, t.lit m = true → s.lit m = true)
    (hh : t.head = s.head) : t.load ≤ s.load := by
  have hsum : ((List.finRange 24).map fun m => if t.lit m then s.settings.cost[m] else 0).sum
      ≤ ((List.finRange 24).map fun m => if s.lit m then s.settings.cost[m] else 0).sum := by
    refine List.sum_le_sum fun m _ => ?_
    have := hl m
    cases hs : s.lit m <;> cases ht : t.lit m <;> simp_all
  simp only [State.load, h.settings, hh]
  omega

/-- No line but the test's changes, and that line is not newly lit: the load does not grow. -/
theorem State.rested_load (h : s.LoadWithinBudget) {n : LineNo} {new : RestState} (hl : new.lit = true → s.lit n = true)
    (p : Option PreShed) : (s.rested n new p).LoadWithinBudget := by
  have kept := s.rested_kept n new p
  have hle := kept.load_le (fun m hm => by
    rw [State.rested_lit] at hm
    split at hm
    · next e => rw [← e]; exact hl hm
    · exact hm) rfl
  rw [State.LoadWithinBudget, kept.budgetNow]
  exact hle.trans h

section

variable {x : Test} {new : RestState} {p : Option PreShed}

/-- The test's line stays lit or unlit: no new image is called for. -/
theorem State.rested_boardWork (hx : s.tests.current = some x) (hv : x.evaluation.isSome = true)
    (hp : p ≠ none → new = .dark) (hl : new.lit = s.lit x.entry.line) : s.BoardWork (s.rested x.entry.line new p) := by
  refine ⟨rfl, fun hs => (s.rested_kept _ _ _).safe hs ((hs.board.rested hx hv hp).well ?_)
    (State.rested_load hs.load (fun h => hl ▸ h) p)⟩
  have same : ∀ m, (s.rested x.entry.line new p).lit m = s.lit m := State.setLineState_lit_same (st := .rest new) hl p
  rw [litSet_congr same]
  exact hs.board.image

/-- The test's line leaves the lit set with a new image (R32). -/
theorem State.rested_commandPower_boardWork (hx : s.tests.current = some x) (hv : x.evaluation.isSome = true)
    (hp : p ≠ none → new = .dark) (hl : new.lit = false) : s.BoardWork (s.rested x.entry.line new p).commandPower := by
  have kept := (s.rested_kept x.entry.line new p).trans (State.commandPower_kept _)
  exact ⟨kept.latched, fun hs => kept.safe hs (hs.board.rested hx hv hp).commandPower
    (State.rested_load hs.load (fun h => absurd (hl.symm.trans h) Bool.false_ne_true) p)⟩

end

/-- A test completes: its line takes the state of Table 54, with a new image where it leaves the lit set, and the test is
discarded (R132, R133). -/
theorem State.leaveTest_boardWork {x : Test} (hx : s.tests.current = some x) (hv : x.evaluation.isSome = true)
    {ret : RestState} (hret : (s.line x.entry.line).state.saved = ret) (holds : Bool) (verdict : TestVerdict)
    (shed : Option PreShed) : s.BoardWork (s.leaveTest x.entry.line ret (stateAfterTest holds verdict ret)
      (shedAfterTest holds ret shed)).withoutTest := by
  have hlit : s.lit x.entry.line = ret.lit := by rw [← hret]; exact (LineState.saved_lit _).symm
  have hp : shedAfterTest holds ret shed ≠ none → stateAfterTest holds verdict ret = .dark :=
    fun h => shedAfterTest_dark h verdict
  have hboard := State.leaveTest_board (s := s) (by simp [hx]) x.entry.line ret (stateAfterTest holds verdict ret)
    (shedAfterTest holds ret shed)
  by_cases hc : ret.lit = true ∧ stateAfterTest holds verdict ret = .faulted
  · rw [if_pos hc] at hboard
    exact (State.rested_commandPower_boardWork hx hv hp (by rw [hc.2]; rfl)).trans (.of_board hboard)
  · rw [if_neg hc] at hboard
    refine (State.rested_boardWork hx hv hp ?_).trans (.of_board hboard)
    rw [hlit]
    cases hr : ret.lit with
    | false => rw [stateAfterTest_lit, hr, Bool.false_and]
    | true => exact Bool.eq_true_of_not_eq_false fun hu => hc ⟨hr, stateAfterTest_faulted hr hu⟩

theorem State.completeTest_boardWork {x : Test} {v : Evaluation} (hx : s.tests.current = some x)
    (hv : x.evaluation = some v) : s.BoardWork (s.completeTest x v) := by
  have written : (s.setLine x.entry.line { s.line x.entry.line with condition := some (x.condition v) }).board = s.board := by
    simp only [State.board, State.setLine_line, Board.mk.injEq]
    refine ⟨funext fun m => ?_, funext fun m => ?_, rfl, rfl, rfl, rfl, rfl, rfl, rfl⟩ <;> split <;> simp_all
  have left := State.leaveTest_boardWork (s := s.setLine x.entry.line
    { s.line x.entry.line with condition := some (x.condition v) }) hx (by rw [hv]; rfl)
    (ret := (s.line x.entry.line).state.saved) (by rw [State.setLine_line, if_pos rfl]) (x.holdsLine v) v.verdict
    (s.line x.entry.line).shed
  unfold State.completeTest
  dsimp only
  refine (State.BoardWork.of_board written).trans (left.trans (State.BoardWork.trans ?_ (State.dispatchRetry_boardWork _)))
  split <;> exact .of_board rfl

end

end Sys2Proof.Machine
end

