-- ==== Sys2Proof/Proofs/BoardExec.lean ====
section
/-! The record table, the link, the rounds and the port leave the board as it is; with the operations that work on it, every
step keeps the lines, the chains, the tests and the load in agreement. -/

namespace Sys2Proof.Machine

/-! ### Operations of other blocks -/

/-- Lines whose states and marks are kept. -/
theorem State.withLines_board (s : State) (f : Line → Line) (h : ∀ l, (f l).state = l.state ∧ (f l).shed = l.shed) :
    (s.withLines (s.lines.map f)).board = s.board := by
  have hline : ∀ n, (s.withLines (s.lines.map f)).line n = f (s.line n) := fun n => by simp [State.line]
  simp only [State.board, hline, h]
  rfl

theorem State.discover_board (s : State) (i : Slot) (op : FaultOp) : (s.discover i op).board = s.board := by
  rw [(s.discover_discovers i op).2.2]
  rfl

theorem State.reportEntry_board (s : State) (i : Slot) : (s.reportEntry i).board = s.board := by
  unfold State.reportEntry
  split <;> rfl

theorem State.admitted_board (s : State) (i : Slot) (n : LineNo) (tag : Tag) (p : Provision) :
    (s.admitted i n tag p).board = s.board := by
  simp only [State.board, State.admitted, State.setLine_line, Board.mk.injEq]
  refine ⟨funext fun m => ?_, funext fun m => ?_, rfl, rfl, rfl, rfl, rfl, rfl, rfl⟩ <;> split <;> simp_all

theorem State.retireAt_board (s : State) (i : Slot) : (s.retireAt i).board = s.board := by
  have detached : ∀ u : State, u.lines = s.lines → u.board = s.board →
      ((u.withLines (s.lines.map fun l => { l with attached := l.attached.filter (· != i) })).setSlot i
        clearedRecord).board = s.board := by
    intro u hl hb
    rw [← hl, ← hb]
    exact u.withLines_board _ fun _ => ⟨rfl, rfl⟩
  unfold State.retireAt
  split
  · exact detached (s.exitActive i) rfl rfl
  · exact detached s rfl rfl

theorem State.takeCommand_board (s : State) (c : RecordCommand) : (s.takeCommand c).state.board = s.board := by
  have hl := s.takeCommand_leaves c
  generalize (s.takeCommand c).state = t at hl
  cases hl with
  | same => rfl
  | damage => exact s.discover_board _ _
  | admits => rw [State.admitAt_eq, State.reportEntry_board, State.admitted_board]
  | amends => unfold State.recount; split <;> rfl
  | retires => exact s.retireAt_board _
  | bars => split <;> rfl
  | unbars => rw [State.reportEntry_board]; rfl

theorem State.takeWaiting_board (s : State) : s.takeWaiting.board = s.board := by
  unfold State.takeWaiting
  split
  · exact s.takeCommand_board _
  · rfl

theorem State.lookupHead_board (s : State) : s.lookupHead.board = s.board := by
  unfold State.lookupHead
  split
  · rw [State.lookup_record]; rfl
  · rfl

theorem State.snapshot_board (s : State) : s.snapshot.board = s.board := by
  have discovered : ∀ (l : List Slot) (u : State), (l.foldl (fun s i => s.discover i .roster) u).board = u.board := by
    intro l
    induction l with
    | nil => exact fun _ => rfl
    | cons i l ih => exact fun u => (ih _).trans (u.discover_board i .roster)
  exact discovered s.unsound s

theorem State.sendRoundEnd_board (s : State) (e : Emission) : (s.sendRoundEnd e).board = s.board := by
  unfold State.sendRoundEnd
  dsimp only
  split <;> rfl

theorem State.emitRound_board (s : State) (l : List Share) (e : Emission) : (s.emitRound l e).board = s.board := by
  induction l generalizing e with
  | nil => exact s.sendRoundEnd_board e
  | cons x xs ih =>
    unfold State.emitRound
    split
    · rfl
    · exact ih _

theorem State.sendRound_board (s : State) : s.sendRound.board = s.board := by
  unfold State.sendRound
  split
  · exact s.emitRound_board _ _
  all_goals rfl

theorem State.sendVerdict_board (s : State) : s.sendVerdict.board = s.board := by
  unfold State.sendVerdict
  split
  · rfl
  split <;> rfl

theorem State.completeResolve_board (s : State) : s.completeResolve.board = s.board := by
  unfold State.completeResolve
  split <;> rfl

theorem State.internal_board {s t : State} (h : s.internal = some t) : t.board = s.board := by
  unfold State.internal at h
  split at h
  · obtain rfl := Option.some.inj h; exact s.sendVerdict_board
  split at h
  · obtain rfl := Option.some.inj h; exact s.sendRound_board
  split at h
  · obtain rfl := Option.some.inj h; exact s.completeResolve_board
  split at h
  · obtain rfl := Option.some.inj h; exact s.snapshot_board
  split at h
  · obtain rfl := Option.some.inj h; exact s.lookupHead_board
  split at h
  · obtain rfl := Option.some.inj h; exact s.takeWaiting_board
  · simp at h

theorem State.settle_board (s : State) : s.settle.board = s.board := by
  have settled : ∀ (k : Nat) (u : State), (u.settleFor k).board = u.board := by
    intro k
    induction k with
    | zero => exact fun _ => rfl
    | succ k ih =>
      intro u
      unfold State.settleFor
      split
      · rfl
      · next t h => exact (ih t).trans (State.internal_board h)
  exact settled 10 s

theorem State.BoardWork.settle {s t : State} (h : t.board = s.board) : s.BoardWork t.settle :=
  .of_board (t.settle_board.trans h)

theorem State.arriveResolve_board (s : State) (q : Byte) (tag : Tag) (len : Nat) :
    (s.arriveResolve q tag len).board = s.board := by
  unfold State.arriveResolve
  split <;> rfl

theorem State.arriveBacklog_board (s : State) (tag : Tag) (credits : Nat) :
    (s.arriveBacklog tag credits).board = s.board := by
  unfold State.arriveBacklog
  split <;> rfl

theorem State.arriveMessage_board (s : State) (l : List Byte) : (s.arriveMessage l).board = s.board := by
  unfold State.arriveMessage
  split
  · rw [State.settle_board, State.arriveResolve_board]
  split
  · exact s.arriveBacklog_board _ _
  split <;> rfl

theorem State.takeByte_board (s : State) (start : Bool) (b : Byte) : (s.takeByte start b).board = s.board := by
  unfold State.takeByte
  dsimp only
  generalize (if start then [b] else _) = bytes
  split
  · exact s.receiverIdle.arriveMessage_board _
  · rfl

theorem State.cycleExpired_board (s : State) : s.meterExpiry.staleExpiry.roundExpiry.board = s.board := by
  have round : ∀ u : State, u.roundExpiry.board = u.board := by
    intro u
    rw [State.roundExpiry_eq]
    rfl
  have stale : ∀ u : State, u.staleExpiry.board = u.board := by
    intro u
    rw [State.staleExpiry_eq]
    rfl
  rw [round, stale]
  rfl

theorem State.emitGrant_board (s : State) (x : Share) (rest : List Share) (e : Emission) :
    (s.emitGrant x rest e).board = s.board := by
  unfold State.emitGrant
  split <;> rfl

theorem exec_recordDisturbance_board (a : Alteration) (s : State) :
    ∃ t, exec (.recordDisturbance a) s = .next t ∧ t.board = s.board := by
  rcases exec_recordDisturbance a s with ⟨-, h⟩ | ⟨-, c, -, -, -, h⟩
  · exact ⟨_, h, rfl⟩
  · exact ⟨_, h, rfl⟩

/-! ### Commands at the port -/

theorem State.immediate_boardWork (s : State) (code : Byte) (argc : Nat) (f : Frame) {act : Immediate}
    (h : ∀ (args : List Word16) (u : State), u.BoardWork (act args u).state) :
    s.BoardWork (s.immediate code argc f act) := by
  unfold State.immediate
  split
  case h_7 =>
    have ended : s.BoardWork s.endCommand := .of_board rfl
    exact (ended.trans (h f.args s.endCommand)).trans (.of_board rfl)
  all_goals exact .of_board rfl

/-- An immediate command whose act leaves the board as it is. -/
theorem State.immediate_board (s : State) (code : Byte) (argc : Nat) (f : Frame) {act : Immediate}
    (h : ∀ (args : List Word16) (u : State), (act args u).state.board = u.board) :
    s.BoardWork (s.immediate code argc f act) :=
  s.immediate_boardWork code argc f fun args u => .of_board (h args u)

theorem State.timed_boardWork (s : State) (code : Byte) (argc : Nat) (f : Frame) (c : InFlight) {begun : State → State}
    (h : ∀ u : State, (begun u).board = u.board) : s.BoardWork (s.timed code argc f c begun) := by
  unfold State.timed
  split
  case h_7 => exact .of_board (h _)
  all_goals exact .of_board rfl

theorem State.undefinedCode_boardWork (s : State) (code : Byte) (f : Frame) : s.BoardWork (s.undefinedCode code f) := by
  unfold State.undefinedCode
  split <;> exact .of_board rfl

theorem actClearCounters_board (args : List Word16) (u : State) : (actClearCounters args u).state.board = u.board := by
  unfold actClearCounters
  split
  · rfl
  split <;> rfl

theorem actCancelTest_boardWork (args : List Word16) (u : State) : u.BoardWork (actCancelTest args u).state := by
  unfold actCancelTest
  split
  · exact .refl u
  · exact u.cancelTest_boardWork _

/-! ### Resets -/

/-- With every line in its reset record, the head off and no test, the board is safe whatever the settings. -/
theorem State.safe_of_reset {t : State} (hlines : t.lines = Vector.replicate 24 resetLine) (hhead : t.head = resetHead)
    (htests : t.tests = ⟨[], none⟩) (hladder : t.ladder.level = 3 ∧ t.ladder.rise = 0 ∧ t.ladder.fall = 0)
    (hpower : t.power.commanded = 0) (hrelay : t.relay.commanded = 0)
    (hchains : t.hold = none → t.power.carries = true ∧ t.relay.carries = true)
    (hc : t.settings.ClassesInRange) : t.Safe := by
  have hline : ∀ n, t.line n = resetLine := fun n => by simp [State.line, hlines]
  have hlit : ∀ n, t.lit n = false := fun n => by rw [State.lit, hline]; rfl
  have hno : ∀ n, t.underTest n = false := fun n => by rw [State.underTest_eq, hline]; rfl
  refine ⟨⟨⟨fun n hn => ?_, ?_, hchains⟩, (testWell_idle_iff (by rw [htests])).2 ?_, ?_, ?_, ?_, ?_, fun _ => hladder⟩, hc, ?_⟩
  · rw [hline] at hn
    exact absurd rfl hn
  · rw [hpower]
    exact image_ext fun n => by rw [litSet_getLsbD, hlit]; simp
  · rw [hhead, hrelay]
    exact ⟨rfl, rfl, rfl, hno⟩
  · rw [htests]; exact Nat.zero_le _
  · rw [htests]; exact List.nodup_nil
  · rw [htests]; exact fun e he => absurd he List.not_mem_nil
  · rw [hhead]; exact fun h => absurd h Bool.false_ne_true
  · rw [State.LoadWithinBudget, State.load_of_reset hlines hhead]
    exact Nat.zero_le _

theorem State.held_safe {s : State} (hc : s.settings.ClassesInRange) (h : Hold) : (s.held h).Safe :=
  State.safe_of_reset rfl rfl rfl ⟨rfl, rfl, rfl⟩ rfl rfl (fun hn => absurd hn (by simp [State.held])) hc

theorem State.held_boardWork (s : State) (h : Hold) : s.BoardWork (s.held h) :=
  ⟨rfl, fun hs => State.held_safe hs.classes h⟩

/-- A condition that stands belongs to a reset in progress (R172); the reset goes on with its conditions changed. -/
theorem State.withHold_boardWork {s : State} (h : s.conditions.supplyLow = true ∨ s.conditions.resetnLow = true)
    (g : Hold) : s.BoardWork (s.withHold (some g)) := by
  have hheld : s.hold.isSome = true := by
    cases hh : s.hold with
    | none => simp [State.conditions_of_none hh] at h
    | some _ => rfl
  refine .of_board ?_
  simp only [State.board, hheld]
  rfl

theorem State.endReset_boardWork (s : State) (h : Hold) : s.BoardWork (s.endReset h) := by
  rw [State.endReset_eq]
  exact ⟨rfl, fun _ => State.safe_of_reset rfl rfl rfl ⟨rfl, rfl, rfl⟩ rfl rfl (fun _ => ⟨rfl, rfl⟩)
    s.stored.load_inRange.classes⟩

/-! ### Every command -/

/-- A strobe of the power chain: the shifted image is latched, and the chain carries on (R33). -/
theorem State.strobePower_safe {s : State} (h : s.Safe) : (s.withPower s.power.strobe).Safe := by
  refine ⟨State.BoardBut.well ⟨h.board.but.marks, fun hn => ?_, h.board.tests⟩ ?_, h.classes, h.load⟩
  · obtain ⟨hp, hr⟩ := h.board.but.chains hn
    exact ⟨Chain.strobe_carries hp, hr⟩
  · exact (Chain.strobe_commanded _).trans h.board.image

/-- Every command but the power chain's latch keeps the latched image, and leaves a safe state safe. -/
theorem exec_boardWork (c : Instr) (s : State) (hp : c ≠ .powerChainLatch) : ∃ t, exec c s = .next t ∧ s.BoardWork t := by
  cases c with
  | admitService f | amendService f | retireService f | retireSlot f | barService f | unbarService f | lookUpService f =>
    exact ⟨_, rfl, s.timed_boardWork _ _ _ _ State.settle_board⟩
  | probeSlot f => exact ⟨_, rfl, s.immediate_board _ _ _ fun a u => by rw [actProbeSlot_state]⟩
  | clearCounters f => exact ⟨_, rfl, s.immediate_board _ _ _ actClearCounters_board⟩
  | readLine f => exact ⟨_, rfl, s.immediate_board _ _ _ fun a u => by rw [actReadLine_state]⟩
  | readTestQueue f => exact ⟨_, rfl, s.immediate_board _ _ _ fun a u => by rw [actReadTestQueue_state]⟩
  | readSetting f => exact ⟨_, rfl, s.immediate_board _ _ _ fun a u => by rw [actReadSetting_state]⟩
  | forceCheckError f | readFault f | readLadder f | readStatus f | acknowledgeEvents f | setEventMask f =>
    exact ⟨_, rfl, s.immediate_board _ _ _ fun _ _ => rfl⟩
  | lightLine f => exact ⟨_, rfl, s.immediate_boardWork _ _ _ (lineCommand_boardWork lightLine_boardWork)⟩
  | serveLine f => exact ⟨_, rfl, s.immediate_boardWork _ _ _ (lineCommand_boardWork serveLine_boardWork)⟩
  | suspendLine f => exact ⟨_, rfl, s.immediate_boardWork _ _ _ (lineCommand_boardWork suspendLine_boardWork)⟩
  | darkenLine f => exact ⟨_, rfl, s.immediate_boardWork _ _ _ (lineCommand_boardWork darkenLine_boardWork)⟩
  | clearFault f => exact ⟨_, rfl, s.immediate_boardWork _ _ _ (lineCommand_boardWork clearFault_boardWork)⟩
  | requestTest f => exact ⟨_, rfl, s.immediate_boardWork _ _ _ actRequestTest_boardWork⟩
  | cancelTest f => exact ⟨_, rfl, s.immediate_boardWork _ _ _ actCancelTest_boardWork⟩
  | writeSetting f => exact ⟨_, rfl, s.immediate_boardWork _ _ _ actWriteSetting_boardWork⟩
  | storeSettings f => exact ⟨_, rfl, s.timed_boardWork _ _ _ _ fun _ => rfl⟩
  | restart f =>
    refine ⟨_, rfl, ?_⟩
    split
    case h_7 =>
      have ended : s.BoardWork s.endCommand := .of_board rfl
      exact ended.trans (s.endCommand.held_boardWork _)
    all_goals exact .of_board rfl
  | undefinedCommandCode code f => exact ⟨_, rfl, s.undefinedCode_boardWork code f⟩
  | transactionBegin =>
    refine ⟨_, rfl, ?_⟩
    split <;> exact .of_board rfl
  | fetch rest =>
    refine ⟨_, rfl, .unlessHeld ?_⟩
    split
    · exact .refl s
    · exact .whenDue fun _ => .of_board rfl
  | fetchComplete slots =>
    refine ⟨_, rfl, ?_⟩
    split
    · exact .of_board rfl
    split <;> exact .of_board rfl
  | managementRequestTake => exact ⟨_, rfl, .unlessHeld (.whenDue fun _ => .settle s.takeWaiting_board)⟩
  | managementRequestCompletion =>
    refine ⟨_, rfl, .unlessHeld ?_⟩
    split
    · exact .settle rfl
    all_goals exact .refl s
  | storeCompletion held => exact ⟨_, rfl, .unlessHeld (.whenDue fun _ => .of_board rfl)⟩
  | resolve q tag len => exact ⟨_, rfl, .unlessHeld (.settle (s.receiverIdle.arriveResolve_board _ _ _))⟩
  | backlog tag credits => exact ⟨_, rfl, .unlessHeld (.of_board (s.receiverIdle.arriveBacklog_board _ _))⟩
  | capacity up down => exact ⟨_, rfl, .unlessHeld (.of_board rfl)⟩
  | unknownInboundTypeDiscard k => exact ⟨_, rfl, .unlessHeld (.of_board rfl)⟩
  | lookupEvent => exact ⟨_, rfl, .unlessHeld (.whenDue fun _ => .settle s.lookupHead_board)⟩
  | resolveCompletion => exact ⟨_, rfl, .unlessHeld (.whenDue fun _ => .settle s.completeResolve_board)⟩
  | verdictEmission => exact ⟨_, rfl, .unlessHeld (.whenDue fun _ => .settle s.sendVerdict_board)⟩
  | transmissionCompletion => exact ⟨_, rfl, .unlessHeld (.whenDue fun _ => .settle rfl)⟩
  | cycleExpiry => exact ⟨_, rfl, .unlessHeld (.settle s.cycleExpired_board)⟩
  | rosterSnapshot => exact ⟨_, rfl, .unlessHeld (.whenDue fun _ => .settle s.snapshot_board)⟩
  | grantEmission =>
    refine ⟨_, rfl, .unlessHeld (.whenDue fun _ => ?_)⟩
    split
    · split
      · exact .settle (s.emitGrant_board _ _ _)
      · exact .refl s
    all_goals exact .refl s
  | roundEndEmission =>
    refine ⟨_, rfl, .unlessHeld (.whenDue fun _ => ?_)⟩
    split
    · split
      · exact .settle (s.sendRoundEnd_board _)
      · exact .refl s
    all_goals exact .refl s
  | powerChainLatch => exact absurd rfl hp
  | relayLatchCompletion =>
    refine ⟨_, rfl, .unlessHeld ?_⟩
    split
    · exact .refl s
    · exact s.latchRelay_boardWork _
  | relaySettleExpiry =>
    refine ⟨_, rfl, .unlessHeld ?_⟩
    split
    · exact .refl s
    · next x hx => exact .whenDue fun _ => s.settled_boardWork hx
  | pathSettleExpiry capin =>
    exact ⟨_, rfl, .unlessHeld (s.withHead_boardWork _ (s.head.pathSettled_headen capin) (s.head.pathSettled_suits capin))⟩
  | converterSample code =>
    refine ⟨_, rfl, .unlessHeld ?_⟩
    split
    · next i a hph =>
      have hsuits : ∀ g, s.head.suits g = (g == .measure i.meas) := fun g => by simp only [Head.suits, hph]
      dsimp only
      split
      · exact s.completeMeasure_boardWork _ _ hsuits
      · exact s.withHead_boardWork _ rfl fun g => (hsuits g).symm
    all_goals exact .refl s
  | referenceGateExpiry =>
    refine ⟨_, rfl, .unlessHeld ?_⟩
    split
    · next w hph => exact s.withHead_boardWork _ rfl fun g => by simp only [Head.suits, hph]
    all_goals exact .refl s
  | pairGateExpiry =>
    refine ⟨_, rfl, .unlessHeld ?_⟩
    split
    · next w nref hph => exact s.completeMeasure_boardWork _ _ fun g => by simp only [Head.suits, hph]
    all_goals exact .refl s
  | oscillatorEdge =>
    refine ⟨_, rfl, .unlessHeld ?_⟩
    split
    · exact s.withHead_boardWork _ rfl fun g => rfl
    · exact s.withHead_boardWork _ rfl fun g => rfl
    all_goals exact .refl s
  | capinEdge ticks =>
    refine ⟨_, rfl, .unlessHeld ?_⟩
    split
    · next kc hph => exact s.withHead_boardWork _ rfl fun g => by simp only [Head.suits, Head.endCharge, hph]
    all_goals exact .refl s
  | captureTimeout =>
    refine ⟨_, rfl, .unlessHeld ?_⟩
    split
    · next kc hph => exact s.withHead_boardWork _ rfl fun g => by simp only [Head.suits, Head.endCharge, hph]
    all_goals exact .refl s
  | dischargeExpiry =>
    refine ⟨_, rfl, .unlessHeld ?_⟩
    split
    · next kc e hph => exact s.completeMeasure_boardWork _ _ fun g => by simp only [Head.suits, hph]
    all_goals exact .refl s
  | cadenceExpiry =>
    refine ⟨_, rfl, .unlessHeld ?_⟩
    split
    · next v hph => exact s.withHead_boardWork _ rfl fun g => by simp only [Head.suits, hph]
    · next v hph => exact s.withHead_boardWork _ rfl fun g => by simp only [Head.suits, hph]
    all_goals exact .refl s
  | toneDurationExpiry =>
    refine ⟨_, rfl, .unlessHeld ?_⟩
    split
    · next v hph => exact s.completeTone_boardWork fun g => by simp only [Head.suits, hph]
    · next v hph => exact s.completeTone_boardWork fun g => by simp only [Head.suits, hph]
    all_goals exact .refl s
  | testCompletion =>
    refine ⟨_, rfl, .unlessHeld ?_⟩
    split
    · exact .refl s
    next x hx =>
    split
    · exact .refl s
    · next v hv => exact State.completeTest_boardWork hx hv
  | minuteTickExpiry => exact ⟨_, rfl, .unlessHeld (.of_board (s.withLines_board _ fun _ => ⟨rfl, rfl⟩))⟩
  | oneSecondTickExpiry =>
    refine ⟨_, rfl, .unlessHeld ?_⟩
    split
    · exact (s.withLadder_boardWork rfl rfl rfl rfl).trans (State.withLadder_boardWork _ rfl rfl rfl rfl)
    · exact s.withLadder_boardWork rfl rfl rfl rfl
  | comparisonSettleExpiry bsense =>
    refine ⟨_, rfl, .unlessHeld ?_⟩
    split
    · exact s.withLadder_boardWork rfl rfl rfl rfl
    · exact s.withLadder_boardWork rfl rfl rfl rfl
    all_goals exact .refl s
  | sampleEnd bsense mains =>
    refine ⟨_, rfl, .unlessHeld ?_⟩
    split
    · exact s.endSample_boardWork _ _
    all_goals exact .refl s
  | recordDisturbance a =>
    obtain ⟨t, h, hb⟩ := exec_recordDisturbance_board a s
    exact ⟨t, h, .of_board hb⟩
  | powerOnReset =>
    exact ⟨_, rfl, rfl, fun hs => State.held_safe (s := s.drawRelayImage) hs.classes _⟩
  | pinReset => exact ⟨_, rfl, s.held_boardWork _⟩
  | supplyReturn => exact ⟨_, rfl, .whenDue fun h => State.withHold_boardWork (.inl h) _⟩
  | resetnRise => exact ⟨_, rfl, .whenDue fun h => State.withHold_boardWork (.inr h) _⟩
  | settingsLoadCompletion =>
    refine ⟨_, rfl, ?_⟩
    split
    · exact .refl s
    · exact .whenDue fun _ => s.endReset_boardWork _
  | inboundByteTaken start b => exact ⟨_, rfl, .unlessHeld (.of_board (s.takeByte_board start b))⟩
  | nonvolatileValueLoss => exact ⟨_, rfl, .of_board rfl⟩

theorem exec_safe {c : Instr} {s t : State} (h : s.Safe) (he : exec c s = .next t) : t.Safe := by
  by_cases hc : c = .powerChainLatch
  · subst hc
    obtain rfl := Host.Outcome.next.inj he
    unfold State.unlessHeld
    split
    · exact h
    · exact State.strobePower_safe h
  · obtain ⟨u, hu, work⟩ := exec_boardWork c s hc
    obtain rfl := Host.Outcome.next.inj (hu.symm.trans he)
    exact work.safe h

/-- 24 lines and the head at 255 each are the most that can be loaded (R141, Table 67). -/
theorem State.load_le_6375 {s : State} (h : s.settings.InRange) : s.load ≤ 6375 := by
  obtain ⟨-, -, -, -, -, -, -, -, -, -, hhead, -, hcost, -⟩ := h
  have hlines : ((List.finRange 24).map fun n => if s.lit n then s.settings.cost[n] else 0).sum ≤ 24 • 255 := by
    refine (List.sum_le_card_nsmul _ 255 fun x hx => ?_).trans_eq (by simp)
    obtain ⟨n, -, rfl⟩ := List.mem_map.1 hx
    have := hcost n
    split
    · exact this
    · exact Nat.zero_le _
  have hpower : (if s.head.headen then s.settings.headCost else 0) ≤ 255 := by
    split
    · exact hhead
    · exact Nat.zero_le _
  rw [smul_eq_mul] at hlines
  unfold State.load
  omega

/-- Settles O58: each command's work on the board keeps it safe, and no work but a latch moves the latched image. -/
theorem everyStepKeepsLinesTestsAndLoad : Obligations.EveryStepKeepsLinesTestsAndLoad := by
  unfold Obligations.EveryStepKeepsLinesTestsAndLoad
  refine ⟨fun s t hlines htests hr hload h => ?_, fun s => State.load_le_6375, fun s t hp h => ?_⟩
  · have safe : s.Safe := ⟨⟨hlines, htests⟩, hr.classes, hload⟩
    suffices ht : t.Safe from ⟨ht.board.lines, ht.board.tests, ht.load⟩
    rcases step_cases h with ⟨rfl, -⟩ | ⟨c, rest, -, h⟩
    · exact safe
    · exact exec_safe (safe.of_board (t := s.withPending rest) rfl) h
  · rcases step_cases h with ⟨rfl, -⟩ | ⟨c, rest, hq, h⟩
    · rfl
    · have hc : c ≠ .powerChainLatch := fun e => hp (by rw [hq, e]; rfl)
      obtain ⟨u, hu, work⟩ := exec_boardWork c (s.withPending rest) hc
      obtain rfl := Host.Outcome.next.inj (hu.symm.trans h)
      exact work.latched

end Sys2Proof.Machine
end

