-- ==== Sys2Proof/Proofs/LineCommands.lean ====
section
/-! The line commands by the line's state (R34 to R40), and the line record that READ LINE returns. -/

namespace Sys2Proof.Machine

/-! ### The port does not matter to a line command -/

theorem State.setLineState_withPort (s : State) (p : Port) (n : LineNo) (st : LineState) (q : Option PreShed) :
    (s.withPort p).setLineState n st q = (s.setLineState n st q).withPort p := rfl

theorem State.enterService_withPort (s : State) (p : Port) (n : LineNo) :
    (s.withPort p).enterService n = (s.enterService n).withPort p := by
  refine List.foldl_hom (State.withPort · p) fun u i => ?_
  unfold State.moveIn
  rw [State.withPort_slot]
  split <;> rfl

theorem State.leaveService_withPort (s : State) (p : Port) (n : LineNo) :
    (s.withPort p).leaveService n = (s.leaveService n).withPort p := by
  refine List.foldl_hom (State.withPort · p) fun u i => ?_
  unfold State.moveOut
  rw [State.withPort_slot]
  split <;> rfl

theorem State.dispatch_withPort (s : State) (p : Port) (e : TestEntry) (rest : List TestEntry) :
    (s.withPort p).dispatch e rest = (s.dispatch e rest).withPort p := by
  unfold State.dispatch
  dsimp only
  rw [State.withPort_line]
  split
  · have moved := (((s.withTests ⟨rest, some (dispatchedTest e)⟩).setLine e.line
      { s.line e.line with state := .underTest (s.line e.line).state.saved }).leaveService_withPort p e.line)
    exact (congrArg (fun u : State => (u.withHead { u.head with headen := true }).withRelay
      (u.relay.command (lineBit e.line))) moved).trans rfl
  · rfl

theorem State.dispatchRetry_withPort (s : State) (p : Port) : (s.withPort p).dispatchRetry = s.dispatchRetry.withPort p := by
  have hcan : (s.withPort p).canDispatch = s.canDispatch := rfl
  unfold State.dispatchRetry
  rw [State.withPort_tests, hcan]
  split
  · rfl
  split
  · exact s.dispatch_withPort p _ _
  · rfl

theorem State.leftLit_withPort (s : State) (p : Port) : (s.withPort p).leftLit = s.leftLit.withPort p :=
  s.commandPower.dispatchRetry_withPort p

/-! ### What a line command answers (R34) -/

theorem LineState.code_le (st : LineState) : st.code ≤ 4 := by
  rcases st with r | r <;> cases r <;> decide

theorem LineState.returnCode_le (st : LineState) : st.returnCode ≤ 4 := by
  rcases st with r | r <;> cases r <;> decide

theorem preShedCode_le (p : Option PreShed) : preShedCode p ≤ 2 := by
  rcases p with - | - | - <;> decide

/-- A one-bit field of a word, once the number at that bit is known. -/
theorem w16_bit_eq {n : Nat} {b : Bool} (h : n < 65536) (k : Nat) (hb : n / 2 ^ k % 2 = b.toNat) :
    (w16 n).getLsbD k = b := by
  rw [w16_bit h, hb]
  cases b <;> rfl

/-- Word 2 of Table 78 field by field. -/
theorem lineWord_fields (n : LineNo) (l : Line) :
    (lineWord n l).getLsbD 15 = false ∧ (lineWord n l).getLsbD 14 = l.state.lit
      ∧ ((lineWord n l).extractLsb' 12 2).toNat = preShedCode l.shed ∧ (lineWord n l).getLsbD 11 = l.shed.isSome
      ∧ ((lineWord n l).extractLsb' 8 3).toNat = l.state.returnCode
      ∧ ((lineWord n l).extractLsb' 5 3).toNat = l.state.code ∧ ((lineWord n l).extractLsb' 0 5).toNat = n.val := by
  have hlit := Bool.toNat_le l.state.lit
  have hmark := Bool.toNat_le l.shed.isSome
  have hpre := preShedCode_le l.shed
  have hret := l.state.returnCode_le
  have hcode := l.state.code_le
  have hline := n.isLt
  have hw : flag 14 l.state.lit + preShedCode l.shed * 4096 + flag 11 l.shed.isSome + l.state.returnCode * 256
      + l.state.code * 32 + n.val < 65536 := by simp only [flag_eq]; omega
  refine ⟨w16_bit_eq hw 15 ?_, w16_bit_eq hw 14 ?_, (w16_extract hw _ _).trans ?_, w16_bit_eq hw 11 ?_,
    (w16_extract hw _ _).trans ?_, (w16_extract hw _ _).trans ?_, (w16_extract hw _ _).trans ?_⟩
  all_goals
    simp only [flag_eq, Bool.toNat_false]
    omega

theorem lineWord_told (n : LineNo) (l : Line) : l.ToldBy (lineWord n l) := by
  obtain ⟨-, -, hpre, hmark, hret, hcode, -⟩ := lineWord_fields n l
  exact ⟨hpre, hmark, hret, hcode⟩

section

variable {s u : State} {f : Frame} {w : Word16} {c : Instr} {code : Byte} {act : LineAct}

theorem lineNoOf_argLine {n : LineNo} (hargs : f.args = [w]) (hn : (w.extractLsb' 0 5).toNat = n.val) :
    lineNoOf (argLine f.args) = some n := by
  rw [show argLine f.args = (w.extractLsb' 0 5).toNat by rw [hargs]; rfl, hn, lineNoOf_val]

theorem lineNoOf_argLine_none (hargs : f.args = [w]) (hn : 24 ≤ (w.extractLsb' 0 5).toNat) :
    lineNoOf (argLine f.args) = none := by
  rw [show argLine f.args = (w.extractLsb' 0 5).toNat by rw [hargs]; rfl, lineNoOf, dif_neg (Nat.not_lt.2 hn)]

/-- A line command for a line of 24 or more (R34). -/
theorem lineCommand_badArgument (h : s.Accepts f 1) (hx : exec c s = .next (s.immediate code 1 f (lineCommand act)))
    (hargs : f.args = [w]) (hn : 24 ≤ (w.extractLsb' 0 5).toNat) : s.Leaves c s (.ready [echoed code .badArgument, 0]) := by
  refine State.immediate_leaves h hx ?_
  simp only [lineCommand, lineNoOf_argLine_none hargs hn]
  rfl

/-- A line command answers the line as it then stands (R34). -/
theorem lineCommand_leaves {n : LineNo} {r : ResultCode} (h : s.Accepts f 1)
    (hx : exec c s = .next (s.immediate code 1 f (lineCommand act))) (hargs : f.args = [w])
    (hn : (w.extractLsb' 0 5).toNat = n.val) (ha : ∀ p, act n (s.withPort p) = (u.withPort p, r)) :
    ∃ a : Word16, (u.line n).ToldBy a ∧ s.Leaves c u (.ready [echoed code r, a]) := by
  refine ⟨lineWord n (u.line n), lineWord_told n _, State.immediate_leaves h hx ?_⟩
  have hact : act n s.endCommand = (u.withPort s.endCommand.port, r) := ha s.endCommand.port
  simp only [lineCommand, lineNoOf_argLine hargs hn, hact]
  rfl

end

/-! ### LIGHT LINE (R35) -/

section

variable {s : State} {n : LineNo}

theorem lightLine_of_not_dark (h : (s.line n).state ≠ .rest .dark) : lightLine n s = (s, .wrongState) := if_neg h

theorem lightLine_of_barred (hd : (s.line n).state = .rest .dark) (hm : (s.line n).shed ≠ none)
    (hc : s.settings.shedClass[n] ≤ s.ladder.level.val) : lightLine n s = (s, .shed) := by
  rw [lightLine, if_pos hd, if_pos ⟨Option.isSome_iff_ne_none.2 hm, hc⟩]

theorem lightLine_of_free (hd : (s.line n).state = .rest .dark)
    (hm : ¬ ((s.line n).shed ≠ none ∧ s.settings.shedClass[n] ≤ s.ladder.level.val)) :
    lightLine n s = if s.budgetNow < s.load + s.settings.cost[n] then (s, .budget) else (s.relight n .suspended, .ok) := by
  rw [lightLine, if_pos hd, if_neg (by rwa [Option.isSome_iff_ne_none]), State.relight_suspended]

/-- Settles O31: a line that is lit changes as a relit one, to SUSPENDED. -/
theorem lightLineByMarkLevelAndBudget : Obligations.LightLineByMarkLevelAndBudget := by
  unfold Obligations.LightLineByMarkLevelAndBudget
  intro s f w hargs h
  refine ⟨lineCommand_badArgument h rfl hargs, fun n hn => ⟨fun hd => ?_, fun hd hb => ?_, fun hd hb hover => ?_,
    fun hd hb hfits => ?_⟩⟩
  · exact lineCommand_leaves h rfl hargs hn fun p => lightLine_of_not_dark (s := s.withPort p) hd
  · exact lineCommand_leaves h rfl hargs hn fun p => lightLine_of_barred (s := s.withPort p) hd hb.1 hb.2
  · exact lineCommand_leaves h rfl hargs hn fun p =>
      (lightLine_of_free (s := s.withPort p) hd hb).trans (if_pos hover)
  · obtain ⟨a, ha, leaves⟩ := lineCommand_leaves (c := .lightLine f) (code := 0x0C)
      (u := s.relight n .suspended) h rfl hargs hn fun p => (lightLine_of_free (s := s.withPort p) hd hb).trans (if_neg (Nat.not_lt.2 hfits))
    have hline : (s.relight n .suspended).line n = { s.line n with state := .rest .suspended, shed := none } := by
      rw [State.relight_frame]
      exact (s.setLine_line n n _).trans (if_pos rfl)
    refine ⟨s.relight n .suspended, a, hline ▸ ha, leaves, ?_, State.relight_lit n .suspended,
      State.relight_load hd .suspended⟩
    rfl

/-! ### SERVE LINE, SUSPEND LINE and CLEAR FAULT (R36, R37, R39) -/

/-- A walk into or out of service leaves every line's record. -/
theorem State.enterService_line (s : State) (n m : LineNo) : (s.enterService n).line m = s.line m := by
  rw [State.enterService, foldl_moveIn_frame]
  rfl

theorem State.leaveService_line (s : State) (n m : LineNo) : (s.leaveService n).line m = s.line m := by
  rw [State.leaveService, foldl_moveOut_frame]
  rfl

theorem State.setLineState_line_self (s : State) (n : LineNo) (st : LineState) (p : Option PreShed) :
    (s.setLineState n st p).line n = { s.line n with state := st, shed := p } :=
  (s.setLineState_line n n st p).trans (if_pos rfl)

/-- A change of a line between lit states leaves the lit set and the load, whatever records it moves. -/
theorem State.load_of_walk {s t : State} {n : LineNo} {st : LineState} {p : Option PreShed}
    (hb : t.board = (s.setLineState n st p).board) (hl : st.lit = s.lit n) : t.litSet = s.litSet ∧ t.load = s.load := by
  have same := State.setLineState_lit_same hl p
  have kept : s.LadderKept (s.setLineState n st p) := ⟨rfl, rfl, rfl, rfl⟩
  exact ⟨(litSet_congr (State.lit_of_board hb)).trans (litSet_congr same),
    (State.load_of_board hb).trans (kept.load same rfl)⟩

/-- Settles O32. -/
theorem serveSuspendAndClearFaultByState : Obligations.ServeSuspendAndClearFaultByState := by
  unfold Obligations.ServeSuspendAndClearFaultByState
  intro s f w hargs h
  refine ⟨fun hn => ⟨lineCommand_badArgument h rfl hargs hn, lineCommand_badArgument h rfl hargs hn,
    lineCommand_badArgument h rfl hargs hn⟩, fun n hn => ⟨fun hs => ?_, fun hs hnodup => ?_, fun hs ht => ?_, fun ht => ?_,
    fun hs hnodup => ?_, fun hs => ?_, fun hs => ?_⟩⟩
  · exact lineCommand_leaves h rfl hargs hn fun p => if_neg hs
  · have served : ∀ p, serveLine n (s.withPort p)
        = (((s.setLineState n (.rest .inService) (s.line n).shed).enterService n).withPort p, .ok) := fun p =>
      (if_pos hs).trans (congrArg (·, ResultCode.ok) ((s.setLineState n (.rest .inService) (s.line n).shed).enterService_withPort p n))
    obtain ⟨a, ha, leaves⟩ := lineCommand_leaves (c := .serveLine f) (code := 0x0D) h rfl hargs hn served
    rw [State.enterService_line, State.setLineState_line_self] at ha
    obtain ⟨hset, hload⟩ := State.load_of_walk (State.enterService_board (s.setLineState n (.rest .inService) (s.line n).shed) n)
      (by rw [State.lit, hs]; rfl)
    exact ⟨_, ⟨a, ha, leaves⟩, s.setLine_enters rfl hnodup, foldl_moveIn_frame _ _, hset, hload⟩
  · refine lineCommand_leaves h rfl hargs hn fun p => ?_
    unfold suspendLine
    split
    · next e => exact absurd e hs
    · next e => exact absurd e ht
    all_goals rfl
  · have suspended : ∀ p, suspendLine n (s.withPort p)
        = ((s.setLineState n (.underTest .suspended) (s.line n).shed).withPort p, .ok) := fun p => by
      rw [suspendLine, State.withPort_line, ht]
      rfl
    obtain ⟨a, ha, leaves⟩ := lineCommand_leaves (c := .suspendLine f) (code := 0x0E) h rfl hargs hn suspended
    rw [State.setLineState_line_self] at ha
    exact ⟨a, ha, leaves⟩
  · have suspended : ∀ p, suspendLine n (s.withPort p)
        = (((s.setLineState n (.rest .suspended) (s.line n).shed).leaveService n).withPort p, .ok) := fun p => by
      rw [suspendLine, State.withPort_line, hs, ← State.leaveService_withPort]
      rfl
    obtain ⟨a, ha, leaves⟩ := lineCommand_leaves (c := .suspendLine f) (code := 0x0E) h rfl hargs hn suspended
    rw [State.leaveService_line, State.setLineState_line_self] at ha
    obtain ⟨hset, hload⟩ := State.load_of_walk (State.leaveService_board (s.setLineState n (.rest .suspended) (s.line n).shed) n)
      (by rw [State.lit, hs]; rfl)
    exact ⟨_, ⟨a, ha, leaves⟩, s.setLine_leaves rfl hnodup, foldl_moveOut_frame _ _, hset, hload⟩
  · exact lineCommand_leaves h rfl hargs hn fun p => if_neg hs
  · obtain ⟨a, ha, leaves⟩ := lineCommand_leaves (c := .clearFault f) (code := 0x10) (act := clearFault)
      (u := s.setLineState n (.rest .dark) none) h rfl hargs hn fun p => if_pos hs
    rw [State.setLineState_line_self] at ha
    exact ⟨a, ha, leaves⟩

/-! ### DARKEN LINE (R38) -/

/-- A line that leaves the lit set, the port apart. -/
theorem darkenLine_unlit {p : Port} {st : LineState} (h : darkenLine n (s.withPort p)
      = (((s.withPort p).setLineState n st none).leftLit, .ok)) :
    darkenLine n (s.withPort p) = ((s.setLineState n st none).commandPower.dispatchRetry.withPort p, .ok) := by
  rw [h, State.setLineState_withPort, State.leftLit_withPort]
  rfl

theorem darkenLine_of_suspended (h : (s.line n).state = .rest .suspended) :
    darkenLine n s = ((s.setLineState n (.rest .dark) none).leftLit, .ok) := by
  rw [darkenLine, h]

theorem darkenLine_of_inService (h : (s.line n).state = .rest .inService) :
    darkenLine n s = (((s.setLineState n (.rest .dark) none).leaveService n).leftLit, .ok) := by
  rw [darkenLine, h]

theorem darkenLine_of_underTest_lit
    (h : (s.line n).state = .underTest .suspended ∨ (s.line n).state = .underTest .inService) :
    darkenLine n s = ((s.setLineState n (.underTest .dark) none).leftLit, .ok) := by
  obtain h | h := h <;> rw [darkenLine, h]

theorem darkenLine_of_marked (h : (s.line n).state = .rest .dark ∨ (s.line n).state = .underTest .dark)
    (hm : (s.line n).shed ≠ none) : darkenLine n s = (s.setLineState n (s.line n).state none, .ok) := by
  have marked : (s.line n).shed.isSome = true := Option.isSome_iff_ne_none.2 hm
  obtain h | h := h <;> rw [darkenLine, h] <;> exact if_pos marked

theorem darkenLine_of_refused (h : (s.line n).state = .rest .faulted ∨ (s.line n).state = .underTest .faulted
      ∨ (((s.line n).state = .rest .dark ∨ (s.line n).state = .underTest .dark) ∧ (s.line n).shed = none)) :
    darkenLine n s = (s, .wrongState) := by
  obtain h | h | ⟨h | h, hm⟩ := h
  · rw [darkenLine, h]
  · rw [darkenLine, h]
  all_goals
    rw [darkenLine, h, hm]
    rfl

/-- Settles O33. -/
theorem darkenLineByState : Obligations.DarkenLineByState := by
  unfold Obligations.DarkenLineByState
  intro s f w hargs h
  refine ⟨lineCommand_badArgument h rfl hargs, fun n hn => ⟨fun hs => ?_, fun hs hm => ?_, fun hs => ?_, fun hs => ?_,
    fun hs hnodup => ?_⟩⟩
  · exact lineCommand_leaves h rfl hargs hn fun p => darkenLine_of_refused (s := s.withPort p) hs
  · exact lineCommand_leaves h rfl hargs hn fun p => darkenLine_of_marked (s := s.withPort p) hs hm
  · exact lineCommand_leaves h rfl hargs hn fun p => darkenLine_unlit (darkenLine_of_suspended (s := s.withPort p) hs)
  · exact lineCommand_leaves h rfl hargs hn fun p => darkenLine_unlit (darkenLine_of_underTest_lit (s := s.withPort p) hs)
  · have frame := foldl_moveOut_frame ((s.setLineState n (.rest .dark) none).line n).attached (s.setLineState n (.rest .dark) none)
    refine ⟨((s.setLineState n (.rest .dark) none).leaveService n).commandPower, s.setLine_leaves rfl hnodup,
      congrArg State.commandPower frame, lineCommand_leaves h rfl hargs hn fun p => ?_⟩
    rw [darkenLine_of_inService (s := s.withPort p) hs, State.setLineState_withPort, State.leaveService_withPort,
      State.leftLit_withPort]
    rfl

end

end Sys2Proof.Machine
end

