-- ==== Sys2Proof/Proofs/LineRecord.lean ====
section
/-! The line record that READ LINE returns, word by word (R40, Table 78). -/

namespace Sys2Proof.Machine

/-! ### Words 3 to 7 -/

/-- Word 3 of Table 78: the attached slots, the shed class and the cost. -/
theorem countWord_fields {a c d : Nat} (ha : a ≤ 8) (hc : c ≤ 4) (hd : d ≤ 255) :
    ((w16 (a * 4096 + c * 256 + d)).extractLsb' 12 4).toNat = a ∧ (w16 (a * 4096 + c * 256 + d)).getLsbD 11 = false
      ∧ ((w16 (a * 4096 + c * 256 + d)).extractLsb' 8 3).toNat = c
      ∧ ((w16 (a * 4096 + c * 256 + d)).extractLsb' 0 8).toNat = d := by
  have hw : a * 4096 + c * 256 + d < 65536 := by omega
  refine ⟨(w16_extract hw _ _).trans ?_, w16_bit_eq hw 11 (b := false) (show _ = 0 by omega),
    (w16_extract hw _ _).trans ?_, (w16_extract hw _ _).trans ?_⟩
  all_goals omega

/-- Words 4 to 7 of Table 78 hold two slots each. -/
theorem slotPair_fields {a b : Nat} (ha : a < 128) (hb : b < 128) :
    (w16 (a * 256 + b)).getLsbD 15 = false ∧ (w16 (a * 256 + b)).getLsbD 7 = false
      ∧ ((w16 (a * 256 + b)).extractLsb' 8 7).toNat = a ∧ ((w16 (a * 256 + b)).extractLsb' 0 7).toNat = b := by
  have hw : a * 256 + b < 65536 := by omega
  refine ⟨w16_bit_eq hw 15 (b := false) (show _ = 0 by omega), w16_bit_eq hw 7 (b := false) (show _ = 0 by omega),
    (w16_extract hw _ _).trans ?_, (w16_extract hw _ _).trans ?_⟩
  all_goals omega

theorem attachedAt_lt (l : List Slot) (k : Nat) : attachedAt l k < 128 := by
  unfold attachedAt
  cases l[k]? with
  | none => decide
  | some i => exact i.isLt

/-! ### Words 8 to 23: the condition record -/

theorem w16_extract_zero {n k l : Nat} (h : n < 65536) (hf : n / 2 ^ k % 2 ^ l = 0) : (w16 n).extractLsb' k l = 0 :=
  BitVec.eq_of_toNat_eq ((w16_extract h k l).trans hf)

theorem TestVerdict.code_le (v : TestVerdict) : v.code ≤ 4 := by cases v <;> decide

theorem causeCode_le (c : Option Cause) : causeCode c ≤ 2 := by
  rcases c with - | - | - <;> decide

theorem Judgement.code_le (j : Judgement) : j.code ≤ 2 := by
  cases j with
  | notJudged | pass => decide
  | fail => exact le_rfl

/-- Word 8 of Table 78 where a condition record is present. -/
theorem conditionWord_fields (c : Condition) {x : Word16}
    (hx : x = w16 (32768 + c.verdict.code * 4096 + causeCode c.cause * 1024 + c.limitSet.val * 256 + flag 7 c.tonePlayed)) :
    x.getLsbD 15 = true ∧ (x.extractLsb' 12 3).toNat = c.verdict.code ∧ (x.extractLsb' 10 2).toNat = causeCode c.cause
      ∧ (x.extractLsb' 8 2).toNat = c.limitSet.val ∧ x.getLsbD 7 = c.tonePlayed ∧ x.extractLsb' 0 7 = 0 := by
  subst hx
  have hverdict := c.verdict.code_le
  have hcause := causeCode_le c.cause
  have hset := c.limitSet.isLt
  have htone := Bool.toNat_le c.tonePlayed
  have hw : 32768 + c.verdict.code * 4096 + causeCode c.cause * 1024 + c.limitSet.val * 256 + flag 7 c.tonePlayed
      < 65536 := by simp only [flag_eq]; omega
  refine ⟨w16_bit_eq hw 15 ?_, (w16_extract hw _ _).trans ?_, (w16_extract hw _ _).trans ?_, (w16_extract hw _ _).trans ?_,
    w16_bit_eq hw 7 ?_, w16_extract_zero hw ?_⟩
  all_goals
    simp only [flag_eq, Bool.toNat_true]
    omega

/-- The two words of a kept result. -/
theorem judgedWord_fields (q : Judged) {v : Nat} (hv : v = (BitVec.ofInt 25 (q.result.value.getD 0)).toNat) {x : Word16}
    (hx : x = w16 (32768 + flag 14 q.result.saturated + flag 13 q.result.headFault + q.judgement.code * 2048 + v / 65536)) :
    x.getLsbD 15 = true ∧ x.getLsbD 14 = q.result.saturated ∧ x.getLsbD 13 = q.result.headFault
      ∧ (x.extractLsb' 11 2).toNat = q.judgement.code ∧ x.extractLsb' 9 2 = 0
      ∧ x.extractLsb' 0 9 ++ w16 v = BitVec.ofInt 25 (q.result.value.getD 0) := by
  subst hx
  have hsat := Bool.toNat_le q.result.saturated
  have hhead := Bool.toNat_le q.result.headFault
  have hcode := q.judgement.code_le
  have hval : v < 2 ^ 25 := hv ▸ BitVec.isLt _
  have hw : 32768 + flag 14 q.result.saturated + flag 13 q.result.headFault + q.judgement.code * 2048 + v / 65536
      < 65536 := by simp only [flag_eq]; omega
  refine ⟨w16_bit_eq hw 15 ?_, w16_bit_eq hw 14 ?_, w16_bit_eq hw 13 ?_, (w16_extract hw _ _).trans ?_,
    w16_extract_zero hw ?_, BitVec.eq_of_toNat_eq ?_⟩
  case refine_6 =>
    rw [toNat_append_eq, w16_extract hw, ← hv]
    simp only [w16, flag_eq, BitVec.toNat_ofNat]
    omega
  all_goals
    simp only [flag_eq, Bool.toNat_true]
    omega

theorem judgedWords_length (q : Option Judged) : (judgedWords q).length = 2 := by cases q <;> rfl

/-- The words of the measurements stand in pairs, in the order of their numbers. -/
theorem flatMap_judgedWords_getElem? (l : List (Option Judged)) (k : Nat) {j : Nat} (hj : j < 2) :
    (l.flatMap judgedWords)[2 * k + j]? = l[k]?.bind fun q => (judgedWords q)[j]? := by
  induction l generalizing k with
  | nil => rfl
  | cons q l ih =>
    have hq := judgedWords_length q
    rw [List.flatMap_cons]
    cases k with
    | zero =>
      rw [List.getElem?_append_left (by omega)]
      simp
    | succ k =>
      rw [List.getElem?_append_right (by omega), hq, show 2 * (k + 1) + j - 2 = 2 * k + j by omega, ih]
      simp

theorem conditionWords_length (c : Option Condition) : (conditionWords c).length = 16 := by
  cases c with
  | none => rfl
  | some c => simp [conditionWords, List.length_flatMap, judgedWords_length]

/-- The words of measurement `k`. -/
theorem conditionWords_judged (c : Condition) (k : Fin 7) {j : Nat} (hj : j < 2) :
    (conditionWords (some c))[2 + (2 * k.val + j)]? = (judgedWords c.results[k])[j]? := by
  have at_k : c.results.toList[k.val]? = some c.results[k] := by simp
  rw [conditionWords, List.getElem?_append_right (by simp)]
  rw [show ∀ a b : Word16, 2 + (2 * k.val + j) - [a, b].length = 2 * k.val + j from fun _ _ => by simp,
    flatMap_judgedWords_getElem? _ _ hj, at_k]
  rfl

/-! ### READ LINE -/

section

variable {n : LineNo} {l : Line} {a b : Nat}

theorem readLineWords_length : (readLineWords n l a b).length = 22 := by
  rw [readLineWords, List.length_append, conditionWords_length]
  rfl

/-- Words 8 and on of the record are those of the condition record. -/
theorem readLineWords_condition {k j : Nat} (hk : k = 8 + j) :
    (readLineWords n l a b)[k - 2]? = (conditionWords l.condition)[j]? := by
  rw [readLineWords, List.getElem?_append_right (by simp; omega)]
  exact congrArg (_[·]?) (by simp; omega)

end

/-- Settles O48. -/
theorem lineRecordIsReadWhole : Obligations.LineRecordIsReadWhole := by
  unfold Obligations.LineRecordIsReadWhole
  intro s f x hargs h
  refine ⟨fun hn => State.immediate_leaves (act := actReadLine) h rfl ?_, fun n hn hlen hset hage =>
    ⟨readLineWords n (s.line n) s.settings.shedClass[n] s.settings.cost[n],
      State.immediate_leaves (act := actReadLine) h rfl ?_, readLineWords_length, ?_⟩⟩
  · rw [actReadLine, lineNoOf_argLine_none hargs hn]
    rfl
  · rw [actReadLine, lineNoOf_argLine hargs hn]
    rfl
  obtain ⟨-, -, -, -, -, -, -, -, -, -, -, hclass, hcost, -⟩ := hset
  refine ⟨lineWord_fields n _, countWord_fields hlen (hclass n).2 (hcost n), fun k hk => ?_, fun hc k hk => ?_,
    fun c hc => ?_⟩
  · have ha := attachedAt_lt (s.line n).attached
    match k, hk with
    | 0, _ | 1, _ | 2, _ | 3, _ => exact slotPair_fields (ha _) (ha _)
  · obtain ⟨j, hj⟩ := Nat.exists_eq_add_of_le hk
    beta_reduce
    rw [readLineWords_condition hj, hc, conditionWords, List.getElem?_replicate]
    split <;> rfl
  · have word : ∀ {k j : Nat}, k = 8 + j →
        (readLineWords n (s.line n) s.settings.shedClass[n] s.settings.cost[n])[k - 2]? = (conditionWords (some c))[j]? :=
      fun hk => hc ▸ readLineWords_condition hk
    refine ⟨conditionWord_fields c (congrArg (·.getD 0) (word (k := 8) (j := 0) rfl)), ?_, fun k => ?_⟩
    · exact (congrArg (fun v : Option Word16 => (v.getD 0).toNat) (word (k := 9) (j := 1) rfl)).trans
        (w16_toNat (Nat.lt_succ_of_le (hage c hc)))
    · beta_reduce
      rw [word (j := 2 + (2 * k.val + 0)) (by omega), word (j := 2 + (2 * k.val + 1)) (by omega),
        conditionWords_judged c k (by decide), conditionWords_judged c k (by decide)]
      refine ⟨fun hq => ?_, fun q hq => ?_⟩
      · rw [hq]
        exact ⟨rfl, rfl⟩
      · rw [hq]
        exact judgedWord_fields q rfl rfl

end Sys2Proof.Machine
end

