-- ==== Sys2Proof/Proofs/ChainsAndResets.lean ====
section
/-! The two serial chains with the drivers behind them, and the part while a reset holds it (chapters 2, 6 and 11). -/

namespace Sys2Proof.Machine

/-! ### Strobes (R33, R99) -/

theorem Chain.strobe_of_shifting {c : Chain} {i : Image} (h : c.shifting = some i) :
    c.strobe = ⟨c.commanded, i, c.pending, none⟩ := by
  rw [Chain.strobe, h]

theorem Chain.strobe_of_idle {c : Chain} (h : c.shifting = none) : c.strobe = c := by
  rw [Chain.strobe, h]

/-- The last command of an idle chain is latched after one strobe, or after two where another stood before it. -/
theorem Chain.strobes_after_commands {c : Chain} (hs : c.shifting = none) (hp : c.pending = none) (i j : Image) :
    (c.command i).shifting = some i ∧ (c.command i).strobe = ⟨i, i, none, none⟩
      ∧ ((c.command i).command j).strobe = ⟨j, i, some j, none⟩
      ∧ ((c.command i).command j).strobe.strobe = ⟨j, j, none, none⟩ := by
  have once : c.command i = ⟨i, c.latched, some i, none⟩ := hp ▸ Chain.command_of_idle hs i
  rw [once]
  exact ⟨rfl, rfl, rfl, rfl⟩

/-- The latches at which a settle wait begins (R101). -/
theorem Test.awaits_iff (x : Test) (i : Image) :
    x.awaits i = true ↔ x.settle = none ∧ ((x.stage = .connect ∧ i.getLsbD x.entry.line.val = true)
      ∨ (x.stage = .disconnect ∧ i = 0)) := by
  cases hx : x.stage <;> simp [Test.awaits, hx]

/-! ### The signals of a shift (R176) -/

/-- The bits of an image that a shift has presented after `k` shift clocks. -/
def presentedBits (i : Image) (k : Nat) : List ChainSignal := (List.range k).map fun m => .bit (i.getLsbD (23 - m))

theorem shiftSignals_eq (i : Image) : shiftSignals i = presentedBits i 24 ++ [.strobe] := rfl

/-- A bit shifted in behind the `k` bits before it. -/
theorem shiftIn_bit (r i : Image) {k : Nat} (hk : k < 24) :
    ((r <<< k ||| i >>> (24 - k)) <<< 1) ||| (if i.getLsbD (23 - k) then 1 else 0) = r <<< (k + 1) ||| i >>> (24 - (k + 1)) := by
  refine BitVec.eq_of_getLsbD_eq fun j hj => ?_
  cases j with
  | zero => cases hb : i.getLsbD (23 - k) <;> simp [hb]
  | succ m =>
    have above : (if i.getLsbD (23 - k) then (1 : Image) else 0).getLsbD (m + 1) = false := by split <;> simp
    have place : 24 - k + m = 23 - k + (m + 1) := by omega
    rw [BitVec.getLsbD_or, above, Bool.or_false]
    simp [place, hj]

/-- Drivers that have shifted in the first `k` bits hold them as their last `k`, and latch nothing. -/
theorem foldl_presentedBits (i r latched : Image) {k : Nat} (hk : k ≤ 24) :
    (presentedBits i k).foldl driveSignal (r, latched) = (r <<< k ||| i >>> (24 - k), latched) := by
  induction k with
  | zero =>
    have gone : i >>> 24 = 0 := BitVec.ushiftRight_eq_zero (le_refl 24)
    simp [presentedBits, gone]
  | succ k ih =>
    have last : presentedBits i (k + 1) = presentedBits i k ++ [.bit (i.getLsbD (23 - k))] := by
      simp [presentedBits, List.range_succ]
    rw [last, List.foldl_append, ih (by omega)]
    exact congrArg (·, latched) (shiftIn_bit r i hk)

/-- Bits alone latch nothing. -/
theorem foldl_driveSignal_latched {l : List ChainSignal} (h : ∀ x ∈ l, ∃ b, x = .bit b) (d : Image × Image) :
    (l.foldl driveSignal d).2 = d.2 := by
  induction l generalizing d with
  | nil => rfl
  | cons x l ih =>
    obtain ⟨⟨b, rfl⟩, hl⟩ := List.forall_mem_cons.1 h
    exact ih hl _

/-- A whole shift, and the image that the drivers latch at its strobe. -/
theorem shiftSignals_spec (i r latched : Image) :
    (shiftSignals i).length = 25 ∧ (∀ k < 24, (shiftSignals i)[k]? = some (.bit (i.getLsbD (23 - k))))
      ∧ (shiftSignals i)[24]? = some .strobe
      ∧ (∀ d ∈ (shiftSignals i).dropLast.inits, (d.foldl driveSignal (r, latched)).2 = latched)
      ∧ ((shiftSignals i).foldl driveSignal (r, latched)).2 = i := by
  refine ⟨rfl, fun k hk => ?_, rfl, fun d hd => foldl_driveSignal_latched (fun x hx => ?_) _, ?_⟩
  · rw [shiftSignals_eq, List.getElem?_append_left (by simpa [presentedBits] using hk)]
    simp [presentedBits, hk]
  · rw [shiftSignals_eq, List.dropLast_concat, List.mem_inits] at hd
    obtain ⟨m, -, rfl⟩ := List.mem_map.1 (hd.subset hx)
    exact ⟨_, rfl⟩
  · rw [shiftSignals_eq, List.foldl_append, foldl_presentedBits i r latched (le_refl 24)]
    show r <<< 24 ||| i >>> 0 = i
    simp

section

variable {s : State}

theorem exec_relayLatchCompletion {i : Image} (hs : s.hold = none) (hi : s.relay.shifting = some i) :
    exec .relayLatchCompletion s = .next (s.latchRelay i) := by
  simp only [exec, execRelayLatchCompletion, exec_of_not_held hs, hi]

theorem State.latchRelay_of_current {x : Test} (hx : s.tests.current = some x) (i : Image) :
    s.latchRelay i = if x.awaits i then (s.withRelay s.relay.strobe).withTest { x with settle := some s.settings.relaySettle }
      else s.withRelay s.relay.strobe := by
  simp only [State.latchRelay, hx]

theorem State.latchRelay_of_none (hx : s.tests.current = none) (i : Image) :
    s.latchRelay i = s.withRelay s.relay.strobe := by
  simp only [State.latchRelay, hx]

/-- An event that would change nothing changes nothing, held or not. -/
theorem State.unlessHeld_same {f : State → State} (h : f s = s) : s.unlessHeld f = s := by
  rw [State.unlessHeld, h, ite_self]

/-- Settles O37. -/
theorem chainsLatchAndSettleWaitsBegin : Obligations.ChainsLatchAndSettleWaitsBegin := by
  unfold Obligations.ChainsLatchAndSettleWaitsBegin
  refine ⟨fun s i hs hi => ?_, fun s hi => ?_, fun s hi => ?_, fun s i hs hi => ?_,
    fun c i j hs hp => Chain.strobes_after_commands hs hp i j, fun c hs => ?_, fun c i r hi => ?_⟩
  · simp only [exec, execPowerChainLatch, exec_of_not_held hs, Chain.strobe_of_shifting hi]
    rfl
  · exact congrArg Host.Outcome.next (State.unlessHeld_same (congrArg s.withPower (Chain.strobe_of_idle hi)))
  · refine congrArg Host.Outcome.next (State.unlessHeld_same ?_)
    rw [hi]
  · have latch : s.withRelay s.relay.strobe = { s with relay := ⟨s.relay.commanded, i, s.relay.pending, none⟩ } :=
      congrArg s.withRelay (Chain.strobe_of_shifting hi)
    rw [exec_relayLatchCompletion hs hi]
    refine ⟨fun hx => ?_, fun x hx => ⟨fun hb => ?_, fun hb => ?_⟩⟩
    · rw [State.latchRelay_of_none hx, latch]
    · rw [State.latchRelay_of_current hx, if_pos ((x.awaits_iff i).2 hb), latch]
      rfl
    · rw [State.latchRelay_of_current hx, if_neg (mt (x.awaits_iff i).1 hb), latch]
  · rw [Chain.signals, hs]
  · rw [Chain.strobe_of_shifting hi, show c.signals = shiftSignals i by rw [Chain.signals, hi]]
    exact shiftSignals_spec i r c.latched

/-! ### While a reset lasts (R172) -/

/-- The reset state that the statements name is the model's own. -/
theorem State.held_eq_inReset (s : State) (h : Hold) : s.held h = s.inReset h := rfl

theorem State.conditions_of_some {h : Hold} (hh : s.hold = some h) : s.conditions = h := by
  rw [State.conditions, hh]
  rfl

/-- The two resets that begin at any time, from the conditions that stand. -/
theorem exec_pinReset (s : State) :
    exec .pinReset s = .next (s.inReset { s.conditions with resetnLow := true, loading := false }) := rfl

theorem exec_powerOnReset (s : State) : exec .powerOnReset s = .next ({ s with
      relay := { s.relay with latched := Config.powerUpImage s.draws }
      draws := s.draws + 1 }.inReset { s.conditions with supplyLow := true, loading := false }) := rfl

/-- A condition that clears lets the load run once the other has cleared too. -/
theorem exec_supplyReturn {h : Hold} (hh : s.hold = some h) (hl : h.supplyLow = true) :
    exec .supplyReturn s = .next { s with hold := some ⟨false, h.resetnLow, !h.resetnLow, .powerOn⟩ } := by
  simp only [exec, execSupplyReturn, State.conditions_of_some hh, hl, State.whenDue, if_true]
  rfl

theorem exec_resetnRise {h : Hold} (hh : s.hold = some h) (hl : h.resetnLow = true) :
    exec .resetnRise s = .next { s with hold := some ⟨h.supplyLow, false, !h.supplyLow, .pin⟩ } := by
  simp only [exec, execResetnRise, State.conditions_of_some hh, hl, State.whenDue, if_true, Hold.cleared, Bool.not_false,
    Bool.and_true]
  rfl

/-- A load completion while no load runs (log entry 4). -/
theorem exec_settingsLoadCompletion_of_not_loading {h : Hold} (hh : s.hold = some h) (hl : h.loading = false) :
    exec .settingsLoadCompletion s = .next s := by
  simp only [exec, execSettingsLoadCompletion, hh, hl, State.whenDue]
  rfl

theorem State.unlessHeld_of_held (hh : s.hold.isSome = true) (f : State → State) : s.unlessHeld f = s := if_pos hh

theorem arrival_of_held (hh : s.hold.isSome = true) (f : Frame) (argc : Option Nat) : s.arrival f argc = .held := if_pos hh

/-- A command that ends while a reset lasts only raises chip select. -/
theorem immediate_of_held {code : Byte} {argc : Nat} {f : Frame} {act : Immediate} (hh : s.hold.isSome = true) :
    s.immediate code argc f act = s.csRise := by
  rw [State.immediate, arrival_of_held hh]

theorem timed_of_held {code : Byte} {argc : Nat} {f : Frame} {c : InFlight} {begun : State → State}
    (hh : s.hold.isSome = true) : s.timed code argc f c begun = s.csRise := by
  rw [State.timed, arrival_of_held hh]

theorem State.csRise_of_no_txn (ht : s.port.txn = none) : s.csRise = { s with port := { s.port with csLow := false } } := by
  rw [State.csRise, ← ht]
  rfl

/-- While a reset lasts a command changes chip select alone; the resets' own events and the two disturbances of memory
are apart. -/
theorem exec_of_held {c : Instr} (hh : s.hold.isSome = true) (ht : s.port.txn = none) (hd : ∀ a, c ≠ .recordDisturbance a)
    (hv : c ≠ .nonvolatileValueLoss) (hr : touchesReset c = false ∨ ∃ f, c = .restart f) :
    ∃ low, exec c s = .next { s with port := { s.port with csLow := low } } := by
  have rises : ∀ {t : State}, t = s.csRise → ∃ low, (Host.Outcome.next t : StepOutcome)
      = .next { s with port := { s.port with csLow := low } } :=
    fun ht' => ⟨false, congrArg _ (ht'.trans (State.csRise_of_no_txn ht))⟩
  have stays : ∀ f : State → State, ∃ low, (Host.Outcome.next (s.unlessHeld f) : StepOutcome)
      = .next { s with port := { s.port with csLow := low } } :=
    fun f => ⟨s.port.csLow, congrArg _ (s.unlessHeld_of_held hh f)⟩
  cases c with
  | restart f =>
    refine rises ?_
    rw [arrival_of_held hh]
  | fetchComplete slots =>
    refine rises ?_
    rw [ht]
  | transactionBegin => exact ⟨true, congrArg _ (if_pos hh)⟩
  | recordDisturbance a => exact absurd rfl (hd a)
  | nonvolatileValueLoss => exact absurd rfl hv
  | powerOnReset | pinReset | supplyReturn | resetnRise | settingsLoadCompletion => simp [touchesReset] at hr
  | undefinedCommandCode code f =>
    refine rises ?_
    rw [State.undefinedCode, arrival_of_held hh]
  | admitService f | amendService f | retireService f | retireSlot f | barService f | unbarService f | lookUpService f
  | storeSettings f =>
    exact rises (timed_of_held hh)
  | probeSlot f | clearCounters f | forceCheckError f | readFault f | lightLine f | serveLine f | suspendLine f
  | darkenLine f | clearFault f | readLine f | requestTest f | cancelTest f | readTestQueue f | readLadder f | readStatus f
  | acknowledgeEvents f | setEventMask f | readSetting f | writeSetting f =>
    exact rises (immediate_of_held hh)
  | _ => exact stays _

/-- Settles O52. -/
theorem resetsHoldEveryBlock : Obligations.ResetsHoldEveryBlock := by
  unfold Obligations.ResetsHoldEveryBlock
  refine ⟨fun s hs => ⟨?_, fun f ha => ?_, Config.powerUpImage s.draws, ?_⟩, fun s h hs =>
    ⟨?_, ⟨Config.powerUpImage s.draws, ?_⟩, exec_supplyReturn hs, exec_resetnRise hs,
      exec_settingsLoadCompletion_of_not_loading hs⟩,
    fun s h c hs ht => exec_of_held (by rw [hs]; rfl) ht⟩
  · rw [exec_pinReset, State.conditions_of_none hs]
  · simp only [exec, execRestart, arrival_of_accepts ha, State.held_eq_inReset]
    rfl
  · rw [exec_powerOnReset, State.conditions_of_none hs]
  · rw [exec_pinReset, State.conditions_of_some hs]
  · rw [exec_powerOnReset, State.conditions_of_some hs]

end

end Sys2Proof.Machine
end

