-- ==== Sys2Proof/Proofs/ScaleFactor.lean ====
section
/-! The downstream scale factor: its bounds, and the fit of the scaled refills (R45, R47). -/

namespace Sys2Proof.Machine

/-! ### Floors of parts of a sum -/

/-- Parts of a sum scaled and each rounded down add up to no more than the sum scaled. -/
theorem sum_map_mul_div_le {α : Type} (l : List α) (q : α → Nat) (c d : Nat) :
    (l.map fun x => q x * c / d).sum ≤ (l.map q).sum * c / d := by
  induction l with
  | nil => simp
  | cons x xs ih =>
    simp only [List.map_cons, List.sum_cons, Nat.add_mul]
    exact (Nat.add_le_add_left ih _).trans (Nat.div_add_div_le_add_div ..)

/-- The factor is at most 1, in parts of 4096 (R45). -/
theorem scaleFactor_le (sum cap : Nat) : scaleFactor sum cap ≤ 4096 := by
  unfold scaleFactor
  split <;> omega

/-- The committed sum scaled is within the capacity of a cycle (R47). -/
theorem mul_scaleFactor_le (sum cap : Nat) : sum * scaleFactor sum cap ≤ 4096 * (16 * cap) := by
  unfold scaleFactor
  split
  · next h => simp [h]
  · calc sum * min 4096 (4096 * 16 * cap / sum)
      _ ≤ sum * (4096 * 16 * cap / sum) := Nat.mul_le_mul_left _ (min_le_right ..)
      _ ≤ 4096 * 16 * cap := Nat.mul_div_le ..
      _ = 4096 * (16 * cap) := by ring

/-- Settles O25: the floors add up to no more than the scaled committed sum. -/
theorem scaledRefillsFitTheDownCapacity : Obligations.ScaledRefillsFitTheDownCapacity := by
  unfold Obligations.ScaledRefillsFitTheDownCapacity
  intro cirs cd
  have floors := sum_map_mul_div_le cirs id (scaleFactor cirs.sum cd) 4096
  rw [List.map_id] at floors
  exact floors.trans (Nat.div_le_of_le_mul (mul_scaleFactor_le _ _))

/-- A capacity that holds the committed sum is not scaled down (R45). -/
theorem scaleFactor_of_fits {sum cap : Nat} (h : sum ≤ 16 * cap) : scaleFactor sum cap = 4096 := by
  unfold scaleFactor
  split
  · rfl
  · next h0 =>
    refine min_eq_left ((Nat.le_div_iff_mul_le (Nat.pos_of_ne_zero h0)).2 ?_)
    omega

/-- Without capacity nothing of the committed traffic passes (R45). -/
theorem scaleFactor_of_no_capacity {sum : Nat} (h : sum ≠ 0) : scaleFactor sum 0 = 0 := by
  simp [scaleFactor, h]

end Sys2Proof.Machine
end

