-- ==== Sys2Proof/Proofs/Grants.lean ====
section
/-! The grants of a round: each within its demand and its peak credits, together within the capacity (R83 to R89). -/

namespace Sys2Proof.Machine

/-! ### Credits handed out (R84) -/

/-- The most that an entry can be granted: its demand and its peak credits (R83). -/
def RosterEntry.most (e : RosterEntry) : Nat := min e.demand e.kp

/-- Shares of a roster whose grants are within the demands and the peak credits of their entries. -/
def Shared (roster : List RosterEntry) (l : List Share) : Prop :=
  l.map Share.entry = roster ∧ ∀ x ∈ l, x.grant ≤ x.entry.most

/-- A share with another grant. -/
def Share.granting (x : Share) (g : Nat) : Share := { x with grant := g }

theorem RosterEntry.claim_le_most (e : RosterEntry) : e.claim ≤ e.most := by
  unfold RosterEntry.claim RosterEntry.most
  omega

section

variable {roster : List RosterEntry} {l : List Share}

/-- Each grant replaced by one within the demand and the peak credits. -/
theorem Shared.map (h : Shared roster l) {g : Share → Nat} (hg : ∀ x, x.grant ≤ x.entry.most → g x ≤ x.entry.most) :
    Shared roster (l.map fun x => x.granting (g x)) := by
  obtain ⟨hroster, hmost⟩ := h
  refine ⟨by simpa [Function.comp_def, Share.granting] using hroster, fun y hy => ?_⟩
  obtain ⟨x, hx, rfl⟩ := List.mem_map.1 hy
  exact hg x (hmost x hx)

/-- A pass hands out what it takes from what is left, each share within its room. -/
theorem handPass_spec (visit : Share → Bool) {room : Share → Nat}
    (hroom : ∀ x, x.grant ≤ x.entry.most → x.grant + room x ≤ x.entry.most) (left : Nat) (h : Shared roster l) :
    Shared roster (handPass visit room left l).1
      ∧ sumShares Share.grant (handPass visit room left l).1 + (handPass visit room left l).2
        = sumShares Share.grant l + left := by
  induction l generalizing left roster with
  | nil => exact ⟨h, rfl⟩
  | cons x xs ih =>
    obtain ⟨hroster, hmost⟩ := h
    have hx := hmost x List.mem_cons_self
    have htake : (if visit x then min (room x) left else 0) ≤ min (room x) left := by split <;> omega
    obtain ⟨⟨hrest, hgrants⟩, hsum⟩ := ih (left - if visit x then min (room x) left else 0)
      (roster := xs.map Share.entry) ⟨rfl, fun y hy => hmost y (List.mem_cons_of_mem _ hy)⟩
    unfold handPass
    dsimp only
    generalize (if visit x then min (room x) left else 0) = take at htake hrest hgrants hsum ⊢
    refine ⟨⟨?_, fun y hy => ?_⟩, ?_⟩
    · rw [← hroster, List.map_cons, List.map_cons, hrest]
    · rcases List.mem_cons.1 hy with rfl | hy
      · have := hroom x hx
        show x.grant + take ≤ x.entry.most
        omega
      · exact hgrants y hy
    · simp only [sumShares, List.map_cons, List.sum_cons] at hsum ⊢
      omega

/-- Both passes of the rotating order hand out what is left at most (R84). -/
theorem handRotating_spec (p : Slot) {room : Share → Nat}
    (hroom : ∀ x, x.grant ≤ x.entry.most → x.grant + room x ≤ x.entry.most) (left : Nat) (h : Shared roster l) :
    Shared roster (handRotating p room left l)
      ∧ sumShares Share.grant (handRotating p room left l) ≤ sumShares Share.grant l + left := by
  obtain ⟨shared, hfirst⟩ := handPass_spec (fun x => decide (p ≤ x.entry.slot)) hroom left h
  obtain ⟨shared', hsecond⟩ := handPass_spec (fun x => decide (x.entry.slot < p)) hroom
    (handPass (fun x => decide (p ≤ x.entry.slot)) room left l).2 shared
  refine ⟨shared', ?_⟩
  unfold handRotating
  dsimp only
  omega

/-! ### The stages (R86 to R88) -/

/-- What the entries of the other class have been granted. -/
def grantedBeside (c : Class) (l : List Share) : Nat := sumShares (fun x => if x.ofClass c then 0 else x.grant) l

/-- The grants of a class, replaced, and the other class's make the whole. -/
theorem sumShares_granting (c : Class) (g : Share → Nat) (l : List Share) :
    sumShares Share.grant (l.map fun x => if x.ofClass c then x.granting (g x) else x)
      = sumShares (fun x => if x.ofClass c then g x else 0) l + grantedBeside c l := by
  induction l with
  | nil => rfl
  | cons x xs ih =>
    simp only [grantedBeside, sumShares, List.map_cons, List.sum_cons] at ih ⊢
    rw [ih]
    split
    · show g x + _ = _
      omega
    · omega

theorem Shared.grantClass (h : Shared roster l) (c : Class) {g : Share → Nat} (hg : ∀ x, g x ≤ x.entry.most) :
    Shared roster (l.map fun x => if x.ofClass c then x.granting (g x) else x) := by
  have heq : (fun x : Share => if x.ofClass c then x.granting (g x) else x)
      = fun x => x.granting (if x.ofClass c then g x else x.grant) := by
    funext x
    split <;> rfl
  rw [heq]
  refine h.map fun x hx => ?_
  split
  · exact hg x
  · exact hx

/-- Every entry of a class granted its claim. -/
theorem grantClaims_spec (h : Shared roster l) (c : Class) : Shared roster (grantClaims c l)
    ∧ sumShares Share.grant (grantClaims c l) = sumShares (Share.claimIn c) l + grantedBeside c l :=
  ⟨h.grantClass c fun x => x.entry.claim_le_most, sumShares_granting c (fun x => x.entry.claim) l⟩

/-- A scaled stage hands out its capacity at most (R86, R87). -/
theorem grantScaled_spec (h : Shared roster l) (c : Class) {capacity total : Nat}
    (ht : total = sumShares (Share.claimIn c) l) (hc : capacity < total) (p : Slot) :
    Shared roster (grantScaled c capacity total p l)
      ∧ sumShares Share.grant (grantScaled c capacity total p l) ≤ capacity + grantedBeside c l := by
  have hle : ∀ x : Share, x.entry.claim * capacity / total ≤ x.entry.most := fun x =>
    (Nat.div_le_of_le_mul ((Nat.mul_le_mul_left _ hc.le).trans_eq (Nat.mul_comm ..))).trans x.entry.claim_le_most
  have shared := h.grantClass c hle
  have hsum := sumShares_granting c (fun x => x.entry.claim * capacity / total) l
  have hgiven : sumShares (fun x => if x.ofClass c then x.grant else 0)
      (l.map fun x => if x.ofClass c then x.granting (x.entry.claim * capacity / total) else x)
        = sumShares (fun x => if x.ofClass c then x.entry.claim * capacity / total else 0) l := by
    unfold sumShares
    rw [List.map_map]
    refine congrArg List.sum (List.map_congr_left fun x _ => ?_)
    by_cases hx : x.ofClass c <;> simp_all [Share.granting, Share.ofClass]
  have hfloors : sumShares (fun x => if x.ofClass c then x.entry.claim * capacity / total else 0) l ≤ capacity := by
    have hparts : (fun x : Share => if x.ofClass c then x.entry.claim * capacity / total else 0)
        = fun x => x.claimIn c * capacity / total := by
      funext x
      unfold Share.claimIn
      split <;> simp
    rw [hparts]
    refine (sum_map_mul_div_le l (Share.claimIn c) capacity total).trans (Nat.div_le_of_le_mul ?_)
    rw [ht]
    rfl
  obtain ⟨rotated, hrest⟩ := handRotating_spec p
    (room := fun x => if x.ofClass c && decide (x.grant < x.entry.claim) then 1 else 0) (fun x hx => by
      have := x.entry.claim_le_most
      split
      · next hb => have := of_decide_eq_true (Bool.and_eq_true_iff.1 hb).2; omega
      · exact hx) (capacity - sumShares (fun x => if x.ofClass c then x.grant else 0)
        (l.map fun x => if x.ofClass c then x.granting (x.entry.claim * capacity / total) else x)) shared
  refine ⟨rotated, hrest.trans ?_⟩
  omega

/-- The excess stage hands out what remains at most (R88). -/
theorem grantExcess_spec (h : Shared roster l) (r : Nat) (p : Slot) : Shared roster (grantExcess r p l)
    ∧ sumShares Share.grant (grantExcess r p l) ≤ sumShares Share.grant l + r := by
  have hroom : ∀ x : Share, x.grant ≤ x.entry.most → x.grant + x.headroom ≤ x.entry.most := by
    intro x hx
    unfold Share.headroom
    unfold RosterEntry.most at hx ⊢
    omega
  unfold grantExcess
  dsimp only
  split
  · exact ⟨h, Nat.le_add_right ..⟩
  next hw =>
  generalize hW : sumShares (fun x => if 0 < x.headroom then x.entry.weight else 0) l = weights at hw ⊢
  obtain ⟨share, hshare⟩ : ∃ g : Share → Nat, ∀ x : Share,
      (if 0 < x.headroom then min x.headroom (r * x.entry.weight / weights) else 0) = g x := ⟨_, fun _ => rfl⟩
  simp only [hshare]
  have hle : ∀ x, share x ≤ x.headroom := by
    intro x
    rw [← hshare]
    split <;> omega
  have shared : Shared roster (l.map fun x => x.granting (x.grant + share x)) :=
    h.map fun x hx => (Nat.add_le_add_left (hle x) _).trans (hroom x hx)
  have hsum : sumShares Share.grant (l.map fun x => x.granting (x.grant + share x))
      = sumShares Share.grant l + sumShares share l := by
    simp only [sumShares, List.map_map, ← List.sum_map_add]
    rfl
  have hfloors : sumShares share l ≤ r := by
    have hpart : sumShares share l
        ≤ sumShares (fun x => (if 0 < x.headroom then x.entry.weight else 0) * r / weights) l := by
      refine List.sum_le_sum fun x _ => ?_
      rw [← hshare]
      split
      · rw [Nat.mul_comm]; exact min_le_right ..
      · exact Nat.zero_le _
    refine hpart.trans ((sum_map_mul_div_le l _ r weights).trans (Nat.div_le_of_le_mul ?_))
    rw [← hW]
    rfl
  obtain ⟨rotated, hrest⟩ := handRotating_spec p hroom (r - sumShares share l) shared
  refine ⟨rotated, hrest.trans ?_⟩
  omega

/-- The standard stage and the excess stage hand out what the essential stage leaves at most. -/
theorem grantStandard_spec (h : Shared roster l) (c1 : Nat) (p : Slot) : Shared roster (grantStandard c1 p l)
    ∧ sumShares Share.grant (grantStandard c1 p l) ≤ c1 + grantedBeside .standard l := by
  unfold grantStandard
  dsimp only
  split
  · obtain ⟨shared, hsum⟩ := grantClaims_spec h .standard
    obtain ⟨given, hrest⟩ := grantExcess_spec shared (c1 - sumShares (Share.claimIn .standard) l) p
    refine ⟨given, hrest.trans ?_⟩
    omega
  · exact grantScaled_spec h .standard rfl (by omega) p

end

/-- The grants of a round: one for each roster entry, within its demand and its peak credits, together within C
(R89). -/
theorem computeGrants_spec (c : Nat) (p : Slot) (roster : List RosterEntry) :
    Shared roster (computeGrants c p roster) ∧ sumShares Share.grant (computeGrants c p roster) ≤ c := by
  have start : Shared roster (roster.map fun e => ⟨e, 0⟩) := by
    refine ⟨by simp [Function.comp_def], fun x hx => ?_⟩
    obtain ⟨e, -, rfl⟩ := List.mem_map.1 hx
    exact Nat.zero_le _
  have hnone : ∀ k, grantedBeside k (roster.map fun e => ⟨e, 0⟩) = 0 := by
    intro k
    simp [grantedBeside, sumShares, Function.comp_def]
  unfold computeGrants
  dsimp only
  split
  case isTrue hfits =>
    obtain ⟨shared, hsum⟩ := grantClaims_spec start .essential
    obtain ⟨given, hrest⟩ := grantStandard_spec shared
      (c - sumShares (Share.claimIn .essential) (roster.map fun e => ⟨e, 0⟩)) p
    have hbeside : ∀ l, grantedBeside .standard l ≤ sumShares Share.grant l := by
      intro l
      refine List.sum_le_sum fun x _ => ?_
      split
      · exact Nat.zero_le _
      · exact le_rfl
    have := hbeside (grantClaims .essential (roster.map fun e => ⟨e, 0⟩))
    rw [hnone] at hsum
    exact ⟨given, by omega⟩
  case isFalse hshort =>
    obtain ⟨given, hrest⟩ := grantScaled_spec start .essential rfl (Nat.lt_of_not_le hshort) p
    exact ⟨given, by rwa [hnone] at hrest⟩

end Sys2Proof.Machine
end

