-- ==== Sys2Proof/Proofs/Registers.lean ====
section
/-! The registers that have ranges, the work of a step on them, and the records, windows and settings on their own. -/

namespace Sys2Proof.Machine

/-! ### The registers -/

/-- The fields on which the ranges and the buckets depend. -/
structure Registers where
  slot : Slot → Record
  condition : LineNo → Option Condition
  scale : Nat
  link : Link
  round : Round
  osc : Nat
  timer : Nat
  queue : List TestEntry
  rise : Nat
  fall : Nat
  count : Nat
  port : PortState
  service : Service
  settings : Settings

/-- The registers of a state. -/
def State.registers (s : State) : Registers where
  slot := s.slot
  condition n := (s.line n).condition
  scale := s.meter.f
  link := s.link
  round := s.round
  osc := s.head.osc
  timer := s.head.timer
  queue := s.tests.queue
  rise := s.ladder.rise
  fall := s.ladder.fall
  count := s.ladder.count
  port := s.port.state
  service := s.engine.service
  settings := s.settings

/-! ### Ranges, block by block -/

/-- The link's queues, registers and counters lie within their ranges (R58, R62, R65 to R68). -/
structure Link.InRange (l : Link) : Prop where
  queue : l.queue.length ≤ 4
  refusals : l.refusals.length ≤ 4
  receiving : l.receiving.length ≤ 7
  capUp : l.capUp ≤ 4095
  capDown : l.capDown ≤ 4095
  unmatched : l.unmatched ≤ 65535
  staleCount : l.staleCount ≤ 64
  stale : l.stale = (l.staleCount == 64)
  sending : ∀ bytes ∈ l.sending, bytes.length = 8

/-- The round engine's counters lie within their ranges, and the round in flight accounts for its grants (R74 to R76,
R94). -/
structure Round.InRange (r : Round) : Prop where
  slips : r.slips ≤ 65535
  period : 1 ≤ r.period ∧ r.period ≤ 16
  deferred : r.deferred = true → r.phase ≠ .idle
  accounts : r.phase.accounts = true

/-- The port's response fits the buffer, and the rates of a waiting command their words (R153, Table 75). -/
def PortState.InRange (p : PortState) : Prop := p.fits = true ∧ p.ratesFit = true

/-- The settings lie within their ranges, field by field (Table 67). -/
structure Settings.Ranged (g : Settings) : Prop where
  cyclePeriod : 1 ≤ g.cyclePeriod ∧ g.cyclePeriod ≤ 16
  budget : ∀ l : Fin 4, g.budget[l] ≤ 4095
  thresholds : ∀ k : Fin 7, g.thresholds[k] ≤ 255
  riseCount : 1 ≤ g.riseCount ∧ g.riseCount ≤ 15
  fallCount : 1 ≤ g.fallCount ∧ g.fallCount ≤ 15
  samplePeriod : 1 ≤ g.samplePeriod ∧ g.samplePeriod ≤ 255
  relaySettle : 1 ≤ g.relaySettle ∧ g.relaySettle ≤ 50
  gateTime : 10 ≤ g.gateTime ∧ g.gateTime ≤ 250
  rref : 1 ≤ g.rref ∧ g.rref ≤ 1000000
  kc : 1 ≤ g.kc ∧ g.kc ≤ 65535
  headCost : g.headCost ≤ 255
  shedClass : ∀ n : LineNo, 1 ≤ g.shedClass[n] ∧ g.shedClass[n] ≤ 4
  cost : ∀ n : LineNo, g.cost[n] ≤ 255
  limits : ∀ (k : Fin 4) (m : Fin 7), (g.limits[k][m]).InRange

theorem Settings.ranged_iff (g : Settings) : g.Ranged ↔ g.InRange :=
  ⟨fun h => ⟨h.cyclePeriod, h.budget, h.thresholds, h.riseCount, h.fallCount, h.samplePeriod, h.relaySettle, h.gateTime,
    h.rref, h.kc, h.headCost, h.shedClass, h.cost, h.limits⟩,
  fun ⟨h1, h2, h3, h4, h5, h6, h7, h8, h9, h10, h11, h12, h13, h14⟩ =>
    ⟨h1, h2, h3, h4, h5, h6, h7, h8, h9, h10, h11, h12, h13, h14⟩⟩

/-- Every register lies within its range. -/
structure Registers.InRange (g : Registers) : Prop where
  slot : ∀ i, (g.slot i).InRange
  condition : ∀ n, ∀ c ∈ g.condition n, c.age ≤ 65535
  scale : g.scale ≤ 4096
  link : g.link.InRange
  round : g.round.InRange
  osc : g.osc ≤ 1048575
  timer : g.timer ≤ 65535
  queue : g.queue.length ≤ 8
  rise : g.rise ≤ 15
  fall : g.fall ≤ 15
  count : g.count ≤ 255
  port : g.port.InRange
  service : g.service.fits = true
  settings : g.settings.Ranged

/-- The ranges as the obligation words them. -/
theorem State.registers_inRange_iff (s : State) :
    s.registers.InRange ↔ s.CountersInRange ∧ s.settings.InRange ∧ s.RoundWell := by
  constructor
  · intro h
    have hl := h.link
    have hr := h.round
    exact ⟨⟨⟨hl.queue, hl.refusals, hl.receiving⟩, ⟨hl.capUp, hl.capDown, hl.unmatched⟩, ⟨hl.staleCount, hl.stale⟩,
      ⟨hr.slips, hr.period⟩, hr.deferred, h.scale, ⟨h.osc, h.timer⟩, h.queue, ⟨h.rise, h.fall, h.count⟩,
      ⟨h.port.1, h.service⟩, h.condition, h.slot, h.port.2, hl.sending⟩, s.settings.ranged_iff.1 h.settings,
      hr.accounts, hl.capUp⟩
  · rintro ⟨⟨⟨hq, hrf, hrc⟩, ⟨hu, hd, hm⟩, ⟨hsc, hst⟩, ⟨hsl, hp⟩, hdf, hf, ⟨ho, ht⟩, htq, ⟨hri, hfa, hco⟩, ⟨hpf, hsf⟩,
      hage, hslot, hrate, hsend⟩, hset, hacc, -⟩
    exact ⟨hslot, hage, hf, ⟨hq, hrf, hrc, hu, hd, hm, hsc, hst, hsend⟩, ⟨hsl, hp, hdf, hacc⟩, ho, ht, htq, hri, hfa,
      hco, ⟨hpf, hrate⟩, hsf, s.settings.ranged_iff.2 hset⟩

/-- Every bucket lies within its depth (R43). -/
def Registers.Buckets (g : Registers) : Prop := ∀ i, (g.slot i).BucketsWithin

/-! ### The work of a step on the registers -/

/-- The registers stay within their ranges, the buckets within their depths. -/
structure State.RangeWork (s t : State) : Prop where
  ranges : s.registers.InRange → t.registers.InRange
  buckets : s.registers.Buckets → t.registers.Buckets

/-- And the scale factor holds its value (R45). -/
structure State.MeterWork (s t : State) : Prop extends s.RangeWork t where
  scale : t.meter.f = s.meter.f

section

variable {s t u : State}

theorem State.RangeWork.refl (s : State) : s.RangeWork s := ⟨id, id⟩

theorem State.RangeWork.trans (h : s.RangeWork t) (g : t.RangeWork u) : s.RangeWork u :=
  ⟨g.ranges ∘ h.ranges, g.buckets ∘ h.buckets⟩

theorem State.MeterWork.refl (s : State) : s.MeterWork s := ⟨.refl s, rfl⟩

theorem State.MeterWork.trans (h : s.MeterWork t) (g : t.MeterWork u) : s.MeterWork u :=
  ⟨h.toRangeWork.trans g.toRangeWork, g.scale.trans h.scale⟩

/-- No register changes. -/
theorem State.MeterWork.of_registers (h : t.registers = s.registers) : s.MeterWork t :=
  ⟨⟨fun hs => h ▸ hs, fun hs => h ▸ hs⟩, congrArg Registers.scale h⟩

/-- The records and the scale factor are kept. -/
theorem State.MeterWork.of_ranges (hs : t.slots = s.slots) (hf : t.meter.f = s.meter.f)
    (h : s.registers.InRange → t.registers.InRange) : s.MeterWork t := by
  have hslot : t.registers.slot = s.registers.slot := by
    funext i
    simp only [State.registers, State.slot, hs]
  exact ⟨⟨h, fun hb => by rw [Registers.Buckets, hslot]; exact hb⟩, hf⟩

/-- Operations one after another over a list. -/
theorem State.MeterWork.foldl {α : Type} {f : State → α → State} (h : ∀ (s : State) a, s.MeterWork (f s a)) (l : List α)
    (s : State) : s.MeterWork (l.foldl f s) := by
  induction l generalizing s with
  | nil => exact .refl s
  | cons a l ih => exact (h s a).trans (ih (f s a))

theorem State.MeterWork.unlessHeld {f : State → State} (h : s.MeterWork (f s)) : s.MeterWork (s.unlessHeld f) := by
  unfold State.unlessHeld
  split
  · exact .refl s
  · exact h

theorem State.MeterWork.whenDue {b : Bool} {f : State → State} (h : s.MeterWork (f s)) :
    s.MeterWork (s.whenDue b f) := by
  unfold State.whenDue
  split
  · exact h
  · exact .refl s

/-! ### One block replaced -/

theorem State.setSlot_registers (s : State) (i : Slot) (r : Record) :
    (s.setSlot i r).registers = { s.registers with slot := fun j => if i = j then r else s.slot j } := by
  have h : (s.setSlot i r).slot = fun j => if i = j then r else s.slot j := funext fun j => s.setSlot_slot i j r
  simp only [State.registers, h]
  rfl

/-- One record replaced by a record in range, its buckets within its depths if they were. -/
theorem State.MeterWork.setSlot {i : Slot} {r : Record} (hr : s.registers.InRange → r.InRange)
    (hb : (s.slot i).BucketsWithin → r.BucketsWithin) : s.MeterWork (s.setSlot i r) := by
  refine ⟨⟨fun hs => ?_, fun hs j => ?_⟩, rfl⟩
  · rw [State.setSlot_registers]
    refine { hs with slot := fun j => ?_ }
    dsimp only
    split
    · exact hr hs
    · exact hs.slot j
  · rw [State.setSlot_registers]
    dsimp only
    split
    · exact hb (hs i)
    · exact hs j

/-- One line replaced, its condition record kept. -/
theorem State.MeterWork.setLine {n : LineNo} {l : Line} (h : l.condition = (s.line n).condition) :
    s.MeterWork (s.setLine n l) := by
  have hc : (fun m => ((s.setLine n l).line m).condition) = fun m => (s.line m).condition := by
    funext m
    rw [State.setLine_line]
    split
    · next e => rw [← e, h]
    · rfl
  refine .of_registers ?_
  simp only [State.registers, hc]
  rfl

/-- Every line changed, its condition record's age staying within its range. -/
theorem State.MeterWork.mapLines (f : Line → Line)
    (h : ∀ l : Line, (∀ c ∈ l.condition, c.age ≤ 65535) → ∀ c ∈ (f l).condition, c.age ≤ 65535) :
    s.MeterWork (s.withLines (s.lines.map f)) := by
  refine .of_ranges rfl rfl fun hs => { hs with condition := fun n => ?_ }
  have hline : (s.withLines (s.lines.map f)).line n = f (s.line n) := by simp [State.line]
  show ∀ c ∈ ((s.withLines (s.lines.map f)).line n).condition, _
  rw [hline]
  exact h _ (hs.condition n)

theorem State.MeterWork.withHead {h : Head} (ho : s.head.osc ≤ 1048575 → h.osc ≤ 1048575)
    (ht : s.head.timer ≤ 65535 → h.timer ≤ 65535) : s.MeterWork (s.withHead h) :=
  .of_ranges rfl rfl fun hs => { hs with osc := ho hs.osc, timer := ht hs.timer }

theorem State.MeterWork.withTests {x : Tests} (h : s.tests.queue.length ≤ 8 → x.queue.length ≤ 8) :
    s.MeterWork (s.withTests x) := .of_ranges rfl rfl fun hs => { hs with queue := h hs.queue }

theorem State.MeterWork.withLadder {d : Ladder}
    (h : s.registers.InRange → d.rise ≤ 15 ∧ d.fall ≤ 15 ∧ d.count ≤ 255) : s.MeterWork (s.withLadder d) :=
  .of_ranges rfl rfl fun hs => { hs with rise := (h hs).1, fall := (h hs).2.1, count := (h hs).2.2 }

theorem State.MeterWork.withLink {l : Link} (h : s.link.InRange → l.InRange) : s.MeterWork (s.withLink l) :=
  .of_ranges rfl rfl fun hs => { hs with link := h hs.link }

theorem State.MeterWork.withRound {r : Round} (h : s.registers.InRange → r.InRange) : s.MeterWork (s.withRound r) :=
  .of_ranges rfl rfl fun hs => { hs with round := h hs }

theorem State.MeterWork.withPort {p : Port} (h : s.port.state.InRange → p.state.InRange) :
    s.MeterWork (s.withPort p) :=
  .of_ranges rfl rfl fun hs => { hs with port := h hs.port }

theorem State.MeterWork.withEngine {e : Engine} (h : s.engine.service.fits = true → e.service.fits = true) :
    s.MeterWork (s.withEngine e) :=
  .of_ranges rfl rfl fun hs => { hs with service := h hs.service }

theorem State.MeterWork.withSettings {g : Settings} (h : s.settings.Ranged → g.Ranged) :
    s.MeterWork (s.withSettings g) :=
  .of_ranges rfl rfl fun hs => { hs with settings := h hs.settings }

end

/-! ### Records -/

/-- Covered fields within their ranges (Table 5, R14, log entry 21). -/
structure Covered.InRange (c : Covered) : Prop where
  line : c.line ≤ 31
  weight : c.weight ≤ 15
  rates : c.upCir ≤ 65535 ∧ c.upPir ≤ 65535 ∧ c.downCir ≤ 65535 ∧ c.downPir ≤ 65535
  depths : c.dcu ≤ 4095 ∧ c.dpu ≤ 4095 ∧ c.dcd ≤ 4095 ∧ c.dpd ≤ 4095

/-- A bucket within a depth in range is in range. -/
theorem bucket_le {k depth : Nat} (h : k ≤ depth * 16) (hd : depth ≤ 4095) : k ≤ 65520 := by omega

theorem clearedRecord_inRange : clearedRecord.InRange := by decide

theorem clearedRecord_bucketsWithin : clearedRecord.BucketsWithin := by decide

theorem Record.InRange.covered {r : Record} (h : r.InRange) : r.cov.InRange := by
  obtain ⟨⟨hl, hw⟩, hr, hd, -⟩ := h
  exact ⟨hl, hw, hr, hd⟩

/-- Covered fields replaced by others in range. -/
theorem Record.InRange.withCov {r : Record} (h : r.InRange) {c : Covered} (hc : c.InRange) :
    ({ r with cov := c } : Record).InRange := by
  obtain ⟨-, -, -, hk, hd, hcount⟩ := h
  exact ⟨⟨hc.line, hc.weight⟩, hc.rates, hc.depths, hk, hd, hcount⟩

/-- The corrections of R14 leave weight and depths within their ranges. -/
theorem Provision.correct_covered_inRange {p : Provision}
    (hp : p.upCir ≤ 65535 ∧ p.upPir ≤ 65535 ∧ p.downCir ≤ 65535 ∧ p.downPir ≤ 65535) (tag : Tag) {line : Nat}
    (hl : line ≤ 31) (st : RecordState) : (p.correct.covered tag line st).InRange := by
  obtain ⟨huc, hup, hdc, hdp⟩ := hp
  have raised : ∀ depth rate, raiseDepth (clampNat 1 4095 depth) rate ≤ 4095 := by
    intro depth rate
    have := (clampNat_mem (lo := 1) (hi := 4095) (v := depth) (by decide)).2
    unfold raiseDepth
    omega
  exact ⟨hl, (clampNat_mem (by decide)).2, ⟨huc, max_le hup huc, hdc, max_le hdp hdc⟩, raised _ _, raised _ _,
    raised _ _, raised _ _⟩

/-- An admitted record is in range, its buckets full (R15). -/
theorem admittedRecord_inRange {c : Covered} (hc : c.InRange) (b : Bool) : (admittedRecord c b).InRange := by
  obtain ⟨h1, h2, h3, h4⟩ := hc.depths
  exact ⟨⟨hc.line, hc.weight⟩, hc.rates, hc.depths, ⟨bucket_le le_rfl h1, bucket_le le_rfl h2, bucket_le le_rfl h3,
    bucket_le le_rfl h4⟩, Nat.zero_le _, Nat.zero_le _, Nat.zero_le _, Nat.zero_le _, Nat.zero_le _⟩

/-- An amended record is in range, its buckets within the new depths (R16). -/
theorem Record.InRange.amended {r : Record} (h : r.InRange) {p : Provision}
    (hp : (p.covered r.cov.tag r.cov.line r.cov.state).InRange) (b : Bool) : (r.amended p b).InRange := by
  obtain ⟨-, -, -, ⟨h1, h2, h3, h4⟩, hd, hcount⟩ := h
  exact ⟨⟨hp.line, hp.weight⟩, hp.rates, hp.depths, ⟨min_le_of_left_le h1, min_le_of_left_le h2, min_le_of_left_le h3,
    min_le_of_left_le h4⟩, hd, hcount⟩

theorem Record.amended_bucketsWithin (r : Record) (p : Provision) (b : Bool) : (r.amended p b).BucketsWithin :=
  ⟨min_le_right .., min_le_right .., min_le_right .., min_le_right ..⟩

theorem addCounter_le (c n : Nat) : addCounter c n ≤ 4294967295 := min_le_left ..

/-- A decision debits buckets and counts (R53, R54). -/
theorem Record.InRange.meterResolve {r : Record} (h : r.InRange) (n : Nat) : (r.meterResolve n).2.InRange := by
  obtain ⟨hl, hr, hd, ⟨h1, h2, h3, h4⟩, hdem, hu, hp, he, hx⟩ := h
  unfold Record.meterResolve
  split
  · exact ⟨hl, hr, hd, ⟨h1, h2, h3, h4⟩, hdem, hu, hp, he, addCounter_le ..⟩
  split
  · exact ⟨hl, hr, hd, ⟨h1, h2, h3, (Nat.sub_le ..).trans h4⟩, hdem, hu, hp, addCounter_le .., hx⟩
  · exact ⟨hl, hr, hd, ⟨h1, h2, (Nat.sub_le ..).trans h3, (Nat.sub_le ..).trans h4⟩, hdem, hu, addCounter_le .., he, hx⟩

theorem Record.BucketsWithin.meterResolve {r : Record} (h : r.BucketsWithin) (n : Nat) :
    (r.meterResolve n).2.BucketsWithin := by
  obtain ⟨h1, h2, h3, h4⟩ := h
  unfold Record.meterResolve
  split
  · exact ⟨h1, h2, h3, h4⟩
  split
  · exact ⟨h1, h2, h3, (Nat.sub_le ..).trans h4⟩
  · exact ⟨h1, h2, (Nat.sub_le ..).trans h3, (Nat.sub_le ..).trans h4⟩

/-- A sent grant debits the up buckets and the demand latch, and counts (R92). -/
theorem Record.InRange.payGrant {r : Record} (h : r.InRange) (g c : Nat) : (r.payGrant g c).InRange := by
  obtain ⟨hl, hr, hd, ⟨h1, h2, h3, h4⟩, hdem, -, hcount⟩ := h
  exact ⟨hl, hr, hd, ⟨(Nat.sub_le ..).trans h1, (Nat.sub_le ..).trans h2, h3, h4⟩, (Nat.sub_le ..).trans hdem,
    addCounter_le .., hcount⟩

theorem Record.BucketsWithin.payGrant {r : Record} (h : r.BucketsWithin) (g c : Nat) :
    (r.payGrant g c).BucketsWithin := by
  obtain ⟨h1, h2, h3, h4⟩ := h
  exact ⟨(Nat.sub_le ..).trans h1, (Nat.sub_le ..).trans h2, h3, h4⟩

/-- A refilled record keeps all but its buckets, which the refill clamps to their depths (R46, R47). -/
theorem Record.InRange.refill {r : Record} (h : r.InRange) (f : Nat) : (r.refill f).InRange := by
  by_cases hs : r.cov.state = .free ∨ r.cov.state = .damaged
  · rwa [Record.refill_of_resting f hs]
  · obtain ⟨hl, hr, ⟨d1, d2, d3, d4⟩, -, hrest⟩ := h
    obtain ⟨hfree, hdamaged⟩ := not_or.1 hs
    rw [Record.refill_of_running f hfree hdamaged]
    exact ⟨hl, hr, ⟨d1, d2, d3, d4⟩, ⟨bucket_le (min_le_left ..) d1, bucket_le (min_le_left ..) d2,
      bucket_le (min_le_left ..) d3, bucket_le (min_le_left ..) d4⟩, hrest⟩

theorem Record.BucketsWithin.refill {r : Record} (h : r.BucketsWithin) (f : Nat) : (r.refill f).BucketsWithin := by
  by_cases hs : r.cov.state = .free ∨ r.cov.state = .damaged
  · rwa [Record.refill_of_resting f hs]
  · obtain ⟨hfree, hdamaged⟩ := not_or.1 hs
    rw [Record.refill_of_running f hfree hdamaged]
    exact ⟨min_le_left .., min_le_left .., min_le_left .., min_le_left ..⟩

/-! ### Settings -/

/-- A window field written stays in range (R168). -/
theorem Window.InRange.writeField {w : Window} (h : w.InRange) (f : WindowField) (v : BitVec 32) :
    (w.writeField f v).InRange := by
  have clamped : ∀ x : Int, -16777216 ≤ clampLimit x ∧ clampLimit x ≤ 16777215 := by
    intro x
    unfold clampLimit clampInt
    omega
  obtain ⟨hl, hl', hh, hh'⟩ := h
  cases f with
  | low => exact ⟨(clamped _).1, (clamped _).2, hh, hh'⟩
  | high => exact ⟨hl, hl', (clamped _).1, (clamped _).2⟩
  | mode | severity => exact ⟨hl, hl', hh, hh'⟩

/-- One place of a vector written keeps what holds of the old entries and of the new one. -/
theorem vector_set_forall {α : Type} {n : Nat} (P : α → Prop) {v : Vector α n} (h : ∀ j : Fin n, P v[j]) (i : Fin n)
    {x : α} (hx : P x) (j : Fin n) : P (v.set i x)[j] := by
  simp only [Fin.getElem_fin, Vector.getElem_set]
  split
  · exact hx
  · exact h j

/-- A setting written is clamped to its range (R168). -/
theorem Settings.Ranged.write {g : Settings} (h : g.Ranged) (id : SettingId) (v : BitVec 32) :
    (g.write id v).Ranged := by
  have clamped : ∀ {lo hi : Nat}, lo ≤ hi → lo ≤ clampNat lo hi v.toNat ∧ clampNat lo hi v.toNat ≤ hi := clampNat_mem
  cases id with
  | cyclePeriod => exact { h with cyclePeriod := clamped (by decide) }
  | budget l => exact { h with budget := vector_set_forall (· ≤ 4095) h.budget l (clamped (by decide)).2 }
  | bandMap b => exact { h with }
  | threshold k => exact { h with thresholds := vector_set_forall (· ≤ 255) h.thresholds k (clamped (by decide)).2 }
  | riseCount => exact { h with riseCount := clamped (by decide) }
  | fallCount => exact { h with fallCount := clamped (by decide) }
  | samplePeriod => exact { h with samplePeriod := clamped (by decide) }
  | relaySettle => exact { h with relaySettle := clamped (by decide) }
  | gateTime => exact { h with gateTime := clamped (by decide) }
  | rref => exact { h with rref := clamped (by decide) }
  | kc => exact { h with kc := clamped (by decide) }
  | headCost => exact { h with headCost := (clamped (by decide)).2 }
  | shedClass n =>
    exact { h with shedClass := vector_set_forall (fun x => 1 ≤ x ∧ x ≤ 4) h.shedClass n (clamped (by decide)) }
  | cost n => exact { h with cost := vector_set_forall (· ≤ 255) h.cost n (clamped (by decide)).2 }
  | window k m f =>
    have windows := vector_set_forall Window.InRange (h.limits k) m ((h.limits k m).writeField f v)
    have sets := vector_set_forall (fun set : Vector Window 7 => ∀ m : Fin 7, set[m].InRange) h.limits k windows
    exact { h with limits := sets }

end Sys2Proof.Machine
end

