-- ==== Sys2Proof/Proofs/LocalRanges.lean ====
section
/-! The ranges under what moves lines, records, tests, the head and the ladder. -/

namespace Sys2Proof.Machine

/-! ### Line-driven moves (R4) -/

/-- A move rewrites the state and the code: no field with a range and no bucket changes. -/
theorem State.moveState_meterWork (s : State) (i : Slot) (st : RecordState) :
    s.MeterWork (s.setSlot i ((s.slot i).moveState st)) := .setSlot (fun hs => hs.slot i) id

theorem State.moveIn_meterWork (s : State) (i : Slot) : s.MeterWork (s.moveIn i) := by
  unfold State.moveIn
  split
  · exact (s.moveState_meterWork i .active).trans (.of_registers rfl)
  · exact .refl s

theorem State.moveOut_meterWork (s : State) (i : Slot) : s.MeterWork (s.moveOut i) := by
  unfold State.moveOut
  split
  · exact (s.moveState_meterWork i .standby).trans (.of_registers rfl)
  · exact .refl s

theorem State.enterService_meterWork (s : State) (n : LineNo) : s.MeterWork (s.enterService n) :=
  .foldl State.moveIn_meterWork _ s

theorem State.leaveService_meterWork (s : State) (n : LineNo) : s.MeterWork (s.leaveService n) :=
  .foldl State.moveOut_meterWork _ s

theorem State.setLineState_meterWork (s : State) (n : LineNo) (st : LineState) (p : Option PreShed) :
    s.MeterWork (s.setLineState n st p) := .setLine rfl

/-! ### Tests and the head (R100 to R125) -/

theorem State.dispatch_meterWork (s : State) {e : TestEntry} {rest : List TestEntry} (h : s.tests.queue = e :: rest) :
    s.MeterWork (s.dispatch e rest) := by
  have begun : s.MeterWork (s.withTests ⟨rest, some (dispatchedTest e)⟩) :=
    .withTests fun hq => (Nat.le_succ _).trans (by rwa [h] at hq)
  have under : s.MeterWork ((s.withTests ⟨rest, some (dispatchedTest e)⟩).setLine e.line
      { s.line e.line with state := .underTest (s.line e.line).state.saved }) := begun.trans (.setLine rfl)
  have powered : ∀ u : State, u.MeterWork ((u.withHead { u.head with headen := true }).withRelay
      (u.relay.command (lineBit e.line))) := fun u => .of_registers rfl
  unfold State.dispatch
  dsimp only
  split
  · exact (under.trans (State.leaveService_meterWork _ _)).trans (powered _)
  · exact under.trans (powered _)

theorem State.dispatchRetry_meterWork (s : State) : s.MeterWork s.dispatchRetry := by
  rcases s.dispatchRetry_cases with e | ⟨e, rest, hq, -, h⟩
  · rw [e]; exact .refl s
  · rw [h]; exact s.dispatch_meterWork hq

theorem State.abort_meterWork (s : State) (c : Cause) : s.MeterWork (s.abort c) := by
  unfold State.abort
  split <;> exact .of_registers rfl

theorem State.proceed_meterWork (s : State) (t : Test) (k : Nat) : s.MeterWork (s.proceed t k) := by
  unfold State.proceed
  split
  · exact .of_registers rfl
  split <;> exact .of_registers rfl

theorem State.completeMeasure_meterWork (s : State) (m : Meas) (r : Result) : s.MeterWork (s.completeMeasure m r) := by
  have idle : s.MeterWork (s.withHead s.head.toIdle) := .of_registers rfl
  unfold State.completeMeasure
  dsimp only
  split
  · exact idle
  · exact idle.trans (State.proceed_meterWork _ _ _)

theorem State.completeTone_meterWork (s : State) : s.MeterWork s.completeTone := by
  unfold State.completeTone
  dsimp only
  split <;> exact .of_registers rfl

theorem State.latchRelay_meterWork (s : State) (i : Image) : s.MeterWork (s.latchRelay i) := by
  unfold State.latchRelay
  dsimp only
  split
  · exact .of_registers rfl
  split <;> exact .of_registers rfl

theorem State.settled_meterWork (s : State) (t : Test) : s.MeterWork (s.settled t) := by
  unfold State.settled
  split
  · exact s.proceed_meterWork t 0
  all_goals exact .of_registers rfl

theorem State.cancelTest_meterWork (s : State) (n : LineNo) : s.MeterWork (s.cancelTest n).1 := by
  unfold State.cancelTest
  split
  · exact .withTests (List.length_filter_le ..).trans
  split
  · exact .refl s
  split
  · split
    · exact s.abort_meterWork .host
    · exact .refl s
  · exact .refl s

/-- The counters of the head start at 0 at the end of a path settle (R109, R111). -/
theorem Head.pathSettled_counters (h : Head) (capin : Bool) :
    (h.pathSettled capin).osc ≤ h.osc ∧ (h.pathSettled capin).timer ≤ h.timer := by
  unfold Head.pathSettled
  split
  case h_4 => split <;> exact ⟨le_rfl, Nat.zero_le _⟩
  case h_2 | h_3 => exact ⟨Nat.zero_le _, le_rfl⟩
  all_goals exact ⟨le_rfl, le_rfl⟩

/-! ### Sheds, relights and the ladder (R138 to R147) -/

theorem State.commandPower_meterWork (s : State) : s.MeterWork s.commandPower := .of_registers rfl

theorem State.leftLit_meterWork (s : State) : s.MeterWork s.leftLit :=
  s.commandPower_meterWork.trans (State.dispatchRetry_meterWork _)

theorem State.darkenMarked_meterWork (s : State) (n : LineNo) : s.MeterWork (s.darkenMarked n) := by
  unfold State.darkenMarked
  split
  · split
    · exact .refl s
    dsimp only
    split
    · exact (s.setLineState_meterWork n _ _).trans (State.leaveService_meterWork _ n)
    · exact s.setLineState_meterWork n _ _
  · split
    · exact .refl s
    · exact s.setLineState_meterWork n _ _

theorem State.raise_meterWork (s : State) (e : Event) : s.MeterWork (s.raise e) := .of_registers rfl

theorem State.shedLine_meterWork (s : State) (n : LineNo) : s.MeterWork (s.shedLine n) :=
  ((s.darkenMarked_meterWork n).trans (State.leftLit_meterWork _)).trans (State.raise_meterWork _ _)

theorem State.relight_meterWork (s : State) (n : LineNo) (p : PreShed) : s.MeterWork (s.relight n p) := by
  have lit := (s.setLineState_meterWork n (.rest p.rest) none).trans (State.commandPower_meterWork _)
  unfold State.relight
  dsimp only
  split
  · exact lit.trans (State.enterService_meterWork _ n)
  · exact lit

theorem State.overloadFor_meterWork (k : Nat) (s : State) : s.MeterWork (s.overloadFor k) := by
  induction k generalizing s with
  | zero => exact .refl s
  | succ k ih =>
    unfold State.overloadFor
    split
    · exact .refl s
    split
    · exact (s.abort_meterWork .power).trans (ih _)
    split
    · exact .refl s
    · exact (s.shedLine_meterWork _).trans (ih _)

theorem State.overloadCheck_meterWork (s : State) : s.MeterWork s.overloadCheck := s.overloadFor_meterWork 25

theorem State.tryRelight_meterWork (s : State) (n : LineNo) : s.MeterWork (s.tryRelight n) := by
  unfold State.tryRelight
  split
  · split
    · exact s.relight_meterWork n _
    · exact .refl s
  · exact .refl s

theorem State.relightPass_meterWork (s : State) : s.MeterWork s.relightPass := .foldl State.tryRelight_meterWork _ s

theorem State.riseShed_meterWork (s : State) (n : LineNo) : s.MeterWork (s.riseShed n) := by
  unfold State.riseShed
  split
  · exact s.shedLine_meterWork n
  · exact .refl s

/-- A level change sets both counters to 0. -/
theorem State.atLevel_meterWork (s : State) (l : Level) : s.MeterWork (s.atLevel l) :=
  .withLadder fun hs => ⟨Nat.zero_le _, Nat.zero_le _, hs.count⟩

theorem State.levelRise_meterWork (s : State) (l : Level) : s.MeterWork (s.levelRise l) := by
  have unpowered : s.MeterWork s.unpowered := by
    unfold State.unpowered
    split
    · exact s.abort_meterWork .power
    · exact .refl s
  have sheds := (unpowered.trans (State.atLevel_meterWork _ l)).trans
    (.foldl State.riseShed_meterWork (List.finRange 24) _)
  rw [State.levelRise_eq]
  exact ((sheds.trans (State.overloadCheck_meterWork _)).trans (State.raise_meterWork _ _)).trans
    (State.dispatchRetry_meterWork _)

theorem State.levelFall_meterWork (s : State) (l : Level) : s.MeterWork (s.levelFall l) :=
  ((((s.atLevel_meterWork l).trans (State.overloadCheck_meterWork _)).trans (State.relightPass_meterWork _)).trans
    (State.raise_meterWork _ _)).trans (State.dispatchRetry_meterWork _)

/-- A counter that has not reached its setting stays below it (R139). -/
theorem State.hysteresis_meterWork (s : State) (target : Level) : s.MeterWork (s.hysteresis target) := by
  have counted : ∀ rise fall : Nat, (s.registers.InRange → rise ≤ 15 ∧ fall ≤ 15) →
      s.MeterWork (s.withLadder { s.ladder with rise := rise, fall := fall }).relightPass := by
    intro rise fall h
    have ladder : s.MeterWork (s.withLadder { s.ladder with rise := rise, fall := fall }) :=
      .withLadder fun hs => ⟨(h hs).1, (h hs).2, hs.count⟩
    exact ladder.trans (State.relightPass_meterWork _)
  unfold State.hysteresis
  dsimp only
  split
  · split
    · exact s.levelRise_meterWork target
    · next hbelow => exact counted _ _ fun hs =>
      ⟨(Nat.lt_of_not_le hbelow).le.trans hs.settings.riseCount.2, Nat.zero_le _⟩
  split
  · split
    · exact s.levelFall_meterWork target
    · next hbelow => exact counted _ _ fun hs =>
      ⟨Nat.zero_le _, (Nat.lt_of_not_le hbelow).le.trans hs.settings.fallCount.2⟩
  · exact counted _ _ fun _ => ⟨Nat.zero_le _, Nat.zero_le _⟩

theorem State.endSample_meterWork (s : State) (band : Fin 8) (mains : Bool) :
    s.MeterWork (s.endSample band mains) := by
  have kept : s.MeterWork (s.sampled band mains) := .of_registers rfl
  rw [State.endSample_eq]
  split
  · exact kept.trans (State.hysteresis_meterWork _ _)
  unfold State.initialSample
  split
  · exact kept.trans (State.levelFall_meterWork _ _)
  · exact kept.trans (State.relightPass_meterWork _)

/-- A tick counts below the sample period (R136). -/
theorem State.tick_meterWork (s : State) : s.MeterWork (if s.settings.samplePeriod ≤ s.ladder.count + 1 then
      (s.withLadder { s.ladder with count := 0 }).beginSample
    else s.withLadder { s.ladder with count := s.ladder.count + 1 }) := by
  split
  · exact .withLadder fun hs => ⟨hs.rise, hs.fall, Nat.zero_le _⟩
  · next hbelow =>
    exact .withLadder fun hs =>
      ⟨hs.rise, hs.fall, (Nat.lt_of_not_le hbelow).le.trans hs.settings.samplePeriod.2⟩

theorem State.writeSetting_meterWork (s : State) (id : SettingId) (v : BitVec 32) :
    s.MeterWork (s.writeSetting id v) := by
  have written : s.MeterWork (s.withSettings (s.settings.write id v)) := .withSettings fun h => h.write id v
  unfold State.writeSetting
  dsimp only
  split
  · exact (written.trans (State.overloadCheck_meterWork _)).trans (State.dispatchRetry_meterWork _)
  · exact written

/-! ### The line commands (Table 17) -/

theorem lightLine_meterWork (n : LineNo) (s : State) : s.MeterWork (lightLine n s).1 := by
  unfold lightLine
  split
  · split
    · exact .refl s
    split
    · exact .refl s
    · exact (s.setLineState_meterWork n _ none).trans (State.commandPower_meterWork _)
  · exact .refl s

theorem serveLine_meterWork (n : LineNo) (s : State) : s.MeterWork (serveLine n s).1 := by
  unfold serveLine
  split
  · exact (s.setLineState_meterWork n _ _).trans (State.enterService_meterWork _ n)
  · exact .refl s

theorem suspendLine_meterWork (n : LineNo) (s : State) : s.MeterWork (suspendLine n s).1 := by
  unfold suspendLine
  split
  · exact (s.setLineState_meterWork n _ _).trans (State.leaveService_meterWork _ n)
  · exact s.setLineState_meterWork n _ _
  all_goals exact .refl s

theorem darkenLine_meterWork (n : LineNo) (s : State) : s.MeterWork (darkenLine n s).1 := by
  have dark : ∀ st, s.MeterWork (s.setLineState n st none) := fun st => s.setLineState_meterWork n st none
  have left : ∀ st, s.MeterWork (s.setLineState n st none).leftLit := fun st =>
    (dark st).trans (State.leftLit_meterWork _)
  unfold darkenLine
  split
  · exact left _
  · exact ((dark _).trans (State.leaveService_meterWork _ n)).trans (State.leftLit_meterWork _)
  · split
    · exact dark _
    · exact .refl s
  · exact left _
  · exact left _
  · split
    · exact dark _
    · exact .refl s
  all_goals exact .refl s

theorem clearFault_meterWork (n : LineNo) (s : State) : s.MeterWork (clearFault n s).1 := by
  unfold clearFault
  split
  · exact s.setLineState_meterWork n _ none
  · exact .refl s

/-! ### The test completion and the minute tick (R130, R131, R133) -/

/-- A line's record replaced by one with a condition record of age 0. -/
theorem State.setCondition_meterWork (s : State) (n : LineNo) {c : Condition} (h : c.age = 0) :
    s.MeterWork (s.setLine n { s.line n with condition := some c }) := by
  refine .of_ranges rfl rfl fun hs => { hs with condition := fun m => ?_ }
  show ∀ x ∈ ((s.setLine n _).line m).condition, _
  rw [State.setLine_line]
  split
  · intro x hx
    obtain rfl : c = x := Option.some.inj hx
    omega
  · exact hs.condition m

theorem State.leaveTest_meterWork (s : State) (n : LineNo) (ret new : RestState) (p : Option PreShed) :
    s.MeterWork (s.leaveTest n ret new p) := by
  have moved := s.setLineState_meterWork n (.rest new) p
  unfold State.leaveTest
  dsimp only
  split
  · exact moved.trans (State.enterService_meterWork _ n)
  split
  · exact moved.trans (State.leftLit_meterWork _)
  · exact moved

theorem State.completeTest_meterWork (s : State) (t : Test) (v : Evaluation) : s.MeterWork (s.completeTest t v) := by
  have told : ∀ u : State, u.MeterWork ((u.withTests { u.tests with current := none }).raise .testDone) :=
    fun u => .of_registers rfl
  have written : s.MeterWork (s.setLine t.entry.line { s.line t.entry.line with condition := some (t.condition v) }) :=
    s.setCondition_meterWork t.entry.line rfl
  unfold State.completeTest
  dsimp only
  refine State.MeterWork.trans ?_ (State.dispatchRetry_meterWork _)
  split
  · exact ((written.trans (State.leaveTest_meterWork _ _ _ _ _)).trans (told _)).trans (State.raise_meterWork _ _)
  · exact (written.trans (State.leaveTest_meterWork _ _ _ _ _)).trans (told _)

theorem State.minuteTick_meterWork (s : State) :
    s.MeterWork (s.withLines (s.lines.map fun l => { l with condition := l.condition.map Condition.older })) := by
  refine .mapLines _ fun l _ c hc => ?_
  obtain ⟨x, -, rfl⟩ := Option.map_eq_some_iff.1 hc
  exact min_le_left ..

end Sys2Proof.Machine
end

