-- ==== Sys2Proof/Proofs/ServiceRanges.lean ====
section
/-! The ranges under the lookup engine, the record commands, the rounds and what is due at once. -/

namespace Sys2Proof.Machine

/-! ### Records at the table engine (R7, R11, R60) -/

theorem State.discover_meterWork (s : State) (i : Slot) (op : FaultOp) : s.MeterWork (s.discover i op) := by
  have marked : s.MeterWork (s.setSlot i ((s.slot i).withState .damaged)) := .setSlot (fun hs => hs.slot i) id
  have offered : ∀ (u : State) (c : Capture), u.MeterWork ((u.offerCapture c).raise .recordDamaged) := by
    intro u c
    unfold State.offerCapture
    split <;> exact .of_registers rfl
  unfold State.discover
  dsimp only
  split
  · have reported : (s.setSlot i ((s.slot i).withState .damaged)).MeterWork
        ((s.setSlot i ((s.slot i).withState .damaged)).exitActive i) := .of_registers rfl
    exact (marked.trans reported).trans (offered _ _)
  · exact marked.trans (offered _ _)

theorem State.decide_meterWork (s : State) (q : Request) : s.MeterWork (s.decide q).1 := by
  unfold State.decide
  split
  · exact .refl s
  split
  · exact .refl s
  next i _ =>
  unfold State.decideFound
  dsimp only
  split
  · exact .refl s
  split
  · exact s.discover_meterWork i .resolve
  split
  · exact .refl s
  split
  · exact .refl s
  · exact .setSlot (fun hs => (hs.slot i).meterResolve _) fun hb => hb.meterResolve _

/-- A lookup takes the queue's head (R58). -/
theorem State.lookupHead_meterWork (s : State) : s.MeterWork s.lookupHead := by
  unfold State.lookupHead
  split
  · next q rest hq =>
    have taken : s.MeterWork (s.withLink { s.link with queue := rest }) := by
      refine .withLink fun hl => { hl with queue := ?_ }
      have := hl.queue
      rw [hq, List.length_cons] at this
      exact (Nat.le_succ _).trans this
    exact (taken.trans (State.decide_meterWork _ q)).trans (.withEngine fun _ => rfl)
  · exact .refl s

theorem State.reportEntry_meterWork (s : State) (i : Slot) : s.MeterWork (s.reportEntry i) := by
  unfold State.reportEntry
  split <;> exact .of_registers rfl

/-- A record written and its line's list extended (R15). -/
theorem State.admitted_meterWork (s : State) (i : Slot) (n : LineNo) (tag : Tag) {p : Provision}
    (hp : s.registers.InRange → (p.covered tag n.val (s.healthyState n.val)).InRange) :
    s.MeterWork (s.admitted i n tag p) := by
  have written : s.MeterWork (s.setSlot i (admittedRecord (p.covered tag n.val (s.healthyState n.val)) s.armed)) :=
    .setSlot (fun hs => admittedRecord_inRange (hp hs) _) fun _ => ⟨le_rfl, le_rfl, le_rfl, le_rfl⟩
  have armed : ∀ u : State, u.MeterWork (u.withArmed false) := fun _ => .of_registers rfl
  exact (written.trans (armed _)).trans (.setLine rfl)

theorem State.amended_meterWork (s : State) (i : Slot) {p : Provision}
    (hp : s.registers.InRange → (p.covered (s.slot i).cov.tag (s.slot i).cov.line (s.slot i).cov.state).InRange) :
    s.MeterWork (((s.setSlot i ((s.slot i).amended p s.armed)).withArmed false).recount i) := by
  have written : s.MeterWork (s.setSlot i ((s.slot i).amended p s.armed)) :=
    .setSlot (fun hs => (hs.slot i).amended (hp hs) _) fun _ => Record.amended_bucketsWithin ..
  unfold State.recount
  split <;> exact written.trans (.of_registers rfl)

theorem State.retireAt_meterWork (s : State) (i : Slot) : s.MeterWork (s.retireAt i) := by
  have detached : ∀ u : State, u.lines = s.lines →
      u.MeterWork ((u.withLines (s.lines.map fun l => { l with attached := l.attached.filter (· != i) })).setSlot i
        clearedRecord) := by
    intro u hl
    have lines : u.MeterWork
        (u.withLines (s.lines.map fun l => { l with attached := l.attached.filter (· != i) })) := by
      rw [← hl]
      exact .mapLines _ fun _ h => h
    exact lines.trans (.setSlot (fun _ => clearedRecord_inRange) fun _ => clearedRecord_bucketsWithin)
  have reported : s.MeterWork (s.exitActive i) := .of_registers rfl
  unfold State.retireAt
  dsimp only
  split
  · exact reported.trans (detached _ rfl)
  · exact detached s rfl

/-- A record rewritten in its state and its code alone. -/
theorem State.setState_meterWork (s : State) (i : Slot) (st : RecordState) :
    s.MeterWork (s.setSlot i (((s.slot i).withState st).seal false)) := .setSlot (fun hs => hs.slot i) id

/-- A record command whose rates are 16-bit numbers leaves records in range (Table 75). -/
theorem State.takeCommand_meterWork (s : State) {c : RecordCommand}
    (hc : s.registers.InRange → (PortState.wait (.record c)).ratesFit = true) :
    s.MeterWork (s.takeCommand c).state := by
  have hl := s.takeCommand_leaves c
  generalize (s.takeCommand c).state = t at hl
  cases hl with
  | same => exact .refl s
  | damage hi => exact s.discover_meterWork _ _
  | @admits tag k p i n hi hn =>
    rw [State.admitAt_eq]
    have hline : n.val ≤ 31 := by omega
    have written : s.MeterWork (s.admitted i n tag p.correct) := s.admitted_meterWork i n tag fun hs =>
      Provision.correct_covered_inRange (of_decide_eq_true (hc hs)) tag hline _
    exact written.trans (State.reportEntry_meterWork _ i)
  | @amends tag p i hi hd hp =>
    exact s.amended_meterWork i fun hs =>
      Provision.correct_covered_inRange (of_decide_eq_true (hc hs)) _ (hs.slot i).covered.line _
  | retires => exact s.retireAt_meterWork _
  | @bars _ i hi hp =>
    have barred := s.setState_meterWork i .barred
    split
    · exact barred.trans (.of_registers rfl)
    · exact barred
  | unbars hb hp => exact (s.setState_meterWork _ _).trans (State.reportEntry_meterWork _ _)

/-! ### The lengths of answers (R153) -/

/-- The response to a record command fits the buffer with its result word (R153, Table 76). -/
theorem State.takeCommand_data_length (s : State) (c : RecordCommand) : (s.takeCommand c).data.length ≤ 23 := by
  cases c with
  | admission tag line p =>
    simp only [State.takeCommand, State.takeAdmit]
    repeat' split
    all_goals simp [State.refuse, provisionWords]
  | amend tag p =>
    simp only [State.takeCommand, State.takeAmend]
    repeat' split
    all_goals simp [State.refuse, provisionWords]
  | retire tag =>
    simp only [State.takeCommand, State.takeRetire]
    repeat' split
    all_goals simp [State.refuse]
  | retireSlot slot =>
    simp only [State.takeCommand, State.takeRetireSlot]
    repeat' split
    all_goals simp [State.refuse, tagWords]
  | bar tag =>
    simp only [State.takeCommand, State.takeBar]
    repeat' split
    all_goals simp [State.refuse]
  | unbar tag =>
    simp only [State.takeCommand, State.takeUnbar]
    repeat' split
    all_goals simp [State.refuse]
  | lookUp tag =>
    simp only [State.takeCommand, State.takeLookUp]
    repeat' split
    all_goals simp [State.refuse, lookUpWords, words32]

/-- A result word and data of up to 23 words fit the buffer (R153). -/
theorem response_fits {w : Word16} {data : List Word16} (h : data.length ≤ 23) :
    1 ≤ (w :: data).length ∧ (w :: data).length ≤ 24 := by
  rw [List.length_cons]
  omega

theorem PortState.waiting_eq_some {p : PortState} {c : RecordCommand} (h : p.waiting = some c) :
    p = .wait (.record c) := by
  unfold PortState.waiting at h
  split at h <;> simp_all

/-- The take of the command that waits: its response waits for the completion (R11). -/
theorem State.takeWaiting_meterWork (s : State) : s.MeterWork s.takeWaiting := by
  unfold State.takeWaiting
  split
  · next c hw =>
    have hrates : s.registers.InRange → (PortState.wait (.record c)).ratesFit = true := by
      intro hs
      rw [← PortState.waiting_eq_some hw]
      exact hs.port.2
    have taken : (s.takeCommand c).state.MeterWork ((s.takeCommand c).state.withPort
      { (s.takeCommand c).state.port with state := .wait .taken }) := .withPort fun _ => ⟨rfl, rfl⟩
    exact ((s.takeCommand_meterWork hrates).trans taken).trans
      (.withEngine fun _ => decide_eq_true (response_fits (s.takeCommand_data_length c)))
  · exact .refl s

/-! ### Rounds (R80 to R94) -/

/-- A message of eight bytes at the transmitter (R68). -/
theorem length_of_mem_some {bytes : List Byte} (h : bytes.length = 8) : ∀ x ∈ some bytes, x.length = 8 := by
  rintro x ⟨⟩
  exact h

/-- What the accounts of a round in flight say (R83, R89, R94). -/
structure Emission.Accounts (e : Emission) : Prop where
  sum : e.sentTotal + e.withheld + sumShares Share.grant e.offers = sumShares Share.grant e.shares
  total : sumShares Share.grant e.shares ≤ e.capacity
  capacity : e.capacity ≤ 4095
  shares : ∀ x ∈ e.shares, x.grant ≤ min x.entry.demand x.entry.kp
  offers : ∀ x ∈ e.offers, 0 < x.grant
  count : e.sentCount + e.offers.length ≤ e.shares.length
  length : e.shares.length ≤ 128

theorem Emission.accounts_iff (e : Emission) : e.accounts = true ↔ e.Accounts := by
  simp only [Emission.accounts, Bool.and_eq_true, decide_eq_true_eq, List.all_eq_true]
  constructor
  · rintro ⟨⟨⟨⟨⟨⟨h1, h2⟩, h3⟩, h4⟩, h5⟩, h6⟩, h7⟩
    exact ⟨h1, h2, h3, h4, h5, h6, h7⟩
  · rintro ⟨h1, h2, h3, h4, h5, h6, h7⟩
    exact ⟨⟨⟨⟨⟨⟨h1, h2⟩, h3⟩, h4⟩, h5⟩, h6⟩, h7⟩

/-- The offered grants above 0 are all that is granted. -/
theorem sumShares_filter_pos (l : List Share) :
    sumShares Share.grant (l.filter fun x => decide (0 < x.grant)) = sumShares Share.grant l := by
  unfold sumShares
  induction l with
  | nil => rfl
  | cons x xs ih =>
    by_cases hx : 0 < x.grant
    · simp [hx, ih]
    · simp [ih, Nat.eq_zero_of_not_pos hx]

/-- A round accounts for its grants as it begins (R82). -/
theorem snapshot_accounts {c : Nat} (hc : c ≤ 4095) (p : Slot) {roster : List RosterEntry} (hr : roster.length ≤ 128) :
    Emission.Accounts ⟨c, p, computeGrants c p roster, (computeGrants c p roster).filter fun x => decide (0 < x.grant),
      0, 0, 0⟩ := by
  obtain ⟨⟨hroster, hmost⟩, htotal⟩ := computeGrants_spec c p roster
  refine ⟨?_, htotal, hc, hmost, fun x hx => ?_, ?_, ?_⟩
  · simp [sumShares_filter_pos]
  · simpa using (List.mem_filter.1 hx).2
  · simpa using List.length_filter_le _ _
  · rwa [← List.length_map (f := Share.entry), hroster]

/-- A sent grant moves from the offers to what was sent (R92). -/
theorem Emission.Accounts.send {e : Emission} {x : Share} {rest : List Share}
    (h : Emission.Accounts { e with offers := x :: rest }) : Emission.Accounts { e with
      offers := rest, sentCount := e.sentCount + 1, sentTotal := e.sentTotal + x.grant } := by
  obtain ⟨hsum, htotal, hc, hshares, hoffers, hcount, hlen⟩ := h
  refine ⟨?_, htotal, hc, hshares, fun y hy => hoffers y (List.mem_cons_of_mem _ hy), ?_, hlen⟩
  · simp only [sumShares, List.map_cons, List.sum_cons] at hsum ⊢
    omega
  · simp only [List.length_cons] at hcount ⊢
    omega

/-- A withheld grant moves from the offers to what was withheld (R93). -/
theorem Emission.Accounts.withhold {e : Emission} {x : Share} {rest : List Share}
    (h : Emission.Accounts { e with offers := x :: rest }) : (withholdGrant x rest e).Accounts := by
  obtain ⟨hsum, htotal, hc, hshares, hoffers, hcount, hlen⟩ := h
  refine ⟨?_, htotal, hc, hshares, fun y hy => hoffers y (List.mem_cons_of_mem _ hy), ?_, hlen⟩
  · simp only [withholdGrant, sumShares, List.map_cons, List.sum_cons] at hsum ⊢
    omega
  · simp only [withholdGrant, List.length_cons] at hcount ⊢
    omega

/-- The round engine in a phase other than IDLE, its accounts in order. -/
theorem Round.InRange.emitting {r : Round} (h : r.InRange) {e : Emission} (he : e.Accounts) :
    Round.InRange { r with phase := .emitting e } :=
  { h with deferred := fun _ => by simp, accounts := (Emission.accounts_iff e).2 he }

/-- The round in flight of a state in range accounts for its grants. -/
theorem Registers.InRange.accounts {s : State} (hs : s.registers.InRange) {e : Emission}
    (hp : s.round.phase = .emitting e) : e.Accounts := by
  have h := hs.round.accounts
  rw [show s.registers.round.phase = .emitting e from hp] at h
  exact (Emission.accounts_iff e).1 h

theorem State.snapshot_meterWork (s : State) : s.MeterWork s.snapshot := by
  have discovered : s.MeterWork (s.unsound.foldl (fun s i => s.discover i .roster) s) :=
    .foldl (fun u i => u.discover_meterWork i .roster) _ s
  have hlen : (s.sound.map s.rosterEntry).length ≤ 128 := by
    rw [List.length_map]
    exact (List.length_filter_le ..).trans_eq (List.length_finRange ..)
  refine ⟨⟨fun hs => ?_, discovered.buckets⟩, discovered.scale⟩
  have moved : Round.InRange { s.round with pointer := nextPointer s.round.pointer (s.sound.map s.rosterEntry) } :=
    { hs.round with }
  exact { discovered.ranges hs with round := moved.emitting (snapshot_accounts hs.link.capUp _ hlen) }

theorem State.sendGrant_meterWork (s : State) {x : Share} {rest : List Share} {e : Emission}
    (he : s.registers.InRange → Emission.Accounts { e with offers := x :: rest }) :
    s.MeterWork (s.sendGrant x rest e) := by
  have paid : s.MeterWork (s.setSlot x.entry.slot ((s.slot x.entry.slot).payGrant x.grant x.entry.claim)) :=
    .setSlot (fun hs => (hs.slot _).payGrant _ _) fun hb => hb.payGrant _ _
  refine ⟨⟨fun hs => ?_, fun hb => paid.buckets hb⟩, rfl⟩
  exact { paid.ranges hs with
    link := { hs.link with sending := length_of_mem_some rfl }
    round := hs.round.emitting (he hs).send }

/-- An owed round starts, and is owed no more (R78). -/
theorem State.sendRoundEnd_meterWork (s : State) (e : Emission) : s.MeterWork (s.sendRoundEnd e) := by
  cases hd : s.round.deferred with
  | true =>
    rw [State.sendRoundEnd_of_deferred hd]
    exact .of_ranges rfl rfl fun hs => { hs with
      link := { hs.link with sending := length_of_mem_some rfl }
      round := { hs.round with deferred := fun h => absurd h Bool.false_ne_true, accounts := rfl } }
  | false =>
    rw [State.sendRoundEnd_of_clear hd]
    exact .of_ranges rfl rfl fun hs => { hs with
      link := { hs.link with sending := length_of_mem_some rfl }
      round := { hs.round with deferred := fun h => absurd (hd.symm.trans h) Bool.false_ne_true, accounts := rfl } }

theorem State.emitRound_meterWork (s : State) (l : List Share) (e : Emission)
    (he : s.registers.InRange → Emission.Accounts { e with offers := l }) : s.MeterWork (s.emitRound l e) := by
  induction l generalizing e with
  | nil => exact s.sendRoundEnd_meterWork e
  | cons x xs ih =>
    unfold State.emitRound
    split
    · exact s.sendGrant_meterWork he
    · exact ih _ fun hs => (he hs).withhold

theorem State.sendRound_meterWork (s : State) : s.MeterWork s.sendRound := by
  unfold State.sendRound
  split
  · next e hp => exact s.emitRound_meterWork _ _ fun hs => hs.accounts hp
  all_goals exact .refl s

theorem State.emitGrant_meterWork (s : State) {x : Share} {rest : List Share} {e : Emission}
    (hp : s.round.phase = .emitting e) (ho : e.offers = x :: rest) : s.MeterWork (s.emitGrant x rest e) := by
  have he : s.registers.InRange → Emission.Accounts { e with offers := x :: rest } := by
    intro hs
    rw [← ho]
    exact hs.accounts hp
  unfold State.emitGrant
  split
  · exact s.sendGrant_meterWork he
  · exact .withRound fun hs => hs.round.emitting (he hs).withhold

/-! ### Verdicts (R62, R69) -/

theorem State.sendVerdict_meterWork (s : State) : s.MeterWork s.sendVerdict := by
  unfold State.sendVerdict
  split
  · next q rest hq =>
    refine .withLink fun hl => { hl with refusals := ?_, sending := length_of_mem_some rfl }
    have := hl.refusals
    rw [hq, List.length_cons] at this
    exact (Nat.le_succ _).trans this
  split
  · exact .withLink fun hl => { hl with sending := length_of_mem_some rfl }
  · exact .refl s

theorem State.completeResolve_meterWork (s : State) : s.MeterWork s.completeResolve := by
  unfold State.completeResolve
  split
  · next v _ =>
    have held : s.MeterWork (s.withLink { s.link with held := some v }) := .withLink fun hl => { hl with }
    exact held.trans (.withEngine fun _ => rfl)
  all_goals exact .refl s

/-! ### What is due at once (R12, R62, R69) -/

theorem State.internal_meterWork {s t : State} (h : s.internal = some t) : s.MeterWork t := by
  unfold State.internal at h
  split at h
  · obtain rfl := Option.some.inj h; exact s.sendVerdict_meterWork
  split at h
  · obtain rfl := Option.some.inj h; exact s.sendRound_meterWork
  split at h
  · obtain rfl := Option.some.inj h; exact s.completeResolve_meterWork
  split at h
  · obtain rfl := Option.some.inj h; exact s.snapshot_meterWork
  split at h
  · obtain rfl := Option.some.inj h; exact s.lookupHead_meterWork
  split at h
  · obtain rfl := Option.some.inj h; exact s.takeWaiting_meterWork
  · simp at h

theorem State.settleFor_meterWork (k : Nat) (s : State) : s.MeterWork (s.settleFor k) := by
  induction k generalizing s with
  | zero => exact .refl s
  | succ k ih =>
    unfold State.settleFor
    split
    · exact .refl s
    · next t h => exact (State.internal_meterWork h).trans (ih t)

theorem State.settle_meterWork (s : State) : s.MeterWork s.settle := s.settleFor_meterWork 10

end Sys2Proof.Machine
end

