-- ==== Sys2Proof/Proofs/EveryRange.lean ====
section
/-! The ranges, the buckets and the scale factor under every command. -/

namespace Sys2Proof.Machine

/-! ### Arrivals on the link (R57, R59, R63, R66) -/

theorem State.receiverIdle_meterWork (s : State) : s.MeterWork s.receiverIdle :=
  .withLink fun hl => { hl with receiving := Nat.zero_le _ }

theorem State.arriveResolve_meterWork (s : State) (q : Byte) (tag : Tag) (len : Nat) :
    s.MeterWork (s.arriveResolve q tag len) := by
  unfold State.arriveResolve
  split
  · next hroom =>
    refine .withLink fun hl => { hl with queue := ?_ }
    rw [List.length_append]
    exact hroom
  · have refused : s.MeterWork (s.withLink { s.link with
        refusals := if s.link.refusals.length < 4 then s.link.refusals ++ [q] else s.link.refusals }) := by
      refine .withLink fun hl => { hl with refusals := ?_ }
      dsimp only
      split
      · next hroom =>
        rw [List.length_append]
        exact hroom
      · exact hl.refusals
    exact refused.trans (State.raise_meterWork _ _)

theorem State.arriveBacklog_meterWork (s : State) (tag : Tag) (credits : Nat) :
    s.MeterWork (s.arriveBacklog tag credits) := by
  unfold State.arriveBacklog
  split
  · next i _ =>
    refine .setSlot (fun hs => ?_) id
    obtain ⟨hl, hr, hd, hk, -, hcount⟩ := hs.slot i
    exact ⟨hl, hr, hd, hk, min_le_left .., hcount⟩
  · exact .withLink fun hl => { hl with unmatched := min_le_left .. }

theorem State.arriveCapacity_meterWork (s : State) (up down : Nat) : s.MeterWork (s.arriveCapacity up down) :=
  .withLink fun hl => { hl with
    capUp := min_le_left .., capDown := min_le_left .., staleCount := Nat.zero_le _, stale := rfl }

theorem State.arriveMessage_meterWork (s : State) (l : List Byte) : s.MeterWork (s.arriveMessage l) := by
  unfold State.arriveMessage
  split
  · exact (s.arriveResolve_meterWork _ _ _).trans (State.settle_meterWork _)
  split
  · exact s.arriveBacklog_meterWork _ _
  split
  · exact s.arriveCapacity_meterWork _ _
  · exact .refl s

/-- A byte leaves at most seven bytes of a message at the receiver: the eighth makes it arrive (R175). -/
theorem State.takeByte_meterWork (s : State) (start : Bool) (b : Byte) : s.MeterWork (s.takeByte start b) := by
  have length_le : s.link.InRange →
      (if start then [b] else if s.link.receiving.isEmpty then [] else s.link.receiving ++ [b]).length ≤ 8 := by
    intro hl
    have := hl.receiving
    split
    · exact Nat.le_add_left 1 7
    split
    · exact Nat.zero_le _
    · rw [List.length_append, List.length_singleton]
      omega
  unfold State.takeByte
  dsimp only
  generalize (if start then [b] else _) = bytes at length_le ⊢
  split
  · exact s.receiverIdle_meterWork.trans (State.arriveMessage_meterWork _ _)
  · next hpart =>
    exact .withLink fun hl => { hl with
      receiving := Nat.le_of_lt_succ (lt_of_le_of_ne (length_le hl) hpart) }

/-! ### The cycle expiry (R44 to R47, R67, R76) -/

theorem State.meterExpiry_slot (s : State) (i : Slot) :
    s.meterExpiry.slot i = (s.slot i).refill (scaleFactor s.meter.sumDown s.link.capDown) := by
  simp [State.slot, State.meterExpiry]

/-- The new factor is at most 4096, and a refill stays within the depths. -/
theorem State.meterExpiry_rangeWork (s : State) : s.RangeWork s.meterExpiry := by
  refine ⟨fun hs => { hs with slot := fun i => ?_, scale := scaleFactor_le _ _ }, fun hb i => ?_⟩
  · show (s.meterExpiry.slot i).InRange
    rw [State.meterExpiry_slot]
    exact (hs.slot i).refill _
  · show (s.meterExpiry.slot i).BucketsWithin
    rw [State.meterExpiry_slot]
    exact Record.BucketsWithin.refill (hb i) _

/-- The stale flag stands exactly while the stale counter has counted to 64 (R67). -/
theorem State.staleExpiry_meterWork (s : State) : s.MeterWork s.staleExpiry := by
  rw [State.staleExpiry_eq]
  refine .of_ranges rfl rfl fun hs => { hs with link := { hs.link with staleCount := ?_, stale := ?_ } }
  · have : s.link.staleCount ≤ 64 := hs.link.staleCount
    show (if s.link.staleCount < 64 then s.link.staleCount + 1 else s.link.staleCount) ≤ 64
    split <;> omega
  · have hstale : s.link.stale = (s.link.staleCount == 64) := hs.link.stale
    show (s.link.stale || s.link.staleCount == 63)
      = ((if s.link.staleCount < 64 then s.link.staleCount + 1 else s.link.staleCount) == 64)
    rw [hstale, Bool.eq_iff_iff, Bool.or_eq_true, beq_iff_eq, beq_iff_eq, beq_iff_eq]
    split <;> omega

/-- A round is owed only behind a round in flight (R76). -/
theorem State.roundExpiry_meterWork (s : State) : s.MeterWork s.roundExpiry := by
  rw [State.roundExpiry_eq]
  refine .of_ranges rfl rfl fun hs => { hs with round := { hs.round with slips := ?_, deferred := ?_, accounts := ?_ } }
  · show (if s.round.phase ≠ .idle ∧ s.round.deferred = true then min 65535 (s.round.slips + 1)
      else s.round.slips) ≤ 65535
    split
    · exact min_le_left ..
    · exact hs.round.slips
  · intro _
    show (if s.round.phase = .idle then RoundPhase.snapshotWait else s.round.phase) ≠ .idle
    split
    · simp
    · assumption
  · show (if s.round.phase = .idle then RoundPhase.snapshotWait else s.round.phase).accounts = true
    split
    · rfl
    · exact hs.round.accounts

theorem State.expired_rangeWork (s : State) : s.RangeWork s.expired := by
  have counted := (State.staleExpiry_meterWork s.meterExpiry).trans (State.roundExpiry_meterWork _)
  refine (s.meterExpiry_rangeWork.trans counted.toRangeWork).trans (State.MeterWork.withRound fun hs => ?_).toRangeWork
  exact { hs.round with period := hs.settings.cyclePeriod }

/-- The factor of a cycle expiry is computed from the sum and the capacity before it (R44, R45). -/
theorem State.expired_scale (s : State) : s.expired.meter.f = scaleFactor s.meter.sumDown s.link.capDown := by
  rw [State.expired_eq]

/-! ### Commands at the port (R153, R154) -/

theorem State.csRise_meterWork (s : State) : s.MeterWork s.csRise := .of_registers rfl

theorem State.endCommand_meterWork (s : State) : s.MeterWork s.endCommand := .of_registers rfl

theorem State.refuseBusy_meterWork (s : State) : s.MeterWork s.refuseBusy := .of_registers rfl

theorem State.answer_meterWork (s : State) (code : Byte) (r : ResultCode) {data : List Word16} (h : data.length ≤ 23) :
    s.MeterWork (s.answer code r data) := .withPort fun _ => ⟨decide_eq_true (response_fits h), rfl⟩

/-- A command that is not carried out is answered with its result word alone. -/
theorem State.refused_meterWork (s : State) (code : Byte) (r : ResultCode) :
    s.MeterWork (s.endCommand.answer code r []) :=
  s.endCommand_meterWork.trans (State.answer_meterWork _ _ _ (Nat.zero_le _))

/-- An immediate command's act keeps the registers in range, and its answer fits the buffer. -/
def Immediate.Fits (act : Immediate) : Prop :=
  ∀ (args : List Word16) (u : State), u.MeterWork (act args u).state ∧ (act args u).data.length ≤ 23

theorem State.immediate_meterWork (s : State) (code : Byte) (argc : Nat) (f : Frame) {act : Immediate} (h : act.Fits) :
    s.MeterWork (s.immediate code argc f act) := by
  unfold State.immediate
  split
  · exact s.csRise_meterWork
  · exact s.csRise_meterWork
  · exact .refl s
  · exact s.refuseBusy_meterWork
  · exact s.refused_meterWork _ _
  · exact s.refused_meterWork _ _
  · obtain ⟨work, fits⟩ := h f.args s.endCommand
    exact (s.endCommand_meterWork.trans work).trans (State.answer_meterWork _ _ _ fits)

theorem State.timed_meterWork (s : State) (code : Byte) (argc : Nat) (f : Frame) {c : InFlight} {begun : State → State}
    (hc : (PortState.wait c).ratesFit = true) (h : ∀ u : State, u.MeterWork (begun u)) :
    s.MeterWork (s.timed code argc f c begun) := by
  have waits : s.MeterWork (s.endCommand.withPort { s.endCommand.port with state := .wait c }) :=
    s.endCommand_meterWork.trans (.withPort fun _ => ⟨rfl, hc⟩)
  unfold State.timed
  split
  · exact s.csRise_meterWork
  · exact s.csRise_meterWork
  · exact .refl s
  · exact s.refuseBusy_meterWork
  · exact s.refused_meterWork _ _
  · exact s.refused_meterWork _ _
  · exact waits.trans (h _)

theorem State.undefinedCode_meterWork (s : State) (code : Byte) (f : Frame) :
    s.MeterWork (s.undefinedCode code f) := by
  unfold State.undefinedCode
  split
  · exact s.csRise_meterWork
  · exact s.csRise_meterWork
  · exact .refl s
  · exact s.refuseBusy_meterWork
  all_goals exact s.refused_meterWork _ _

/-! ### The acts of the immediate commands -/

theorem lineCommand_fits {act : LineAct} (h : ∀ (n : LineNo) (u : State), u.MeterWork (act n u).1) :
    (lineCommand act).Fits := by
  intro args u
  unfold lineCommand
  split
  · exact ⟨.refl u, by simp⟩
  · exact ⟨h _ u, by simp⟩

/-- An act that reads, and answers a few words. -/
theorem Immediate.fits_of_reads {act : Immediate} (h : ∀ args u, (act args u).state = u)
    (hl : ∀ args u, (act args u).data.length ≤ 23) : act.Fits := fun args u => ⟨by rw [h]; exact .refl u, hl args u⟩

theorem actProbeSlot_fits : actProbeSlot.Fits := by
  refine Immediate.fits_of_reads actProbeSlot_state fun args u => ?_
  unfold actProbeSlot
  split <;> simp [State.refuse, probeWords, tagWords]

theorem actReadLine_fits : actReadLine.Fits := by
  refine Immediate.fits_of_reads actReadLine_state fun args u => ?_
  unfold actReadLine
  split
  · exact Nat.zero_le _
  · exact readLineWords_length.trans_le (by decide)

theorem actReadSetting_fits : actReadSetting.Fits := by
  refine Immediate.fits_of_reads actReadSetting_state fun args u => ?_
  unfold actReadSetting
  split <;> simp [State.refuse, valueWords, words32]

theorem toneWords_length (v : Option ToneVals) : (toneWords v).length = 3 := by cases v <;> rfl

theorem testQueueWords_length (t : Tests) (k : Nat) : (testQueueWords t k).length = 6 := by
  unfold testQueueWords
  generalize (if k = 0 then t.current.map Test.entry else t.queue[k - 1]?) = entry
  cases entry <;> simp [entryWords, toneWords_length]

theorem actReadTestQueue_fits : actReadTestQueue.Fits := by
  refine Immediate.fits_of_reads actReadTestQueue_state fun args u => ?_
  unfold actReadTestQueue
  split
  · exact Nat.zero_le _
  · exact (testQueueWords_length _ _).trans_le (by decide)

theorem actReadLadder_fits : actReadLadder.Fits :=
  Immediate.fits_of_reads (fun _ _ => rfl) fun _ _ => by simp [actReadLadder, ladderWords, imageWords]

theorem actReadStatus_fits : actReadStatus.Fits :=
  Immediate.fits_of_reads (fun _ _ => rfl) fun _ _ => by simp [actReadStatus, statusWords13, words32]

theorem actForceCheckError_fits : actForceCheckError.Fits := fun _ _ => ⟨.of_registers rfl, Nat.zero_le _⟩

theorem actReadFault_fits : actReadFault.Fits := by
  refine fun _ u => ⟨.withEngine id, ?_⟩
  unfold actReadFault faultWords
  dsimp only
  split <;> simp [tagWords]

theorem actAcknowledgeEvents_fits : actAcknowledgeEvents.Fits := fun _ _ =>
  ⟨.of_registers rfl, by simp [actAcknowledgeEvents]⟩

theorem actSetEventMask_fits : actSetEventMask.Fits := fun _ _ => ⟨.of_registers rfl, by simp [actSetEventMask]⟩

theorem actClearCounters_fits : actClearCounters.Fits := by
  intro args u
  unfold actClearCounters
  split
  · exact ⟨.refl u, Nat.zero_le _⟩
  split
  · exact ⟨.refl u, Nat.zero_le _⟩
  · next i _ =>
    refine ⟨.setSlot (fun hs => ?_) id, by simp⟩
    obtain ⟨hl, hr, hd, hk, hdem, -⟩ := hs.slot i
    exact ⟨hl, hr, hd, hk, hdem, Nat.zero_le _, Nat.zero_le _, Nat.zero_le _, Nat.zero_le _⟩

theorem actRequestTest_fits : actRequestTest.Fits := by
  intro args u
  unfold actRequestTest
  split
  · exact ⟨.refl u, Nat.zero_le _⟩
  split
  · exact ⟨.refl u, Nat.zero_le _⟩
  split
  · exact ⟨.refl u, Nat.zero_le _⟩
  split
  · exact ⟨.refl u, Nat.zero_le _⟩
  · next n _ _ _ hfull =>
    have queued : u.MeterWork (u.withTests { u.tests with queue := u.tests.queue ++ [requestedEntry args n] }) := by
      refine .withTests fun _ => ?_
      rw [List.length_append]
      exact Nat.lt_of_not_le hfull
    exact ⟨queued.trans (State.dispatchRetry_meterWork _), by simp [toneWords_length]⟩

theorem actCancelTest_fits : actCancelTest.Fits := by
  intro args u
  unfold actCancelTest
  split
  · exact ⟨.refl u, Nat.zero_le _⟩
  · exact ⟨u.cancelTest_meterWork _, Nat.zero_le _⟩

theorem actWriteSetting_fits : actWriteSetting.Fits := by
  intro args u
  unfold actWriteSetting
  split
  · exact ⟨.refl u, Nat.zero_le _⟩
  · exact ⟨u.writeSetting_meterWork _ _, by simp [valueWords, words32]⟩

/-! ### Every command -/

/-- Every command outside the resets but a cycle expiry and a record disturbance keeps the registers in range, the
buckets within their depths and the scale factor. -/
theorem exec_meterWork (c : Instr) (s : State) (he : c ≠ .cycleExpiry) (hr : touchesReset c = false)
    (hd : ∀ a, c ≠ .recordDisturbance a) : ∃ t, exec c s = .next t ∧ s.MeterWork t := by
  have settles : ∀ {t : State}, s.MeterWork t → s.MeterWork t.settle := fun h => h.trans (State.settle_meterWork _)
  cases c with
  | admitService f | amendService f =>
    exact ⟨_, rfl, s.timed_meterWork _ _ _ (decide_eq_true (argProvision_rates f.args)) State.settle_meterWork⟩
  | retireService f | retireSlot f | barService f | unbarService f | lookUpService f =>
    exact ⟨_, rfl, s.timed_meterWork _ _ _ rfl State.settle_meterWork⟩
  | probeSlot f => exact ⟨_, rfl, s.immediate_meterWork _ _ _ actProbeSlot_fits⟩
  | clearCounters f => exact ⟨_, rfl, s.immediate_meterWork _ _ _ actClearCounters_fits⟩
  | forceCheckError f => exact ⟨_, rfl, s.immediate_meterWork _ _ _ actForceCheckError_fits⟩
  | readFault f => exact ⟨_, rfl, s.immediate_meterWork _ _ _ actReadFault_fits⟩
  | lightLine f => exact ⟨_, rfl, s.immediate_meterWork _ _ _ (lineCommand_fits lightLine_meterWork)⟩
  | serveLine f => exact ⟨_, rfl, s.immediate_meterWork _ _ _ (lineCommand_fits serveLine_meterWork)⟩
  | suspendLine f => exact ⟨_, rfl, s.immediate_meterWork _ _ _ (lineCommand_fits suspendLine_meterWork)⟩
  | darkenLine f => exact ⟨_, rfl, s.immediate_meterWork _ _ _ (lineCommand_fits darkenLine_meterWork)⟩
  | clearFault f => exact ⟨_, rfl, s.immediate_meterWork _ _ _ (lineCommand_fits clearFault_meterWork)⟩
  | readLine f => exact ⟨_, rfl, s.immediate_meterWork _ _ _ actReadLine_fits⟩
  | requestTest f => exact ⟨_, rfl, s.immediate_meterWork _ _ _ actRequestTest_fits⟩
  | cancelTest f => exact ⟨_, rfl, s.immediate_meterWork _ _ _ actCancelTest_fits⟩
  | readTestQueue f => exact ⟨_, rfl, s.immediate_meterWork _ _ _ actReadTestQueue_fits⟩
  | readLadder f => exact ⟨_, rfl, s.immediate_meterWork _ _ _ actReadLadder_fits⟩
  | readStatus f => exact ⟨_, rfl, s.immediate_meterWork _ _ _ actReadStatus_fits⟩
  | acknowledgeEvents f => exact ⟨_, rfl, s.immediate_meterWork _ _ _ actAcknowledgeEvents_fits⟩
  | setEventMask f => exact ⟨_, rfl, s.immediate_meterWork _ _ _ actSetEventMask_fits⟩
  | readSetting f => exact ⟨_, rfl, s.immediate_meterWork _ _ _ actReadSetting_fits⟩
  | writeSetting f => exact ⟨_, rfl, s.immediate_meterWork _ _ _ actWriteSetting_fits⟩
  | storeSettings f => exact ⟨_, rfl, s.timed_meterWork _ _ _ rfl fun _ => .of_registers rfl⟩
  | restart f | powerOnReset | pinReset | supplyReturn | resetnRise | settingsLoadCompletion =>
    exact absurd hr (by simp [touchesReset])
  | undefinedCommandCode code f => exact ⟨_, rfl, s.undefinedCode_meterWork code f⟩
  | transactionBegin =>
    refine ⟨_, rfl, ?_⟩
    split <;> exact .of_registers rfl
  | fetch rest =>
    refine ⟨_, rfl, .unlessHeld ?_⟩
    split
    · exact .refl s
    · exact .whenDue (.of_registers rfl)
  | fetchComplete slots =>
    refine ⟨_, rfl, ?_⟩
    split
    · exact s.csRise_meterWork
    split
    · exact s.csRise_meterWork.trans (.withPort fun _ => ⟨rfl, rfl⟩)
    · exact s.csRise_meterWork
  | managementRequestTake => exact ⟨_, rfl, .unlessHeld (.whenDue (settles s.takeWaiting_meterWork))⟩
  | managementRequestCompletion =>
    refine ⟨_, rfl, .unlessHeld ?_⟩
    split
    · next response hsv =>
      refine settles (.of_ranges rfl rfl fun hs => { hs with service := rfl, port := ⟨?_, rfl⟩ })
      have hfits := hs.service
      rwa [show s.registers.service = .management response from hsv] at hfits
    · exact .refl s
    · exact .refl s
  | storeCompletion held =>
    have stored : s.MeterWork (s.withStored { s.stored with passes := held }) := .of_registers rfl
    exact ⟨_, rfl, .unlessHeld (.whenDue (stored.trans (State.answer_meterWork _ _ _ (by simp))))⟩
  | resolve q tag len =>
    exact ⟨_, rfl, .unlessHeld (settles (s.receiverIdle_meterWork.trans (State.arriveResolve_meterWork _ _ _ _)))⟩
  | backlog tag credits =>
    exact ⟨_, rfl, .unlessHeld (s.receiverIdle_meterWork.trans (State.arriveBacklog_meterWork _ _ _))⟩
  | capacity up down =>
    exact ⟨_, rfl, .unlessHeld (s.receiverIdle_meterWork.trans (State.arriveCapacity_meterWork _ _ _))⟩
  | unknownInboundTypeDiscard k => exact ⟨_, rfl, .unlessHeld s.receiverIdle_meterWork⟩
  | inboundByteTaken start b => exact ⟨_, rfl, .unlessHeld (s.takeByte_meterWork start b)⟩
  | lookupEvent => exact ⟨_, rfl, .unlessHeld (.whenDue (settles s.lookupHead_meterWork))⟩
  | resolveCompletion => exact ⟨_, rfl, .unlessHeld (.whenDue (settles s.completeResolve_meterWork))⟩
  | verdictEmission => exact ⟨_, rfl, .unlessHeld (.whenDue (settles s.sendVerdict_meterWork))⟩
  | transmissionCompletion =>
    have idle : s.MeterWork (s.withLink { s.link with sending := none }) :=
      .withLink fun hl => { hl with sending := fun _ h => by cases h }
    exact ⟨_, rfl, .unlessHeld (.whenDue (settles idle))⟩
  | cycleExpiry => exact absurd rfl he
  | rosterSnapshot => exact ⟨_, rfl, .unlessHeld (.whenDue (settles s.snapshot_meterWork))⟩
  | grantEmission =>
    refine ⟨_, rfl, .unlessHeld (.whenDue ?_)⟩
    split
    · next e hp =>
      split
      · next x rest ho => exact settles (s.emitGrant_meterWork hp ho)
      · exact .refl s
    all_goals exact .refl s
  | roundEndEmission =>
    refine ⟨_, rfl, .unlessHeld (.whenDue ?_)⟩
    split
    · split
      · exact settles (s.sendRoundEnd_meterWork _)
      · exact .refl s
    all_goals exact .refl s
  | powerChainLatch => exact ⟨_, rfl, .unlessHeld (.of_registers rfl)⟩
  | relayLatchCompletion =>
    refine ⟨_, rfl, .unlessHeld ?_⟩
    split
    · exact .refl s
    · exact s.latchRelay_meterWork _
  | relaySettleExpiry =>
    refine ⟨_, rfl, .unlessHeld ?_⟩
    split
    · exact .refl s
    · exact .whenDue (s.settled_meterWork _)
  | pathSettleExpiry capin =>
    obtain ⟨hosc, htimer⟩ := s.head.pathSettled_counters capin
    exact ⟨_, rfl, .unlessHeld (.withHead hosc.trans htimer.trans)⟩
  | converterSample code =>
    refine ⟨_, rfl, .unlessHeld ?_⟩
    split
    · dsimp only
      split
      · exact s.completeMeasure_meterWork _ _
      · exact .of_registers rfl
    all_goals exact .refl s
  | referenceGateExpiry =>
    refine ⟨_, rfl, .unlessHeld ?_⟩
    split
    · exact .of_registers rfl
    all_goals exact .refl s
  | pairGateExpiry =>
    refine ⟨_, rfl, .unlessHeld ?_⟩
    split
    · exact s.completeMeasure_meterWork _ _
    all_goals exact .refl s
  | oscillatorEdge =>
    refine ⟨_, rfl, .unlessHeld ?_⟩
    split
    · exact .withHead (fun _ => min_le_left ..) id
    · exact .withHead (fun _ => min_le_left ..) id
    all_goals exact .refl s
  | capinEdge ticks =>
    refine ⟨_, rfl, .unlessHeld ?_⟩
    split
    · exact .withHead id fun _ => Nat.le_of_lt_succ ticks.isLt
    all_goals exact .refl s
  | captureTimeout =>
    refine ⟨_, rfl, .unlessHeld ?_⟩
    split
    · exact .withHead id fun _ => le_rfl
    all_goals exact .refl s
  | dischargeExpiry =>
    refine ⟨_, rfl, .unlessHeld ?_⟩
    split
    · exact s.completeMeasure_meterWork _ _
    all_goals exact .refl s
  | cadenceExpiry =>
    refine ⟨_, rfl, .unlessHeld ?_⟩
    split
    · exact .of_registers rfl
    · exact .of_registers rfl
    all_goals exact .refl s
  | toneDurationExpiry =>
    refine ⟨_, rfl, .unlessHeld ?_⟩
    split
    · exact s.completeTone_meterWork
    · exact s.completeTone_meterWork
    all_goals exact .refl s
  | testCompletion =>
    refine ⟨_, rfl, .unlessHeld ?_⟩
    split
    · exact .refl s
    split
    · exact .refl s
    · exact s.completeTest_meterWork _ _
  | minuteTickExpiry => exact ⟨_, rfl, .unlessHeld s.minuteTick_meterWork⟩
  | oneSecondTickExpiry => exact ⟨_, rfl, .unlessHeld s.tick_meterWork⟩
  | comparisonSettleExpiry bsense =>
    refine ⟨_, rfl, .unlessHeld ?_⟩
    split
    · exact .of_registers rfl
    · exact .of_registers rfl
    all_goals exact .refl s
  | sampleEnd bsense mains =>
    refine ⟨_, rfl, .unlessHeld ?_⟩
    split
    · exact s.endSample_meterWork _ _
    all_goals exact .refl s
  | recordDisturbance a => exact absurd rfl (hd a)
  | nonvolatileValueLoss => exact ⟨_, rfl, .of_registers rfl⟩

/-! ### The cycle expiry, the resets and the disturbance -/

theorem exec_cycleExpiry_rangeWork (s : State) : ∃ t, exec .cycleExpiry s = .next t ∧ s.RangeWork t := by
  refine ⟨_, rfl, ?_⟩
  unfold State.unlessHeld
  split
  · exact .refl s
  · exact s.expired_rangeWork.trans s.expired.settle_meterWork.toRangeWork

/-- The registers of a cleared part (R24, R42, R56, R73, R98, R117, R135, R150, R161). -/
def clearedRegisters (period : Nat) (g : Settings) : Registers :=
  ⟨fun _ => clearedRecord, fun _ => none, 4096, resetLink, resetRound period, 0, 0, [], 0, 0, 0, .none, .free, g⟩

theorem clearedRegisters_inRange {period : Nat} (hp : 1 ≤ period ∧ period ≤ 16) {g : Settings} (hg : g.Ranged) :
    (clearedRegisters period g).InRange where
  slot _ := clearedRecord_inRange
  condition _ _ h := by cases h
  scale := le_rfl
  link := ⟨Nat.zero_le _, Nat.zero_le _, Nat.zero_le _, Nat.zero_le _, Nat.zero_le _, Nat.zero_le _, Nat.zero_le _, rfl,
    fun _ h => by cases h⟩
  round := ⟨Nat.zero_le _, hp, fun h => absurd h Bool.false_ne_true, rfl⟩
  osc := Nat.zero_le _
  timer := Nat.zero_le _
  queue := Nat.zero_le _
  rise := Nat.zero_le _
  fall := Nat.zero_le _
  count := Nat.zero_le _
  port := ⟨rfl, rfl⟩
  service := rfl
  settings := hg

/-- Cleared memories hold cleared records and no condition record. -/
theorem State.registers_of_cleared {t : State} (hs : t.slots = Vector.replicate 128 clearedRecord)
    (hl : t.lines = Vector.replicate 24 resetLine) :
    t.registers = { t.registers with slot := fun _ => clearedRecord, condition := fun _ => none } := by
  have hslot : t.slot = fun _ => clearedRecord := funext fun i => by simp [State.slot, hs]
  have hline : (fun n => (t.line n).condition) = fun _ => none := funext fun n => by simp [State.line, hl, resetLine]
  simp only [State.registers, hslot, hline]

/-- A part that a reset has cleared is in range where its period and its settings are. -/
theorem State.RangeWork.of_cleared {s t : State} {period : Nat} {g : Settings}
    (h : t.registers = clearedRegisters period g)
    (hg : s.registers.InRange → (1 ≤ period ∧ period ≤ 16) ∧ g.Ranged) : s.RangeWork t := by
  refine ⟨fun hs => ?_, fun _ => ?_⟩
  · obtain ⟨hp, hset⟩ := hg hs
    rw [h]
    exact clearedRegisters_inRange hp hset
  · rw [h]
    exact fun _ => clearedRecord_bucketsWithin

/-- A reset in progress keeps the period and the working copy as they were (log entry 20). -/
theorem State.held_rangeWork (s : State) (h : Hold) : s.RangeWork (s.held h) :=
  .of_cleared (period := s.round.period) (g := s.settings) (State.registers_of_cleared rfl rfl)
    fun hs => ⟨hs.round.period, hs.settings⟩

/-- The load leaves the stored values clamped, or the defaults, and the period they give (R171). -/
theorem State.endReset_rangeWork (s : State) (h : Hold) : s.RangeWork (s.endReset h) := by
  have loaded : s.stored.load.Ranged := (Settings.ranged_iff _).2 s.stored.load_inRange
  rw [State.endReset_eq]
  exact .of_cleared (period := s.stored.load.cyclePeriod) (g := s.stored.load) (State.registers_of_cleared rfl rfl)
    fun _ => ⟨loaded.cyclePeriod, loaded⟩

theorem exec_reset_rangeWork {c : Instr} (hr : touchesReset c = true) (s : State) :
    ∃ t, exec c s = .next t ∧ s.RangeWork t := by
  cases c with
  | powerOnReset =>
    have drawn : s.MeterWork s.drawRelayImage := .of_registers rfl
    exact ⟨_, rfl, drawn.toRangeWork.trans (State.held_rangeWork _ _)⟩
  | pinReset => exact ⟨_, rfl, s.held_rangeWork _⟩
  | supplyReturn | resetnRise => exact ⟨_, rfl, State.MeterWork.toRangeWork (.whenDue (.of_registers rfl))⟩
  | settingsLoadCompletion =>
    refine ⟨_, rfl, ?_⟩
    split
    · exact .refl s
    unfold State.whenDue
    split
    · exact s.endReset_rangeWork _
    · exact .refl s
  | restart f =>
    refine ⟨_, rfl, ?_⟩
    split
    · exact s.csRise_meterWork.toRangeWork
    · exact s.csRise_meterWork.toRangeWork
    · exact .refl s
    · exact s.refuseBusy_meterWork.toRangeWork
    · exact (s.refused_meterWork _ _).toRangeWork
    · exact (s.refused_meterWork _ _).toRangeWork
    · exact s.endCommand_meterWork.toRangeWork.trans (State.held_rangeWork _ _)
  | _ => simp [touchesReset] at hr

/-- Every command but a record disturbance keeps the registers in range and the buckets within their depths. -/
theorem exec_rangeWork (c : Instr) (s : State) (hd : ∀ a, c ≠ .recordDisturbance a) :
    ∃ t, exec c s = .next t ∧ s.RangeWork t := by
  by_cases he : c = .cycleExpiry
  · subst he
    exact exec_cycleExpiry_rangeWork s
  cases hr : touchesReset c with
  | true => exact exec_reset_rangeWork hr s
  | false =>
    obtain ⟨t, h, work⟩ := exec_meterWork c s he hr hd
    exact ⟨t, h, work.toRangeWork⟩

/-- A disturbance reaches the widths of the covered fields (log entry 21). -/
theorem alteration_inRange (a : Alteration) (st : RecordState) : Covered.InRange
    ⟨a.tag, a.line.toNat, a.cls, st, a.upCir.toNat, a.upPir.toNat, a.dcu.toNat, a.dpu.toNat, a.weight.toNat,
      a.downCir.toNat, a.downPir.toNat, a.dcd.toNat, a.dpd.toNat⟩ :=
  ⟨Nat.le_of_lt_succ a.line.isLt, Nat.le_of_lt_succ a.weight.isLt,
    ⟨Nat.le_of_lt_succ a.upCir.isLt, Nat.le_of_lt_succ a.upPir.isLt, Nat.le_of_lt_succ a.downCir.isLt,
      Nat.le_of_lt_succ a.downPir.isLt⟩,
    ⟨Nat.le_of_lt_succ a.dcu.isLt, Nat.le_of_lt_succ a.dpu.isLt, Nat.le_of_lt_succ a.dcd.isLt,
      Nat.le_of_lt_succ a.dpd.isLt⟩⟩

/-- Every command keeps the registers in range. -/
theorem exec_inRange {c : Instr} {s t : State} (hs : s.registers.InRange) (h : exec c s = .next t) :
    t.registers.InRange := by
  by_cases hd : ∃ a, c = .recordDisturbance a
  · obtain ⟨a, rfl⟩ := hd
    by_cases hf : (s.slot a.slot).cov.state = .free
    · simp only [exec, execRecordDisturbance, hf, if_true] at h
      obtain rfl := Host.Outcome.next.inj h
      exact hs
    · simp only [exec, execRecordDisturbance, hf, if_false] at h
      obtain rfl := Host.Outcome.next.inj h
      have disturbed := (hs.slot a.slot).withCov (alteration_inRange a (s.slot a.slot).cov.state)
      rw [State.setSlot_registers]
      refine { hs with slot := fun j => ?_ }
      dsimp only
      split
      · exact disturbed
      · exact hs.slot j
  · obtain ⟨u, hu, work⟩ := exec_rangeWork c s fun a e => hd ⟨a, e⟩
    obtain rfl := Host.Outcome.next.inj (hu.symm.trans h)
    exact work.ranges hs

/-! ### The statements -/

/-- The start line is high with byte 0 alone (R175). -/
theorem framed_spec {bytes : List Byte} (h : bytes.length = 8) : (framed bytes).length = 8
    ∧ (framed bytes).map Prod.snd = bytes ∧ ∀ k < 8, ((framed bytes)[k]?).map Prod.fst = some (k == 0) := by
  cases bytes with
  | nil => simp at h
  | cons b rest =>
    have hrest : rest.length = 7 := by simpa using h
    refine ⟨by simpa [framed] using h, by simp [framed, Function.comp_def], fun k hk => ?_⟩
    cases k with
    | zero => rfl
    | succ k =>
      have hk : k < rest.length := by omega
      simp [framed, hk]

/-- Settles O56: each command's work keeps every register within its range. -/
theorem everyStepKeepsTheRanges : Obligations.EveryStepKeepsTheRanges := by
  unfold Obligations.EveryStepKeepsTheRanges
  refine ⟨fun s t hc hg hr h => ?_, fun s bytes hc hb => ?_⟩
  · have hs : s.registers.InRange := s.registers_inRange_iff.2 ⟨hc, hg, hr⟩
    refine t.registers_inRange_iff.1 ?_
    rcases step_cases h with ⟨rfl, -⟩ | ⟨c, rest, -, h⟩
    · exact hs
    · exact exec_inRange (s := s.withPending rest) hs h
  · obtain ⟨-, -, -, -, -, -, -, -, -, -, -, -, -, hsend⟩ := hc
    simp only [Link.outbound, hb]
    exact framed_spec (hsend bytes hb)

/-- Settles O59: no command but a disturbance takes a bucket above its depth. -/
theorem everyStepKeepsTheBuckets : Obligations.EveryStepKeepsTheBuckets := by
  unfold Obligations.EveryStepKeepsTheBuckets
  intro s t c rest hp hd hb h
  obtain ⟨u, hu, work⟩ := exec_rangeWork c (s.withPending rest) hd
  simp only [step, hp] at h
  obtain rfl := Host.Outcome.next.inj (hu.symm.trans h)
  exact work.buckets hb

/-- Settles O24: the work of every other command keeps the factor, and so does what a cycle expiry makes due. -/
theorem scaleFactorChangesAtExpiriesAlone : Obligations.ScaleFactorChangesAtExpiriesAlone := by
  unfold Obligations.ScaleFactorChangesAtExpiriesAlone
  refine ⟨fun s t hhold h => ?_, fun c s t h he hr => ?_, fun s t h => ?_, fun s t h => ?_, fun s t f ha h => ?_⟩
  · have hf : t.meter.f = scaleFactor s.meter.sumDown s.link.capDown := by
      have hx : exec .cycleExpiry s = .next s.expired.settle := congrArg Host.Outcome.next (exec_of_not_held hhold)
      obtain rfl := Host.Outcome.next.inj (hx.symm.trans h)
      exact s.expired.settle_meterWork.scale.trans s.expired_scale
    rw [hf]
    exact ⟨rfl, scaleFactor_le _ _, fun h0 hc => by rw [hc]; exact scaleFactor_of_no_capacity h0, scaleFactor_of_fits⟩
  · by_cases hd : ∃ a, c = .recordDisturbance a
    · obtain ⟨a, rfl⟩ := hd
      rcases exec_recordDisturbance a s with ⟨-, hx⟩ | ⟨-, c, -, -, -, hx⟩ <;>
        obtain rfl := Host.Outcome.next.inj (hx.symm.trans h) <;> rfl
    · obtain ⟨u, hu, work⟩ := exec_meterWork c s he hr fun a e => hd ⟨a, e⟩
      obtain rfl := Host.Outcome.next.inj (hu.symm.trans h)
      exact work.scale
  · obtain rfl := Host.Outcome.next.inj h
    rfl
  · obtain rfl := Host.Outcome.next.inj h
    rfl
  · simp only [exec, execRestart, arrival_of_accepts ha] at h
    obtain rfl := Host.Outcome.next.inj h
    rfl

end Sys2Proof.Machine
end

