-- ==== Sys2Proof/Proofs/TrafficLink.lean ====
section
/-! The traffic link: the messages that arrive on it, byte by byte and whole, and the outbound arbiter's choice. -/

namespace Sys2Proof.Machine

/-! ### BACKLOG (R63) -/

/-- The demand latch of the record found is overwritten, clamped (R63). -/
theorem State.arriveBacklog_of_found {s : State} {tag : Tag} {i : Slot} (hv : validTag tag = true)
    (hf : s.find tag = some i) (credits : Nat) :
    s.arriveBacklog tag credits = s.setSlot i { s.slot i with demand := min 4095 credits } := by
  simp only [State.arriveBacklog, hv, if_true, hf]

/-- A report that matches no record counts as unmatched (R63, R65). -/
theorem State.arriveBacklog_of_unmatched {s : State} {tag : Tag} (h : validTag tag = false ∨ s.find tag = none)
    (credits : Nat) :
    s.arriveBacklog tag credits = s.withLink { s.link with unmatched := countUp16 s.link.unmatched } := by
  have hno : (if validTag tag then s.find tag else none) = none := by
    rcases h with h | h <;> simp [h]
  simp only [State.arriveBacklog, hno]

/-- Settles O18. -/
theorem backlogWritesTheDemandLatch : Obligations.BacklogWritesTheDemandLatch := by
  unfold Obligations.BacklogWritesTheDemandLatch
  intro s tag credits hhold
  have hx : exec (.backlog tag credits) s = .next (s.receiverIdle.arriveBacklog tag credits.toNat) :=
    congrArg Host.Outcome.next (exec_of_not_held hhold)
  -- The receiver is no part of the search.
  have hfind : s.receiverIdle.find tag = s.find tag := rfl
  refine ⟨fun i h0 h1 hf => ?_, fun h => ?_⟩
  · rw [hx, State.arriveBacklog_of_found ((validTag_iff tag).2 ⟨h0, h1⟩) (hfind.trans hf), min_def_lt]
    rfl
  · have hmiss : validTag tag = false ∨ s.receiverIdle.find tag = none := by
      rwa [hfind, validTag_eq_false_iff, or_assoc]
    rw [hx, State.arriveBacklog_of_unmatched hmiss, countUp16, min_def_lt]
    rfl

/-! ### Messages byte by byte (R57, R175) -/

section
variable {s : State} (hhold : s.hold = none)
include hhold

/-- The first byte of a message begins a message, whatever partial message it follows. -/
theorem exec_inboundByteTaken_start (b : Byte) :
    exec (.inboundByteTaken true b) s = .next (s.withLink { s.link with receiving := [b] }) :=
  congrArg Host.Outcome.next (exec_of_not_held hhold)

/-- A byte that goes on a message and is not its eighth is kept. -/
theorem exec_inboundByteTaken_more (hr : s.link.receiving ≠ []) (hl : s.link.receiving.length < 7) (b : Byte) :
    exec (.inboundByteTaken false b) s = .next (s.withLink { s.link with receiving := s.link.receiving ++ [b] }) := by
  have hlen : (s.link.receiving ++ [b]).length ≠ 8 := by rw [List.length_append, List.length_singleton]; omega
  simp only [exec, execInboundByteTaken, exec_of_not_held hhold, State.takeByte, Bool.false_eq_true, if_false,
    List.isEmpty_iff, hr, hlen]

/-- The eighth byte makes the message act whole. -/
theorem exec_inboundByteTaken_last (hl : s.link.receiving.length = 7) (b : Byte) :
    exec (.inboundByteTaken false b) s = .next (s.receiverIdle.arriveMessage (s.link.receiving ++ [b])) := by
  have hr : s.link.receiving ≠ [] := fun h => by simp [h] at hl
  have hlen : (s.link.receiving ++ [b]).length = 8 := by rw [List.length_append, hl, List.length_singleton]
  simp only [exec, execInboundByteTaken, exec_of_not_held hhold, State.takeByte, Bool.false_eq_true, if_false,
    List.isEmpty_iff, hr, hlen, if_true]

/-- A byte outside a message is discarded. -/
theorem exec_inboundByteTaken_outside (hr : s.link.receiving = []) (b : Byte) :
    exec (.inboundByteTaken false b) s = .next s := by
  have hsame : s.withLink { s.link with receiving := [] } = s := by
    rw [← hr]
    rfl
  simp only [exec, execInboundByteTaken, exec_of_not_held hhold, State.takeByte, Bool.false_eq_true, if_false, hr,
    List.isEmpty_nil, if_true, List.length_nil, OfNat.zero_ne_ofNat, hsame]

end

/-- The bytes that go on a message gather in the receiver until the eighth. -/
theorem State.runs_inboundBytes (l : List Byte) (rest : List Instr) {s : State} (hhold : s.hold = none)
    (hr : s.link.receiving ≠ []) (hl : s.link.receiving.length + l.length ≤ 7) :
    s.runs (l.map (Instr.inboundByteTaken false) ++ rest)
      = (s.withLink { s.link with receiving := s.link.receiving ++ l }).runs rest := by
  induction l generalizing s with
  | nil =>
    rw [List.append_nil]
    rfl
  | cons b l ih =>
    rw [List.length_cons] at hl
    have hgrown : (s.link.receiving ++ [b]).length + l.length ≤ 7 := by
      rw [List.length_append, List.length_singleton]
      omega
    rw [List.map_cons, List.cons_append, State.runs_cons (exec_inboundByteTaken_more hhold hr (by omega) b),
      ih (s := s.withLink { s.link with receiving := s.link.receiving ++ [b] }) hhold (by simp) hgrown,
      List.append_cons s.link.receiving b l]
    rfl

/-- A message row does what its eight bytes do at the receiver (Table 81). -/
theorem exec_message {s : State} (hhold : s.hold = none) (b0 b1 b2 b3 b4 b5 b6 b7 : Byte) :
    exec (if b0 = 0x01 then .resolve b1 (b2.extractLsb' 0 4 ++ b3 ++ b4) (b5 ++ b6)
        else if b0 = 0x02 then .backlog (b1.extractLsb' 0 4 ++ b2 ++ b3) (b4 ++ b5)
        else if b0 = 0x03 then .capacity (b1 ++ b2) (b3 ++ b4)
        else .unknownInboundTypeDiscard b0) s
      = .next (s.receiverIdle.arriveMessage [b0, b1, b2, b3, b4, b5, b6, b7]) := by
  have pair : ∀ x y : Byte, x.toNat * 256 + y.toNat = (x ++ y).toNat := fun x y => (toNat_append_eq x y).symm
  have h0 : byteAt [b0, b1, b2, b3, b4, b5, b6, b7] 0 = b0 := rfl
  unfold State.arriveMessage
  rw [h0]
  split
  · refine congrArg Host.Outcome.next ((exec_of_not_held hhold).trans ?_)
    rw [← pair]
    rfl
  split
  · refine congrArg Host.Outcome.next ((exec_of_not_held hhold).trans ?_)
    rw [← pair]
    rfl
  split
  · refine congrArg Host.Outcome.next ((exec_of_not_held hhold).trans ?_)
    rw [← pair, ← pair]
    rfl
  · exact congrArg Host.Outcome.next (exec_of_not_held hhold)

/-- Settles O19: the first byte begins a message, the next six gather behind it, and the eighth makes it act whole. -/
theorem messagesActWholeAtTheirEighthByte : Obligations.MessagesActWholeAtTheirEighthByte := by
  unfold Obligations.MessagesActWholeAtTheirEighthByte
  refine ⟨fun s up down hhold => ?_, fun s kind hhold => congrArg Host.Outcome.next (exec_of_not_held hhold),
    fun s b0 b1 b2 b3 b4 b5 b6 b7 hhold => ?_, fun s b hhold hr => exec_inboundByteTaken_outside hhold hr b⟩
  · rw [← min_def_lt, ← min_def_lt]
    exact congrArg Host.Outcome.next (exec_of_not_held hhold)
  · let begun := s.withLink { s.link with receiving := [b0] }
    let gathered := s.withLink { s.link with receiving := [b0, b1, b2, b3, b4, b5, b6] }
    have hgather : begun.runs ([b1, b2, b3, b4, b5, b6].map (Instr.inboundByteTaken false) ++ [.inboundByteTaken false b7])
        = gathered.runs [.inboundByteTaken false b7] :=
      State.runs_inboundBytes _ _ (s := begun) hhold (by simp [begun]) le_rfl
    rw [State.runs_cons (exec_inboundByteTaken_start hhold b0)]
    refine hgather.trans ?_
    rw [State.runs_cons (exec_inboundByteTaken_last (s := gathered) hhold rfl b7)]
    exact (exec_message hhold b0 b1 b2 b3 b4 b5 b6 b7).symm

/-! ### The arbiter (R68, R69) -/

section
variable {s : State} (hs : s.link.sending = none)
include hs

/-- An idle transmitter is handed the head of the refusal list first (R69). -/
theorem State.settle_of_refusal {q : Byte} {rest : List Byte} (hr : s.link.refusals = q :: rest) :
    s.settle = State.settle { s with
      link := { s.link with refusals := rest, sending := some (verdictBytes (refusedMsg q)) } } := by
  refine settle_of_internal ?_
  simp [State.internal, State.verdictDue, State.txIdle, hs, hr, State.sendVerdict, State.withLink]

/-- Without a refusal the idle transmitter is handed the held verdict (R69). -/
theorem State.settle_of_held {v : VerdictMsg} (hr : s.link.refusals = []) (hh : s.link.held = some v) :
    s.settle = State.settle { s with link := { s.link with held := none, sending := some (verdictBytes v) } } := by
  refine settle_of_internal ?_
  simp [State.internal, State.verdictDue, State.txIdle, hs, hr, hh, State.sendVerdict, State.withLink]

end

/-- Nothing that is due touches a message being sent: the transmitter is handed over only while idle (R69). -/
theorem State.internal_sending {s t : State} (h : s.internal = some t) (hs : s.link.sending ≠ none) :
    t.link.sending = s.link.sending := by
  by_cases hp : s.round.phase = .snapshotWait
  · obtain ⟨hv, hr⟩ := State.handover_none (s := s) fun h => absurd h hs
    have hl : s.lookupDue = false := by simp [State.lookupDue, hp]
    have hm : s.managementDue = false := by simp [State.managementDue, hp]
    simp only [State.internal, hv, hr, hl, hm, Bool.false_eq_true, if_false] at h
    split at h
    · obtain rfl := Option.some.inj h
      unfold State.completeResolve
      split <;> rfl
    split at h
    · obtain rfl := Option.some.inj h
      obtain ⟨hlink, -, -⟩ := foldl_discover_frame s.unsound .roster s
      exact congrArg Link.sending hlink
    · simp at h
  · exact (State.internal_round h hs hp).2

theorem State.settleFor_sending (k : Nat) (s : State) (hs : s.link.sending ≠ none) :
    (s.settleFor k).link.sending = s.link.sending := by
  induction k generalizing s with
  | zero => rfl
  | succ k ih =>
    unfold State.settleFor
    split
    · rfl
    · next t h =>
      have ht := State.internal_sending h hs
      rw [ih t (ht ▸ hs), ht]

/-- A round message is a GRANT or a ROUND END (Table 81). -/
theorem State.emitRound_sending (s : State) (l : List Share) (e : Emission) : ∃ kind rest,
    (s.emitRound l e).link.sending = some (kind :: rest) ∧ (kind = 0x82 ∨ kind = 0x83) := by
  induction l generalizing e with
  | nil =>
    have hsend : (s.sendRoundEnd e).link.sending
        = some (roundEndBytes s.round.number e.sentCount e.sentTotal e.withheld) := by
      unfold State.sendRoundEnd
      dsimp only
      split <;> rfl
    exact ⟨_, _, hsend, .inr rfl⟩
  | cons x xs ih =>
    unfold State.emitRound
    split
    · exact ⟨0x82, _, rfl, .inl rfl⟩
    · exact ih _

/-- Only a decided resolve can complete (R62). -/
theorem State.completionDue_of_not_resolve {s : State} (h : ∀ u, s.engine.service ≠ .resolve u) :
    s.completionDue = false := by
  unfold State.completionDue
  split
  · next u he => exact absurd he (h u)
  all_goals rfl

/-- A phase with a message on offer is EMITTING (R91). -/
theorem RoundPhase.emitting_of_offering {p : RoundPhase} (h : p.offering = true) : ∃ e, p = .emitting e := by
  cases p with
  | idle => exact absurd h Bool.false_ne_true
  | snapshotWait => exact absurd h Bool.false_ne_true
  | emitting e => exact ⟨e, rfl⟩

/-- Settles O20: the arbiter chooses for the part with its transmitter idle. -/
theorem arbiterChoosesRefusalsThenVerdictsThenRounds : Obligations.ArbiterChoosesRefusalsThenVerdictsThenRounds := by
  unfold Obligations.ArbiterChoosesRefusalsThenVerdictsThenRounds
  intro s b hhold hset hb
  obtain ⟨-, hdone, hengine⟩ := hset
  let idle : State := { s with link := { s.link with sending := none } }
  have hs : idle.link.sending = none := rfl
  have hdue : s.txIdle = false := by simp [State.txIdle, hb]
  have hx : exec .transmissionCompletion s = .next idle.settle := by
    simp only [exec, execTransmissionCompletion, exec_of_not_held hhold, State.whenDue, hdue, Bool.not_false, if_true]
    rfl
  rw [hx]
  refine ⟨fun q rest hr => ?_, fun v hr hh hres => ?_, fun v u hr hh he hp hq hw => ?_, fun hr hh ho => ?_,
    fun e hr hh hp => ?_, fun hr hh ho => ?_⟩
  · rw [State.settle_of_refusal hs hr]
    exact congrArg _ (settle_of_settled (State.settled_of_sending (by simp) hdone hengine))
  · rw [State.settle_of_held hs hr hh]
    exact congrArg _ (settle_of_settled
      (State.settled_of_sending (by simp) (State.completionDue_of_not_resolve hres) hengine))
  · rw [State.settle_of_held hs hr hh]
    obtain ⟨-, completes, -⟩ := State.settle_resolve
      (s := { s with link := { s.link with held := none, sending := some (verdictBytes v) } }) he hp hq hw
    exact congrArg _ (completes (by simp) rfl)
  · obtain ⟨e, hp⟩ := RoundPhase.emitting_of_offering ho
    obtain ⟨kind, rest, hsend, hkind⟩ := idle.emitRound_sending e.offers e
    refine ⟨_, kind, rest, rfl, ?_, hkind⟩
    rw [State.settle_of_offering hs hr hh hp]
    exact (State.settleFor_sending 10 _ (by simp [hsend])).trans hsend
  · exact (exec_emission_settle (s := idle) hs hr hh hp hhold).symm
  · exact congrArg _ (settle_of_settled ⟨fun _ => ⟨hr, hh, ho⟩, hdone, hengine⟩)

/-! ### RESOLVE (R59) -/

/-- A decision raises no event but RECORD_DAMAGED (R7, R60). -/
theorem State.Decides.events {s t : State} {q : Request} {v : VerdictMsg} (h : s.Decides t q v) :
    t.events = s.events ∨ t.events = { s.events with pending := s.events.pending ||| 0x010 } := by
  obtain ⟨-, hmiss, hfound⟩ := h
  by_cases hno : validTag q.tag = false ∨ s.find q.tag = none
  · obtain ⟨-, -, -, -, -, he⟩ := hmiss hno
    exact .inl he
  obtain ⟨hv, hf⟩ := not_or.1 hno
  obtain ⟨i, hi⟩ := Option.ne_none_iff_exists'.1 hf
  obtain ⟨-, hdamaged, hfails, hbarred, hstandby, hactive⟩ := hfound i (by simpa using hv) hi
  by_cases hd : (s.slot i).cov.state = .damaged
  · obtain ⟨-, -, -, -, -, he⟩ := hdamaged hd
    exact .inl he
  cases hp : (s.slot i).passes with
  | false =>
    obtain ⟨-, -, -, -, -, he⟩ := hfails hd hp
    exact .inr he
  | true =>
    left
    cases hst : (s.slot i).cov.state with
    | free => exact absurd hst (State.holds_of_find hi).1
    | damaged => exact absurd hst hd
    | barred =>
      obtain ⟨-, -, -, -, -, he⟩ := hbarred hst hp
      exact he
    | standby =>
      obtain ⟨-, -, -, -, -, he⟩ := hstandby hst hp
      exact he
    | active =>
      obtain ⟨hdrop, hexcess, hpass⟩ := hactive hst hp
      generalize (if q.length ≤ 64 then 1 else (q.length + 63) / 64) = n at hdrop hexcess hpass
      rcases Nat.lt_or_ge (s.slot i).kpd (16 * n) with h1 | h1
      · obtain ⟨-, -, -, -, -, he⟩ := hdrop h1
        exact he
      rcases Nat.lt_or_ge (s.slot i).kcd (16 * n) with h2 | h2
      · obtain ⟨-, -, -, -, -, he⟩ := hexcess h1 h2
        exact he
      · obtain ⟨-, -, -, -, -, he⟩ := hpass h1 h2
        exact he

/-- A RESOLVE at a free engine leaves the queue empty and QUERY_OVERRUN as it was (R12, R59). -/
theorem exec_resolve_of_free {s : State} (hhold : s.hold = none) (hset : s.Settled) (hfree : s.engine.service = .free)
    (q : Byte) (tag : Tag) (len : Word16) : ∃ t, exec (.resolve q tag len) s = .next t ∧ t.link.queue = []
      ∧ t.events.pending &&& 0x040 = s.events.pending &&& 0x040 := by
  obtain ⟨t, v, hx, hdec, hsent, hheld, hkept, -⟩ := resolveIsDecidedAtAFreeEngine.1 s q tag len hhold hset hfree
  obtain ⟨-, -, hengine⟩ := hset
  obtain ⟨-, hq, -⟩ := hengine hfree
  refine ⟨t, hx, ?_, ?_⟩
  · by_cases hs : s.link.sending = none
    · rw [(hsent hs).1]; exact hq
    by_cases hh : s.link.held = none
    · rw [(hheld hs hh).1]; exact hq
    · rw [(hkept hh).1]; exact hq
  · rcases hdec.events with he | he
    · rw [he]
    · rw [he]
      exact (BitVec.and_or_distrib_right ..).trans (by simp)

theorem State.arriveResolve_of_room {s : State} (h : s.link.queue.length < 4) (q : Byte) (tag : Tag) (len : Nat) :
    s.arriveResolve q tag len = s.withLink { s.link with queue := s.link.queue ++ [⟨q, tag, len⟩] } := by
  rw [State.arriveResolve, if_pos h]

/-- An overrun changes the refusal list and the events alone (R59). -/
theorem State.arriveResolve_of_full {s : State} (h : 4 ≤ s.link.queue.length) (q : Byte) (tag : Tag) (len : Nat) :
    s.arriveResolve q tag len = { s with
      link := { s.link with
        refusals := if s.link.refusals.length < 4 then s.link.refusals ++ [q] else s.link.refusals }
      events := { s.events with pending := s.events.pending ||| 0x040 } } := by
  have hb : Event.queryOverrun.bit = 0x040 := by decide
  rw [State.arriveResolve, if_neg (Nat.not_lt.2 h), State.raise_eq, hb]
  rfl

/-- Settles O17: a request that no engine takes waits, and a request that overruns leaves at most its refusal to hand
over. -/
theorem resolveQueuesOrOverruns : Obligations.ResolveQueuesOrOverruns := by
  unfold Obligations.ResolveQueuesOrOverruns
  intro s q tag len hhold hset
  have ⟨hsend, hdone, hengine⟩ := hset
  have hx : exec (.resolve q tag len) s = .next (s.receiverIdle.arriveResolve q tag len.toNat).settle :=
    congrArg Host.Outcome.next (exec_of_not_held hhold)
  -- A settled part with requests queued has its engine busy.
  have hbusy : 4 ≤ s.link.queue.length → s.engine.service ≠ .free := by
    intro h hfree
    obtain ⟨-, hq, -⟩ := hengine hfree
    simp [hq] at h
  refine ⟨fun hfree => exec_resolve_of_free hhold hset hfree q tag len, fun hb hl => ?_, fun hl hs => ?_, fun hl hs => ?_⟩
  · rw [hx, State.arriveResolve_of_room (s := s.receiverIdle) hl]
    exact congrArg _ (settle_of_settled ⟨hsend, hdone, fun hf => absurd hf hb⟩)
  · rw [hx, State.arriveResolve_of_full (s := s.receiverIdle) hl]
    exact congrArg _ (settle_of_settled (State.settled_of_sending hs hdone fun hf => absurd hf (hbusy hl)))
  · obtain ⟨hr, -, -⟩ := hsend hs
    have hfull := State.arriveResolve_of_full (s := s.receiverIdle) hl q tag len.toNat
    have hidle : (s.receiverIdle.arriveResolve q tag len.toNat).link.sending = none := by
      rw [hfull]
      exact hs
    have hone : (s.receiverIdle.arriveResolve q tag len.toNat).link.refusals = q :: s.link.refusals := by
      rw [hfull]
      simp [State.receiverIdle, hr]
    rw [hx, State.settle_of_refusal hidle hone, hfull]
    exact congrArg _ (settle_of_settled (State.settled_of_sending (by simp) hdone fun hf => absurd hf (hbusy hl)))

end Sys2Proof.Machine
end

