-- ==== Sys2Proof/Proofs/RoundOrder.lean ====
section
/-! A cycle expiry and the completion of a round while a message is being sent, each on its own and in either order
(R76 to R79). -/

namespace Sys2Proof.Machine

/-! ### The roster request that a step leaves due (R12, R80) -/

/-- `t` is `s`, or `s` after the snapshot of its roster request: of the round engine only the phase and the start
pointer move. -/
structure State.RosterTaken (s t : State) : Prop where
  hold : t.hold = s.hold
  link : t.link = s.link
  round : t.round = { s.round with phase := t.round.phase, pointer := t.round.pointer }
  phase : s.round.phase ≠ .snapshotWait → t.round.phase = s.round.phase
  running : s.round.phase ≠ .idle → t.round.phase ≠ .idle
  slip : s.events.pending.getLsbD 7 = true → t.events.pending.getLsbD 7 = true

/-- The round's number, its deferral flag and the slips are as they were. -/
theorem State.RosterTaken.account {s t : State} (h : s.RosterTaken t) :
    t.round.number = s.round.number ∧ t.round.deferred = s.round.deferred ∧ t.round.slips = s.round.slips := by
  rw [h.round]
  exact ⟨rfl, rfl, rfl⟩

theorem State.RosterTaken.refl (s : State) : s.RosterTaken s := ⟨rfl, rfl, rfl, fun _ => rfl, id, id⟩

/-- The snapshot at a busy transmitter, by what it takes and computes (R80, R82). -/
theorem State.snapshot_rosterTaken {s : State} (hhold : s.hold = none) (hs : s.link.sending ≠ none)
    (hfree : s.engine.service = .free) (hp : s.round.phase = .snapshotWait) (hq : s.link.queue = [])
    (hw : s.port.state.waiting = none) : s.RosterTaken s.settle := by
  obtain ⟨u, t, hx, hkept, -, hround, -, -, -, -, -, -, -, -, hevents, hframe⟩ :=
    rosterSnapshotTakesTheActiveRecords s hhold hfree hp hq hw
  obtain rfl := hkept hs
  obtain rfl : s.settle = t :=
    Host.Outcome.next.inj ((exec_rosterSnapshot_settle hhold hfree hp fun h => absurd h hs).symm.trans hx)
  have hphase := congrArg Round.phase hround
  refine ⟨(congrArg State.hold hframe :), (congrArg State.link hframe :), ?_, fun h => absurd hp h, fun _ => ?_, fun h => ?_⟩
  · rw [hphase]
    exact hround
  · rw [hphase]
    simp
  · rw [hevents]
    dsimp only
    split
    · exact h
    · rw [BitVec.getLsbD_or, h, Bool.true_or]

/-- While a message is being sent, a state with nothing else due has at most its roster request taken. -/
theorem State.settle_rosterTaken {s : State} (hhold : s.hold = none) (hs : s.link.sending ≠ none)
    (hdone : s.completionDue = false)
    (hengine : s.engine.service = .free → s.link.queue = [] ∧ s.port.state.waiting = none) : s.RosterTaken s.settle := by
  by_cases hdue : s.engine.service = .free ∧ s.round.phase = .snapshotWait
  · obtain ⟨hfree, hp⟩ := hdue
    obtain ⟨hq, hw⟩ := hengine hfree
    exact State.snapshot_rosterTaken hhold hs hfree hp hq hw
  · rw [settle_of_settled (State.settled_of_sending hs hdone fun hf => ⟨fun hp => hdue ⟨hf, hp⟩, hengine hf⟩)]
    exact .refl s

/-! ### The two events (R76, R78) -/

/-- ROUND END sent, with or without an owed round (R78, R94). -/
theorem State.sendRoundEnd_eq (s : State) (e : Emission) : s.sendRoundEnd e = { s with
    link := { s.link with sending := some (roundEndBytes s.round.number e.sentCount e.sentTotal e.withheld) }
    round := { s.round with
      phase := if s.round.deferred then .snapshotWait else .idle
      number := if s.round.deferred then s.round.number + 1 else s.round.number
      deferred := false } } := by
  cases hd : s.round.deferred with
  | false => simp [State.sendRoundEnd_of_clear hd, ← hd]
  | true => exact State.sendRoundEnd_of_deferred hd e

section
variable {s : State} (hhold : s.hold = none) (hset : s.Settled)
include hhold hset

/-- A cycle expiry while a message is being sent. -/
theorem exec_cycleExpiry_of_sending (hs : s.link.sending ≠ none) :
    ∃ t, exec .cycleExpiry s = .next t ∧ t.Settled ∧ s.expired.RosterTaken t := by
  obtain ⟨-, hdone, hengine⟩ := hset
  have hx : exec .cycleExpiry s = .next s.expired.settle := congrArg Host.Outcome.next (exec_of_not_held hhold)
  refine ⟨_, hx, settle_settled _, ?_⟩
  rw [State.expired_eq]
  exact State.settle_rosterTaken hhold hs hdone fun hf => (hengine hf).2

/-- A transmission completion that leaves ROUND END to be sent completes the round. -/
theorem exec_transmissionCompletion_of_roundEnd {b : List Byte} {e : Emission} (hb : s.link.sending = some b)
    (hr : s.link.refusals = []) (hh : s.link.held = none) (hp : s.round.phase = .emitting e) (ho : e.offers = []) :
    ∃ t, exec .transmissionCompletion s = .next t ∧ t.Settled ∧ (s.sendRoundEnd e).RosterTaken t := by
  obtain ⟨-, -, -, -, hemit, -⟩ := arbiterChoosesRefusalsThenVerdictsThenRounds s b hhold hset hb
  obtain ⟨-, hdone, hengine⟩ := hset
  let idle : State := { s with link := { s.link with sending := none } }
  have hidle : idle.settle = (s.sendRoundEnd e).settle := by
    rw [State.settle_of_offering (s := idle) rfl hr hh hp, ho, State.emitRound, State.sendRoundEnd_eq,
      State.sendRoundEnd_eq]
  have hx : exec .transmissionCompletion s = .next (s.sendRoundEnd e).settle := by
    rw [hemit e hr hh hp, ← hidle]
    exact exec_emission_settle (s := idle) rfl hr hh hp hhold
  refine ⟨_, hx, settle_settled _, ?_⟩
  rw [State.sendRoundEnd_eq]
  exact State.settle_rosterTaken hhold (by simp) hdone fun hf => (hengine hf).2

end

/-! ### What either event makes of the round's account -/

section
variable {s t : State}

/-- An expiry at an IDLE round engine starts a round (R76, R77). -/
theorem State.RosterTaken.started (h : s.expired.RosterTaken t) (hp : s.round.phase = .idle) :
    t.round.number = s.round.number + 1 ∧ t.round.deferred = s.round.deferred ∧ t.round.slips = s.round.slips
      ∧ t.round.phase ≠ .idle := by
  have hrun := h.running
  obtain ⟨hnumber, hdeferred, hslips⟩ := h.account
  simp only [State.expired_eq, hp] at hrun hnumber hdeferred hslips
  exact ⟨hnumber, hdeferred, by simpa using hslips, hrun (by simp)⟩

/-- An expiry with a round in flight defers the next one, or is a slip where one is owed already (R76). -/
theorem State.RosterTaken.deferred (h : s.expired.RosterTaken t) (hp : s.round.phase ≠ .idle) :
    t.round.number = s.round.number ∧ t.round.deferred = true
      ∧ t.round.slips = (if s.round.deferred then min 65535 (s.round.slips + 1) else s.round.slips)
      ∧ t.round.phase ≠ .idle ∧ (s.round.deferred = true → t.events.pending.getLsbD 7 = true) := by
  have hrun := h.running
  have hslip := h.slip
  obtain ⟨hnumber, hdeferred, hslips⟩ := h.account
  simp only [State.expired_eq, hp, if_false, ne_eq, not_false_eq_true, true_and] at hrun hslip hnumber hdeferred hslips
  refine ⟨hnumber, hdeferred, hslips, hrun trivial, fun hd => hslip ?_⟩
  simp [hd]

/-- A completion starts the round that is owed, and otherwise leaves the round engine IDLE (R78). -/
theorem State.RosterTaken.completed {e : Emission} (h : (s.sendRoundEnd e).RosterTaken t) :
    t.round.number = (if s.round.deferred then s.round.number + 1 else s.round.number) ∧ t.round.deferred = false
      ∧ t.round.slips = s.round.slips ∧ (t.round.phase = .idle ↔ s.round.deferred = false)
      ∧ (s.events.pending.getLsbD 7 = true → t.events.pending.getLsbD 7 = true) := by
  have hrun := h.running
  have hphase := h.phase
  have hslip := h.slip
  obtain ⟨hnumber, hdeferred, hslips⟩ := h.account
  simp only [State.sendRoundEnd_eq] at hrun hphase hslip hnumber hdeferred hslips
  refine ⟨hnumber, hdeferred, hslips, ?_, hslip⟩
  cases hd : s.round.deferred with
  | false => simpa [hd] using hphase
  | true => simpa [hd] using hrun

end

/-! ### Either order (R79) -/

/-- Settles O30: what the first event leaves due is at most the roster request, so that the second finds the flag and the
number as the first left them. -/
theorem expiryAndCompletionInEitherOrder : Obligations.ExpiryAndCompletionInEitherOrder := by
  unfold Obligations.ExpiryAndCompletionInEitherOrder
  intro s e b hhold hset hb hr hh hp ho
  have hs : s.link.sending ≠ none := by simp [hb]
  have hbusy : s.round.phase ≠ .idle := by simp [hp]
  -- The completion first.
  obtain ⟨done, hxd, hsetd, hd⟩ := exec_transmissionCompletion_of_roundEnd hhold hset hb hr hh hp ho
  have hholdd : done.hold = none := by rw [hd.hold, State.sendRoundEnd_eq]; exact hhold
  obtain ⟨t, hxt, -, ht⟩ := exec_cycleExpiry_of_sending hholdd hsetd (by rw [hd.link, State.sendRoundEnd_eq]; simp)
  -- The expiry first.
  obtain ⟨late, hxl, hsetl, hl⟩ := exec_cycleExpiry_of_sending hhold hset hs
  have hholdl : late.hold = none := by rw [hl.hold, State.expired_eq]; exact hhold
  have hlink := hl.link
  have hpl : late.round.phase = .emitting e := by
    have hpx : s.expired.round.phase = .emitting e := by simp [State.expired_eq, hp]
    rw [hl.phase (by simp [hpx]), hpx]
  rw [State.expired_eq] at hlink
  obtain ⟨u, hxu, -, hu⟩ := exec_transmissionCompletion_of_roundEnd hholdl hsetl ((congrArg Link.sending hlink).trans hb)
    ((congrArg Link.refusals hlink).trans hr) ((congrArg Link.held hlink).trans hh) hpl ho
  obtain ⟨hnd, hdd, hsd, hpd, -⟩ := hd.completed
  obtain ⟨hnl, hdl, hsl, -, hel⟩ := hl.deferred hbusy
  obtain ⟨hnu, hdu, hsu, hpu, heu⟩ := hu.completed
  rw [hdl, if_pos rfl, hnl] at hnu
  have hpu : u.round.phase ≠ .idle := by simp [hpu, hdl]
  refine ⟨t, u, (State.runs_cons hxd _).trans (State.runs_cons hxt _),
    (State.runs_cons hxl _).trans (State.runs_cons hxu _), ?_⟩
  cases hflag : s.round.deferred with
  | false =>
    obtain ⟨hnt, hdt, hst, hpt⟩ := ht.started (hpd.2 hflag)
    exact ⟨by simp [hnt, hnd, hflag], hnu, hpt, hpu,
      fun _ => ⟨hdt.trans hdd, hdu, hst.trans hsd, by simp [hsu, hsl, hflag]⟩, nofun⟩
  | true =>
    obtain ⟨hnt, hdt, hst, hpt, -⟩ := ht.deferred (by simp [hpd, hflag])
    exact ⟨by simp [hnt, hnd, hflag], hnu, hpt, hpu, nofun,
      fun _ => ⟨hdt, hdu, by simp [hst, hdd, hsd], by simp [hsu, hsl, hflag], heu (hel hflag)⟩⟩

end Sys2Proof.Machine
end

