-- ==== Sys2Proof/Proofs/RotatingOrder.lean ====
section
/-! Sums over the shares of a roster, and what each entry takes of the credits handed out in rotating order (R84, R89). -/

namespace Sys2Proof.Machine

/-! ### Sums over shares -/

/-- A sum over the shares that a test picks. -/
theorem sumShares_ite (q : Share → Bool) (f : Share → Nat) (l : List Share) :
    sumShares (fun x => if q x then f x else 0) l = ((l.filter q).map f).sum := by
  simp [sumShares, List.sum_map_ite]

/-- A quantity of the entries, summed over the shares of a roster. -/
theorem sumShares_entry {roster : List RosterEntry} {l : List Share} (h : l.map Share.entry = roster)
    (f : RosterEntry → Nat) : sumShares (fun x => f x.entry) l = (roster.map f).sum := by
  rw [← h, List.map_map]
  rfl

/-- The sum of the grants is the sum over either class. -/
theorem sumShares_grant_eq_classes (l : List Share) : sumShares Share.grant l
    = sumShares (fun x => if x.entry.cls = .essential then x.grant else 0) l
      + sumShares (fun x => if x.entry.cls = .standard then x.grant else 0) l := by
  unfold sumShares
  rw [← List.sum_map_add]
  refine congrArg List.sum (List.map_congr_left fun x _ => ?_)
  cases x.entry.cls <;> simp

/-- Settles O26. -/
theorem grantsNeverExceedTheCapacity : Obligations.GrantsNeverExceedTheCapacity := by
  unfold Obligations.GrantsNeverExceedTheCapacity
  intro c p roster l
  obtain ⟨⟨hroster, hmost⟩, htotal⟩ := computeGrants_spec c p roster
  have hclasses : sumShares Share.grant l = _ := sumShares_grant_eq_classes l
  have htotal : sumShares Share.grant l ≤ c := htotal
  exact ⟨hroster, htotal, by omega, by omega, fun x hx => le_min_iff.1 (hmost x hx)⟩

/-! ### What a pass takes (R84) -/

/-- The room of the entries that a pass visits. -/
def roomVisited (visit : Share → Bool) (room : Share → Nat) (l : List Share) : Nat :=
  sumShares (fun y => if visit y then room y else 0) l

/-- What an entry takes on a pass in slot order: its room, of what the entries visited before it leave. -/
def passTake (visit : Share → Bool) (room : Share → Nat) (left : Nat) (l : List Share) (x : Share) : Nat :=
  if visit x then
    min (room x) (left - roomVisited (fun y => visit y && decide (y.entry.slot < x.entry.slot)) room l)
  else 0

/-- The shares of a list stand in ascending slot order. -/
def Ascending (l : List Share) : Prop := l.Pairwise fun x y => x.entry.slot < y.entry.slot

theorem roomVisited_cons (visit : Share → Bool) (room : Share → Nat) (x : Share) (l : List Share) :
    roomVisited visit room (x :: l) = (if visit x then room x else 0) + roomVisited visit room l := rfl

theorem roomVisited_congr {visit visit' : Share → Bool} (room : Share → Nat) {l : List Share}
    (h : ∀ x ∈ l, visit x = visit' x) : roomVisited visit room l = roomVisited visit' room l := by
  refine congrArg List.sum (List.map_congr_left fun x hx => ?_)
  rw [h x hx]

theorem roomVisited_mono {visit visit' : Share → Bool} (room : Share → Nat) {l : List Share}
    (h : ∀ x, visit x = true → visit' x = true) : roomVisited visit room l ≤ roomVisited visit' room l := by
  refine List.sum_le_sum fun x _ => ?_
  cases hx : visit x with
  | false => exact Nat.zero_le _
  | true => simp [h x hx]

/-- A pass leaves what the room visited does not take. -/
theorem handPass_left (visit : Share → Bool) (room : Share → Nat) (left : Nat) (l : List Share) :
    (handPass visit room left l).2 = left - roomVisited visit room l := by
  induction l generalizing left with
  | nil => rfl
  | cons x xs ih =>
    simp only [handPass, ih, roomVisited_cons]
    split <;> omega

/-- Whatever a pass takes from what is left, it adds to the grants. -/
theorem handPass_total (visit : Share → Bool) (room : Share → Nat) (left : Nat) (l : List Share) :
    sumShares Share.grant (handPass visit room left l).1 = sumShares Share.grant l + min left (roomVisited visit room l) := by
  induction l generalizing left with
  | nil => simp [handPass, roomVisited, sumShares]
  | cons x xs ih =>
    simp only [sumShares, handPass, List.map_cons, List.sum_cons] at ih ⊢
    rw [ih, roomVisited_cons]
    split <;> omega

/-- A pass over ascending slots, entry by entry. -/
theorem handPass_eq_map (visit : Share → Bool) (room : Share → Nat) (left : Nat) {l : List Share} (h : Ascending l) :
    (handPass visit room left l).1 = l.map fun x => x.granting (x.grant + passTake visit room left l x) := by
  induction l generalizing left with
  | nil => rfl
  | cons x xs ih =>
    obtain ⟨hx, hxs⟩ := List.pairwise_cons.1 h
    have hfirst : roomVisited (fun y => visit y && decide (y.entry.slot < x.entry.slot)) room (x :: xs) = 0 := by
      refine (roomVisited_congr (visit' := fun _ => false) room fun y hy => ?_).trans (by simp [roomVisited, sumShares])
      rcases List.mem_cons.1 hy with rfl | hy
      · simp
      · simp [(hx y hy).le]
    have hrest : ∀ y ∈ xs, passTake visit room left (x :: xs) y
        = passTake visit room (left - if visit x then min (room x) left else 0) xs y := by
      intro y hy
      simp only [passTake, roomVisited_cons, hx y hy, decide_true, Bool.and_true]
      split
      · split <;> omega
      · rfl
    rw [handPass, List.map_cons, ih _ hxs]
    refine congrArg₂ List.cons ?_ (List.map_congr_left fun y hy => ?_)
    · simp only [passTake, hfirst, Nat.sub_zero]
      rfl
    · rw [hrest y hy]

/-! ### Rotating order (R84) -/

/-- The place of an entry in rotating order from P_used. -/
def Share.place (p : Slot) (x : Share) : Nat := (x.entry.slot - p).val

/-- What an entry takes in rotating order: its room, of what the entries before it leave. -/
def rotatingTake (p : Slot) (room : Share → Nat) (left : Nat) (l : List Share) (x : Share) : Nat :=
  min (room x) (left - roomVisited (fun y => decide (y.place p < x.place p)) room l)

/-- The entries at or above P_used come first, in slot order, and then those below it. -/
theorem Share.place_lt_iff (p : Slot) (x y : Share) : y.place p < x.place p ↔
    if p ≤ x.entry.slot then p ≤ y.entry.slot ∧ y.entry.slot < x.entry.slot
    else p ≤ y.entry.slot ∨ y.entry.slot < x.entry.slot := by
  simp only [Share.place, Fin.sub_def, Fin.le_def, Fin.lt_def]
  split <;> omega

theorem roomVisited_or {visit visit' : Share → Bool} (room : Share → Nat) {l : List Share}
    (h : ∀ x ∈ l, visit x = true → visit' x = false) :
    roomVisited (fun x => visit x || visit' x) room l = roomVisited visit room l + roomVisited visit' room l := by
  unfold roomVisited sumShares
  rw [← List.sum_map_add]
  refine congrArg List.sum (List.map_congr_left fun x hx => ?_)
  have := h x hx
  cases hv : visit x <;> simp_all

theorem roomVisited_map {visit : Share → Bool} {room : Share → Nat} {l : List Share} {f : Share → Share}
    (hvisit : ∀ x, visit (f x) = visit x) (hroom : ∀ x, visit x = true → room (f x) = room x) :
    roomVisited visit room (l.map f) = roomVisited visit room l := by
  unfold roomVisited sumShares
  rw [List.map_map]
  refine congrArg List.sum (List.map_congr_left fun x _ => ?_)
  simp only [Function.comp_apply, hvisit]
  split
  · next hx => exact hroom x hx
  · rfl

/-- An entry at or above P_used. -/
def Share.above (p : Slot) (x : Share) : Bool := decide (p ≤ x.entry.slot)

/-- An entry below P_used. -/
def Share.below (p : Slot) (x : Share) : Bool := decide (x.entry.slot < p)

theorem Share.below_eq (p : Slot) (x : Share) : x.below p = !x.above p := by
  simp only [Share.below, Share.above, ← not_le, decide_not]

section
variable {p : Slot} {room : Share → Nat} {left : Nat} {l : List Share}

/-- A share after the first pass of the rotating order. -/
def Share.passed (p : Slot) (room : Share → Nat) (left : Nat) (l : List Share) (x : Share) : Share :=
  x.granting (x.grant + passTake (Share.above p) room left l x)

/-- The first pass leaves the entries below P_used as they are. -/
theorem Share.passed_of_below {x : Share} (h : x.below p = true) : x.passed p room left l = x := by
  rw [Share.below_eq, Bool.not_eq_true'] at h
  simp [Share.passed, passTake, h, Share.granting]

/-- The room below P_used is the same after the first pass. -/
theorem roomVisited_passed (visit : Share → Bool) (hvisit : ∀ x, visit (x.passed p room left l) = visit x)
    (hbelow : ∀ x, visit x = true → x.below p = true) :
    roomVisited visit room (l.map (Share.passed p room left l)) = roomVisited visit room l :=
  roomVisited_map hvisit fun x hx => by rw [Share.passed_of_below (hbelow x hx)]

/-- The first pass of the rotating order, and what it leaves for the second. -/
theorem handRotating_eq (h : Ascending l) : handRotating p room left l
    = (handPass (Share.below p) room (left - roomVisited (Share.above p) room l) (l.map (Share.passed p room left l))).1 := by
  have hfirst := handPass_eq_map (Share.above p) room left h
  have hleft := handPass_left (Share.above p) room left l
  unfold handRotating
  exact congrArg Prod.fst (congrArg₂ (handPass (Share.below p) room) hleft hfirst)

/-- The two passes of the rotating order, entry by entry. -/
theorem handRotating_eq_map (h : Ascending l) :
    handRotating p room left l = l.map fun x => x.granting (x.grant + rotatingTake p room left l x) := by
  have hpassed : Ascending (l.map (Share.passed p room left l)) := List.pairwise_map.2 h
  rw [handRotating_eq h, handPass_eq_map _ _ _ hpassed, List.map_map]
  refine List.map_congr_left fun x _ => ?_
  cases hx : x.below p with
  | false =>
    have hax : x.above p = true := by simpa [Share.below_eq] using hx
    have hbefore : roomVisited (fun y => y.above p && decide (y.entry.slot < x.entry.slot)) room l
        = roomVisited (fun y => decide (y.place p < x.place p)) room l :=
      roomVisited_congr room fun y _ => by
        simp only [Share.place_lt_iff, if_pos (of_decide_eq_true hax), Share.above, Bool.decide_and]
    have hnone : (x.passed p room left l).below p = false := hx
    simp only [Function.comp_apply, passTake, hnone, Bool.false_eq_true, if_false, Nat.add_zero]
    simp only [Share.passed, passTake, hax, if_true, hbefore]
    rfl
  | true =>
    have hax : ¬ p ≤ x.entry.slot := not_le.2 (of_decide_eq_true hx)
    have hbefore : roomVisited (Share.above p) room l
          + roomVisited (fun y => y.below p && decide (y.entry.slot < x.entry.slot)) room l
        = roomVisited (fun y => decide (y.place p < x.place p)) room l := by
      rw [← roomVisited_or room fun y _ hy => by simp [Share.below_eq, hy]]
      refine roomVisited_congr room fun y _ => ?_
      simp only [Share.place_lt_iff, if_neg hax, Share.below_eq, Bool.decide_or, Share.above]
      cases decide (p ≤ y.entry.slot) <;> simp
    have hsecond := roomVisited_passed (p := p) (room := room) (left := left) (l := l)
      (fun y => y.below p && decide (y.entry.slot < x.entry.slot)) (fun _ => rfl) fun y hy => (Bool.and_eq_true_iff.1 hy).1
    rw [Function.comp_apply, Share.passed_of_below hx]
    simp only [passTake, hx, if_true, hsecond, Nat.sub_sub, hbefore]
    rfl

/-- What the entries take in rotating order is what is left, or all the room. -/
theorem handRotating_total (h : Ascending l) :
    sumShares Share.grant (handRotating p room left l) = sumShares Share.grant l + min left (sumShares room l) := by
  have hfirst := handPass_total (Share.above p) room left l
  rw [handPass_eq_map _ _ _ h] at hfirst
  have hroom : roomVisited (Share.above p) room l + roomVisited (Share.below p) room l = sumShares room l := by
    rw [← roomVisited_or room fun y _ hy => by simp [Share.below_eq, hy]]
    simp [roomVisited, Share.below_eq]
  rw [handRotating_eq h, handPass_total, roomVisited_passed _ (fun _ => rfl) fun _ => id]
  have hfirst : sumShares Share.grant (l.map (Share.passed p room left l)) = _ := hfirst
  omega

/-- Who takes anything in rotating order leaves nobody before it short. -/
theorem rotatingTake_of_before {x y : Share} (hx : x ∈ l) (hxy : x.place p < y.place p)
    (hy : 0 < rotatingTake p room left l y) : rotatingTake p room left l x = room x := by
  have hbefore : roomVisited (fun z => decide (z.place p < x.place p)) room l + room x
      ≤ roomVisited (fun z => decide (z.place p < y.place p)) room l := by
    have hself : room x ≤ roomVisited (fun z => decide (z = x)) room l :=
      List.single_le_sum (by simp) _ (List.mem_map.2 ⟨x, hx, by simp⟩)
    have hboth := roomVisited_or (visit := fun z => decide (z.place p < x.place p)) (visit' := fun z => decide (z = x)) room
      (l := l) fun z _ hz => by
        have := of_decide_eq_true hz
        exact decide_eq_false (by rintro rfl; omega)
    have hle := roomVisited_mono room (l := l) (visit := fun z => decide (z.place p < x.place p) || decide (z = x))
      (visit' := fun z => decide (z.place p < y.place p)) fun z hz => by
        rcases Bool.or_eq_true_iff.1 hz with hz | hz
        · exact decide_eq_true ((of_decide_eq_true hz).trans hxy)
        · exact decide_eq_true (of_decide_eq_true hz ▸ hxy)
    omega
  unfold rotatingTake at hy ⊢
  omega

end

end Sys2Proof.Machine
end

