-- ==== Sys2Proof/Proofs/GrantStages.lean ====
section
/-! The stages of a round entry by entry: the scaled stages exact, and the excess stage by weight (R86 to R88). -/

namespace Sys2Proof.Machine

/-! ### A scaled stage (R86, R87) -/

/-- The claim of an entry scaled to a capacity, rounded down. -/
def RosterEntry.scaled (e : RosterEntry) (capacity total : Nat) : Nat := e.claim * capacity / total

theorem RosterEntry.scaled_le_claim (e : RosterEntry) {capacity total : Nat} (h : capacity ≤ total) :
    e.scaled capacity total ≤ e.claim :=
  Nat.div_le_of_le_mul ((Nat.mul_le_mul_left _ h).trans_eq (Nat.mul_comm ..))

/-- What the entries of a class have been granted. -/
def grantedIn (c : Class) (l : List Share) : Nat := sumShares (fun x => if x.ofClass c then x.grant else 0) l

/-- The stage of a class is scaled exactly: its capacity is granted whole, each entry has its scaled claim or one credit
more within its claim, and those credits go to the first in rotating order. -/
structure ScaledStage (c : Class) (capacity total : Nat) (p : Slot) (l : List Share) : Prop where
  given : grantedIn c l = capacity
  within : ∀ x ∈ l, x.ofClass c = true → x.entry.scaled capacity total ≤ x.grant
    ∧ x.grant ≤ x.entry.scaled capacity total + 1 ∧ x.grant ≤ x.entry.claim
  rotates : ∀ x ∈ l, ∀ y ∈ l, x.ofClass c = true → y.ofClass c = true → x.place p < y.place p →
    x.entry.scaled capacity total < x.entry.claim → y.grant = y.entry.scaled capacity total + 1 →
    x.grant = x.entry.scaled capacity total + 1

/-- A share of a class with its scaled claim. -/
def Share.toScaled (c : Class) (capacity total : Nat) (x : Share) : Share :=
  if x.ofClass c then x.granting (x.entry.scaled capacity total) else x

/-- The one credit that an entry of a class below its claim has room for. -/
def Share.creditRoom (c : Class) (x : Share) : Nat := if x.ofClass c && decide (x.grant < x.entry.claim) then 1 else 0

theorem Share.toScaled_entry (c : Class) (capacity total : Nat) (x : Share) :
    (x.toScaled c capacity total).entry = x.entry := by
  unfold Share.toScaled
  split <;> rfl

theorem Share.toScaled_ofClass (c : Class) (capacity total : Nat) (x : Share) :
    (x.toScaled c capacity total).ofClass c = x.ofClass c := by
  rw [Share.ofClass, Share.toScaled_entry]
  rfl

theorem Share.toScaled_grant {c : Class} {capacity total : Nat} {x : Share} (h : x.ofClass c = true) :
    (x.toScaled c capacity total).grant = x.entry.scaled capacity total := by
  rw [Share.toScaled, if_pos h]
  rfl

/-- The shares with the scaled claims of a class. -/
def scaledShares (c : Class) (capacity total : Nat) (l : List Share) : List Share := l.map (Share.toScaled c capacity total)

/-- What an entry takes of the leftover of a scaled stage. -/
def creditTake (c : Class) (capacity total : Nat) (p : Slot) (l : List Share) (x : Share) : Nat :=
  rotatingTake p (Share.creditRoom c) (capacity - grantedIn c (scaledShares c capacity total l))
    (scaledShares c capacity total l) x

/-- One credit more on each scaled claim below its claim makes the claim whole, or more: rounding down leaves over no more
than there are entries to take it. -/
theorem RosterEntry.claim_mul_le (e : RosterEntry) {capacity total : Nat} (hc : capacity < total) :
    e.claim * capacity
      ≤ (e.scaled capacity total + if e.scaled capacity total < e.claim then 1 else 0) * total := by
  split
  · exact (Nat.lt_div_mul_add (by omega)).le.trans_eq (Nat.succ_mul _ _).symm
  · next h => exact Nat.mul_le_mul (by omega) hc.le

theorem capacity_le_scaled {c : Class} {capacity total : Nat} {l : List Share} (hc : capacity < total)
    (ht : total = sumShares (Share.claimIn c) l) :
    capacity ≤ grantedIn c (scaledShares c capacity total l)
      + sumShares (Share.creditRoom c) (scaledShares c capacity total l) := by
  refine Nat.le_of_mul_le_mul_left ?_ (Nat.lt_of_le_of_lt (Nat.zero_le _) hc)
  conv_lhs => rw [ht]
  unfold grantedIn sumShares scaledShares
  rw [← List.sum_map_add, List.map_map, Nat.mul_comm total, ← List.sum_map_mul_right, ← List.sum_map_mul_right]
  refine List.sum_le_sum fun x _ => ?_
  by_cases hx : x.ofClass c
  · have h := x.entry.claim_mul_le hc
    simp only [Share.claimIn, hx, Function.comp_apply, Share.toScaled_ofClass, Share.creditRoom, Share.toScaled_grant hx,
      Share.toScaled_entry, if_true, Bool.true_and, decide_eq_true_eq]
    exact h
  · simp [Share.claimIn, hx]

theorem sumShares_granted (c : Class) (l : List Share) :
    sumShares Share.grant l = grantedIn c l + grantedBeside c l := by
  unfold grantedIn grantedBeside sumShares
  rw [← List.sum_map_add]
  refine congrArg List.sum (List.map_congr_left fun x _ => ?_)
  split <;> simp

theorem ascending_of_entries {roster : List RosterEntry} (hs : (roster.map RosterEntry.slot).Pairwise (· < ·))
    {l : List Share} (h : l.map Share.entry = roster) : Ascending l := by
  rw [← h, List.map_map] at hs
  exact List.pairwise_map.1 hs

/-- What changes entries of one class alone leaves what the other class has been granted. -/
theorem grantedBeside_map {c : Class} {f : Share → Share} {l : List Share} (hentry : ∀ x, (f x).entry = x.entry)
    (hother : ∀ x ∈ l, x.ofClass c = false → f x = x) : grantedBeside c (l.map f) = grantedBeside c l := by
  unfold grantedBeside sumShares
  rw [List.map_map]
  refine congrArg List.sum (List.map_congr_left fun x hx => ?_)
  have hclass : (f x).ofClass c = x.ofClass c := by rw [Share.ofClass, hentry]; rfl
  simp only [Function.comp_apply, hclass]
  cases hxc : x.ofClass c with
  | true => rfl
  | false => rw [hother x hx hxc]

theorem ascending_scaledShares {c : Class} {capacity total : Nat} {l : List Share} (h : Ascending l) :
    Ascending (scaledShares c capacity total l) :=
  List.pairwise_map.2 (h.imp fun {x y} hxy => by simpa only [Share.toScaled_entry] using hxy)

section
variable {c : Class} {capacity total : Nat} {p : Slot} {l : List Share}

/-- Only an entry of the class takes of the leftover, and one credit at most. -/
theorem creditTake_le (x : Share) : creditTake c capacity total p l x ≤ x.creditRoom c := min_le_left ..

theorem creditTake_of_other {x : Share} (hx : x.ofClass c = false) : creditTake c capacity total p l x = 0 := by
  have h := creditTake_le (c := c) (capacity := capacity) (total := total) (p := p) (l := l) x
  rw [Share.creditRoom, hx] at h
  exact Nat.le_zero.1 h

/-- A scaled stage hands out the leftover as far as there is room. -/
theorem sumShares_grantScaled (h : Ascending l) : sumShares Share.grant (grantScaled c capacity total p l)
    = sumShares Share.grant (scaledShares c capacity total l)
      + min (capacity - grantedIn c (scaledShares c capacity total l))
        (sumShares (Share.creditRoom c) (scaledShares c capacity total l)) :=
  handRotating_total (ascending_scaledShares h)

/-- A scaled stage, entry by entry. -/
theorem grantScaled_eq_map (h : Ascending l) : grantScaled c capacity total p l
    = (scaledShares c capacity total l).map fun x => x.granting (x.grant + creditTake c capacity total p l x) :=
  handRotating_eq_map (ascending_scaledShares h)

/-- The shares after a scaled stage: those of the class have their scaled claims and what they take of the leftover. -/
theorem exists_of_mem_grantScaled (h : Ascending l) {x : Share} (hx : x ∈ grantScaled c capacity total p l)
    (hxc : x.ofClass c = true) : ∃ y ∈ scaledShares c capacity total l, y.ofClass c = true
      ∧ y.grant = y.entry.scaled capacity total
      ∧ x = y.granting (y.entry.scaled capacity total + creditTake c capacity total p l y) := by
  rw [grantScaled_eq_map h] at hx
  obtain ⟨y, hy, rfl⟩ := List.mem_map.1 hx
  obtain ⟨z, -, rfl⟩ := List.mem_map.1 hy
  have hzc : z.ofClass c = true := (Share.toScaled_ofClass ..).symm.trans hxc
  have hgrant : (z.toScaled c capacity total).grant = (z.toScaled c capacity total).entry.scaled capacity total := by
    rw [Share.toScaled_grant hzc, Share.toScaled_entry]
  exact ⟨_, hy, hxc, hgrant, by rw [hgrant]⟩

/-- The other class stays as it was. -/
theorem mem_of_mem_grantScaled (h : Ascending l) {x : Share} (hx : x ∈ grantScaled c capacity total p l)
    (hxc : x.ofClass c = false) : x ∈ l := by
  rw [grantScaled_eq_map h] at hx
  obtain ⟨y, hy, rfl⟩ := List.mem_map.1 hx
  obtain ⟨z, hz, rfl⟩ := List.mem_map.1 hy
  have hzc : z.ofClass c = false := (Share.toScaled_ofClass ..).symm.trans hxc
  have hsame : z.toScaled c capacity total = z := by simp [Share.toScaled, hzc]
  rw [hsame, creditTake_of_other hzc]
  exact hz

variable {roster : List RosterEntry} (hs : (roster.map RosterEntry.slot).Pairwise (· < ·)) (h : Shared roster l)
  (hc : capacity < total) (ht : total = sumShares (Share.claimIn c) l) (p : Slot)
include hs h hc ht

/-- A scaled stage hands out its whole capacity, since the credits left over find room. -/
theorem grantScaled_given : grantedIn c (grantScaled c capacity total p l) = capacity := by
  have hasc := ascending_of_entries hs h.1
  obtain ⟨-, hmost⟩ := grantScaled_spec h c ht hc p
  have hroom := capacity_le_scaled hc ht
  have htotal := sumShares_grantScaled (c := c) (capacity := capacity) (total := total) (p := p) hasc
  have hscaled : grantedBeside c (scaledShares c capacity total l) = grantedBeside c l :=
    grantedBeside_map (Share.toScaled_entry c capacity total) fun x _ hx => by simp [Share.toScaled, hx]
  have hbeside : grantedBeside c (grantScaled c capacity total p l) = grantedBeside c l := by
    rw [grantScaled_eq_map hasc]
    refine (grantedBeside_map (f := fun x => x.granting (x.grant + creditTake c capacity total p l x)) (fun _ => rfl)
      fun x _ hx => ?_).trans hscaled
    rw [creditTake_of_other hx]
    rfl
  have hsplit := sumShares_granted c (grantScaled c capacity total p l)
  have hsplit' := sumShares_granted c (scaledShares c capacity total l)
  omega

/-- A stage short of capacity is scaled exactly (R86, R87). -/
theorem grantScaled_scaledStage : ScaledStage c capacity total p (grantScaled c capacity total p l) := by
  have hasc := ascending_of_entries hs h.1
  refine ⟨grantScaled_given hs h hc ht p, fun x hx hxc => ?_, fun x hx y hy hxc hyc hxy hlow hyg => ?_⟩
  · obtain ⟨z, -, hzc, hzg, rfl⟩ := exists_of_mem_grantScaled hasc hx hxc
    have htake := creditTake_le (c := c) (capacity := capacity) (total := total) (p := p) (l := l) z
    have hfloor := z.entry.scaled_le_claim hc.le
    simp only [Share.creditRoom, hzc, hzg, Bool.true_and, decide_eq_true_eq] at htake
    dsimp only [Share.granting]
    split at htake <;> omega
  · obtain ⟨z, hz, hzc, hzg, rfl⟩ := exists_of_mem_grantScaled hasc hx hxc
    obtain ⟨w, hw, hwc, hwg, rfl⟩ := exists_of_mem_grantScaled hasc hy hyc
    have htake : 0 < creditTake c capacity total p l w := by
      dsimp only [Share.granting] at hyg
      omega
    have hfull : creditTake c capacity total p l z = z.creditRoom c := rotatingTake_of_before (x := z) (y := w) hz hxy htake
    have hone : z.creditRoom c = 1 := by
      simp only [Share.creditRoom, hzc, hzg, Bool.true_and, decide_eq_true_eq]
      exact if_pos hlow
    rw [hfull, hone]
    rfl

end

/-! ### The excess stage (R88) -/

/-- The headroom of an entry above its claim. -/
def RosterEntry.room (e : RosterEntry) : Nat := min (e.demand - e.claim) (e.kp - e.claim)

/-- The weights of the entries with headroom. -/
def roomWeights (roster : List RosterEntry) : Nat :=
  ((roster.filter fun e => decide (0 < e.room)).map RosterEntry.weight).sum

/-- The share by weight of an entry in a remainder, within its headroom. -/
def RosterEntry.share (e : RosterEntry) (r weights : Nat) : Nat := min e.room (r * e.weight / weights)

/-- The shares of a roster with every claim granted. -/
def claimShares (roster : List RosterEntry) : List Share := roster.map fun e => ⟨e, e.claim⟩

/-- The excess stage over the claims: each entry has its claim, its share by weight, and in rotating order what the shares
leave of the remainder, until that or all headroom is used. -/
structure ExcessStage (r : Nat) (p : Slot) (roster : List RosterEntry) (l : List Share) : Prop where
  within : ∀ x ∈ l, x.entry.claim + x.entry.share r (roomWeights roster) ≤ x.grant
    ∧ x.grant ≤ x.entry.claim + x.entry.room
  rotates : ∀ x ∈ l, ∀ y ∈ l, x.place p < y.place p →
    y.entry.claim + y.entry.share r (roomWeights roster) < y.grant → x.grant = x.entry.claim + x.entry.room
  total : sumShares Share.grant l
    = (roster.map RosterEntry.claim).sum + min r (roster.map RosterEntry.room).sum

section
variable (r : Nat) (p : Slot) (roster : List RosterEntry)

theorem claimShares_shared : Shared roster (claimShares roster) := by
  refine ⟨by simp [claimShares, Function.comp_def], fun x hx => ?_⟩
  obtain ⟨e, -, rfl⟩ := List.mem_map.1 hx
  exact e.claim_le_most

/-- The shares before the excess stage's leftover. -/
def excessShares : List Share := roster.map fun e => ⟨e, e.claim + e.share r (roomWeights roster)⟩

/-- The excess stage over the claims, as R88 words it. -/
theorem grantExcess_claimShares : grantExcess r p (claimShares roster) = if roomWeights roster = 0 then claimShares roster
    else handRotating p Share.headroom (r - (roster.map fun e => e.share r (roomWeights roster)).sum)
      (excessShares r roster) := by
  have hroom : ∀ e : RosterEntry, Share.headroom ⟨e, e.claim⟩ = e.room := fun _ => rfl
  have hweights : sumShares (fun x => if 0 < x.headroom then x.entry.weight else 0) (claimShares roster)
      = roomWeights roster := by
    simp [sumShares, claimShares, Function.comp_def, hroom, roomWeights, List.sum_map_ite]
  have hshare : ∀ e : RosterEntry, (if 0 < e.room then min e.room (r * e.weight / roomWeights roster) else 0)
      = e.share r (roomWeights roster) := by
    intro e
    split
    · rfl
    · next h => rw [RosterEntry.share, Nat.eq_zero_of_not_pos h, Nat.zero_min]
  unfold grantExcess
  simp only [hweights]
  simp only [sumShares, claimShares, excessShares, List.map_map, Function.comp_def, hroom, hshare]

/-- Without weights there is no headroom. -/
theorem room_eq_zero_of_roomWeights (hw : ∀ e ∈ roster, 1 ≤ e.weight) (h : roomWeights roster = 0) :
    ∀ e ∈ roster, e.room = 0 := by
  intro e he
  by_contra hne
  have hmem : e.weight ∈ (roster.filter fun e => decide (0 < e.room)).map RosterEntry.weight :=
    List.mem_map.2 ⟨e, List.mem_filter.2 ⟨he, decide_eq_true (Nat.pos_of_ne_zero hne)⟩, rfl⟩
  have hle := List.single_le_sum (by simp) _ hmem
  have := hw e he
  unfold roomWeights at h
  omega

theorem sumShares_excessShares : sumShares Share.grant (excessShares r roster)
    = (roster.map RosterEntry.claim).sum + (roster.map fun e => e.share r (roomWeights roster)).sum := by
  simp [sumShares, excessShares, Function.comp_def, List.sum_map_add]

theorem sumShares_headroom_excessShares : sumShares Share.headroom (excessShares r roster)
    + (roster.map fun e => e.share r (roomWeights roster)).sum = (roster.map RosterEntry.room).sum := by
  unfold sumShares excessShares
  rw [List.map_map, ← List.sum_map_add]
  refine congrArg List.sum (List.map_congr_left fun e _ => ?_)
  have : e.share r (roomWeights roster) ≤ e.room := min_le_left ..
  simp only [Function.comp_apply, Share.headroom, RosterEntry.room] at this ⊢
  omega

theorem sumShares_claimShares : sumShares Share.grant (claimShares roster) = (roster.map RosterEntry.claim).sum := by
  simp [sumShares, claimShares, Function.comp_def]

variable {roster}

/-- An entry before the leftover has its claim and its share, and the rest of its headroom. -/
theorem grant_of_mem_excessShares {x : Share} (hx : x ∈ excessShares r roster) :
    x.grant = x.entry.claim + x.entry.share r (roomWeights roster) ∧ x.grant + x.headroom = x.entry.claim + x.entry.room := by
  obtain ⟨e, -, rfl⟩ := List.mem_map.1 hx
  have : e.share r (roomWeights roster) ≤ e.room := min_le_left ..
  refine ⟨rfl, ?_⟩
  simp only [Share.headroom, RosterEntry.room] at this ⊢
  omega

/-- Without headroom the claims are all that is granted. -/
theorem claimShares_excessStage (h : ∀ e ∈ roster, e.room = 0) : ExcessStage r p roster (claimShares roster) := by
  have hmem : ∀ x ∈ claimShares roster, x.grant = x.entry.claim ∧ x.entry.room = 0
      ∧ x.entry.share r (roomWeights roster) = 0 := by
    intro x hx
    obtain ⟨e, he, rfl⟩ := List.mem_map.1 hx
    exact ⟨rfl, h e he, by rw [RosterEntry.share, h e he, Nat.zero_min]⟩
  refine ⟨fun x hx => ?_, fun x hx y hy _ hlt => ?_, ?_⟩
  · obtain ⟨hg, hr, hz⟩ := hmem x hx
    omega
  · obtain ⟨hg, hr, hz⟩ := hmem y hy
    omega
  · rw [sumShares_claimShares, List.map_congr_left h]
    simp

section
variable (hs : (roster.map RosterEntry.slot).Pairwise (· < ·))
include hs

theorem ascending_excessShares : Ascending (excessShares r roster) := List.pairwise_map.2 (List.pairwise_map.1 hs)

/-- The excess stage over the claims (R88). -/
theorem grantExcess_excessStage (hw : ∀ e ∈ roster, 1 ≤ e.weight) :
    ExcessStage r p roster (grantExcess r p (claimShares roster)) := by
  obtain ⟨-, hmost⟩ := grantExcess_spec (claimShares_shared roster) r p
  rw [grantExcess_claimShares] at hmost ⊢
  split
  · next hnone => exact claimShares_excessStage r p (room_eq_zero_of_roomWeights roster hw hnone)
  next hsome =>
  have hasc := ascending_excessShares r hs
  have htotal := handRotating_total (p := p) (room := Share.headroom)
    (left := r - (roster.map fun e => e.share r (roomWeights roster)).sum) hasc
  have hclaims := sumShares_claimShares roster
  have hgiven := sumShares_excessShares r roster
  have hheadroom := sumShares_headroom_excessShares r roster
  rw [if_neg hsome] at hmost
  rw [handRotating_eq_map hasc] at hmost htotal ⊢
  refine ⟨fun x hx => ?_, fun x hx y hy hxy hlt => ?_, by omega⟩
  · obtain ⟨z, hz, rfl⟩ := List.mem_map.1 hx
    obtain ⟨hg, hr⟩ := grant_of_mem_excessShares r hz
    have htake : rotatingTake p Share.headroom (r - (roster.map fun e => e.share r (roomWeights roster)).sum)
      (excessShares r roster) z ≤ z.headroom := min_le_left ..
    dsimp only [Share.granting]
    omega
  · obtain ⟨z, hz, rfl⟩ := List.mem_map.1 hx
    obtain ⟨w, hw, rfl⟩ := List.mem_map.1 hy
    obtain ⟨hg, hr⟩ := grant_of_mem_excessShares r hz
    obtain ⟨hgw, -⟩ := grant_of_mem_excessShares r hw
    dsimp only [Share.granting] at hlt ⊢
    rw [rotatingTake_of_before (x := z) (y := w) hz hxy (by omega), hr]

/-- Whatever the weights, the excess stage takes nothing of a claim back. -/
theorem claim_le_of_mem_grantExcess {x : Share} (hx : x ∈ grantExcess r p (claimShares roster)) :
    x.entry.claim ≤ x.grant := by
  rw [grantExcess_claimShares] at hx
  split at hx
  · obtain ⟨e, -, rfl⟩ := List.mem_map.1 hx
    exact le_rfl
  · rw [handRotating_eq_map (ascending_excessShares r hs)] at hx
    obtain ⟨z, hz, rfl⟩ := List.mem_map.1 hx
    obtain ⟨hg, -⟩ := grant_of_mem_excessShares r hz
    dsimp only [Share.granting]
    omega

end

end

/-! ### The stages of a round (R86 to R88) -/

/-- The claims of a class of a roster. -/
def claimsOf (k : Class) (roster : List RosterEntry) : Nat := ((roster.filter fun e => e.cls == k).map RosterEntry.claim).sum

/-- The shares of a roster before the first stage. -/
def noShares (roster : List RosterEntry) : List Share := roster.map fun e => ⟨e, 0⟩

theorem noShares_shared (roster : List RosterEntry) : Shared roster (noShares roster) := by
  refine ⟨by simp [noShares, Function.comp_def], fun x hx => ?_⟩
  obtain ⟨e, -, rfl⟩ := List.mem_map.1 hx
  exact Nat.zero_le _

/-- The claims of a class over the shares of a roster. -/
theorem sumShares_claimIn {roster : List RosterEntry} {l : List Share} (h : Shared roster l) (k : Class) :
    sumShares (Share.claimIn k) l = claimsOf k roster := by
  refine (sumShares_entry h.1 fun e => if e.cls == k then e.claim else 0).trans ?_
  simp [claimsOf, List.sum_map_ite, beq_eq_decide]

/-- The entries of a class have their claims once these are granted. -/
theorem grant_of_mem_grantClaims {k : Class} {l : List Share} {x : Share} (hx : x ∈ grantClaims k l)
    (hk : x.ofClass k = true) : x.grant = x.entry.claim := by
  obtain ⟨y, -, rfl⟩ := List.mem_map.1 hx
  by_cases hy : y.ofClass k
  · simp [hy]
  · simp [hy] at hk

/-- Both classes granted their claims. -/
theorem grantClaims_both (roster : List RosterEntry) :
    grantClaims .standard (grantClaims .essential (noShares roster)) = claimShares roster := by
  unfold grantClaims noShares claimShares
  rw [List.map_map, List.map_map]
  refine List.map_congr_left fun e _ => ?_
  cases hc : e.cls <;> simp [Share.ofClass, hc]

section
variable {c : Nat} (p : Slot) {roster : List RosterEntry}

theorem computeGrants_of_essential_short (h : c < claimsOf .essential roster) :
    computeGrants c p roster = grantScaled .essential c (claimsOf .essential roster) p (noShares roster) := by
  rw [← sumShares_claimIn (noShares_shared roster)] at h ⊢
  exact if_neg (Nat.not_le.2 h)

theorem computeGrants_of_standard_short (h : claimsOf .essential roster ≤ c)
    (h' : c - claimsOf .essential roster < claimsOf .standard roster) :
    computeGrants c p roster = grantScaled .standard (c - claimsOf .essential roster) (claimsOf .standard roster) p
      (grantClaims .essential (noShares roster)) := by
  obtain ⟨hshared, -⟩ := grantClaims_spec (noShares_shared roster) .essential
  rw [← sumShares_claimIn hshared .standard, ← sumShares_claimIn (noShares_shared roster)] at *
  exact (if_pos h).trans (if_neg (Nat.not_le.2 h'))

theorem computeGrants_of_fits (h : claimsOf .essential roster + claimsOf .standard roster ≤ c) :
    computeGrants c p roster
      = grantExcess (c - (claimsOf .essential roster + claimsOf .standard roster)) p (claimShares roster) := by
  obtain ⟨hshared, -⟩ := grantClaims_spec (noShares_shared roster) .essential
  rw [← grantClaims_both, ← Nat.sub_sub]
  rw [← sumShares_claimIn hshared .standard, ← sumShares_claimIn (noShares_shared roster)] at *
  exact (if_pos (Nat.le_of_add_right_le h)).trans (if_pos (Nat.le_sub_of_add_le' h))

end

/-- A scaled stage, as O27 words it. -/
theorem ScaledStage.worded {k : Class} {capacity total : Nat} {p : Slot} {l : List Share}
    (h : ScaledStage k capacity total p l) :
    ((l.filter fun x => x.entry.cls == k).map Share.grant).sum = capacity
      ∧ (∀ x ∈ l, x.entry.cls = k → x.entry.claim * capacity / total ≤ x.grant
        ∧ x.grant ≤ x.entry.claim * capacity / total + 1 ∧ x.grant ≤ x.entry.claim)
      ∧ (∀ x ∈ l, ∀ y ∈ l, x.entry.cls = k → y.entry.cls = k →
        (x.entry.slot - p).val < (y.entry.slot - p).val → x.entry.claim * capacity / total < x.entry.claim →
        y.grant = y.entry.claim * capacity / total + 1 → x.grant = x.entry.claim * capacity / total + 1) := by
  have hclass : ∀ x : Share, x.entry.cls = k → x.ofClass k = true := fun x => beq_iff_eq.2
  exact ⟨(sumShares_ite (Share.ofClass k) Share.grant l).symm.trans h.given, fun x hx hxk => h.within x hx (hclass x hxk),
    fun x hx y hy hxk hyk => h.rotates x hx y hy (hclass x hxk) (hclass y hyk)⟩

/-- The weights of the entries with headroom, over the shares of a roster. -/
theorem weights_eq_roomWeights {roster : List RosterEntry} {l : List Share} (h : l.map Share.entry = roster) :
    ((l.filter fun x => decide (0 < x.entry.room)).map fun x => x.entry.weight).sum = roomWeights roster := by
  rw [← h, roomWeights, List.filter_map, List.map_map]
  rfl

section
variable {c : Nat} (p : Slot) {roster : List RosterEntry} (hs : (roster.map RosterEntry.slot).Pairwise (· < ·))
include hs

/-- Short of capacity, the essential stage is scaled exactly and the later stages give nothing (R86). -/
theorem computeGrants_essential_short (h : c < claimsOf .essential roster) :
    ScaledStage .essential c (claimsOf .essential roster) p (computeGrants c p roster)
      ∧ ∀ x ∈ computeGrants c p roster, x.entry.cls = .standard → x.grant = 0 := by
  have start := noShares_shared roster
  rw [computeGrants_of_essential_short p h]
  refine ⟨grantScaled_scaledStage hs start h (sumShares_claimIn start _).symm p, fun x hx hxc => ?_⟩
  have hmem := mem_of_mem_grantScaled (ascending_of_entries hs start.1) hx (by simp [Share.ofClass, hxc])
  obtain ⟨e, -, rfl⟩ := List.mem_map.1 hmem
  rfl

/-- Where the essential claims fit and the standard ones do not, the standard stage is scaled exactly (R86, R87). -/
theorem computeGrants_standard_short (h : claimsOf .essential roster ≤ c)
    (h' : c - claimsOf .essential roster < claimsOf .standard roster) :
    ScaledStage .standard (c - claimsOf .essential roster) (claimsOf .standard roster) p (computeGrants c p roster)
      ∧ ∀ x ∈ computeGrants c p roster, x.entry.cls = .essential → x.grant = x.entry.claim := by
  obtain ⟨hshared, -⟩ := grantClaims_spec (noShares_shared roster) .essential
  rw [computeGrants_of_standard_short p h h']
  refine ⟨grantScaled_scaledStage hs hshared h' (sumShares_claimIn hshared _).symm p, fun x hx hxc => ?_⟩
  have hmem := mem_of_mem_grantScaled (ascending_of_entries hs hshared.1) hx (by simp [Share.ofClass, hxc])
  exact grant_of_mem_grantClaims hmem (beq_iff_eq.2 hxc)

/-- Where all claims fit, the excess stage shares the remainder (R88). -/
theorem computeGrants_excess (h : claimsOf .essential roster + claimsOf .standard roster ≤ c)
    (hw : ∀ e ∈ roster, 1 ≤ e.weight) :
    ExcessStage (c - (claimsOf .essential roster + claimsOf .standard roster)) p roster (computeGrants c p roster) := by
  rw [computeGrants_of_fits p h]
  exact grantExcess_excessStage _ p hs hw

/-- Where all claims fit, every entry receives its claim (R86, R87). -/
theorem claim_le_of_mem_computeGrants (h : claimsOf .essential roster + claimsOf .standard roster ≤ c) {x : Share}
    (hx : x ∈ computeGrants c p roster) : x.entry.claim ≤ x.grant := by
  rw [computeGrants_of_fits p h] at hx
  exact claim_le_of_mem_grantExcess _ p hs hx

end

/-- Settles O27: each case is the stage that it names, on the shares that the stages before it leave. -/
theorem scaledStagesAreExactAndRotate : Obligations.ScaledStagesAreExactAndRotate := by
  unfold Obligations.ScaledStagesAreExactAndRotate
  intro c p roster hs l claims given scaled
  refine ⟨fun hshort => ?_, fun hfits hshort => ?_, fun hfits hw => ?_, fun hfits x =>
    claim_le_of_mem_computeGrants p hs hfits⟩
  · obtain ⟨hstage, hnone⟩ := computeGrants_essential_short p hs hshort
    exact ⟨hstage.worded, hnone⟩
  · obtain ⟨hstage, hclaims⟩ := computeGrants_standard_short p hs hfits hshort
    exact ⟨hstage.worded, hclaims⟩
  · intro r room weights share
    obtain ⟨⟨hroster, -⟩, -⟩ := computeGrants_spec c p roster
    obtain ⟨hwithin, hrotates, htotal⟩ := computeGrants_excess p hs hfits hw
    have hweights : weights = roomWeights roster := weights_eq_roomWeights hroster
    have hclaims : (l.map fun x => x.entry.claim).sum = _ := sumShares_entry hroster RosterEntry.claim
    have hroom : (l.map room).sum = _ := sumShares_entry hroster RosterEntry.room
    simp only [share, hweights, hclaims, hroom]
    exact ⟨hwithin, hrotates, htotal⟩

end Sys2Proof.Machine
end

