-- ==== Sys2Proof/Proofs/TestDispatch.lean ====
section
/-! A dispatch retry and what a dispatch changes (R121, R122). -/

namespace Sys2Proof.Machine

section

variable {s : State} {e : TestEntry} {rest : List TestEntry}

theorem State.dispatchRetry_of_empty (h : s.tests.queue = []) : s.dispatchRetry = s :=
  State.dispatchRetry_of_noDispatch (.inr (.inr h))

theorem State.dispatchRetry_of_cons (h : s.tests.queue = e :: rest) :
    s.dispatchRetry = if s.canDispatch then s.dispatch e rest else s := by
  rw [State.dispatchRetry, h]

/-- The entry becomes the test in flight and its line UNDER_TEST, before any record moves (R122). -/
def State.begun (s : State) (e : TestEntry) (rest : List TestEntry) (r : RestState) : State :=
  (s.withTests ⟨rest, some (dispatchedTest e)⟩).setLine e.line { s.line e.line with state := .underTest r }

/-- The head powered, and the relay image of a line commanded (R122). -/
def State.connected (s : State) (n : LineNo) : State :=
  (s.withHead { s.head with headen := true }).withRelay (s.relay.command (lineBit n))

/-- A dispatch of a line in service moves the line's records; any other dispatch moves none. -/
theorem State.dispatch_eq {r : RestState} (h : (s.line e.line).state = .rest r) :
    s.dispatch e rest = (if r = .inService then (s.begun e rest r).leaveService e.line
      else s.begun e rest r).connected e.line := by
  have hin : LineState.rest r = .rest .inService ↔ r = .inService := by rw [LineState.rest.injEq]
  simp only [State.dispatch, h, hin]
  rfl

/-- What a dispatch changes beside the record table and the sums (R122). -/
theorem State.dispatch_frame {r : RestState} (h : (s.line e.line).state = .rest r) :
    s.dispatch e rest = { s with
      slots := (s.dispatch e rest).slots
      meter := (s.dispatch e rest).meter
      lines := s.lines.set e.line { s.line e.line with state := .underTest r }
      relay := s.relay.command (BitVec.twoPow 24 e.line.val)
      head := { s.head with headen := true }
      tests := ⟨rest, some ⟨e, .connect, Vector.replicate 7 none, false, none, none, none⟩⟩ } := by
  rw [State.dispatch_eq h]
  split
  · have moved : (s.begun e rest r).leaveService e.line = _ := foldl_moveOut_frame _ _
    exact congrArg (State.connected · e.line) moved
  · rfl

theorem State.dispatch_leaves (h : (s.line e.line).state = .rest .inService)
    (hnodup : (s.line e.line).attached.Nodup) : s.LeavesService (s.dispatch e rest) e.line := by
  rw [State.dispatch_eq h, if_pos rfl]
  exact ((s.withTests ⟨rest, some (dispatchedTest e)⟩).setLine_leaves
    (l := { s.line e.line with state := .underTest .inService }) rfl hnodup).of_eq rfl rfl rfl

theorem State.dispatch_keeps_records {r : RestState} (h : (s.line e.line).state = .rest r) (hr : r ≠ .inService) :
    (s.dispatch e rest).slots = s.slots ∧ (s.dispatch e rest).meter = s.meter := by
  rw [State.dispatch_eq h, if_neg hr]
  exact ⟨rfl, rfl⟩

/-- A dispatch from an unpowered head adds the head's cost to the load (R141). -/
theorem State.load_dispatch (hoff : s.head.headen = false) :
    (s.dispatch e rest).load = s.load + s.settings.headCost := by
  have powered : (s.dispatch e rest).head.headen = true :=
    congrArg (fun b : Board => b.head.headen) (s.dispatch_board e rest)
  simp [State.load, State.dispatch_lit, (s.dispatch_kept e rest).settings, powered, hoff]

end

/-- Settles O34: a retry is a dispatch where the three conditions hold, and the state as it was elsewhere. -/
theorem dispatchTakesTheQueueHead : Obligations.DispatchTakesTheQueueHead := by
  unfold Obligations.DispatchTakesTheQueueHead
  refine fun s => ⟨State.dispatchRetry_of_empty, fun e rest hq => ?_⟩
  rw [State.dispatchRetry_of_cons hq]
  refine ⟨fun hstop => if_neg fun hcan => ?_, fun hcurrent hlevel hload r hr => ?_⟩
  · obtain ⟨hcurrent, hlevel, hload⟩ := s.canDispatch_iff.1 hcan
    obtain hstop | hstop | hstop := hstop
    · exact hstop hcurrent
    · exact hstop hlevel
    · exact Nat.not_lt.2 hload hstop
  · rw [if_pos (s.canDispatch_iff.2 ⟨hcurrent, hlevel, hload⟩)]
    refine ⟨State.dispatch_frame hr, fun hin hnodup => ?_, State.dispatch_keeps_records hr,
      litSet_congr (s.dispatch_lit e rest), State.load_dispatch⟩
    subst hin
    exact State.dispatch_leaves hr hnodup

end Sys2Proof.Machine
end

