-- ==== Sys2Proof/Proofs/TestHead.lean ====
section
/-! The test head: the steps of each method, the results, and the settle expiries (chapter 6, R123 to R129). -/

namespace Sys2Proof.Machine

/-- Two commands, the second of which changes nothing. -/
theorem State.runs_pair {s t : State} {c d : Instr} (hc : exec c s = .next t) (hd : exec d t = .next t) :
    s.runs [c, d] = .next t := by
  rw [State.runs_cons hc, State.runs_cons hd]
  rfl

/-! ### The head's events where they are due (R104 to R114) -/

/-- A gate of a resistance measurement runs: oscillator edges count (R109). -/
def HeadPhase.Gates (p : HeadPhase) : Prop := (∃ w, p = .refGate w) ∨ ∃ w k, p = .pairGate w k

/-- The tone plays, in either phase of its cadence (R114). -/
def HeadPhase.Plays (p : HeadPhase) (v : ToneVals) : Prop := p = .toneOn v ∨ p = .toneOff v

section

variable {s : State} (hs : s.hold = none)

include hs

/-- The path settle's end begins the method of the work that the head holds. -/
theorem exec_pathSettleExpiry {w : Work} (h : s.head.phase = .pathSettle w) (c : Bool) : exec (.pathSettleExpiry c) s
    = .next (s.withHead (Head.pathSettled { s.head with phase := .pathSettle w } c)) := by
  rw [← h]
  simp only [exec, execPathSettleExpiry, exec_of_not_held hs]

theorem exec_converterSample {i : VoltItem} {a : Samples} (h : s.head.phase = .sampling i a) (code : BitVec 10) :
    exec (.converterSample code) s = .next (if i.samples ≤ a.count + 1
      then s.completeMeasure i.meas (i.result (a.add code.toNat))
      else s.withHead { s.head with phase := .sampling i (a.add code.toNat) }) := by
  simp only [exec, execConverterSample, exec_of_not_held hs, h]
  rfl

theorem exec_referenceGateExpiry {w : ResWork} (h : s.head.phase = .refGate w) : exec .referenceGateExpiry s
    = .next (s.withHead { s.head with phase := .pathSettle (.resPair w s.head.osc), path := w.item.path }) := by
  simp only [exec, execReferenceGateExpiry, exec_of_not_held hs, h]

theorem exec_pairGateExpiry {w : ResWork} {nref : Nat} (h : s.head.phase = .pairGate w nref) :
    exec .pairGateExpiry s = .next (s.completeMeasure w.item.meas (resResult w.rref nref s.head.osc)) := by
  simp only [exec, execPairGateExpiry, exec_of_not_held hs, h]

theorem exec_oscillatorEdge (h : s.head.phase.Gates) :
    exec .oscillatorEdge s = .next (s.withHead { s.head with osc := min oscMax (s.head.osc + 1) }) := by
  obtain ⟨w, h⟩ | ⟨w, k, h⟩ := h <;> simp only [exec, execOscillatorEdge, exec_of_not_held hs, h]

theorem exec_capinEdge {kc : Nat} (h : s.head.phase = .charge kc) (k : Word16) :
    exec (.capinEdge k) s = .next (s.withHead (s.head.endCharge kc (.edge k.toNat) k.toNat)) := by
  simp only [exec, execCapinEdge, exec_of_not_held hs, h]

theorem exec_captureTimeout {kc : Nat} (h : s.head.phase = .charge kc) :
    exec .captureTimeout s = .next (s.withHead (s.head.endCharge kc .timeout 65535)) := by
  simp only [exec, execCaptureTimeout, exec_of_not_held hs, h]

/-- Once the charge has ended, neither event that ends a charge changes anything (R111). -/
theorem exec_capinEdge_of_discharge {kc : Nat} {e : ChargeEnd} (h : s.head.phase = .discharge kc e) (k : Word16) :
    exec (.capinEdge k) s = .next s := by
  simp only [exec, execCapinEdge, exec_of_not_held hs, h]

theorem exec_captureTimeout_of_discharge {kc : Nat} {e : ChargeEnd} (h : s.head.phase = .discharge kc e) :
    exec .captureTimeout s = .next s := by
  simp only [exec, execCaptureTimeout, exec_of_not_held hs, h]

theorem exec_dischargeExpiry {kc : Nat} {e : ChargeEnd} (h : s.head.phase = .discharge kc e) :
    exec .dischargeExpiry s = .next (s.completeMeasure .cap (capResult kc e)) := by
  simp only [exec, execDischargeExpiry, exec_of_not_held hs, h]

theorem exec_cadenceExpiry_of_on {v : ToneVals} (h : s.head.phase = .toneOn v) :
    exec .cadenceExpiry s = .next (s.withHead { s.head with phase := .toneOff v, tone := false }) := by
  simp only [exec, execCadenceExpiry, exec_of_not_held hs, h]

theorem exec_cadenceExpiry_of_off {v : ToneVals} (h : s.head.phase = .toneOff v) :
    exec .cadenceExpiry s = .next (s.withHead { s.head with phase := .toneOn v, tone := true }) := by
  simp only [exec, execCadenceExpiry, exec_of_not_held hs, h]

theorem exec_toneDurationExpiry {v : ToneVals} (h : s.head.phase.Plays v) :
    exec .toneDurationExpiry s = .next s.completeTone := by
  obtain h | h := h <;> simp only [exec, execToneDurationExpiry, exec_of_not_held hs, h]

end

/-- The events of a running method that change nothing at an IDLE head (log entry 4). -/
theorem exec_of_idle {s : State} (h : s.head.phase = .idle) {c : Instr}
    (hc : c ∈ [Instr.oscillatorEdge, .referenceGateExpiry, .pairGateExpiry, .captureTimeout, .dischargeExpiry,
      .cadenceExpiry, .toneDurationExpiry]) : exec c s = .next s := by
  simp only [List.mem_cons, List.not_mem_nil, or_false] at hc
  obtain rfl | rfl | rfl | rfl | rfl | rfl | rfl := hc
  all_goals exact congrArg Host.Outcome.next (State.unlessHeld_same (by simp only [h]))

/-! ### Samples and oscillator edges (R107 to R109) -/

/-- Samples taken one after another, in one. -/
theorem Samples.foldl_add (l : List (BitVec 10)) (a : Samples) : l.foldl (fun b c => b.add c.toNat) a
    = ⟨a.count + l.length, a.sum + (l.map BitVec.toNat).sum, (l.map BitVec.toNat).foldl min a.least,
      (l.map BitVec.toNat).foldl max a.most⟩ := by
  induction l generalizing a with
  | nil => rfl
  | cons c l ih =>
    rw [List.foldl_cons, ih]
    simp [Samples.add, Nat.add_assoc, Nat.add_comm 1]

section

variable {s : State} (hs : s.hold = none)

include hs

/-- Samples short of the last one gather at the head. -/
theorem State.runs_converterSamples (l : List (BitVec 10)) {i : VoltItem} {a : Samples}
    (h : s.head.phase = .sampling i a) (hl : a.count + l.length < i.samples) : s.runs (l.map Instr.converterSample)
      = .next (s.withHead { s.head with phase := .sampling i (l.foldl (fun b c => b.add c.toNat) a) }) := by
  induction l generalizing s a with
  | nil =>
    rw [List.foldl_nil, ← h]
    rfl
  | cons c l ih =>
    rw [List.length_cons] at hl
    have more : ¬ i.samples ≤ a.count + 1 := by omega
    have gathered := (exec_converterSample hs h c).trans (congrArg Host.Outcome.next (if_neg more))
    have short : (a.add c.toNat).count + l.length < i.samples := by
      show a.count + 1 + l.length < i.samples
      omega
    rw [List.map_cons, State.runs_cons gathered]
    exact ih (s := s.withHead { s.head with phase := .sampling i (a.add c.toNat) }) hs rfl short

/-- Edges in a gate count, up to the counter's end. -/
theorem State.runs_oscillatorEdges (n : Nat) (h : s.head.phase.Gates) (ho : s.head.osc ≤ oscMax) :
    s.runs (List.replicate n .oscillatorEdge)
      = .next (s.withHead { s.head with osc := min oscMax (s.head.osc + n) }) := by
  induction n generalizing s with
  | zero =>
    rw [Nat.add_zero, Nat.min_eq_right ho]
    rfl
  | succ n ih =>
    have total : min oscMax (min oscMax (s.head.osc + 1) + n) = min oscMax (s.head.osc + (n + 1)) := by omega
    rw [List.replicate_succ, State.runs_cons (exec_oscillatorEdge hs h),
      ih (s := s.withHead { s.head with osc := min oscMax (s.head.osc + 1) }) hs h (Nat.min_le_left _ _), ← total]
    rfl

end

/-! ### The tone output (R113) -/

theorem Head.toneHertz_of_on {h : Head} {v : ToneVals} (hp : h.phase = .toneOn v) (ht : h.tone = true) :
    h.toneHertz = some v.hertz := by
  simp only [Head.toneHertz, hp, ht, if_true]

theorem Head.toneHertz_of_low {h : Head} (ht : h.tone = false) : h.toneHertz = none := by
  unfold Head.toneHertz
  split
  · simp only [ht, Bool.false_eq_true, if_false]
  all_goals rfl

/-- Settles O39: each event by its equation at the phase where it is due, the samples and the edges by induction. -/
theorem headStepsThroughEachMethod : Obligations.HeadStepsThroughEachMethod := by
  unfold Obligations.HeadStepsThroughEachMethod
  intro s hs head
  refine ⟨fun i c h => exec_pathSettleExpiry hs h c, fun w c h => exec_pathSettleExpiry hs h c,
    fun w k c h => exec_pathSettleExpiry hs h c,
    fun kc h => ⟨exec_pathSettleExpiry hs h false, exec_pathSettleExpiry hs h true⟩,
    fun v c h => exec_pathSettleExpiry hs h c, fun i codes h hl => ?_,
    fun n h ho => State.runs_oscillatorEdges hs n h ho, fun w h => ?_, fun kc k h => ?_,
    fun v h => exec_cadenceExpiry_of_on hs h, fun v h => exec_cadenceExpiry_of_off hs h,
    fun v h ht => Head.toneHertz_of_on h ht, Head.toneHertz_of_low, fun h c hc => exec_of_idle h hc⟩
  · have short : 0 + codes.length < i.samples := by
      rw [Nat.zero_add]
      cases i <;> exact hl
    rw [State.runs_converterSamples hs codes h short, Samples.foldl_add, Nat.zero_add, Nat.zero_add]
    rfl
  · rw [exec_referenceGateExpiry hs h]
    obtain ⟨item, gate, rref⟩ := w
    cases item <;> rfl
  · have edge := exec_capinEdge hs h k
    have timeout := exec_captureTimeout hs h
    have noTimeout := State.runs_pair edge (exec_captureTimeout_of_discharge hs rfl)
    have noEdge := State.runs_pair timeout
      (exec_capinEdge_of_discharge (s := s.withHead (s.head.endCharge kc .timeout 65535)) hs rfl k)
    exact ⟨edge, timeout, noTimeout.trans edge.symm, noEdge.trans timeout.symm⟩

/-! ### Completions (R103, R105, R107 to R112, R114, R123) -/

section

variable {s : State} {x : Test} (hx : s.tests.current = some x)

include hx

/-- A measurement's completing event hands its result over and goes on with the test. -/
theorem exec_completion_goesOn {c : Instr} {m : Meas} {r : Result} (he : exec c s = .next (s.completeMeasure m r)) :
    ∃ t, exec c s = .next t ∧ { s with head := s.head.resting }.GoesOn t
      { x with results := x.results.set m.number (some r) } (m.number.val + 1) :=
  ⟨_, he, State.completeMeasure_goesOn hx m r⟩

theorem State.completeTone_eq : s.completeTone = { s with
    head := s.head.unpowered
    relay := s.relay.command 0
    tests := { s.tests with current := some { x with stage := .disconnect, settle := none, tonePlayed := true } } } := by
  simp only [State.completeTone, hx]
  rfl

end

/-- A cadence change leaves the tone playing, and nothing that a completion would show. -/
theorem exec_cadenceExpiry_plays {s : State} (hs : s.hold = none) {v : ToneVals} (h : s.head.phase.Plays v) :
    ∃ g : Head, exec .cadenceExpiry s = .next (s.withHead g) ∧ g.phase.Plays v ∧ g.unpowered = s.head.unpowered := by
  obtain h | h := h
  · exact ⟨_, exec_cadenceExpiry_of_on hs h, .inr rfl, rfl⟩
  · exact ⟨_, exec_cadenceExpiry_of_off hs h, .inl rfl, rfl⟩

/-- Settles O40: every completion is `completeMeasure` with the result of its item, which is the tables' by definition,
or `completeTone`. -/
theorem measurementsCompleteWithTheirResults : Obligations.MeasurementsCompleteWithTheirResults := by
  unfold Obligations.MeasurementsCompleteWithTheirResults
  intro s x hs hx rested completes
  refine ⟨fun i a code h => ⟨fun hi hn => ?_, fun hi hn => ?_⟩, fun w nref h => ?_, fun kc => ⟨fun h => ?_, fun h => ?_,
    fun k h => ?_⟩, fun v h => ?_⟩
  · have last := exec_converterSample hs h code
    cases i with
    | vdcTg | vdcRg => exact exec_completion_goesOn hx (last.trans (congrArg Host.Outcome.next (if_pos hn)))
    | vac => exact absurd rfl hi
  · subst hi
    exact exec_completion_goesOn hx ((exec_converterSample hs h code).trans (congrArg Host.Outcome.next (if_pos hn)))
  · exact exec_completion_goesOn hx (exec_pairGateExpiry hs h)
  · exact exec_completion_goesOn hx (exec_dischargeExpiry hs h)
  · exact exec_completion_goesOn hx (exec_dischargeExpiry hs h)
  · exact exec_completion_goesOn hx (exec_dischargeExpiry hs h)
  · have ended := (exec_toneDurationExpiry hs h).trans (congrArg Host.Outcome.next (State.completeTone_eq hx))
    refine ⟨ended, State.runs_pair ended (exec_of_idle rfl (by simp)), ?_⟩
    obtain ⟨g, toggled, plays, same⟩ := exec_cadenceExpiry_plays hs h
    have done := (exec_toneDurationExpiry (s := s.withHead g) hs plays).trans
      (congrArg Host.Outcome.next (State.completeTone_eq (s := s.withHead g) hx))
    rw [State.runs_cons toggled, State.runs_cons done, State.withHead_head, same]
    rfl

/-! ### The settle expiries (R101, R123, R124, R127 to R129) -/

theorem exec_relaySettleExpiry {s : State} {x : Test} (hs : s.hold = none) (hx : s.tests.current = some x) :
    exec .relaySettleExpiry s = .next (if x.settle.isSome then s.settled x else s) := by
  simp only [exec, execRelaySettleExpiry, exec_of_not_held hs, hx, State.whenDue]

theorem judgeValue_judges (w : Window) (v : Option Int) : w.Judges v (judgeValue w v) := by
  refine ⟨fun h => ?_, fun x hv => ⟨fun hm => ?_, fun hm => ?_⟩⟩
  · cases v with
    | none => rfl
    | some x =>
      have ignored : w.mode = .ignore := h.resolve_right (Option.some_ne_none x)
      simp only [judgeValue, ignored]
  all_goals
    subst hv
    simp [judgeValue, hm]

theorem judgeResults_getElem (set : Vector Window 7) (results : Vector (Option Result) 7) (k : Fin 7) :
    (judgeResults set results)[k] = (results[k]).map fun r => ⟨r, judgeValue set[k] r.value⟩ := by
  simp [judgeResults]

theorem anyJudged_iff (p : Judged → Bool) (j : Vector (Option Judged) 7) :
    anyJudged p j = true ↔ ∃ (k : Fin 7) (q : Judged), j[k] = some q ∧ p q = true := by
  have holds : ∀ o : Option Judged, (o.map p).getD false = true ↔ ∃ q, o = some q ∧ p q = true := by
    intro o
    cases o <;> simp
  simp only [anyJudged, List.any_eq_true, holds, Vector.mem_toList_iff, Vector.mem_iff_getElem]
  constructor
  · rintro ⟨o, ⟨k, hk, ho⟩, q, hq, hp⟩
    exact ⟨⟨k, hk⟩, q, ho.trans hq, hp⟩
  · rintro ⟨k, q, hq, hp⟩
    exact ⟨_, ⟨k.val, k.isLt, rfl⟩, q, hq, hp⟩

/-- The first case of Table 53, over what some judged result shows. -/
theorem verdictOf_spec (j : Vector (Option Judged) 7) {fault : Prop} {fails : Severity → Prop}
    (hfault : anyJudged (fun q => q.result.headFault) j = true ↔ fault)
    (hfails : ∀ sev, anyJudged (fun q => q.judgement == .fail sev) j = true ↔ fails sev) :
    (fault → verdictOf none j = .inconclusive)
      ∧ (¬ fault → fails .faulty → verdictOf none j = .faulty)
      ∧ (¬ fault → ¬ fails .faulty → fails .marginal → verdictOf none j = .marginal)
      ∧ (¬ fault → ¬ fails .faulty → ¬ fails .marginal → verdictOf none j = .good) := by
  have table : verdictOf none j = if anyJudged (fun q => q.result.headFault) j then .inconclusive
      else if anyJudged (fun q => q.judgement == .fail .faulty) j then .faulty
      else if anyJudged (fun q => q.judgement == .fail .marginal) j then .marginal else .good := rfl
  rw [table]
  refine ⟨fun h => if_pos (hfault.2 h), fun h hf => ?_, fun h hf hm => ?_, fun h hf hm => ?_⟩
  · rw [if_neg (mt hfault.1 h), if_pos ((hfails _).2 hf)]
  · rw [if_neg (mt hfault.1 h), if_neg (mt (hfails _).1 hf), if_pos ((hfails _).2 hm)]
  · rw [if_neg (mt hfault.1 h), if_neg (mt (hfails _).1 hf), if_neg (mt (hfails _).1 hm)]

theorem State.settled_of_connect {s : State} {x : Test} (h : x.stage = .connect) : s.settled x = s.proceed x 0 := by
  simp only [State.settled, h]

theorem State.settled_of_disconnect {s : State} {x : Test} (h : x.stage = .disconnect) : s.settled x
    = s.withTest { x with stage := .evaluate, settle := none, evaluation := some (x.evaluate s.settings) } := by
  simp only [State.settled, h]
  rfl

/-- Settles O38: CONNECT goes on from item 0, and DISCONNECT keeps the judgements over which the verdict is formed. -/
theorem settleExpiryStartsItemsOrEvaluates : Obligations.SettleExpiryStartsItemsOrEvaluates := by
  unfold Obligations.SettleExpiryStartsItemsOrEvaluates
  intro s x hs hx
  rw [exec_relaySettleExpiry hs hx]
  refine ⟨fun hset => ?_, fun hset hstage => ?_, fun hset hstage => ?_⟩
  · rw [hset]
    rfl
  · rw [if_pos (Option.isSome_iff_ne_none.2 hset), State.settled_of_connect hstage]
    exact ⟨_, rfl, s.proceed_goesOn x 0⟩
  · rw [if_pos (Option.isSome_iff_ne_none.2 hset), State.settled_of_disconnect hstage]
    let j := judgeResults s.settings.limits[x.entry.limitSet] x.results
    have judged (k : Fin 7) : j[k] = _ := judgeResults_getElem s.settings.limits[x.entry.limitSet] x.results k
    refine ⟨verdictOf x.abort j, j, rfl, fun k => ⟨fun hk => ?_, fun r hk => ?_⟩, fun habort => ?_, fun habort => ?_⟩
    · rw [judged, hk]
      rfl
    · rw [judged, hk]
      exact ⟨_, rfl, judgeValue_judges _ _⟩
    · exact if_pos (Option.isSome_iff_ne_none.2 habort)
    · rw [habort]
      intro fault fails
      exact verdictOf_spec j (fault := fault) (fails := fails) (anyJudged_iff _ j) fun sev =>
        (anyJudged_iff _ j).trans (by simp only [beq_iff_eq, fails])

end Sys2Proof.Machine
end

