-- ==== Sys2Proof/Proofs/TestQueue.lean ====
section
/-! READ TEST QUEUE, word by word (R134, Tables 77 and 86). -/

namespace Sys2Proof.Machine

/-! ### Words of a test entry and of the test in flight (Tables 77 and 86) -/

theorem Stage.code_le (g : Stage) : g.code ≤ 11 := by
  cases g with
  | measure m => have := m.number.isLt; simp only [Stage.code]; omega
  | connect | tone | disconnect | evaluate => decide

/-- The tone words of an entry with a tone, each value within its field. -/
theorem toneWords_fields {v : ToneVals} (hr : v.reload ≤ 4999) (hn : v.on ≤ 50) (hf : v.off ≤ 50) (hd : v.duration ≤ 600) :
    (w16 v.reload).toNat = v.reload ∧ ((w16 (v.on * 256 + v.off)).extractLsb' 8 8).toNat = v.on
      ∧ ((w16 (v.on * 256 + v.off)).extractLsb' 0 8).toNat = v.off ∧ (w16 v.duration).toNat = v.duration := by
  have hw : v.on * 256 + v.off < 65536 := by omega
  refine ⟨w16_toNat (by omega), (w16_extract hw _ _).trans ?_, (w16_extract hw _ _).trans ?_, w16_toNat (by omega)⟩
  all_goals omega

/-- Word 1 of Table 77. -/
theorem entryWord_fields (e : TestEntry) {x : Word16}
    (hx : x = w16 (e.items.toNat * 512 + flag 8 e.tone.isSome + flag 7 e.autoHold + e.limitSet.val * 32 + e.line.val)) :
    x.extractLsb' 9 7 = e.items ∧ x.getLsbD 8 = e.tone.isSome ∧ x.getLsbD 7 = e.autoHold
      ∧ (x.extractLsb' 5 2).toNat = e.limitSet.val ∧ (x.extractLsb' 0 5).toNat = e.line.val := by
  subst hx
  have hitems := e.items.isLt
  have htone := Bool.toNat_le e.tone.isSome
  have hhold := Bool.toNat_le e.autoHold
  have hset := e.limitSet.isLt
  have hline := e.line.isLt
  have hw : e.items.toNat * 512 + flag 8 e.tone.isSome + flag 7 e.autoHold + e.limitSet.val * 32 + e.line.val < 65536 := by
    simp only [flag_eq]; omega
  refine ⟨BitVec.eq_of_toNat_eq ((w16_extract hw _ _).trans ?_), w16_bit_eq hw 8 ?_, w16_bit_eq hw 7 ?_,
    (w16_extract hw _ _).trans ?_, (w16_extract hw _ _).trans ?_⟩
  all_goals
    simp only [flag_eq]
    omega

/-- Word 2 of READ TEST QUEUE (Table 86). -/
theorem queueWord_fields {present flying : Bool} {len line : Nat} (hlen : len ≤ 8) (hline : line < 24) {x : Word16}
    (hx : x = w16 (flag 15 present + flag 14 flying + len * 256 + line)) :
    (x.getLsbD 15 = present ∧ x.getLsbD 14 = flying ∧ x.extractLsb' 12 2 = 0 ∧ (x.extractLsb' 8 4).toNat = len
      ∧ x.extractLsb' 5 3 = 0) ∧ (x.extractLsb' 0 5).toNat = line := by
  subst hx
  have hpresent := Bool.toNat_le present
  have hflying := Bool.toNat_le flying
  have hw : flag 15 present + flag 14 flying + len * 256 + line < 65536 := by simp only [flag_eq]; omega
  refine ⟨⟨w16_bit_eq hw 15 ?_, w16_bit_eq hw 14 ?_, w16_extract_zero hw ?_, (w16_extract hw _ _).trans ?_,
    w16_extract_zero hw ?_⟩, (w16_extract hw _ _).trans ?_⟩
  all_goals
    simp only [flag_eq]
    omega

/-- A number by its seven binary digits. -/
theorem bits_of_sum {b : Fin 7 → Bool} {v : Nat} (h : v = ∑ k : Fin 7, 2 ^ k.val * (b k).toNat) :
    v < 128 ∧ ∀ k : Fin 7, v / 2 ^ k.val % 2 = (b k).toNat := by
  have digit (k : Fin 7) : (b k).toNat ≤ 1 := Bool.toNat_le _
  have h0 := digit 0
  have h1 := digit 1
  have h2 := digit 2
  have h3 := digit 3
  have h4 := digit 4
  have h5 := digit 5
  have h6 := digit 6
  norm_num [Fin.sum_univ_seven] at h
  refine ⟨by omega, fun k => ?_⟩
  match k with
  | 0 | 1 | 2 | 3 | 4 | 5 | 6 => norm_num; omega

/-- Measurement `k` has a kept result exactly where bit `k` of the set is 1. -/
theorem keptItems_bits (t : Test) :
    keptItems t < 128 ∧ ∀ k : Fin 7, keptItems t / 2 ^ k.val % 2 = (t.results[k]).isSome.toNat := by
  refine bits_of_sum ?_
  simp only [Fin.sum_univ_succ, keptItems, Meas.all, flag_eq]
  rfl

/-- Word 7 of READ TEST QUEUE at position 0 with a test in flight (Table 86). -/
theorem inFlightWord_fields (t : Test) :
    (∀ k : Fin 7, (inFlightWord t).getLsbD (9 + k.val) = (t.results[k]).isSome) ∧ (inFlightWord t).getLsbD 8 = false
      ∧ ((inFlightWord t).extractLsb' 4 4).toNat = t.stage.code
      ∧ ((inFlightWord t).extractLsb' 2 2).toNat = causeCode t.abort ∧ (inFlightWord t).extractLsb' 0 2 = 0 := by
  obtain ⟨hkept, hbit⟩ := keptItems_bits t
  have hstage := t.stage.code_le
  have hcause := causeCode_le t.abort
  have hw : keptItems t * 512 + t.stage.code * 16 + causeCode t.abort * 4 < 65536 := by omega
  refine ⟨fun k => w16_bit_eq hw _ ?_, w16_bit_eq hw 8 (b := false) (show _ = 0 by omega), (w16_extract hw _ _).trans ?_,
    (w16_extract hw _ _).trans ?_, w16_extract_zero hw ?_⟩
  · have high : (keptItems t * 512 + t.stage.code * 16 + causeCode t.abort * 4) / 2 ^ 9 = keptItems t := by omega
    rw [pow_add, ← Nat.div_div_eq_div_mul, high, hbit k]
  all_goals omega

/-! ### READ TEST QUEUE (R134) -/

/-- The entry at a position: the test in flight's at 0, the queue's in order above it (R134). -/
def Tests.entryAt (t : Tests) (p : Nat) : Option TestEntry := if p = 0 then t.current.map Test.entry else t.queue[p - 1]?

/-- The seven words but for the result word, with the four words of the entry, 0000h where there is none (Table 86). -/
theorem testQueueWords_eq (t : Tests) (p : Nat) : testQueueWords t p =
    [w16 (flag 15 (t.entryAt p).isSome + flag 14 t.current.isSome + t.queue.length * 256
        + (t.current.map fun c => c.entry.line.val).getD 0)]
      ++ ((t.entryAt p).map entryWords).getD [0, 0, 0, 0] ++ [if p = 0 then (t.current.map inFlightWord).getD 0 else 0] := by
  unfold testQueueWords Tests.entryAt
  generalize (if p = 0 then t.current.map Test.entry else t.queue[p - 1]?) = entry
  cases entry <;> rfl

/-- The entry words are four. -/
theorem entryWords_eq (o : Option TestEntry) : ∃ a3 a4 a5 a6 : Word16,
    (o.map entryWords).getD [0, 0, 0, 0] = [a3, a4, a5, a6]
      ∧ (o = none → a3 = 0 ∧ a4 = 0 ∧ a5 = 0 ∧ a6 = 0)
      ∧ ∀ e, o = some e →
        (a3.extractLsb' 9 7 = e.items ∧ a3.getLsbD 8 = e.tone.isSome ∧ a3.getLsbD 7 = e.autoHold
            ∧ (a3.extractLsb' 5 2).toNat = e.limitSet.val ∧ (a3.extractLsb' 0 5).toNat = e.line.val)
          ∧ ∀ v, e.tone = some v → v.reload ≤ 4999 → v.on ≤ 50 → v.off ≤ 50 → v.duration ≤ 600 →
            a4.toNat = v.reload ∧ (a5.extractLsb' 8 8).toNat = v.on ∧ (a5.extractLsb' 0 8).toNat = v.off
              ∧ a6.toNat = v.duration := by
  cases o with
  | none => exact ⟨0, 0, 0, 0, rfl, fun _ => ⟨rfl, rfl, rfl, rfl⟩, by simp⟩
  | some e =>
    cases htone : e.tone with
    | none =>
      refine ⟨_, 0, 0, 0, by rw [Option.map_some, Option.getD_some, entryWords, htone]; rfl, by simp, fun e' he => ?_⟩
      obtain rfl := Option.some.inj he
      exact ⟨entryWord_fields e (by rw [htone]), by simp [htone]⟩
    | some v =>
      refine ⟨_, _, _, _, by rw [Option.map_some, Option.getD_some, entryWords, htone]; rfl, by simp, fun e' he => ?_⟩
      obtain rfl := Option.some.inj he
      refine ⟨entryWord_fields e (by rw [htone]), fun v' hv hr hn hf hd => ?_⟩
      obtain rfl := Option.some.inj (htone.symm.trans hv)
      exact toneWords_fields hr hn hf hd

/-- Settles O49: each word of Table 86 by its fields, the four words of the entry apart. -/
theorem testQueueIsReadByPosition : Obligations.TestQueueIsReadByPosition := by
  unfold Obligations.TestQueueIsReadByPosition
  intro s f x hargs h p
  have hpos : argPosition f.args = p := by rw [hargs]; rfl
  refine ⟨fun hp => State.immediate_leaves (act := actReadTestQueue) h rfl ?_, fun hp hlen => ?_⟩
  · rw [actReadTestQueue, hpos, if_pos hp]
    rfl
  obtain ⟨a3, a4, a5, a6, hwords, habsent, hpresent⟩ := entryWords_eq (s.tests.entryAt p)
  have hline : (s.tests.current.map fun c => c.entry.line.val).getD 0 < 24 := by
    cases s.tests.current with
    | none => decide
    | some t => exact t.entry.line.isLt
  obtain ⟨hqueue, hunder⟩ := queueWord_fields (present := (s.tests.entryAt p).isSome) (flying := s.tests.current.isSome)
    hlen hline rfl
  refine ⟨_, a3, a4, a5, a6, if p = 0 then (s.tests.current.map inFlightWord).getD 0 else 0,
    State.immediate_leaves (act := actReadTestQueue) h rfl ?_, hqueue, fun hc => ?_, fun t hc => ?_, fun he => ?_, hpresent,
    fun hp => if_neg hp, fun t hp hc => ?_⟩
  · rw [actReadTestQueue, hpos, if_neg (Nat.not_le.2 (Nat.lt_succ_of_le hp)), testQueueWords_eq]
    exact congrArg (fun l : List Word16 => (⟨_, .ok, _ :: l ++ _⟩ : Answered)) hwords
  · exact BitVec.eq_of_toNat_eq (hunder.trans (by rw [hc]; rfl))
  · exact hunder.trans (by rw [hc]; rfl)
  · obtain ⟨h3, h4, h5, h6⟩ := habsent he
    refine ⟨h3, h4, h5, h6, ?_⟩
    split
    · next hp =>
      have hc : s.tests.current = none := by simpa [Tests.entryAt, hp] using he
      rw [hc]
      rfl
    · rfl
  · rw [if_pos hp, hc]
    exact inFlightWord_fields t

end Sys2Proof.Machine
end

