-- ==== Sys2Proof/Proofs/TestRequests.lean ====
section
/-! REQUEST TEST and CANCEL TEST (R119, R120, R125). -/

namespace Sys2Proof.Machine

section

variable {s : State} {n : LineNo}

theorem State.queued_iff : s.queued n = true ↔ ∃ e ∈ s.tests.queue, e.line = n := by
  simp [State.queued]

theorem State.queued_eq_false_iff : s.queued n = false ↔ ∀ e ∈ s.tests.queue, e.line ≠ n := by
  simp [State.queued]

theorem State.underTest_iff : s.underTest n = true ↔ ∃ r, (s.line n).state = .underTest r := by
  rw [State.underTest_eq]
  cases (s.line n).state <;> simp [LineState.isTested]

/-! ### CANCEL TEST (R120) -/

theorem Stage.holdsPair_iff (g : Stage) : g.holdsPair = true ↔ g ≠ .disconnect ∧ g ≠ .evaluate := by
  cases g <;> simp [Stage.holdsPair]

theorem State.cancelTest_of_queued (h : s.queued n = true) :
    s.cancelTest n = (s.withTests { s.tests with queue := s.tests.queue.filter fun e => e.line != n }, .ok) := if_pos h

/-- The line of the test in flight: the test is aborted while it holds the pair (R120). -/
theorem State.cancelTest_of_current {x : Test} (h : s.queued n = false) (hx : s.tests.current = some x)
    (hn : x.entry.line = n) :
    s.cancelTest n = if x.stage.holdsPair then (s.aborted x .host, .ok) else (s, .wrongState) := by
  simp [State.cancelTest, h, hx, hn, State.abort_eq_aborted hx]

theorem State.cancelTest_of_unknown (h : s.queued n = false) (hx : ∀ x, s.tests.current = some x → x.entry.line ≠ n) :
    s.cancelTest n = (s, .unknown) := by
  cases hc : s.tests.current with
  | none => simp [State.cancelTest, h, hc]
  | some x => simp [State.cancelTest, h, hc, hx x hc]

/-- A cancellation answers its result, and the port does not matter to it. -/
theorem cancelTest_leaves {f : Frame} {w : Word16} {u : State} {r : ResultCode} (h : s.Accepts f 1) (hargs : f.args = [w])
    (hn : (w.extractLsb' 0 5).toNat = n.val) (hc : ∀ p, (s.withPort p).cancelTest n = (u.withPort p, r)) :
    s.Leaves (.cancelTest f) u (.ready [echoed 0x13 r]) := by
  refine State.immediate_leaves (act := actCancelTest) h rfl ?_
  have cancelled : s.endCommand.cancelTest n = (u.withPort s.endCommand.port, r) := hc _
  rw [actCancelTest, lineNoOf_argLine hargs hn]
  simp only [cancelled]
  rfl

end

/-- Settles O36: by the queue, then by the line and the stage of the test in flight. -/
theorem cancelTestRemovesOrAborts : Obligations.CancelTestRemovesOrAborts := by
  unfold Obligations.CancelTestRemovesOrAborts
  intro s f w hargs h
  refine ⟨fun hn => State.immediate_leaves (act := actCancelTest) h rfl ?_, fun n hn => ⟨fun hq => ?_, fun hq => ⟨fun x hx hl =>
    ⟨fun hd he => ?_, fun hstage => ?_⟩, fun hx => ?_⟩, fun x hon => ?_⟩⟩
  · rw [actCancelTest, lineNoOf_argLine_none hargs hn]
    rfl
  · exact cancelTest_leaves h hargs hn fun p => State.cancelTest_of_queued (s := s.withPort p) (State.queued_iff.2 hq)
  · exact cancelTest_leaves h hargs hn fun p =>
      (State.cancelTest_of_current (s := s.withPort p) (State.queued_eq_false_iff.2 hq) hx hl).trans
        (if_pos (x.stage.holdsPair_iff.2 ⟨hd, he⟩))
  · exact cancelTest_leaves h hargs hn fun p =>
      (State.cancelTest_of_current (s := s.withPort p) (State.queued_eq_false_iff.2 hq) hx hl).trans
        (if_neg fun hp => by obtain ⟨hd, he⟩ := x.stage.holdsPair_iff.1 hp; exact hstage.elim hd he)
  · exact cancelTest_leaves h hargs hn fun p =>
      State.cancelTest_of_unknown (s := s.withPort p) (State.queued_eq_false_iff.2 hq) hx
  · have kept : s.LadderKept (s.aborted x .host) := ⟨rfl, rfl, rfl, rfl⟩
    exact kept.load_unpowered (fun _ => rfl) hon rfl

/-! ### REQUEST TEST (R119) -/

theorem clampNat_eq_ite {lo hi : Nat} (h : lo ≤ hi) (v : Nat) :
    clampNat lo hi v = if v < lo then lo else if hi < v then hi else v := by
  unfold clampNat
  split
  · omega
  split <;> omega

section

variable {s : State} {n : LineNo} {args : List Word16}

/-- An entry joins the tail of the queue (R119). -/
def State.joined (s : State) (e : TestEntry) : State := s.withTests { s.tests with queue := s.tests.queue ++ [e] }

/-- After the retry the entry is the test in flight where no entry waits, and else the last that waits (R119, R121). -/
theorem State.joined_retry (s : State) (e : TestEntry) :
    ((s.joined e).dispatchRetry.tests.queue = [] → (s.joined e).dispatchRetry.tests.current.map Test.entry = some e)
      ∧ ((s.joined e).dispatchRetry.tests.queue ≠ [] → (s.joined e).dispatchRetry.tests.queue.getLast? = some e)
      ∧ (s.joined e).dispatchRetry.tests.queue.length ≤ s.tests.queue.length + 1 := by
  have tail : (s.joined e).tests.queue.getLast? = some e := List.getLast?_concat
  have count : (s.joined e).tests.queue.length = s.tests.queue.length + 1 := List.length_append
  obtain stays | ⟨head, rest, hq, -, hd⟩ := (s.joined e).dispatchRetry_cases
  · rw [stays]
    exact ⟨fun hnil => by simp [hnil] at tail, fun _ => tail, count.le⟩
  · have htests : ((s.joined e).dispatch head rest).tests = ⟨rest, some (dispatchedTest head)⟩ :=
      congrArg Board.tests ((s.joined e).dispatch_board head rest)
    rw [hd, htests]
    rw [hq] at tail count
    refine ⟨fun hnil => ?_, fun hne => ?_, ?_⟩
    · obtain rfl : rest = [] := hnil
      exact tail
    · obtain ⟨e', rest', rfl⟩ := List.exists_cons_of_ne_nil hne
      exact tail
    · exact (Nat.le_succ _).trans count.le

theorem actRequestTest_of_badLine (h : lineNoOf (argLine args) = none) : actRequestTest args s = s.refuse .badArgument := by
  rw [actRequestTest, h]

theorem actRequestTest_of_nothing_asked (h : argItems args = 0 ∧ argToneFlag args = false) :
    actRequestTest args s = s.refuse .badArgument := by
  unfold actRequestTest
  split
  · rfl
  · exact if_pos h

theorem actRequestTest_of_asked (hn : lineNoOf (argLine args) = some n)
    (h : argItems args ≠ 0 ∨ argToneFlag args = true) : actRequestTest args s =
      if s.queued n || s.underTest n then s.refuse .duplicate
      else if 8 ≤ s.tests.queue.length then s.refuse .queueFull
      else ⟨(s.joined (requestedEntry args n)).dispatchRetry, .ok,
        w16 (s.joined (requestedEntry args n)).dispatchRetry.tests.queue.length :: toneWords (requestedEntry args n).tone⟩ := by
  have asked : ¬ (argItems args = 0 ∧ argToneFlag args = false) := by
    rwa [not_and_or, Bool.not_eq_false]
  rw [actRequestTest, hn]
  exact if_neg asked

end

/-- The tone words that a request answers: the values kept, or 0000h where the tone flag is clear (R119). -/
theorem toneWords_of_flag (b : Bool) {v : ToneVals} (hr : v.reload ≤ 4999) (hn : v.on ≤ 50) (hf : v.off ≤ 50)
    (hd : v.duration ≤ 600) : ∃ a3 a4 a5 : Word16, toneWords (if b then some v else none) = [a3, a4, a5]
      ∧ (b = false → a3 = 0 ∧ a4 = 0 ∧ a5 = 0)
      ∧ (b = true → a3.toNat = v.reload ∧ (a4.extractLsb' 8 8).toNat = v.on ∧ (a4.extractLsb' 0 8).toNat = v.off
        ∧ a5.toNat = v.duration) := by
  cases b with
  | false => exact ⟨0, 0, 0, rfl, fun _ => ⟨rfl, rfl, rfl⟩, fun h => absurd h Bool.false_ne_true⟩
  | true => exact ⟨_, _, _, rfl, fun h => absurd h.symm Bool.false_ne_true, fun _ => toneWords_fields hr hn hf hd⟩

/-- The tone values of a request lie within their ranges (R113). -/
theorem argTone_le (args : List Word16) : (argTone args).reload ≤ 4999 ∧ (argTone args).on ≤ 50 ∧ (argTone args).off ≤ 50
    ∧ (argTone args).duration ≤ 600 :=
  ⟨(clampNat_mem (by decide)).2, (clampNat_mem (by decide)).2, (clampNat_mem (by decide)).2, (clampNat_mem (by decide)).2⟩

/-- Settles O35: the refusals in their order, then the entry joined and the retry. -/
theorem requestTestQueuesAndRetries : Obligations.RequestTestQueuesAndRetries := by
  unfold Obligations.RequestTestQueuesAndRetries
  intro s f w1 w2 w3 w4 hargs h k items asked refused
  have hk : argLine f.args = k := by rw [hargs]; rfl
  have hitems : argItems f.args = items := by rw [hargs]; rfl
  have hasked : argToneFlag f.args = asked := by rw [hargs]; rfl
  refine ⟨fun hbad => State.immediate_leaves (act := actRequestTest) h rfl ?_, fun n hn hask => ?_⟩
  · obtain hline | hnone := hbad
    · exact actRequestTest_of_badLine (by rw [hk, lineNoOf, dif_neg (Nat.not_lt.2 hline)])
    · exact actRequestTest_of_nothing_asked (by rwa [hitems, hasked])
  intro taken
  have hact := actRequestTest_of_asked (s := s.endCommand) (hk ▸ hn ▸ lineNoOf_val n) (by rwa [hitems, hasked])
  have htaken : (s.endCommand.queued n || s.endCommand.underTest n) = true ↔ taken := by
    rw [Bool.or_eq_true]
    exact or_congr State.queued_iff State.underTest_iff
  refine ⟨fun ht => State.immediate_leaves (act := actRequestTest) h rfl ?_,
    fun ht hfull => State.immediate_leaves (act := actRequestTest) h rfl ?_, fun ht hroom => ?_⟩
  · rw [hact, if_pos (htaken.2 ht)]
    rfl
  · rw [hact, if_neg (mt htaken.1 ht)]
    exact if_pos hfull
  intro clamp v e t
  have htone : argTone f.args = v := by
    rw [argTone, clampNat_eq_ite (by decide), clampNat_eq_ite (by decide), clampNat_eq_ite (by decide),
      clampNat_eq_ite (by decide), hargs]
    rfl
  have hentry : requestedEntry f.args n = e := by
    rw [requestedEntry, htone, hitems, hasked, hargs]
    rfl
  obtain ⟨hreload, hon, hoff, hduration⟩ := htone ▸ argTone_le f.args
  obtain ⟨a3, a4, a5, hwords, hclear, hset⟩ := toneWords_of_flag asked hreload hon hoff hduration
  obtain ⟨hdispatched, hqueued, hlen⟩ := s.joined_retry e
  have retried : (s.endCommand.joined e).dispatchRetry = t.withPort s.endCommand.port :=
    (s.joined e).dispatchRetry_withPort _
  refine ⟨w16 t.tests.queue.length, a3, a4, a5, State.immediate_leaves (act := actRequestTest) h rfl ?_,
    w16_toNat (hlen.trans_lt (by omega)), hdispatched, hqueued, hclear, hset⟩
  have hroom : ¬ 8 ≤ s.endCommand.tests.queue.length := Nat.not_le.2 hroom
  rw [hact, if_neg (mt htaken.1 ht), if_neg hroom, hentry, retried]
  exact congrArg (fun l => (⟨_, .ok, _ :: l⟩ : Answered)) hwords

end Sys2Proof.Machine
end

