-- ==== Sys2Proof/Proofs/TestCompletion.lean ====
section
/-! The test completion and the minute tick (R130 to R133). -/

namespace Sys2Proof.Machine

/-! ### Table 54 -/

theorem Test.holdsLine_iff (x : Test) (v : Evaluation) :
    x.holdsLine v = true ↔ v.verdict = .faulty ∧ x.entry.autoHold = true := by
  simp [Test.holdsLine]

theorem RestState.lit_iff (r : RestState) : r.lit = true ↔ r = .suspended ∨ r = .inService := by
  cases r <;> simp [RestState.lit]

theorem stateAfterTest_eq (holds : Bool) (verdict : TestVerdict) (ret : RestState) : stateAfterTest holds verdict ret =
    if holds = true then .faulted
    else if ret = .faulted then (if verdict = .good ∨ verdict = .marginal then .dark else .faulted)
    else ret := by
  cases ret <;> rfl

theorem shedAfterTest_eq (holds : Bool) (ret : RestState) (shed : Option PreShed) : shedAfterTest holds ret shed =
    if ¬ holds = true ∧ ret = .dark then shed else none := by
  cases holds <;> simp [shedAfterTest]

/-- A lit line is FAULTED after its test exactly where the verdict holds it (R132). -/
theorem stateAfterTest_drops_iff {holds : Bool} {verdict : TestVerdict} {ret : RestState} :
    (ret.lit = true ∧ stateAfterTest holds verdict ret = .faulted) ↔ (ret.lit = true ∧ holds = true) := by
  refine and_congr_right fun hlit => ⟨fun h => ?_, fun h => ?_⟩
  · have := stateAfterTest_lit holds verdict ret
    rw [h, hlit] at this
    simpa [RestState.lit] using this.symm
  · rw [stateAfterTest_eq, if_pos h]

/-! ### The line leaves its test (R133 step 2) -/

section

variable {s : State} {n : LineNo} {ret new : RestState} {p : Option PreShed}

/-- The new state with its hand-ons while the test is still in flight: the retry that goes with a new image dispatches
nothing. -/
theorem State.leaveTest_eq (h : s.tests.current ≠ none) : s.leaveTest n ret new p =
    if new = .inService then (s.setLineState n (.rest new) p).enterService n
    else if ret.lit = true ∧ new = .faulted then (s.setLineState n (.rest new) p).commandPower
    else s.setLineState n (.rest new) p := by
  have stays : (s.setLineState n (.rest new) p).leftLit = (s.setLineState n (.rest new) p).commandPower :=
    State.dispatchRetry_of_noDispatch (.inl h)
  rw [State.leaveTest, stays]

end

/-! ### The test completion (R133) -/

/-- The events of a completed test: TEST_DONE, and LINE_FAULTED where the verdict holds the line (R133). -/
def State.told (s : State) (holds : Bool) : State :=
  s.withEvents { s.events with pending := s.events.pending ||| if holds then 0x003 else 0x001 }

theorem State.raise_told (s : State) (holds : Bool) :
    (if holds then (s.raise .testDone).raise .lineFaulted else s.raise .testDone) = s.told holds := by
  have both : Event.testDone.bit ||| Event.lineFaulted.bit = 0x003 := by decide
  have one : Event.testDone.bit = 0x001 := by decide
  cases holds with
  | false => rw [State.told, ← one]; rfl
  | true => rw [State.told, ← both, if_pos rfl, if_pos rfl, ← BitVec.or_assoc]; rfl

/-- The line record that a completed test leaves: the condition record written, the new state and mark by Table 54 (R130,
R132). -/
def Test.leavesLine (x : Test) (v : Evaluation) (ret : RestState) (l : Line) : Line := { l with
  state := .rest (stateAfterTest (x.holdsLine v) v.verdict ret)
  shed := shedAfterTest (x.holdsLine v) ret l.shed
  condition := some (x.condition v) }

/-- The line's record as the test leaves it, before any hand-on. -/
def State.tested (s : State) (x : Test) (v : Evaluation) (ret : RestState) : State :=
  s.setLine x.entry.line (x.leavesLine v ret (s.line x.entry.line))

/-- The line with its hand-ons: an entry into IN_SERVICE, or a new image where the verdict takes it from the lit set (R133
step 2). -/
def State.handedOn (s : State) (x : Test) (v : Evaluation) (ret : RestState) : State :=
  if stateAfterTest (x.holdsLine v) v.verdict ret = .inService then (s.tested x v ret).enterService x.entry.line
  else if ret.lit = true ∧ x.holdsLine v = true then (s.tested x v ret).commandPower
  else s.tested x v ret

/-- The state that a test completion leaves but for the retry (R133). -/
def State.testDone (s : State) (x : Test) (v : Evaluation) (ret : RestState) : State :=
  (s.handedOn x v ret).withoutTest.told (x.holdsLine v)

section

variable {s : State} {x : Test} {v : Evaluation} {ret : RestState}

theorem State.completeTest_eq (hx : s.tests.current = some x) (hret : (s.line x.entry.line).state = .underTest ret) :
    s.completeTest x v = (s.testDone x v ret).dispatchRetry := by
  have once : (s.setLine x.entry.line { s.line x.entry.line with condition := some (x.condition v) }).setLineState
      x.entry.line (.rest (stateAfterTest (x.holdsLine v) v.verdict ret))
      (shedAfterTest (x.holdsLine v) ret (s.line x.entry.line).shed) = s.tested x v ret := by
    rw [State.setLineState, State.setLine_line, if_pos rfl]
    simp only [State.setLine, State.withLines, Vector.set_set]
    rfl
  have left := State.leaveTest_eq (n := x.entry.line) (ret := ret) (new := stateAfterTest (x.holdsLine v) v.verdict ret)
    (p := shedAfterTest (x.holdsLine v) ret (s.line x.entry.line).shed)
    (s := s.setLine x.entry.line { s.line x.entry.line with condition := some (x.condition v) }) (by simp [hx])
  simp only [once, stateAfterTest_drops_iff] at left
  have hsaved : (s.line x.entry.line).state.saved = ret := by rw [hret]; rfl
  unfold State.completeTest
  simp only [hsaved, left, State.raise_told]
  rfl

theorem exec_testCompletion_of_evaluated (hs : s.hold = none) (hx : s.tests.current = some x)
    (hv : x.evaluation = some v) (hret : (s.line x.entry.line).state = .underTest ret) :
    exec .testCompletion s = .next (s.testDone x v ret).dispatchRetry := by
  rw [← State.completeTest_eq hx hret]
  simp only [exec, execTestCompletion, exec_of_not_held hs, hx, hv]

/-- What a completion changes beside the record table and the sums. -/
theorem State.testDone_frame : s.testDone x v ret = { s with
    slots := (s.testDone x v ret).slots
    meter := (s.testDone x v ret).meter
    lines := s.lines.set x.entry.line (x.leavesLine v ret (s.line x.entry.line))
    power := if ret.lit = true ∧ x.holdsLine v = true then s.power.command (s.testDone x v ret).litSet else s.power
    tests := { s.tests with current := none }
    events := { s.events with pending := s.events.pending ||| if x.holdsLine v then 0x003 else 0x001 } } := by
  unfold State.testDone State.handedOn
  split
  · next e =>
    have stays : ¬ (ret.lit = true ∧ x.holdsLine v = true) := fun h => by
      rw [stateAfterTest_eq, if_pos h.2] at e
      exact absurd e (by decide)
    have moved : (s.tested x v ret).enterService x.entry.line = _ := foldl_moveIn_frame _ _
    rw [moved, if_neg stays]
    rfl
  · split <;> rfl

theorem State.testDone_keeps_records (h : stateAfterTest (x.holdsLine v) v.verdict ret ≠ .inService) :
    (s.testDone x v ret).slots = s.slots ∧ (s.testDone x v ret).meter = s.meter := by
  unfold State.testDone State.handedOn
  rw [if_neg h]
  split <;> exact ⟨rfl, rfl⟩

theorem State.testDone_enters (h : stateAfterTest (x.holdsLine v) v.verdict ret = .inService)
    (hn : (s.line x.entry.line).attached.Nodup) : s.EntersService (s.testDone x v ret) x.entry.line := by
  unfold State.testDone State.handedOn
  rw [if_pos h]
  exact s.setLine_enters rfl hn

theorem State.testDone_kept : s.LadderKept (s.testDone x v ret) := by
  rw [State.testDone_frame]
  refine ⟨rfl, rfl, rfl, ?_⟩
  dsimp only
  split
  · exact Chain.command_latched _ _
  · rfl

/-- A completed test leaves its line unlit where the verdict holds it, and lit as it was elsewhere. -/
theorem State.testDone_lit (hret : (s.line x.entry.line).state = .underTest ret) (m : LineNo) :
    (s.testDone x v ret).lit m = (s.lit m && !(x.holdsLine v && m == x.entry.line)) := by
  have written : (s.testDone x v ret).line m = (s.tested x v ret).line m := by rw [State.testDone_frame]; rfl
  rw [State.lit, written, State.tested, State.setLine_line]
  split
  · next e =>
    subst e
    have hlit : s.lit x.entry.line = ret.lit := by rw [State.lit, hret]; rfl
    rw [hlit, beq_self_eq_true, Bool.and_true]
    exact stateAfterTest_lit _ _ _
  · next hne =>
    rw [beq_eq_false_iff_ne.2 (Ne.symm hne), Bool.and_false, Bool.not_false, Bool.and_true]
    rfl

/-- A line that is unlit already, or not held, leaves the lit set as it is. -/
theorem State.testDone_litSet (hret : (s.line x.entry.line).state = .underTest ret)
    (h : ¬ (ret.lit = true ∧ x.holdsLine v = true)) : (s.testDone x v ret).litSet = s.litSet := by
  refine litSet_congr fun m => ?_
  rw [State.testDone_lit hret]
  by_cases hm : x.holdsLine v = true ∧ m = x.entry.line
  · obtain ⟨hheld, rfl⟩ := hm
    have hunlit : s.lit x.entry.line = false := by
      rw [State.lit, hret]
      exact Bool.eq_false_iff.2 fun hlit => h ⟨hlit, hheld⟩
    rw [hunlit, Bool.false_and]
  · have other : (x.holdsLine v && m == x.entry.line) = false := by simpa using hm
    rw [other, Bool.not_false, Bool.and_true]

end

/-! ### The minute tick (R131) -/

theorem exec_minuteTickExpiry {s : State} (hs : s.hold = none) : exec .minuteTickExpiry s =
    .next (s.withLines (s.lines.map fun l => { l with condition := l.condition.map Condition.older })) := by
  simp only [exec, execMinuteTickExpiry, exec_of_not_held hs]

theorem Condition.older_eq (c : Condition) : c.older = { c with age := if c.age < 65535 then c.age + 1 else 65535 } := by
  have count : countUp16 c.age = if c.age < 65535 then c.age + 1 else 65535 := by
    unfold countUp16
    split <;> omega
  rw [Condition.older, count]

/-- Settles O41: a completion is `State.testDone` and a retry. -/
theorem testCompletionWritesConditionAndState : Obligations.TestCompletionWritesConditionAndState := by
  unfold Obligations.TestCompletionWritesConditionAndState
  refine ⟨fun s x v ret hs hx hv hret => ?_, fun s hs => ⟨_, exec_minuteTickExpiry hs, rfl, fun n => ?_⟩⟩
  · intro n l holds new dropped
    have hholds : x.holdsLine v = true ↔ holds := x.holdsLine_iff v
    have hnew : stateAfterTest (x.holdsLine v) v.verdict ret = new := by
      simp only [stateAfterTest_eq, hholds, new]
    have hdropped : (ret.lit = true ∧ x.holdsLine v = true) ↔ dropped := and_congr ret.lit_iff hholds
    refine ⟨s.testDone x v ret, exec_testCompletion_of_evaluated hs hx hv hret, ?_, fun hin => ?_, fun hin => ?_,
      fun hstays => ?_, fun hdrops => ?_⟩
    · refine State.testDone_frame.trans ?_
      simp only [Test.leavesLine, hnew, shedAfterTest_eq, RestState.lit_iff, hholds]
      rfl
    · exact State.testDone_enters (hnew.trans hin)
    · exact State.testDone_keeps_records (hnew ▸ hin)
    · exact State.testDone_litSet hret (mt hdropped.1 hstays)
    · obtain ⟨hlit, hheld⟩ := hdropped.2 hdrops
      have hn : s.lit n = true := by rw [State.lit, hret]; exact hlit
      refine State.testDone_kept.load_unlit hn (fun m => ?_) (by rw [State.testDone_frame])
      rw [State.testDone_lit hret, hheld]
      rfl
  · rw [← funext Condition.older_eq]
    simp only [State.line, State.withLines, Fin.getElem_fin, Vector.getElem_map]

end Sys2Proof.Machine
end

section
/-! The one-second tick and the threshold search of a sample (R136, R137, Table 57). -/

namespace Sys2Proof.Machine

/-- Three commands one after another. -/
theorem State.runs_three {s t u w : State} {a b c : Instr} (ha : exec a s = .next t) (hb : exec b t = .next u)
    (hc : exec c u = .next w) : s.runs [a, b, c] = .next w := by
  rw [State.runs_cons ha, State.runs_cons hb, State.runs_cons hc]
  rfl

section

variable {s : State} (hs : s.hold = none)

include hs

/-! ### The sampler's events where they are due (R136 to R138) -/

/-- The tick counts, or begins a sample (R136). -/
theorem exec_oneSecondTickExpiry : exec .oneSecondTickExpiry s
    = .next (if s.settings.samplePeriod ≤ s.ladder.count + 1 then
        (s.withLadder { s.ladder with count := 0 }).beginSample
      else s.withLadder { s.ladder with count := s.ladder.count + 1 }) :=
  congrArg Host.Outcome.next (exec_of_not_held hs)

/-- The result of COMPARE_1 (R137). -/
theorem exec_comparison_of_compare1 {code : Nat} (hc : s.ladder.sampler = .compare1 code) (v : Nat) :
    exec (.comparisonSettleExpiry v) s = .next (s.withLadder { s.ladder with
      sampler := .compare2 (senseAbove v code) (s.settings.threshold (secondThreshold (senseAbove v code))) }) := by
  refine congrArg Host.Outcome.next ((exec_of_not_held hs).trans ?_)
  simp only [hc]

/-- The result of COMPARE_2 (R137). -/
theorem exec_comparison_of_compare2 {b2 : Bool} {code : Nat} (hc : s.ladder.sampler = .compare2 b2 code) (v : Nat) :
    exec (.comparisonSettleExpiry v) s = .next (s.withLadder { s.ladder with
      sampler := .compare3 b2 (senseAbove v code)
        (s.settings.threshold (thirdThreshold b2 (senseAbove v code))) }) := by
  refine congrArg Host.Outcome.next ((exec_of_not_held hs).trans ?_)
  simp only [hc]

/-- The result of COMPARE_3 ends the sample (R138). -/
theorem exec_sampleEnd {b2 b1 : Bool} {code : Nat} (hc : s.ladder.sampler = .compare3 b2 b1 code) (v : Nat)
    (mains : Bool) :
    exec (.sampleEnd v mains) s = .next (s.endSample (bandOf b2 b1 (senseAbove v code)) mains) := by
  refine congrArg Host.Outcome.next ((exec_of_not_held hs).trans ?_)
  simp only [hc]

end

/-! ### The band that a sample end keeps (R138) -/

theorem State.levelRise_ladder (s : State) (l : Level) : (s.levelRise l).ladder = (s.atLevel l).ladder := by
  have level : (s.unpowered.atLevel l).ladder = (s.atLevel l).ladder := by
    simp only [State.atLevel, State.withLadder_ladder, s.unpowered_kept.ladder]
  have sheds := State.LadderKept.foldl State.riseShed_kept (List.finRange 24) (s.unpowered.atLevel l)
  rw [State.levelRise_eq]
  generalize (List.finRange 24).foldl State.riseShed (s.unpowered.atLevel l) = u at sheds ⊢
  calc ((u.overloadCheck.raise .levelChanged).dispatchRetry).ladder
      = (u.overloadCheck.raise .levelChanged).ladder := (State.dispatchRetry_kept _).ladder
    _ = u.ladder := u.overloadCheck_kept.ladder
    _ = (s.atLevel l).ladder := sheds.ladder.trans level

theorem State.levelFall_ladder (s : State) (l : Level) : (s.levelFall l).ladder = (s.atLevel l).ladder :=
  (State.dispatchRetry_kept _).ladder.trans
    ((State.relightPass_kept _).ladder.trans (State.overloadCheck_kept _).ladder)

theorem State.levelRise_band (s : State) (l : Level) : (s.levelRise l).ladder.band = s.ladder.band := by
  rw [State.levelRise_ladder]
  rfl

theorem State.levelFall_band (s : State) (l : Level) : (s.levelFall l).ladder.band = s.ladder.band := by
  rw [State.levelFall_ladder]
  rfl

theorem State.relightPass_band (s : State) : s.relightPass.ladder.band = s.ladder.band := by
  rw [s.relightPass_kept.ladder]

theorem State.hysteresis_band (s : State) (l : Level) : (s.hysteresis l).ladder.band = s.ladder.band := by
  unfold State.hysteresis
  dsimp only
  split
  · split
    · exact s.levelRise_band l
    · exact State.relightPass_band _
  split
  · split
    · exact s.levelFall_band l
    · exact State.relightPass_band _
  · exact State.relightPass_band _

theorem State.initialSample_band (s : State) (l : Level) : (s.initialSample l).ladder.band = s.ladder.band := by
  unfold State.initialSample
  split
  · exact s.levelFall_band l
  · exact s.relightPass_band

theorem State.endSample_band (s : State) (band : Fin 8) (mains : Bool) :
    (s.endSample band mains).ladder.band = band := by
  rw [State.endSample_eq]
  split
  · exact State.hysteresis_band _ _
  · exact State.initialSample_band _ _

/-! ### The search of ascending thresholds (R137) -/

/-- Where the thresholds that a voltage exceeds are the lower ones, the three comparisons find their number. -/
theorem bandOf_search {above : Fin 7 → Bool} (h : ∀ j k : Fin 7, j ≤ k → above k = true → above j = true) :
    (bandOf (above 3) (above (secondThreshold (above 3)))
        (above (thirdThreshold (above 3) (above (secondThreshold (above 3)))))).val
      = (List.finRange 7).countP above := by
  have count : (List.finRange 7).countP above = (above 0).toNat + (above 1).toNat + (above 2).toNat + (above 3).toNat
      + (above 4).toNat + (above 5).toNat + (above 6).toNat := by
    simp [List.finRange_succ, List.countP_cons, Bool.toNat, Bool.cond_eq_ite]
    omega
  have down : ∀ j k : Fin 7, j ≤ k → (above k).toNat ≤ (above j).toNat := fun j k hjk =>
    Bool.toNat_le_toNat (h j k hjk)
  have h01 := down 0 1 (by decide)
  have h12 := down 1 2 (by decide)
  have h23 := down 2 3 (by decide)
  have h34 := down 3 4 (by decide)
  have h45 := down 4 5 (by decide)
  have h56 := down 5 6 (by decide)
  have top := Bool.toNat_le (above 0)
  rw [count]
  cases h3 : above 3 with
  | false =>
    cases h1 : above 1 <;>
      simp only [bandOf, secondThreshold, thirdThreshold, h3, h1, Bool.toNat_false, Bool.toNat_true, if_false,
        Bool.false_eq_true] at h01 h12 h23 h34 ⊢ <;> omega
  | true =>
    cases h5 : above 5 <;>
      simp only [bandOf, secondThreshold, thirdThreshold, h3, h5, Bool.toNat_false, Bool.toNat_true, if_true]
        at h23 h34 h45 h56 ⊢ <;> omega

/-- Settles O42: a sample's three comparisons with a steady voltage are a search of the thresholds that it exceeds. -/
theorem threeComparisonsFindTheBand : Obligations.ThreeComparisonsFindTheBand := by
  unfold Obligations.ThreeComparisonsFindTheBand
  refine ⟨fun s hs => ⟨fun h => ?_, fun h => ?_⟩, fun s code v hs hc => ?_, fun s b2 code v hs hc => ?_,
    fun s b2 b1 mains code v hs hc => ⟨_, exec_sampleEnd hs hc v mains, ?_⟩, fun s v mains hs hc hasc => ?_⟩
  · rw [exec_oneSecondTickExpiry hs, if_neg (Nat.not_le.2 h)]
    rfl
  · rw [exec_oneSecondTickExpiry hs, if_pos h]
    rfl
  · rw [exec_comparison_of_compare1 hs hc, senseAbove]
    by_cases h : code * 25000 < v <;> simp only [h, decide_true, decide_false, if_true, if_false] <;> rfl
  · rw [exec_comparison_of_compare2 hs hc, senseAbove]
    by_cases h : code * 25000 < v <;> cases b2 <;> simp only [h, decide_true, decide_false, if_true, if_false] <;> rfl
  · rw [State.endSample_band, senseAbove]
    by_cases h : code * 25000 < v <;> cases b2 <;> cases b1 <;> simp [bandOf, h]
  · have lower : ∀ j k : Fin 7, j ≤ k → senseAbove v (s.settings.threshold k) = true →
        senseAbove v (s.settings.threshold j) = true := fun j k hjk hk =>
      decide_eq_true ((Nat.mul_le_mul_right 25000 (hasc j k hjk)).trans_lt (of_decide_eq_true hk))
    exact ⟨_, State.runs_three (exec_comparison_of_compare1 hs hc v) (exec_comparison_of_compare2 (by exact hs) rfl v)
      (exec_sampleEnd (by exact hs) rfl v mains),
      (congrArg Fin.val (State.endSample_band _ _ mains)).trans (bandOf_search lower)⟩

end Sys2Proof.Machine
end

section
/-! The sample end: the hysteresis of the level, and a level rise with its sheds (R138 to R140, R146, R147). -/

namespace Sys2Proof.Machine

/-! ### Records that leave service (R4) -/

/-- A record after its line's exit from IN_SERVICE: an ACTIVE record is STANDBY, any other is as it was (R4). -/
def Record.leftService (r : Record) : Record := if r.cov.state = .active then r.moveState .standby else r

theorem Record.leftService_of_active {r : Record} (h : r.cov.state = .active) : r.leftService = r.moveState .standby :=
  if_pos h

theorem Record.leftService_of_not_active {r : Record} (h : r.cov.state ≠ .active) : r.leftService = r := if_neg h

/-- A record that has left service does not leave it again. -/
theorem Record.leftService_leftService (r : Record) : r.leftService.leftService = r.leftService := by
  refine Record.leftService_of_not_active ?_
  by_cases h : r.cov.state = .active
  · rw [Record.leftService_of_active h]
    simp [Record.moveState]
  · rwa [Record.leftService_of_not_active h]

theorem State.moveOut_slot (s : State) (j i : Slot) :
    (s.moveOut j).slot i = if i = j then (s.slot i).leftService else s.slot i := by
  unfold State.moveOut
  by_cases h : (s.slot j).cov.state = .active
  · rw [if_pos h, State.exitActive_eq]
    refine (s.setSlot_slot j i _).trans ?_
    by_cases hij : j = i
    · subst hij
      rw [if_pos rfl, if_pos rfl, Record.leftService_of_active h]
    · rw [if_neg hij, if_neg (Ne.symm hij)]
  · rw [if_neg h]
    split
    · next e => rw [e, Record.leftService_of_not_active h]
    · rfl

/-- A walk out of service, over a list with or without repeats (R4). -/
theorem foldl_moveOut_slot (l : List Slot) (s : State) (i : Slot) :
    (l.foldl State.moveOut s).slot i = if i ∈ l then (s.slot i).leftService else s.slot i := by
  induction l generalizing s with
  | nil => rfl
  | cons j l ih =>
    rw [List.foldl_cons, ih, State.moveOut_slot]
    by_cases hj : i = j <;> by_cases hl : i ∈ l <;> simp [hj, hl, Record.leftService_leftService]

/-! ### The sheds of a rise (R146) -/

/-- A line that a rise to the current level sheds: lit, and of a shed class within the level (R146). -/
def State.risesOver (s : State) (n : LineNo) : Bool :=
  s.lit n && Decidable.decide (s.settings.shedClass[n] ≤ s.ladder.level.val)

/-- A record that a shed of line `n` in a rise reaches: one of its list, where the line is IN_SERVICE (R4). -/
def State.risesOut (s : State) (i : Slot) (n : LineNo) : Bool :=
  s.risesOver n && (s.line n).state == .rest .inService && (s.line n).attached.contains i

/-- `t` is `s` but for the lines, the records, the sums and the power chain, and for LINE_SHED where `shed`. -/
def State.ShedFrame (s t : State) (shed : Bool) : Prop :=
  ∃ slots meter lines power, t = { s with
    slots := slots
    meter := meter
    lines := lines
    power := power
    events := { s.events with pending := s.events.pending ||| (if shed then 0x008 else 0) } }

section

variable {s t u : State} {n : LineNo}

theorem State.risesOver_iff : s.risesOver n = true ↔ s.lit n = true ∧ s.settings.shedClass[n] ≤ s.ladder.level.val := by
  simp [State.risesOver]

theorem State.riseShed_of_risesOver (h : s.risesOver n = true) : s.riseShed n = s.shedLine n :=
  if_pos (State.risesOver_iff.1 h)

theorem State.riseShed_of_not_risesOver (h : s.risesOver n = false) : s.riseShed n = s :=
  if_neg (mt State.risesOver_iff.2 (by simp [h]))

theorem State.ShedFrame.refl (s : State) : s.ShedFrame s false :=
  ⟨s.slots, s.meter, s.lines, s.power, by simp⟩

theorem State.ShedFrame.trans {a b : Bool} (h : s.ShedFrame t a) (g : t.ShedFrame u b) : s.ShedFrame u (a || b) := by
  obtain ⟨_, _, _, _, rfl⟩ := h
  obtain ⟨slots, meter, lines, power, rfl⟩ := g
  refine ⟨slots, meter, lines, power, ?_⟩
  cases a <;> cases b <;> simp [BitVec.or_assoc]

/-- Above level 0 no dispatch can be made, and a shed of a rise is the line's, with its image and LINE_SHED (R142). -/
theorem State.riseShed_eq (hlevel : s.ladder.level ≠ 0) (h : s.risesOver n = true) :
    s.riseShed n = (s.darkenMarked n).commandPower.raise .lineShed := by
  rw [State.riseShed_of_risesOver h, State.shedLine_of_lit (State.risesOver_iff.1 h).1 (.inr (.inl hlevel))]

theorem State.riseShed_frame (hlevel : s.ladder.level ≠ 0) (n : LineNo) :
    s.ShedFrame (s.riseShed n) (s.risesOver n) := by
  cases h : s.risesOver n with
  | false => rw [State.riseShed_of_not_risesOver h]; exact .refl s
  | true =>
    have hbit : Event.lineShed.bit = 0x008 := by decide
    rw [State.riseShed_eq hlevel h, State.raise_eq, State.commandPower,
      State.darkenMarked_frame (State.risesOver_iff.1 h).1, hbit]
    exact ⟨_, _, _, _, rfl⟩

theorem State.riseShed_line (hlevel : s.ladder.level ≠ 0) (m : LineNo) :
    (s.riseShed n).line m = if n = m && s.risesOver m then (s.line m).shedOf else s.line m := by
  cases h : s.risesOver n with
  | false =>
    rw [State.riseShed_of_not_risesOver h]
    by_cases hm : n = m
    · simp [← hm, h]
    · simp [hm]
  | true =>
    have shed : (s.riseShed n).line m = if n = m then (s.line n).shedOf else s.line m := by
      rw [State.riseShed_eq hlevel h, State.darkenMarked_frame (State.risesOver_iff.1 h).1]
      exact s.setLine_line n m _
    rw [shed]
    by_cases hm : n = m
    · simp [← hm, h]
    · simp [hm]

theorem State.riseShed_slot (hlevel : s.ladder.level ≠ 0) (i : Slot) :
    (s.riseShed n).slot i = if s.risesOut i n then (s.slot i).leftService else s.slot i := by
  cases h : s.risesOver n with
  | false =>
    rw [State.riseShed_of_not_risesOver h]
    simp [State.risesOut, h]
  | true =>
    have shed : (s.riseShed n).slot i = (s.darkenMarked n).slot i := by rw [State.riseShed_eq hlevel h]; rfl
    rw [shed, State.darkenMarked_of_lit (State.risesOver_iff.1 h).1]
    by_cases hs : (s.line n).state = .rest .inService
    · rw [if_pos hs, State.leaveService, foldl_moveOut_slot]
      simp [State.risesOut, h, hs, Line.shedOf_attached]
    · rw [if_neg hs]
      simp [State.risesOut, hs]

end

/-- The sheds of a rise over a list of lines without repeats: the lines that the rise sheds, each as it stood before the
rise, with their records, and LINE_SHED where there is one. -/
theorem foldl_riseShed (l : List LineNo) (hl : l.Nodup) {s : State} (hlevel : s.ladder.level ≠ 0) :
    let t := l.foldl State.riseShed s
    (∀ m, t.line m = if l.contains m && s.risesOver m then (s.line m).shedOf else s.line m)
      ∧ (∀ i, t.slot i = if l.any (s.risesOut i) then (s.slot i).leftService else s.slot i)
      ∧ s.ShedFrame t (l.any s.risesOver) := by
  induction l generalizing s with
  | nil => exact ⟨fun _ => rfl, fun _ => rfl, .refl s⟩
  | cons n l ih =>
    obtain ⟨hn, hl⟩ := List.nodup_cons.1 hl
    have kept := s.riseShed_kept n
    have hline : ∀ m, n ≠ m → (s.riseShed n).line m = s.line m := fun m hm => by
      rw [State.riseShed_line hlevel]
      simp [hm]
    have hover : ∀ m, n ≠ m → (s.riseShed n).risesOver m = s.risesOver m := fun m hm => by
      simp only [State.risesOver, State.lit, hline m hm, kept.settings, kept.ladder]
    have hout : ∀ i m, n ≠ m → (s.riseShed n).risesOut i m = s.risesOut i m := fun i m hm => by
      simp only [State.risesOut, hover m hm, hline m hm]
    have later : ∀ {p q : LineNo → Bool}, (∀ m, n ≠ m → p m = q m) → l.any p = l.any q := fun h => by
      rw [Bool.eq_iff_iff, List.any_eq_true, List.any_eq_true]
      exact exists_congr fun m => and_congr_right fun hm => by rw [h m fun e => hn (e ▸ hm)]
    obtain ⟨lines, slots, frame⟩ := ih hl (s := s.riseShed n) (by rw [kept.ladder]; exact hlevel)
    simp only [List.foldl_cons]
    refine ⟨fun m => ?_, fun i => ?_, ?_⟩
    · rw [lines]
      by_cases hm : n = m
      · subst hm
        rw [State.riseShed_line hlevel]
        simp [hn]
      · rw [hline m hm, hover m hm]
        simp [Ne.symm hm]
    · rw [slots, later (hout i), State.riseShed_slot hlevel, List.any_cons]
      cases s.risesOut i n <;> cases l.any (s.risesOut i) <;> simp [Record.leftService_leftService]
    · rw [later hover] at frame
      rw [List.any_cons]
      exact (State.riseShed_frame hlevel n).trans frame

/-! ### A level rise (R146) -/

theorem State.unpowered_eq (s : State) : s.unpowered = { s with
    head := s.unpowered.head
    relay := s.unpowered.relay
    tests := s.unpowered.tests } := by
  unfold State.unpowered
  split
  · unfold State.abort
    split <;> rfl
  · rfl

theorem State.unpowered_of_powered {s : State} (h : s.head.headen = true) {x : Test} (hx : s.tests.current = some x) :
    s.unpowered = s.aborted x .power := (if_pos h).trans (State.abort_eq_aborted hx .power)

theorem State.unpowered_of_not_powered {s : State} (h : s.head.headen = false) : s.unpowered = s :=
  if_neg (by simp [h])

/-- `u` is `s` after the abort and the sheds of a rise to level `l`, and before its overload check (R146). -/
structure State.Rises (s u : State) (l : Level) : Prop where
  ladder : u.ladder = (s.atLevel l).ladder
  unpowered : s.head.headen = false → u.head = s.head ∧ u.tests = s.tests ∧ u.relay = s.relay
  aborted : s.head.headen = true → ∀ x, s.tests.current = some x →
    u.head = s.head.unpowered ∧ u.relay = s.relay.command 0 ∧ u.tests = (s.aborted x .power).tests
  line : ∀ n, u.line n = if s.lit n = true ∧ s.settings.shedClass[n] ≤ l.val then (s.line n).shedOf else s.line n
  slot : ∀ i, u.slot i = if ∃ n, (s.line n).state = .rest .inService ∧ s.settings.shedClass[n] ≤ l.val
    ∧ i ∈ s.movedOut n then (s.slot i).moveState .standby else s.slot i
  events : u.events = { s.events with pending := s.events.pending
    ||| (if ∃ n, s.lit n = true ∧ s.settings.shedClass[n] ≤ l.val then 0x008 else 0) }
  frame : u = { s with slots := u.slots, meter := u.meter, lines := u.lines, power := u.power, relay := u.relay
                       head := u.head, tests := u.tests, ladder := u.ladder, events := u.events }

section

variable (s : State) (l : Level)

theorem State.unpowered_atLevel_line (n : LineNo) : (s.unpowered.atLevel l).line n = s.line n := by
  rw [s.unpowered_eq]
  rfl

theorem State.unpowered_atLevel_slot (i : Slot) : (s.unpowered.atLevel l).slot i = s.slot i := by
  rw [s.unpowered_eq]
  rfl

theorem State.unpowered_atLevel_events : (s.unpowered.atLevel l).events = s.events := by
  rw [s.unpowered_eq]
  rfl

theorem State.risesOver_atLevel_iff (n : LineNo) :
    (s.unpowered.atLevel l).risesOver n = true ↔ s.lit n = true ∧ s.settings.shedClass[n] ≤ l.val := by
  rw [State.risesOver_iff, State.lit, s.unpowered_atLevel_line, s.unpowered_eq]
  rfl

theorem State.risesOut_atLevel_iff (i : Slot) (n : LineNo) : (s.unpowered.atLevel l).risesOut i n = true ↔
    (s.line n).state = .rest .inService ∧ s.settings.shedClass[n] ≤ l.val ∧ i ∈ (s.line n).attached := by
  have lit : (s.line n).state = .rest .inService → s.lit n = true := fun h => by rw [State.lit, h]; rfl
  simp only [State.risesOut, Bool.and_eq_true, State.risesOver_atLevel_iff, State.unpowered_atLevel_line, beq_iff_eq,
    List.contains_iff_mem]
  tauto

end

/-- A rise's sheds leave what R146 says, over any attached lists. -/
theorem State.rises_foldl_riseShed (s : State) {l : Level} (hl : l ≠ 0) :
    s.Rises ((List.finRange 24).foldl State.riseShed (s.unpowered.atLevel l)) l := by
  obtain ⟨lines, slots, frame⟩ := foldl_riseShed (List.finRange 24) (List.nodup_finRange 24)
    (s := s.unpowered.atLevel l) hl
  generalize (List.finRange 24).foldl State.riseShed (s.unpowered.atLevel l) = u at lines slots frame
  obtain ⟨a, b, c, d, hu⟩ := frame
  have powered : u.head = s.unpowered.head ∧ u.tests = s.unpowered.tests ∧ u.relay = s.unpowered.relay := by
    rw [hu]
    exact ⟨rfl, rfl, rfl⟩
  obtain ⟨hhead, htests, hrelay⟩ := powered
  refine ⟨?_, fun h => ?_, fun h x hx => ?_, fun n => ?_, fun i => ?_, ?_, ?_⟩
  · rw [hu, State.atLevel, State.atLevel, s.unpowered_kept.ladder]
    rfl
  · rw [hhead, htests, hrelay, State.unpowered_of_not_powered h]
    exact ⟨rfl, rfl, rfl⟩
  · rw [hhead, htests, hrelay, State.unpowered_of_powered h hx]
    exact ⟨rfl, rfl, rfl⟩
  · rw [lines, s.unpowered_atLevel_line]
    refine if_congr ?_ rfl rfl
    rw [← s.risesOver_atLevel_iff]
    simp
  · rw [slots, s.unpowered_atLevel_slot]
    by_cases active : (s.slot i).cov.state = .active
    · rw [Record.leftService_of_active active]
      refine if_congr ?_ rfl rfl
      simp [s.risesOut_atLevel_iff, State.movedOut, active]
    · rw [Record.leftService_of_not_active active, ite_self, if_neg]
      rintro ⟨n, -, -, hmoved⟩
      simp [State.movedOut, active] at hmoved
  · have shed : (List.finRange 24).any (s.unpowered.atLevel l).risesOver = true
        ↔ ∃ n, s.lit n = true ∧ s.settings.shedClass[n] ≤ l.val := by simp [s.risesOver_atLevel_iff]
    rw [hu, s.unpowered_atLevel_events]
    exact congrArg (fun p : EventSet => { s.events with pending := s.events.pending ||| p }) (if_congr shed rfl rfl)
  · rw [hu, State.atLevel, s.unpowered_eq]
    rfl

/-! ### The hysteresis (R138, R139) -/

section

variable {s : State} {target : Level}

/-- A sample at the level's own target clears both counters. -/
theorem State.hysteresis_of_eq (h : target = s.ladder.level) :
    s.hysteresis target = (s.withLadder { s.ladder with rise := 0, fall := 0 }).relightPass := by
  subst h
  unfold State.hysteresis
  dsimp only
  rw [if_neg (lt_irrefl _), if_neg (lt_irrefl _)]

/-- A sample below the level that the fall count outlasts is counted. -/
theorem State.hysteresis_of_falling (h : target < s.ladder.level) (hc : s.ladder.fall + 1 < s.settings.fallCount) :
    s.hysteresis target = (s.withLadder { s.ladder with fall := s.ladder.fall + 1, rise := 0 }).relightPass := by
  unfold State.hysteresis
  dsimp only
  rw [if_neg (lt_asymm h), if_pos h, if_neg (Nat.not_le.2 hc)]

theorem State.hysteresis_of_fallen (h : target < s.ladder.level) (hc : s.settings.fallCount ≤ s.ladder.fall + 1) :
    s.hysteresis target = s.levelFall target := by
  unfold State.hysteresis
  dsimp only
  rw [if_neg (lt_asymm h), if_pos h, if_pos hc]

/-- A sample above the level that the rise count outlasts is counted. -/
theorem State.hysteresis_of_rising (h : s.ladder.level < target) (hc : s.ladder.rise + 1 < s.settings.riseCount) :
    s.hysteresis target = (s.withLadder { s.ladder with rise := s.ladder.rise + 1, fall := 0 }).relightPass := by
  unfold State.hysteresis
  dsimp only
  rw [if_pos h, if_neg (Nat.not_le.2 hc)]

theorem State.hysteresis_of_risen (h : s.ladder.level < target) (hc : s.settings.riseCount ≤ s.ladder.rise + 1) :
    s.hysteresis target = s.levelRise target := by
  unfold State.hysteresis
  dsimp only
  rw [if_pos h, if_pos hc]

end

theorem State.raise_levelChanged (u : State) :
    u.raise .levelChanged = { u with events := { u.events with pending := u.events.pending ||| 0x004 } } := by
  have hbit : Event.levelChanged.bit = 0x004 := by decide
  rw [State.raise_eq, hbit]

/-- Settles O43: the seven cases are those of the initial sample and of the hysteresis, the last the rise whole. -/
theorem sampleEndFollowsTheTarget : Obligations.SampleEndFollowsTheTarget := by
  unfold Obligations.SampleEndFollowsTheTarget
  intro s b2 b1 mains code v hs hc band target after level told kept fell
  let u := s.sampled band mains
  have initial : s.ladder.sampled = false → exec (.sampleEnd v mains) s = .next (u.initialSample target) := fun h =>
    (exec_sampleEnd hs hc v mains).trans (by rw [State.endSample_eq, h]; rfl)
  have later : s.ladder.sampled = true → exec (.sampleEnd v mains) s = .next (u.hysteresis target) := fun h =>
    (exec_sampleEnd hs hc v mains).trans (by rw [State.endSample_eq, h]; rfl)
  have counted : ∀ rise fall, u.withLadder { u.ladder with rise := rise, fall := fall } = after level rise fall :=
    fun _ _ => rfl
  have falls : u.levelFall target = (told (after target 0 0).overloadCheck.relightPass).dispatchRetry := by
    rw [State.levelFall, State.raise_levelChanged]
    rfl
  refine ⟨fun h0 ht => (initial h0).trans ?_, fun h0 ht => (initial h0).trans ?_, fun h1 ht => (later h1).trans ?_,
    fun h1 ht hcount => (later h1).trans ?_, fun h1 ht hcount => (later h1).trans ?_,
    fun h1 ht hcount => (later h1).trans ?_, fun h1 ht hcount => ?_⟩
  · rw [State.initialSample, if_neg (by rw [ht]; decide)]
    exact congrArg (fun w : State => Host.Outcome.next w.relightPass) (counted _ _)
  · rw [State.initialSample, if_pos ht, falls]
  · rw [State.hysteresis_of_eq (s := u) ht, counted]
  · rw [State.hysteresis_of_falling (s := u) ht hcount, counted]
    rfl
  · rw [State.hysteresis_of_fallen (s := u) ht hcount, falls]
  · rw [State.hysteresis_of_rising (s := u) ht hcount, counted]
    rfl
  · have rises := u.rises_foldl_riseShed (Fin.ne_of_gt ((Fin.zero_le _).trans_lt ht))
    refine ⟨_, (later h1).trans ?_, rises.ladder, rises.unpowered, rises.aborted, rises.line, rises.slot,
      rises.events, rises.frame⟩
    rw [State.hysteresis_of_risen (s := u) ht hcount, State.levelRise_eq, State.raise_levelChanged]

end Sys2Proof.Machine
end

section
/-! READ STATUS and READ LADDER, word by word (R149, R165, Tables 79 and 80). -/

namespace Sys2Proof.Machine

/-! ### READ STATUS (Table 79) -/

theorem ResetCause.code_le (c : ResetCause) : c.code ≤ 2 := by cases c <;> decide

theorem stageCode_le (o : Option Test) : stageCode o ≤ 11 := by
  cases o with
  | none => decide
  | some x => exact x.stage.code_le

/-- An event set fills the low bits of its word (R174). -/
theorem eventWord_eq (x : EventSet) : w16 x.toNat = 0#7 ++ x := by
  refine BitVec.eq_of_toNat_eq ?_
  rw [w16_toNat (by omega), toNat_append_eq]
  simp

/-- A byte fills the low half of its word. -/
theorem byteWord_eq (x : Byte) : w16 x.toNat = 0#8 ++ x := by
  refine BitVec.eq_of_toNat_eq ?_
  rw [w16_toNat (by omega), toNat_append_eq]
  simp

/-- Word 4 of Table 79. -/
theorem stateWord_fields {queue stage level cause : Nat} {armed stale : Bool} (hq : queue ≤ 8) (hs : stage ≤ 11)
    (hl : level < 4) (hc : cause ≤ 2) {x : Word16}
    (hx : x = w16 (queue * 4096 + stage * 256 + level * 16 + flag 3 armed + flag 2 stale + cause)) :
    (x.extractLsb' 12 4).toNat = queue ∧ (x.extractLsb' 8 4).toNat = stage ∧ x.extractLsb' 6 2 = 0
      ∧ (x.extractLsb' 4 2).toNat = level ∧ x.getLsbD 3 = armed ∧ x.getLsbD 2 = stale
      ∧ (x.extractLsb' 0 2).toNat = cause := by
  subst hx
  have ha := Bool.toNat_le armed
  have ht := Bool.toNat_le stale
  have hw : queue * 4096 + stage * 256 + level * 16 + flag 3 armed + flag 2 stale + cause < 65536 := by
    simp only [flag_eq]; omega
  refine ⟨(w16_extract hw _ _).trans ?_, (w16_extract hw _ _).trans ?_, w16_extract_zero hw ?_,
    (w16_extract hw _ _).trans ?_, w16_bit_eq hw 3 ?_, w16_bit_eq hw 2 ?_, (w16_extract hw _ _).trans ?_⟩
  all_goals
    simp only [flag_eq]
    omega

/-- The committed sums are 32-bit numbers (R49). -/
theorem State.SumsWell.sums_lt {s : State} (h : s.SumsWell) :
    s.meter.sumUp < 4294967296 ∧ s.meter.sumDown < 4294967296 := by
  obtain ⟨hup, hdown, hcounted, -⟩ := h
  have up := vector_sum_le s.meter.countedUp fun i => (hcounted i).1
  have down := vector_sum_le s.meter.countedDown fun i => (hcounted i).2
  omega

/-! ### READ LADDER (Table 80) -/

/-- Word 2 of Table 80. -/
theorem ladderWord_fields {target band level : Nat} {mains sampled : Bool} (ht : target < 4) (hb : band < 8)
    (hl : level < 4) {x : Word16}
    (hx : x = w16 (target * 128 + flag 6 mains + band * 8 + flag 2 sampled + level)) :
    x.extractLsb' 9 7 = 0 ∧ (x.extractLsb' 7 2).toNat = target ∧ x.getLsbD 6 = mains ∧ (x.extractLsb' 3 3).toNat = band
      ∧ x.getLsbD 2 = sampled ∧ (x.extractLsb' 0 2).toNat = level := by
  subst hx
  have hm := Bool.toNat_le mains
  have hs := Bool.toNat_le sampled
  have hw : target * 128 + flag 6 mains + band * 8 + flag 2 sampled + level < 65536 := by simp only [flag_eq]; omega
  refine ⟨w16_extract_zero hw ?_, (w16_extract hw _ _).trans ?_, w16_bit_eq hw 6 ?_, (w16_extract hw _ _).trans ?_,
    w16_bit_eq hw 2 ?_, (w16_extract hw _ _).trans ?_⟩
  all_goals
    simp only [flag_eq]
    omega

/-- Word 3 of Table 80. -/
theorem counterWord_fields {rise fall : Nat} {headen : Bool} (hr : rise ≤ 15) (hf : fall ≤ 15) {x : Word16}
    (hx : x = w16 (flag 8 headen + rise * 16 + fall)) :
    x.extractLsb' 9 7 = 0 ∧ x.getLsbD 8 = headen ∧ (x.extractLsb' 4 4).toNat = rise
      ∧ (x.extractLsb' 0 4).toNat = fall := by
  subst hx
  have hh := Bool.toNat_le headen
  have hw : flag 8 headen + rise * 16 + fall < 65536 := by simp only [flag_eq]; omega
  refine ⟨w16_extract_zero hw ?_, w16_bit_eq hw 8 ?_, (w16_extract hw _ _).trans ?_, (w16_extract hw _ _).trans ?_⟩
  all_goals
    simp only [flag_eq]
    omega

/-- A set of lines in its two words (R174): bit n of the pair is line n's, and the high byte is 0. -/
theorem imageWords_fields (i : Image) : ∃ a b : Word16, imageWords i = [a, b]
    ∧ (∀ k, (a ++ b).getLsbD k = i.getLsbD k) ∧ a.extractLsb' 8 8 = 0 := by
  have hi := i.isLt
  refine ⟨_, _, rfl, fun k => ?_, w16_extract_zero (by omega) (by omega)⟩
  rw [BitVec.getLsbD, words32_toNat (by omega)]
  rfl

/-- The load of a working copy in range fits its word (R141). -/
theorem State.load_le {s : State} (h : s.settings.InRange) : s.load ≤ 6375 := by
  obtain ⟨-, -, -, -, -, -, -, -, -, -, hhead, -, hcost, -⟩ := h
  have hlines : ((List.finRange 24).map fun n => if s.lit n then s.settings.cost[n] else 0).sum
      ≤ ((List.finRange 24).map fun n => if s.lit n then s.settings.cost[n] else 0).length • 255 := by
    refine List.sum_le_card_nsmul _ _ fun x hx => ?_
    obtain ⟨n, -, rfl⟩ := List.mem_map.1 hx
    have := hcost n
    split <;> omega
  rw [List.length_map, List.length_finRange, smul_eq_mul] at hlines
  unfold State.load
  split <;> omega

/-- Settles O47: each word by its fields, on a state whose registers are within their ranges. -/
theorem statusAndLadderAreReadWhole : Obligations.StatusAndLadderAreReadWhole := by
  unfold Obligations.StatusAndLadderAreReadWhole
  intro s f hacc hcount hsums hset
  obtain ⟨-, ⟨hup, hdown, hunmatched⟩, -, ⟨hslips, -⟩, -, -, -, hqueue, ⟨hrise, hfall, -⟩, -⟩ := hcount
  obtain ⟨hsumUp, hsumDown⟩ := hsums.sums_lt
  have word : ∀ {n}, n ≤ 65535 → (w16 n).toNat = n := fun h => w16_toNat (Nat.lt_succ_of_le h)
  constructor
  · obtain ⟨hlen, hstage, hzero, hlevel, harmed, hstale, hcause⟩ :=
      stateWord_fields (armed := s.armed) (stale := s.link.stale) hqueue (stageCode_le s.tests.current)
        s.ladder.level.isLt s.events.cause.code_le rfl
    refine ⟨_, _, _, _, _, _, _, _, _, _, _, _, State.immediate_leaves (act := actReadStatus) hacc rfl rfl,
      ⟨eventWord_eq _, eventWord_eq _⟩, ⟨hlen, fun hnone => BitVec.eq_of_toNat_eq (hstage.trans (by rw [hnone]; rfl)),
        fun x hx => hstage.trans (by rw [hx]; rfl), hzero, hlevel, harmed, hstale, hcause⟩,
      ⟨word (hup.trans (by decide)), word (hdown.trans (by decide))⟩, ⟨words32_toNat hsumUp, words32_toNat hsumDown⟩,
      byteWord_eq _, word hslips, word hunmatched⟩
  · obtain ⟨l1, l2, hlit, hlitBit, hlitZero⟩ := imageWords_fields s.litSet
    obtain ⟨m1, m2, hmarked, hmarkedBit, hmarkedZero⟩ := imageWords_fields s.markedSet
    have hload := State.load_le hset
    have hbudget : s.settings.budget[s.ladder.level] ≤ 4095 := hset.2.1 _
    refine ⟨_, _, _, _, l1, l2, m1, m2, State.immediate_leaves (act := actReadLadder) hacc rfl ?_,
      ladderWord_fields s.ladder.target.isLt s.ladder.band.isLt s.ladder.level.isLt rfl,
      counterWord_fields hrise hfall rfl, ⟨word (by omega), word (by omega)⟩,
      fun n => ⟨(hlitBit _).trans (litSet_getLsbD s n), (hmarkedBit _).trans (markedSet_getLsbD s n)⟩, hlitZero,
      hmarkedZero⟩
    rw [show [l1, l2, m1, m2] = imageWords s.litSet ++ imageWords s.markedSet by rw [hlit, hmarked]; rfl]
    rfl

end Sys2Proof.Machine
end

section
/-! WRITE SETTING and READ SETTING, and the identifiers of Table 67 (R144, R168, R169). -/

namespace Sys2Proof.Machine

/-! ### A setting written and read back -/

theorem cast_clampNat (lo hi v : Nat) :
    ((clampNat lo hi v : Nat) : Int) = max (lo : Int) (min (hi : Int) (v : Int)) := by
  unfold clampNat
  omega

theorem cast_levelOf (v : Nat) : ((levelOf v).val : Int) = max 0 (min 3 (v : Int)) := by
  unfold levelOf
  dsimp only
  omega

theorem modeCode_modeOf (v : Nat) : (modeCode (modeOf v) : Int) = max 0 (min 2 (v : Int)) := by
  unfold modeOf
  split
  · next h => subst h; rfl
  split
  · next h => subst h; rfl
  · simp only [modeCode]; omega

theorem severityCode_severityOf (v : Nat) : (severityCode (severityOf v) : Int) = max 0 (min 1 (v : Int)) := by
  unfold severityOf
  split
  · next h => subst h; rfl
  · simp only [severityCode]; omega

/-- A setting written reads as the value clamped to its range (R168). -/
theorem Settings.read_write_self (g : Settings) (x : SettingId) (v : BitVec 32) :
    (g.write x v).read x = max x.range.1 (min x.range.2 (x.taken v)) := by
  cases x with
  | cyclePeriod | riseCount | fallCount | samplePeriod | relaySettle | gateTime | rref | kc | headCost =>
    exact cast_clampNat _ _ _
  | budget i | threshold i | shedClass i | cost i =>
    refine Eq.trans ?_ (cast_clampNat _ _ v.toNat)
    simp [Settings.write, Settings.read]
  | bandMap i =>
    refine Eq.trans ?_ (cast_levelOf v.toNat)
    simp [Settings.write, Settings.read]
  | window k m f =>
    have written : (g.write (.window k m f) v).read (.window k m f)
        = ((g.limits[k][m]).writeField f v).readField f := by
      simp [Settings.write, Settings.read]
    rw [written]
    cases f with
    | low | high => rfl
    | mode => exact modeCode_modeOf _
    | severity => exact severityCode_severityOf _

/-- A place of a vector that is not the one written reads as before. -/
theorem vector_get_set_ne {α : Type} {n : Nat} (v : Vector α n) {i j : Fin n} (x : α) (h : j ≠ i) :
    (v.set i x)[j] = v[j] :=
  Vector.getElem_set_ne _ _ fun e => h (Fin.ext e.symm)

/-- A window field written leaves the other three fields. -/
theorem Window.readField_writeField_of_ne (w : Window) {f e : WindowField} (h : e ≠ f) (v : BitVec 32) :
    (w.writeField f v).readField e = w.readField e := by
  cases f <;> cases e <;> first | rfl | exact absurd rfl h

/-- A window written leaves every other field of every window (R168). -/
theorem Settings.read_write_window (g : Settings) {k k' : Fin 4} {m m' : Fin 7} {f f' : WindowField}
    (h : SettingId.window k' m' f' ≠ .window k m f) (v : BitVec 32) :
    (g.write (.window k m f) v).read (.window k' m' f') = g.read (.window k' m' f') := by
  have reads : ∀ {u w : Vector Window 7}, u = w → (u[m']).readField f' = (w[m']).readField f' := fun e => by rw [e]
  by_cases hk : k' = k
  · subst hk
    refine (reads (u := (g.write (.window k' m f) v).limits[k']) (Vector.getElem_set_self _)).trans ?_
    by_cases hm : m' = m
    · subst hm
      refine (congrArg (Window.readField · f') (Vector.getElem_set_self _)).trans ?_
      exact Window.readField_writeField_of_ne _ (fun e => h (by rw [e])) v
    · exact congrArg (Window.readField · f') (vector_get_set_ne _ _ hm)
  · exact reads (vector_get_set_ne g.limits _ hk)

/-- WRITE SETTING writes the setting that it names alone (R168). -/
theorem Settings.read_write_of_ne (g : Settings) {x y : SettingId} (h : y ≠ x) (v : BitVec 32) :
    (g.write x v).read y = g.read y := by
  cases x with
  | cyclePeriod | riseCount | fallCount | samplePeriod | relaySettle | gateTime | rref | kc | headCost =>
    cases y <;> first | rfl | exact absurd rfl h
  | budget i =>
    cases y with
    | budget j => exact congrArg Nat.cast (vector_get_set_ne g.budget _ fun e => h (by rw [e]))
    | _ => rfl
  | bandMap i =>
    cases y with
    | bandMap j =>
      exact congrArg (fun l : Level => (l.val : Int)) (vector_get_set_ne g.bandMap _ fun e => h (by rw [e]))
    | _ => rfl
  | threshold i =>
    cases y with
    | threshold j => exact congrArg Nat.cast (vector_get_set_ne g.thresholds _ fun e => h (by rw [e]))
    | _ => rfl
  | shedClass i =>
    cases y with
    | shedClass j => exact congrArg Nat.cast (vector_get_set_ne g.shedClass _ fun e => h (by rw [e]))
    | _ => rfl
  | cost i =>
    cases y with
    | cost j => exact congrArg Nat.cast (vector_get_set_ne g.cost _ fun e => h (by rw [e]))
    | _ => rfl
  | window k m f =>
    cases y with
    | window k' m' f' => exact g.read_write_window h v
    | _ => rfl

/-! ### The identifiers of Table 67 -/

/-- A case of a search by cases answers, so that the search has no answer exactly outside it and beyond it. -/
theorem dite_some_eq_none_iff {α : Type} {c : Prop} [Decidable c] {a : c → α} {o : Option α} :
    (if h : c then some (a h) else o) = none ↔ ¬ c ∧ o = none := by
  by_cases h : c <;> simp [h]

/-- The identifiers outside Table 67. -/
theorem settingOf_eq_none_iff (k : Nat) : settingOf k = none ↔
    ¬ (k ≤ 27 ∨ (32 ≤ k ∧ k ≤ 55) ∨ (64 ≤ k ∧ k ≤ 87) ∨ (256 ≤ k ∧ k ≤ 383 ∧ (k - 256) % 32 < 28)) := by
  unfold settingOf
  simp only [← dite_eq_ite, dite_some_eq_none_iff]
  split
  · simp only [dite_some_eq_none_iff, and_true]
    omega
  · simp only [and_true]
    omega

/-- The identifier of a window's field (section 11.1). -/
theorem settingOf_window : ∀ (k : Fin 4) (m : Fin 7) (j : Fin 4),
    settingOf (256 + 32 * k.val + 4 * m.val + j.val) = some (.window k m (windowFieldOf j.val)) := by decide

/-! ### The port does not matter to a write -/

theorem State.abort_withPort (s : State) (p : Port) (c : Cause) : (s.withPort p).abort c = (s.abort c).withPort p := by
  unfold State.abort
  rw [State.withPort_tests]
  split <;> rfl

theorem State.darkenMarked_withPort (s : State) (p : Port) (n : LineNo) :
    (s.withPort p).darkenMarked n = (s.darkenMarked n).withPort p := by
  have hlit : (s.withPort p).lit n = s.lit n := rfl
  cases h : s.lit n with
  | false => rw [State.darkenMarked_of_unlit h, State.darkenMarked_of_unlit (hlit.trans h)]
  | true =>
    rw [State.darkenMarked_of_lit h, State.darkenMarked_of_lit (hlit.trans h), State.withPort_line]
    split
    · exact (s.setLine n (s.line n).shedOf).leaveService_withPort p n
    · rfl

theorem State.shedLine_withPort (s : State) (p : Port) (n : LineNo) :
    (s.withPort p).shedLine n = (s.shedLine n).withPort p := by
  unfold State.shedLine
  rw [State.darkenMarked_withPort, State.leftLit_withPort]
  rfl

theorem State.overloadFor_withPort (k : Nat) (s : State) (p : Port) :
    (s.withPort p).overloadFor k = (s.overloadFor k).withPort p := by
  induction k generalizing s with
  | zero => rfl
  | succ k ih =>
    have hload : (s.withPort p).load = s.load := rfl
    have hbudget : (s.withPort p).budgetNow = s.budgetNow := rfl
    have horder : (s.withPort p).shedOrder.find? (s.withPort p).lit = s.shedOrder.find? s.lit := rfl
    unfold State.overloadFor
    rw [hload, hbudget, State.withPort_head, horder, State.abort_withPort]
    split
    · rfl
    split
    · exact ih _
    split
    · rfl
    · rw [State.shedLine_withPort]
      exact ih _

theorem State.overloadCheck_withPort (s : State) (p : Port) :
    (s.withPort p).overloadCheck = s.overloadCheck.withPort p := s.overloadFor_withPort 25 p

theorem State.writeSetting_withPort (s : State) (p : Port) (x : SettingId) (v : BitVec 32) :
    (s.withPort p).writeSetting x v = (s.writeSetting x v).withPort p := by
  unfold State.writeSetting
  dsimp only
  split
  · rw [← State.dispatchRetry_withPort, ← State.overloadCheck_withPort]
    rfl
  · rfl

/-! ### What a write leaves -/

/-- A write leaves the working copy written, whatever its hand-ons do. -/
theorem State.writeSetting_settings (s : State) (x : SettingId) (v : BitVec 32) :
    (s.writeSetting x v).settings = s.settings.write x v := by
  unfold State.writeSetting
  dsimp only
  split
  · exact ((State.overloadCheck_kept _).trans (State.dispatchRetry_kept _)).settings
  · rfl

/-- The settings whose write runs the overload check (R144). -/
theorem SettingId.checksLoad_iff (x : SettingId) :
    x.checksLoad = true ↔ (∃ l, x = .budget l) ∨ (∃ n, x = .cost n) ∨ x = .headCost := by
  cases x <;> simp [SettingId.checksLoad]

/-- A setting's value in the two words of its answer (R169). -/
theorem valueWords_eq (v : Int) : ∃ hi lo : Word16, valueWords v = [hi, lo] ∧ hi ++ lo = BitVec.ofInt 32 v :=
  ⟨_, _, rfl, BitVec.eq_of_toNat_eq (words32_toNat (BitVec.isLt _))⟩

section

variable {s : State} {f : Frame} {w : Word16}

theorem readSetting_leaves (hargs : f.args = [w]) (h : s.Accepts f 1) :
    (settingOf w.toNat = none → s.Leaves (.readSetting f) s (.ready [echoed 0x19 .badArgument]))
      ∧ ∀ x, settingOf w.toNat = some x → ∃ hi lo : Word16,
        s.Leaves (.readSetting f) s (.ready [echoed 0x19 .ok, w, hi, lo])
          ∧ hi ++ lo = BitVec.ofInt 32 (s.settings.read x) := by
  have hword : argWord f.args 1 = w := by rw [hargs]; rfl
  have hid : argNat f.args 1 = w.toNat := by rw [argNat, hword]
  refine ⟨fun hnone => State.immediate_leaves (act := actReadSetting) h rfl ?_, fun x hx => ?_⟩
  · rw [actReadSetting, hid, hnone]
    rfl
  · obtain ⟨hi, lo, hwords, hvalue⟩ := valueWords_eq (s.settings.read x)
    refine ⟨hi, lo, State.immediate_leaves (act := actReadSetting) h rfl ?_, hvalue⟩
    rw [actReadSetting, hid, hx, hword, ← hwords]
    rfl

theorem writeSetting_leaves {w2 w3 : Word16} (hargs : f.args = [w, w2, w3]) (h : s.Accepts f 3) :
    (settingOf w.toNat = none → s.Leaves (.writeSetting f) s (.ready [echoed 0x1A .badArgument]))
      ∧ ∀ x, settingOf w.toNat = some x → ∃ hi lo : Word16,
        s.Leaves (.writeSetting f) (s.writeSetting x (w2 ++ w3)) (.ready [echoed 0x1A .ok, w, hi, lo])
          ∧ hi ++ lo = BitVec.ofInt 32 ((s.settings.write x (w2 ++ w3)).read x) := by
  have hword : argWord f.args 1 = w := by rw [hargs]; rfl
  have hid : argNat f.args 1 = w.toNat := by rw [argNat, hword]
  have hval : argValue f.args = w2 ++ w3 := by rw [hargs]; rfl
  refine ⟨fun hnone => State.immediate_leaves (act := actWriteSetting) h rfl ?_, fun x hx => ?_⟩
  · rw [actWriteSetting, hid, hnone]
    rfl
  · obtain ⟨hi, lo, hwords, hvalue⟩ := valueWords_eq ((s.writeSetting x (w2 ++ w3)).settings.read x)
    have written : s.endCommand.writeSetting x (w2 ++ w3) = (s.writeSetting x (w2 ++ w3)).withPort s.endCommand.port :=
      s.writeSetting_withPort _ x _
    refine ⟨hi, lo, State.immediate_leaves (act := actWriteSetting) h rfl ?_, s.writeSetting_settings x _ ▸ hvalue⟩
    simp only [actWriteSetting, hid, hx, hword, hval, written]
    exact congrArg (fun l : List Word16 => (⟨_, .ok, w :: l⟩ : Answered)) hwords

end

/-- Settles O50: a write is `Settings.write` with its hand-ons, and the identifiers are Table 67's by case. -/
theorem settingsAreReadAndWrittenClamped : Obligations.SettingsAreReadAndWrittenClamped := by
  unfold Obligations.SettingsAreReadAndWrittenClamped
  refine ⟨fun s f w => readSetting_leaves, fun s f w w2 w3 hargs h => ?_, settingOf_eq_none_iff, fun k m => ?_,
    by decide, by decide, by decide, fun g => ?_⟩
  · obtain ⟨hbad, hgood⟩ := writeSetting_leaves hargs h
    refine ⟨hbad, fun x hx => ?_⟩
    obtain ⟨hi, lo, hleaves, hvalue⟩ := hgood x hx
    refine ⟨s.settings.write x (w2 ++ w3), s.writeSetting x (w2 ++ w3), hi, lo, hleaves, hvalue,
      s.settings.read_write_self x _, fun y hy => s.settings.read_write_of_ne hy _, fun weighs => ?_, fun weighs => ?_⟩
    · exact if_pos (x.checksLoad_iff.2 weighs)
    · exact if_neg fun hx => weighs (x.checksLoad_iff.1 hx)
  · exact ⟨settingOf_window k m 0, settingOf_window k m 1, settingOf_window k m 2, settingOf_window k m 3⟩
  · refine ⟨⟨rfl, rfl, rfl, rfl, rfl, rfl, rfl, rfl, rfl⟩, fun _ => rfl, fun _ => rfl, fun _ => rfl,
      fun _ => ⟨rfl, rfl⟩, fun k m => ⟨rfl, rfl, ?_, ?_⟩⟩
    · simp only [Settings.read, Window.readField]
      cases (g.limits[k][m]).mode <;> rfl
    · simp only [Settings.read, Window.readField]
      cases (g.limits[k][m]).severity <;> rfl

end Sys2Proof.Machine
end

section
/-! What a command row leaves at the end of its transaction, whatever the command (R151, R154). -/

namespace Sys2Proof.Machine

/-! ### One rule for every command row -/

/-- What the port makes of a command at its arrival; `carried` is what the command itself leaves once it is accepted
(R154). -/
def State.judged (s : State) (code : Byte) (carried : State) : Arrival → State
  | .held => s.csRise
  | .ignored => s.csRise
  | .overlapped => s
  | .busy => s.refuseBusy
  | .illegal => s.endCommand.answer code .illegal []
  | .badCount => s.endCommand.answer code .badArgument []
  | .accepted => carried

theorem State.immediate_eq_judged (s : State) (code : Byte) (argc : Nat) (f : Frame) (act : Immediate) :
    s.immediate code argc f act = s.judged code ((act f.args s.endCommand).state.answer code
      (act f.args s.endCommand).result (act f.args s.endCommand).data) (s.arrival f (some argc)) := by
  unfold State.immediate
  cases s.arrival f (some argc) <;> rfl

theorem State.timed_eq_judged (s : State) (code : Byte) (argc : Nat) (f : Frame) (c : InFlight) (begun : State → State) :
    s.timed code argc f c begun = s.judged code (begun { s with port := s.portAfter (.wait c) })
      (s.arrival f (some argc)) := by
  unfold State.timed
  cases s.arrival f (some argc) <;> rfl

theorem exec_restart_eq_judged (f : Frame) (s : State) :
    exec (.restart f) s = .next (s.judged 0x1C (s.endCommand.held ⟨false, false, true, .command⟩)
      (s.arrival f (some 0))) := by
  simp only [exec, execRestart]
  cases s.arrival f (some 0) <;> rfl

/-- A code without a count of Table 61 is never found miscounted. -/
theorem arrival_none_ne_badCount (s : State) (f : Frame) : s.arrival f none ≠ .badCount := by
  unfold State.arrival
  repeat' split
  all_goals simp_all

theorem State.undefinedCode_eq_judged (s : State) (code : Byte) (f : Frame) :
    s.undefinedCode code f = s.judged code (s.endCommand.answer code .illegal []) (s.arrival f none) := by
  unfold State.undefinedCode
  cases h : s.arrival f none with
  | badCount => exact absurd h (arrival_none_ne_badCount s f)
  | _ => rfl

/-! ### The refused-busy flag while the engine works (R155) -/

theorem State.snapshot_port (s : State) : s.snapshot.port = s.port := by
  have discovered : ∀ (l : List Slot) (u : State), (l.foldl (fun s i => s.discover i .roster) u).port = u.port := by
    intro l
    induction l with
    | nil => exact fun _ => rfl
    | cons i l ih => exact fun u => (ih _).trans (congrArg State.port (u.discover_discovers i .roster).2.2 :)
  exact discovered s.unsound s

theorem State.sendRoundEnd_port (s : State) (e : Emission) : (s.sendRoundEnd e).port = s.port := by
  unfold State.sendRoundEnd
  dsimp only
  split <;> rfl

theorem State.emitRound_port (s : State) (l : List Share) (e : Emission) : (s.emitRound l e).port = s.port := by
  induction l generalizing e with
  | nil => exact s.sendRoundEnd_port e
  | cons x xs ih =>
    unfold State.emitRound
    split
    · rfl
    · exact ih _

theorem State.sendRound_port (s : State) : s.sendRound.port = s.port := by
  unfold State.sendRound
  split
  · exact s.emitRound_port _ _
  all_goals rfl

theorem State.sendVerdict_port (s : State) : s.sendVerdict.port = s.port := by
  unfold State.sendVerdict
  split
  · rfl
  split <;> rfl

theorem State.completeResolve_port (s : State) : s.completeResolve.port = s.port := by
  unfold State.completeResolve
  split <;> rfl

theorem State.lookupHead_port (s : State) : s.lookupHead.port = s.port := by
  unfold State.lookupHead
  split
  · rw [State.lookup_record]
  · rfl

/-- A take moves the port to the taken command and leaves the flag. -/
theorem State.takeWaiting_busy (s : State) : s.takeWaiting.port.busy = s.port.busy := by
  unfold State.takeWaiting
  split
  · next c _ => exact (congrArg Port.busy (s.takeCommand_port c) :)
  · rfl

theorem State.internal_busy {s t : State} (h : s.internal = some t) : t.port.busy = s.port.busy := by
  unfold State.internal at h
  split at h
  · obtain rfl := Option.some.inj h; rw [State.sendVerdict_port]
  split at h
  · obtain rfl := Option.some.inj h; rw [State.sendRound_port]
  split at h
  · obtain rfl := Option.some.inj h; rw [State.completeResolve_port]
  split at h
  · obtain rfl := Option.some.inj h; rw [State.snapshot_port]
  split at h
  · obtain rfl := Option.some.inj h; rw [State.lookupHead_port]
  split at h
  · obtain rfl := Option.some.inj h; exact s.takeWaiting_busy
  · simp at h

theorem State.settleFor_busy (k : Nat) (s : State) : (s.settleFor k).port.busy = s.port.busy := by
  induction k generalizing s with
  | zero => rfl
  | succ k ih =>
    unfold State.settleFor
    split
    · rfl
    · next t h => exact (ih t).trans (State.internal_busy h)

theorem State.settle_busy (s : State) : s.settle.port.busy = s.port.busy := s.settleFor_busy 10

/-! ### What each command row carries out -/

section

variable {s : State} {f : Frame}

/-- A command row is judged by R154's rule, and what it carries out leaves the refused-busy flag or is a reset. -/
def Carries (c : Instr) (x : Transaction) (s : State) : Prop :=
  ∃ u, exec c s = .next (s.judged x.code u (s.arrival x.frame x.argc))
    ∧ (u.port.busy = s.port.busy ∨ touchesReset c = true ∧ u.port.busy = false)

theorem carries_immediate {c : Instr} {x : Transaction} {code : Byte} {argc : Nat} {act : Immediate}
    (h : some ⟨code, some argc, f⟩ = some x) (hx : exec c s = .next (s.immediate code argc f act))
    (hact : ∀ (args : List Word16) (u : State), u.LocalWork (act args u).state) : Carries c x s := by
  obtain rfl := Option.some.inj h
  exact ⟨_, hx.trans (congrArg _ (s.immediate_eq_judged code argc f act)),
    .inl (congrArg Port.busy (hact f.args s.endCommand).port :)⟩

/-- An immediate command that only reads. -/
theorem carries_reading {c : Instr} {x : Transaction} {code : Byte} {argc : Nat} {act : Immediate}
    (h : some ⟨code, some argc, f⟩ = some x) (hx : exec c s = .next (s.immediate code argc f act))
    (hact : ∀ (args : List Word16) (u : State), (act args u).state = u) : Carries c x s :=
  carries_immediate h hx fun args u => (hact args u).symm ▸ .refl u

theorem carries_timedRecord {c : Instr} {x : Transaction} {r : RecordCommand} {code : Byte} {argc : Nat}
    (h : some ⟨code, some argc, f⟩ = some x) (hx : exec c s = .next (s.timedRecord argc f r)) (hr : r.code = code) :
    Carries c x s := by
  obtain rfl := Option.some.inj h
  exact hr ▸ ⟨_, hx.trans (congrArg _ (s.timed_eq_judged r.code argc f (.record r) State.settle)),
    .inl (State.settle_busy _)⟩

end

/-- Every command row follows the one rule. -/
theorem exec_carries {c : Instr} {x : Transaction} (h : transactionOf c = some x) (s : State) : Carries c x s := by
  cases c with
  | admitService f | amendService f | retireService f | retireSlot f | barService f | unbarService f | lookUpService f =>
    exact carries_timedRecord h rfl rfl
  | probeSlot f => exact carries_reading h rfl actProbeSlot_state
  | clearCounters f => exact carries_immediate h rfl actClearCounters_localWork
  | forceCheckError f | readFault f | acknowledgeEvents f | setEventMask f =>
    exact carries_immediate h rfl fun _ _ => .quiet rfl rfl rfl ⟨rfl, rfl, rfl, rfl, rfl⟩
  | lightLine f => exact carries_immediate h rfl (lineCommand_localWork lightLine_localWork)
  | serveLine f => exact carries_immediate h rfl (lineCommand_localWork serveLine_localWork)
  | suspendLine f => exact carries_immediate h rfl (lineCommand_localWork suspendLine_localWork)
  | darkenLine f => exact carries_immediate h rfl (lineCommand_localWork darkenLine_localWork)
  | clearFault f => exact carries_immediate h rfl (lineCommand_localWork clearFault_localWork)
  | readLine f => exact carries_reading h rfl actReadLine_state
  | requestTest f => exact carries_immediate h rfl actRequestTest_localWork
  | cancelTest f => exact carries_immediate h rfl actCancelTest_localWork
  | readTestQueue f => exact carries_reading h rfl actReadTestQueue_state
  | readLadder f | readStatus f => exact carries_reading h rfl fun _ _ => rfl
  | readSetting f => exact carries_reading h rfl actReadSetting_state
  | writeSetting f => exact carries_immediate h rfl actWriteSetting_localWork
  | storeSettings f =>
    obtain rfl := Option.some.inj h
    exact ⟨_, congrArg Host.Outcome.next (s.timed_eq_judged 0x1B 0 f .store State.beginStore), .inl rfl⟩
  | restart f =>
    obtain rfl := Option.some.inj h
    exact ⟨_, exec_restart_eq_judged f s, .inr ⟨rfl, rfl⟩⟩
  | undefinedCommandCode code f =>
    obtain rfl := Option.some.inj h
    exact ⟨_, congrArg Host.Outcome.next (s.undefinedCode_eq_judged code f), .inl rfl⟩
  | _ => exact absurd h (Option.some_ne_none x).symm

/-- A command row that is not accepted leaves what R154 says of its arrival, whatever the command: `u`, what it would
carry out, does not matter. -/
theorem exec_of_arrival {c : Instr} {x : Transaction} {s : State} {a : Arrival} (h : transactionOf c = some x)
    (ha : s.arrival x.frame x.argc = a) (hne : a ≠ .accepted) (u : State) : exec c s = .next (s.judged x.code u a) := by
  obtain ⟨v, hx, -⟩ := exec_carries h s
  rw [hx, ha]
  cases a with
  | accepted => exact absurd rfl hne
  | _ => rfl

/-- A refused command answers its result word alone, and nothing but the port changes. -/
theorem State.leaves_of_answer {c : Instr} {s : State} {code : Byte} {r : ResultCode}
    (h : exec c s = .next (s.endCommand.answer code r [])) : s.Leaves c s (.ready [echoed code r]) := by
  apply State.leaves_of_portAfter
  rw [h, State.answer_eq, resultWord_eq_echoed]
  rfl

/-! ### The rows of Table 61 -/

/-- The argument counts of Table 61, by code from 01h. -/
def argCounts : List Nat := [11, 11, 2, 1, 2, 2, 2, 1, 2, 0, 0, 1, 1, 1, 1, 1, 1, 4, 1, 1, 0, 0, 1, 1, 1, 3, 0, 0]

/-- The row of a code is the transaction of that code with its count of Table 61. -/
theorem transactionOf_commandRow {code : Byte} (h : code ≠ 0) (f : Frame) :
    transactionOf (commandRow code f) = some ⟨code, argCounts[code.toNat - 1]?, f⟩ := by
  have row : ∀ {k : Nat} {c : Instr}, code.toNat = k → transactionOf c = some ⟨BitVec.ofNat 8 k, argCounts[k - 1]?, f⟩ →
      transactionOf c = some ⟨code, argCounts[code.toNat - 1]?, f⟩ := by
    intro k c hk hc
    subst hk
    rwa [BitVec.ofNat_toNat, BitVec.setWidth_eq] at hc
  unfold commandRow
  split
  case h_29 =>
    have hpos : code.toNat ≠ 0 := fun h0 => h (BitVec.eq_of_toNat_eq h0)
    have hout : argCounts[code.toNat - 1]? = none := List.getElem?_eq_none (by
      show 28 ≤ code.toNat - 1
      simp only [imp_false] at *
      omega)
    rw [hout]
    rfl
  all_goals
    next hk => exact row hk rfl

/-- Settles O3: one rule for every command row, and R154's judgement. -/
theorem illegalAndMiscountedCommands : Obligations.IllegalAndMiscountedCommands := by
  unfold Obligations.IllegalAndMiscountedCommands
  refine ⟨fun w args part => ⟨rfl, fun hfetch => if_pos hfetch, fun hcode => ?_⟩, fun c x s hc hs hw => ⟨fun hbad => ?_,
    fun k hsound hk hcount => ?_⟩, fun c x s y hc hhold hy hfetch => ?_⟩
  · exact ⟨_, _, if_neg hcode, transactionOf_commandRow hcode _, rfl, rfl, rfl⟩
  · have hill : s.arrival x.frame x.argc = .illegal := by
      by_cases hsound : FrameSound x.frame
      · rw [arrival_of_sound hs hw hsound, hbad.resolve_left (not_not_intro hsound)]
      · exact arrival_of_unsound hs hw hsound _
    exact State.leaves_of_answer (exec_of_arrival hc hill (by simp) s)
  · have hmis : s.arrival x.frame x.argc = .badCount := by
      rw [arrival_of_sound hs hw hsound, hk]
      exact if_neg hcount
    exact State.leaves_of_answer (exec_of_arrival hc hmis (by simp) s)
  · have hopen : s.port.fetching = true := by rw [Port.fetching, hy]; exact hfetch
    exact exec_of_arrival hc (arrival_of_fetching hhold hopen _) (by simp) s

end Sys2Proof.Machine
end

section
/-! The refused-busy flag: what sets it and what clears it, over every row (R155). -/

namespace Sys2Proof.Machine

/-! ### Events that leave the flag -/

section

variable {s : State} {f : State → State}

theorem State.unlessHeld_busy (h : (f s).port.busy = s.port.busy) : (s.unlessHeld f).port.busy = s.port.busy := by
  unfold State.unlessHeld
  split
  · rfl
  · exact h

theorem State.whenDue_busy {b : Bool} (h : (f s).port.busy = s.port.busy) : (s.whenDue b f).port.busy = s.port.busy := by
  unfold State.whenDue
  split
  · exact h
  · rfl

theorem State.settle_busy_of_port {t : State} (h : t.port = s.port) : t.settle.port.busy = s.port.busy :=
  t.settle_busy.trans (congrArg Port.busy h)

theorem State.LocalWork.busy {t : State} (h : s.LocalWork t) : t.port.busy = s.port.busy := congrArg Port.busy h.port

end

theorem State.arriveResolve_port (s : State) (q : Byte) (tag : Tag) (len : Nat) :
    (s.arriveResolve q tag len).port = s.port := by
  unfold State.arriveResolve
  split <;> rfl

theorem State.arriveBacklog_port (s : State) (tag : Tag) (credits : Nat) : (s.arriveBacklog tag credits).port = s.port := by
  unfold State.arriveBacklog
  split <;> rfl

theorem State.arriveMessage_busy (s : State) (l : List Byte) : (s.arriveMessage l).port.busy = s.port.busy := by
  unfold State.arriveMessage
  split
  · exact State.settle_busy_of_port (s.arriveResolve_port _ _ _)
  split
  · rw [State.arriveBacklog_port]
  split <;> rfl

theorem State.takeByte_busy (s : State) (start : Bool) (b : Byte) : (s.takeByte start b).port.busy = s.port.busy := by
  unfold State.takeByte
  dsimp only
  generalize (if start then [b] else _) = bytes
  split
  · exact s.receiverIdle.arriveMessage_busy _
  · rfl

theorem State.cycleExpired_port (s : State) : s.meterExpiry.staleExpiry.roundExpiry.port = s.port := by
  rw [State.roundExpiry_eq, State.staleExpiry_eq]
  rfl

theorem State.emitGrant_port (s : State) (x : Share) (rest : List Share) (e : Emission) :
    (s.emitGrant x rest e).port = s.port := by
  unfold State.emitGrant
  split <;> rfl

/-- A completed test works on lines and tests. -/
theorem State.completeTest_port (s : State) (t : Test) (v : Evaluation) : (s.completeTest t v).port = s.port := by
  obtain ⟨l, ret, new, p, -, -, after⟩ := s.completeTest_after t v
  exact after.port.trans (State.leaveTest_serviceKept _ _ ret new p).port

/-- Every row but a command, a fetch and a reset leaves the flag. -/
theorem exec_busy_kept {c : Instr} (s : State) (hc : transactionOf c = none) (hf : ∀ rest, c ≠ .fetch rest)
    (hr : touchesReset c = false) : ∃ t, exec c s = .next t ∧ t.port.busy = s.port.busy := by
  cases c with
  | admitService f | amendService f | retireService f | retireSlot f | barService f | unbarService f | lookUpService f
  | probeSlot f | clearCounters f | forceCheckError f | readFault f | lightLine f | serveLine f | suspendLine f
  | darkenLine f | clearFault f | readLine f | requestTest f | cancelTest f | readTestQueue f | readLadder f | readStatus f
  | acknowledgeEvents f | setEventMask f | readSetting f | writeSetting f | storeSettings f | restart f
  | undefinedCommandCode code f =>
    exact absurd hc (Option.some_ne_none _)
  | powerOnReset | pinReset | supplyReturn | resetnRise | settingsLoadCompletion => exact absurd hr (by decide)
  | fetch rest => exact absurd rfl (hf rest)
  | transactionBegin =>
    refine ⟨_, rfl, ?_⟩
    split <;> rfl
  | fetchComplete slots =>
    refine ⟨_, rfl, ?_⟩
    split
    · rfl
    split <;> rfl
  | managementRequestTake =>
    exact ⟨_, rfl, State.unlessHeld_busy (State.whenDue_busy ((State.settle_busy _).trans s.takeWaiting_busy))⟩
  | managementRequestCompletion =>
    refine ⟨_, rfl, State.unlessHeld_busy ?_⟩
    split
    · exact State.settle_busy _
    all_goals rfl
  | storeCompletion held => exact ⟨_, rfl, State.unlessHeld_busy (State.whenDue_busy rfl)⟩
  | resolve q tag len =>
    exact ⟨_, rfl, State.unlessHeld_busy (State.settle_busy_of_port (State.arriveResolve_port _ _ _ _))⟩
  | backlog tag credits =>
    exact ⟨_, rfl, State.unlessHeld_busy (congrArg Port.busy (s.receiverIdle.arriveBacklog_port _ _))⟩
  | capacity up down => exact ⟨_, rfl, State.unlessHeld_busy rfl⟩
  | unknownInboundTypeDiscard k => exact ⟨_, rfl, State.unlessHeld_busy rfl⟩
  | inboundByteTaken start b => exact ⟨_, rfl, State.unlessHeld_busy (s.takeByte_busy start b)⟩
  | lookupEvent =>
    exact ⟨_, rfl, State.unlessHeld_busy (State.whenDue_busy (State.settle_busy_of_port s.lookupHead_port))⟩
  | resolveCompletion =>
    exact ⟨_, rfl, State.unlessHeld_busy (State.whenDue_busy (State.settle_busy_of_port s.completeResolve_port))⟩
  | verdictEmission =>
    exact ⟨_, rfl, State.unlessHeld_busy (State.whenDue_busy (State.settle_busy_of_port s.sendVerdict_port))⟩
  | transmissionCompletion => exact ⟨_, rfl, State.unlessHeld_busy (State.whenDue_busy (State.settle_busy_of_port rfl))⟩
  | cycleExpiry => exact ⟨_, rfl, State.unlessHeld_busy (State.settle_busy_of_port s.cycleExpired_port)⟩
  | rosterSnapshot =>
    exact ⟨_, rfl, State.unlessHeld_busy (State.whenDue_busy (State.settle_busy_of_port s.snapshot_port))⟩
  | grantEmission =>
    refine ⟨_, rfl, State.unlessHeld_busy (State.whenDue_busy ?_)⟩
    split
    · split
      · exact State.settle_busy_of_port (s.emitGrant_port _ _ _)
      · rfl
    all_goals rfl
  | roundEndEmission =>
    refine ⟨_, rfl, State.unlessHeld_busy (State.whenDue_busy ?_)⟩
    split
    · split
      · exact State.settle_busy_of_port (s.sendRoundEnd_port _)
      · rfl
    all_goals rfl
  | powerChainLatch => exact ⟨_, rfl, State.unlessHeld_busy rfl⟩
  | relayLatchCompletion =>
    refine ⟨_, rfl, State.unlessHeld_busy ?_⟩
    split
    · rfl
    · exact (s.latchRelay_localWork _).busy
  | relaySettleExpiry =>
    refine ⟨_, rfl, State.unlessHeld_busy ?_⟩
    split
    · rfl
    · exact State.whenDue_busy (s.settled_localWork _).busy
  | pathSettleExpiry capin => exact ⟨_, rfl, State.unlessHeld_busy rfl⟩
  | converterSample code =>
    refine ⟨_, rfl, State.unlessHeld_busy ?_⟩
    split
    · dsimp only
      split
      · exact (s.completeMeasure_localWork _ _).busy
      · rfl
    all_goals rfl
  | pairGateExpiry | dischargeExpiry =>
    refine ⟨_, rfl, State.unlessHeld_busy ?_⟩
    split
    · exact (s.completeMeasure_localWork _ _).busy
    all_goals rfl
  | referenceGateExpiry | oscillatorEdge | capinEdge ticks | captureTimeout | cadenceExpiry | comparisonSettleExpiry bsense =>
    refine ⟨_, rfl, State.unlessHeld_busy ?_⟩
    split <;> rfl
  | toneDurationExpiry =>
    refine ⟨_, rfl, State.unlessHeld_busy ?_⟩
    split
    · exact s.completeTone_localWork.busy
    · exact s.completeTone_localWork.busy
    all_goals rfl
  | testCompletion =>
    refine ⟨_, rfl, State.unlessHeld_busy ?_⟩
    split
    · rfl
    split
    · rfl
    · rw [State.completeTest_port]
  | minuteTickExpiry => exact ⟨_, rfl, State.unlessHeld_busy rfl⟩
  | oneSecondTickExpiry =>
    refine ⟨_, rfl, State.unlessHeld_busy ?_⟩
    split <;> rfl
  | sampleEnd bsense mains =>
    refine ⟨_, rfl, State.unlessHeld_busy ?_⟩
    split
    · exact (s.endSample_localWork _ _).busy
    all_goals rfl
  | recordDisturbance a =>
    rcases exec_recordDisturbance a s with ⟨-, hx⟩ | ⟨-, _, -, -, -, hx⟩ <;> exact ⟨_, hx, rfl⟩
  | nonvolatileValueLoss => exact ⟨_, rfl, rfl⟩

/-! ### Resets and fetches -/

/-- A row that is a reset's own keeps the flag or clears it. -/
theorem exec_busy_of_reset {c : Instr} (s : State) (hc : transactionOf c = none) (hr : touchesReset c = true) :
    ∃ t, exec c s = .next t ∧ (t.port.busy = s.port.busy ∨ t.port.busy = false) := by
  cases c with
  | powerOnReset | pinReset => exact ⟨_, rfl, .inr rfl⟩
  | supplyReturn | resetnRise => exact ⟨_, rfl, .inl (State.whenDue_busy rfl)⟩
  | settingsLoadCompletion =>
    refine ⟨_, rfl, ?_⟩
    split
    · exact .inl rfl
    · unfold State.whenDue
      split
      · exact .inr (congrArg (fun t : State => t.port.busy) (s.endReset_eq _))
      · exact .inl rfl
  | restart f => exact absurd hc (Option.some_ne_none _)
  | _ => exact absurd hr Bool.false_ne_true

/-- A fetch never sets the flag. -/
theorem exec_fetch_busy (rest : Byte) (s : State) :
    ∃ t, exec (.fetch rest) s = .next t ∧ (t.port.busy = true → s.port.busy = true) := by
  refine ⟨_, rfl, ?_⟩
  unfold State.unlessHeld
  split
  · exact id
  dsimp only
  split
  · exact id
  unfold State.whenDue
  split
  · exact fun h => (Bool.and_eq_true_iff.1 h).1
  · exact id

theorem exec_fetch {s : State} {x : Txn} (rest : Byte) (hs : s.hold = none) (hx : s.port.txn = some x)
    (hf : x.fetch = false) : exec (.fetch rest) s = .next (s.fetchSlot1 x) := by
  simp only [exec, execFetch, exec_of_not_held hs, hx, State.whenDue, hf]
  rfl

/-! ### Commands -/

/-- A command is refused busy in WAIT alone. -/
theorem waits_of_arrival {s : State} {f : Frame} {k : Option Nat} (h : s.arrival f k = .busy) :
    s.port.state.waits = true := by
  unfold State.arrival at h
  repeat' split at h
  all_goals simp_all

/-- The end of a command transaction keeps the flag, sets it where the command was refused busy, or is a reset that clears
it. -/
theorem exec_busy_of_transaction {c : Instr} {x : Transaction} (h : transactionOf c = some x) (s : State) :
    ∃ t, exec c s = .next t ∧ (t.port.busy = s.port.busy ∨ t.port.busy = true ∧ s.port.state.waits = true
      ∨ touchesReset c = true ∧ t.port.busy = false) := by
  obtain ⟨u, hx, hu⟩ := exec_carries h s
  refine ⟨_, hx, ?_⟩
  cases ha : s.arrival x.frame x.argc with
  | busy => exact .inr (.inl ⟨rfl, waits_of_arrival ha⟩)
  | accepted => exact hu.imp_right .inr
  | held | ignored | overlapped | illegal | badCount => exact .inl rfl

/-- What any row does to the flag. -/
theorem exec_busy (c : Instr) (s : State) : ∃ t, exec c s = .next t ∧
    (t.port.busy = s.port.busy
      ∨ (∃ rest, c = .fetch rest) ∧ (t.port.busy = true → s.port.busy = true)
      ∨ ((transactionOf c).isSome = true ∧ s.port.state.waits = true) ∧ t.port.busy = true
      ∨ touchesReset c = true ∧ t.port.busy = false) := by
  cases hc : transactionOf c with
  | some x =>
    obtain ⟨t, hx, hkept | ⟨hset, hw⟩ | hreset⟩ := exec_busy_of_transaction hc s
    · exact ⟨t, hx, .inl hkept⟩
    · exact ⟨t, hx, .inr (.inr (.inl ⟨⟨rfl, hw⟩, hset⟩))⟩
    · exact ⟨t, hx, .inr (.inr (.inr hreset))⟩
  | none =>
    by_cases hf : ∃ rest, c = .fetch rest
    · obtain ⟨rest, rfl⟩ := hf
      obtain ⟨t, hx, hb⟩ := exec_fetch_busy rest s
      exact ⟨t, hx, .inr (.inl ⟨⟨rest, rfl⟩, hb⟩)⟩
    · cases hr : touchesReset c with
      | true =>
        obtain ⟨t, hx, hb⟩ := exec_busy_of_reset s hc hr
        exact ⟨t, hx, hb.imp_right fun hclear => .inr (.inr ⟨rfl, hclear⟩)⟩
      | false =>
        obtain ⟨t, hx, hb⟩ := exec_busy_kept s hc (fun rest he => hf ⟨rest, he⟩) hr
        exact ⟨t, hx, .inl hb⟩

/-- Settles O2: each clause over all rows is a reading of `exec_busy`. -/
theorem refusedBusyFlag : Obligations.RefusedBusyFlag := by
  unfold Obligations.RefusedBusyFlag
  refine ⟨fun c x s w hc hs hw => ?_, fun rest s x hhold hx hf => ⟨_, exec_fetch rest hhold hx hf, rfl⟩,
    fun c s t hx hset hclear => ?_, fun c s t hx hclear hset => ?_, fun s => ⟨_, exec_pinReset s, rfl⟩,
    fun s => ⟨_, exec_powerOnReset s, rfl⟩, fun s f ha => ⟨_, exec_restart_eq_judged f s, ?_⟩⟩
  · refine ⟨s.slot1Word, ?_, fun y hy => by rw [State.slot1Word, hy]⟩
    rw [exec_of_arrival hc (arrival_of_wait hs hw _) (by simp) s, State.judged, State.refuseBusy_eq, State.portAfter, hw]
  · obtain ⟨u, hu, hb⟩ := exec_busy c s
    obtain rfl := Host.Outcome.next.inj (hx.symm.trans hu)
    rcases hb with hkept | ⟨hfetch, -⟩ | ⟨-, hsets⟩ | ⟨hreset, -⟩
    · simp [hkept, hset] at hclear
    · exact .inl hfetch
    · simp [hsets] at hclear
    · exact .inr hreset
  · obtain ⟨u, hu, hb⟩ := exec_busy c s
    obtain rfl := Host.Outcome.next.inj (hx.symm.trans hu)
    rcases hb with hkept | ⟨-, hfetch⟩ | ⟨hrefused, -⟩ | ⟨-, hclears⟩
    · simp [hkept, hclear] at hset
    · simp [hfetch hset] at hclear
    · exact hrefused
    · simp [hclears] at hset
  · rw [arrival_of_accepts ha]
    rfl

end Sys2Proof.Machine
end

section
/-! The status word, the fetch and the end of a fetch (R152, R156, Table 72). -/

namespace Sys2Proof.Machine

/-! ### The status word (Table 72) -/

theorem PortState.code_le (p : PortState) : p.code ≤ 2 := by cases p <;> simp [PortState.code]

section

variable {s : State}

/-- The fields of the status word, for a response that fits the buffer. -/
theorem State.statusWord_fields (h : s.port.state.words ≤ 24) :
    (s.statusWord.extractLsb' 14 2).toNat = s.port.state.code
      ∧ s.statusWord.getLsbD 13 = s.port.busy
      ∧ s.statusWord.getLsbD 12 = s.attn
      ∧ s.statusWord.extractLsb' 5 7 = 0
      ∧ (s.statusWord.extractLsb' 0 5).toNat = s.port.state.words := by
  have hcode := s.port.state.code_le
  obtain ⟨n, hword, hn⟩ : ∃ n, s.statusWord = w16 n
      ∧ n = s.port.state.code * 16384 + s.port.busy.toNat * 8192 + s.attn.toNat * 4096 + s.port.state.words := by
    refine ⟨_, ?_, rfl⟩
    unfold State.statusWord
    cases s.port.busy <;> cases s.attn <;> rfl
  have hbusy := Bool.toNat_le s.port.busy
  have hattn := Bool.toNat_le s.attn
  have hlt : n < 65536 := by omega
  rw [hword]
  refine ⟨?_, w16_bit_eq hlt 13 (by omega), w16_bit_eq hlt 12 (by omega), w16_extract_zero hlt (by omega), ?_⟩
  all_goals
    rw [w16_extract hlt]
    omega

/-! ### The rows of a fetch -/

theorem exec_transactionBegin (hs : s.hold = none) : exec .transactionBegin s = .next { s with
    port := { s.port with csLow := true, txn := some ⟨s.statusWord, false⟩, out := [s.statusWord] } } :=
  congrArg Host.Outcome.next (if_neg (by simp [hs]))

theorem statusReady_iff (w : Word16) : statusReady w = true ↔ w.extractLsb' 14 2 = 2#2 := beq_iff_eq

theorem State.fetchSlot1_eq (s : State) (x : Txn) : s.fetchSlot1 x = { s with port := { s.port with
    txn := some { x with fetch := true }
    busy := s.port.busy && !x.status.getLsbD 13
    out := x.status :: (if x.status.extractLsb' 14 2 = 2#2 then s.port.state.response else []) } } := by
  simp only [← statusReady_iff]
  rfl

/-- A fetch is complete when it latched READY and the slot of the last response word ended (R156). -/
theorem Txn.complete_iff (x : Txn) (slots : Nat) : x.complete slots = true ↔
    x.fetch = true ∧ x.status.extractLsb' 14 2 = 2#2 ∧ (x.status.extractLsb' 0 5).toNat + 1 ≤ slots := by
  simp only [Txn.complete, Bool.and_eq_true, decide_eq_true_eq, statusReady_iff, and_assoc]
  rfl

theorem exec_fetchComplete {x : Txn} (slots : Nat) (hx : s.port.txn = some x) :
    exec (.fetchComplete slots) s = .next { s with port := { s.port with
      csLow := false
      txn := none
      state := if x.fetch = true ∧ x.status.extractLsb' 14 2 = 2#2 ∧ (x.status.extractLsb' 0 5).toNat + 1 ≤ slots
        then .none else s.port.state } } := by
  simp only [exec, execFetchComplete, hx, ← Txn.complete_iff]
  split <;> rfl

/-- A whole fetch of a response: the status word and the response are shifted out, and the buffer is emptied once the last
word's slot has ended. -/
theorem State.runs_fetch {r : List Word16} (rest : Byte) (slots : Nat) (hs : s.hold = none) (hr : s.port.state = .ready r)
    (hlen : r.length ≤ 24) : ∃ t, s.runs [.transactionBegin, .fetch rest, .fetchComplete slots] = .next t
      ∧ t.port.out = s.statusWord :: r ∧ t.port.state = (if r.length + 1 ≤ slots then .none else .ready r) := by
  have hwords : s.port.state.words = r.length := by rw [hr]; rfl
  obtain ⟨hcode, -, -, -, hcount⟩ := s.statusWord_fields (hwords.trans_le hlen)
  have hready : s.statusWord.extractLsb' 14 2 = 2#2 := BitVec.eq_of_toNat_eq (by rw [hcode, hr]; rfl)
  have hresponse : s.port.state.response = r := by rw [hr]; rfl
  refine ⟨_, State.runs_three (exec_transactionBegin hs) ((exec_fetch rest (by exact hs) (by rfl) (by rfl)).trans
    (congrArg _ (State.fetchSlot1_eq _ _))) (exec_fetchComplete slots (by rfl)), ?_, ?_⟩
  · simp only [hready, if_true, hresponse]
  · simp only [hready, hcount, hwords, true_and]
    rw [hr]

end

/-- Settles O4. -/
theorem fetchShiftsOutAndEmptiesTheBuffer : Obligations.FetchShiftsOutAndEmptiesTheBuffer := by
  unfold Obligations.FetchShiftsOutAndEmptiesTheBuffer
  exact ⟨fun s hs h => ⟨s.statusWord, exec_transactionBegin hs, State.statusWord_fields h⟩,
    fun rest s x hs hx hf => (exec_fetch rest hs hx hf).trans (congrArg _ (s.fetchSlot1_eq x)),
    fun slots s x hx => exec_fetchComplete slots hx,
    fun rest slots s r hs hr hlen => State.runs_fetch rest slots hs hr hlen⟩

end Sys2Proof.Machine
end

section
/-! The stored settings block: a store, its completion, and what a later reset loads from it (R167, R170, R171). -/

namespace Sys2Proof.Machine

/-! ### The stored block at a settings load (R171) -/

/-- A block that passes gives back values within their ranges as they were stored. -/
theorem Stored.load_of_passes {b : Stored} (hp : b.passes = true) (hr : b.values.InRange) : b.load = b.values := by
  rw [Stored.load, if_pos hp, Settings.clamp_of_inRange hr]

theorem Stored.load_of_fails {b : Stored} (hp : b.passes = false) : b.load = defaultSettings := by
  simp [Stored.load, hp]

section

variable {s : State} {f : Frame}

/-- A whole pin reset leaves the working copy that the stored block gives, and SETTINGS_DEFAULTED alone pending where the
block fails its check. -/
theorem State.runs_wholePinReset (hs : s.hold = none) :
    ∃ t, s.runs [.pinReset, .resetnRise, .settingsLoadCompletion] = .next t
      ∧ t.settings = s.stored.load ∧ t.events.pending = (if s.stored.passes then 0 else 0x100) := by
  have hpin : exec .pinReset s = .next (s.inReset ⟨false, true, false, s.events.cause⟩) := by
    rw [exec_pinReset, State.conditions_of_none hs]
  exact ⟨_, (State.runs_cons hpin _).trans ((State.runs_resetnRise rfl rfl _).trans (State.runs_load rfl rfl)), rfl, rfl⟩

/-! ### The store (R170) -/

/-- The part while a store is in progress: the block holds the working copy and fails its check, and the port waits. -/
def State.storing (s : State) : State := { s with
  stored := ⟨s.settings, false⟩
  port := s.portAfter (.wait .store) }

theorem exec_storeSettings (ha : s.Accepts f 0) : exec (.storeSettings f) s = .next s.storing :=
  congrArg Host.Outcome.next (timed_of_accepts ha)

/-- The part once the cells have been read back: the block passes or fails as they held, and the verify indicator says it. -/
def State.verified (s : State) (held : Bool) : State := { s with
  stored := { s.stored with passes := held }
  port := { s.port with state := .ready [echoed 0x1B .ok, w16 held.toNat] } }

theorem exec_storeCompletion (held : Bool) (hs : s.hold = none) (hp : s.port.state = .wait .store) :
    exec (.storeCompletion held) s = .next (s.verified held) := by
  have hdue : (s.port.state == .wait .store) = true := beq_iff_eq.2 hp
  simp only [exec, execStoreCompletion, exec_of_not_held hs, State.whenDue, hdue, if_true, State.completeStore,
    State.answer_eq, resultWord_eq_echoed]
  rfl

/-- The verify indicator as a word: 1 where the block passes (R170). -/
theorem verifyWord_eq (held : Bool) : w16 held.toNat = if held then 1 else 0 := by cases held <;> rfl

/-! ### A store and a later reset -/

/-- After a completed store the reset gives back the working copy that was stored, or, where the cells did not hold, the
defaults. -/
theorem State.runs_store_reset (held : Bool) (ha : s.Accepts f 0) (hr : s.settings.InRange) :
    ∃ t, s.runs [.storeSettings f, .storeCompletion held, .pinReset, .resetnRise, .settingsLoadCompletion] = .next t
      ∧ t.settings = (if held then s.settings else defaultSettings)
      ∧ t.events.pending = (if held then 0 else 0x100) := by
  have hhold : s.hold = none := ha.1.1
  obtain ⟨t, ht, hloaded, hpending⟩ := State.runs_wholePinReset (s := s.storing.verified held) hhold
  refine ⟨t, ?_, ?_, hpending⟩
  · rw [State.runs_cons (exec_storeSettings ha), State.runs_cons (exec_storeCompletion (s := s.storing) held hhold rfl), ht]
  · cases held with
    | true => exact hloaded.trans (Stored.load_of_passes rfl hr)
    | false => exact hloaded.trans (Stored.load_of_fails rfl)

/-- A reset that meets a store in progress finds the block failing its check, so it loads the defaults. -/
theorem State.runs_store_interrupted (ha : s.Accepts f 0) :
    ∃ t, s.runs [.storeSettings f, .pinReset, .resetnRise, .settingsLoadCompletion] = .next t
      ∧ t.settings = defaultSettings ∧ t.events.pending = 0x100 := by
  have hhold : s.hold = none := ha.1.1
  obtain ⟨t, ht, hloaded, hpending⟩ := State.runs_wholePinReset (s := s.storing) hhold
  exact ⟨t, (State.runs_cons (exec_storeSettings ha) _).trans ht, hloaded.trans (Stored.load_of_fails rfl), hpending⟩

end

/-- Settles O51. -/
theorem storedSettingsComeBackAtAReset : Obligations.StoredSettingsComeBackAtAReset := by
  unfold Obligations.StoredSettingsComeBackAtAReset
  exact ⟨fun s f ha => State.leaves_of_portAfter (exec_storeSettings ha),
    fun s held hs hp => ⟨_, exec_storeCompletion held hs hp, verifyWord_eq held⟩,
    fun s => rfl,
    fun s f held ha hr => State.runs_store_reset held ha hr,
    fun s f ha => State.runs_store_interrupted ha⟩

end Sys2Proof.Machine
end
